-- ==== Sys2Proof/Word.lean ====
section
/-! DEFINITION. The plain data types every other file is written over: bytes, sample words and
indexed storage spaces. -/

namespace Sys2Proof

/-- A byte (R13: u8). -/
abbrev Byte := BitVec 8

/-- A sample (R17) as a pattern of 32 bits, which the configuration's numerics record interprets
(Machine/Numerics.lean); in the spec's format, the binary32 pattern of its value. PRESUMED (log 7). -/
abbrev Sample := BitVec 32

/-- An indexed storage space of R60: pairs of an index and its element, indices strictly rising
(`Memory.wf`). An index that is not listed holds no value (R44). -/
abbrev Memory (α : Type) := List (Nat × α)

end Sys2Proof
end

