-- ==== Sys2Proof/Machine/Memory.lean ====
section
/-! DEFINITION. The named operations over an indexed storage space: `MemRead` and `MemWrite` of R14
over the spaces of R60. -/

namespace Sys2Proof

/-- The one form a space has: indices strictly rising. -/
abbrev Memory.wf {α : Type} (m : Memory α) : Prop := m.Pairwise fun a b => a.1 < b.1

/-- `MemRead(space, i)`; `none` where the index holds no value (R44). -/
def Memory.get {α : Type} : Memory α → Nat → Option α
  | [], _ => none
  | (k, v) :: m, i => if i = k then some v else Memory.get m i

/-- `MemWrite(space, i, v)`. -/
def Memory.set {α : Type} : Memory α → Nat → α → Memory α
  | [], i, v => [(i, v)]
  | (k, w) :: m, i, v =>
    if i < k then (i, v) :: (k, w) :: m
    else if i = k then (i, v) :: m
    else (k, w) :: Memory.set m i v

/-- The element at `i` is destroyed (R36). -/
def Memory.erase {α : Type} : Memory α → Nat → Memory α
  | [], _ => []
  | (k, w) :: m, i => if i = k then m else (k, w) :: Memory.erase m i

/-- A space that holds a list's elements from index `n` on. -/
def Memory.ofListFrom {α : Type} : Nat → List α → Memory α
  | _, [] => []
  | n, a :: l => (n, a) :: Memory.ofListFrom (n + 1) l

/-- A space that holds a list's elements at 0, 1, ... -/
def Memory.ofList {α : Type} (l : List α) : Memory α := Memory.ofListFrom 0 l

/-- The `n` elements from `lo` on; `none` where one of them holds no value. -/
def Memory.range {α : Type} (m : Memory α) : Nat → Nat → Option (List α)
  | _, 0 => some []
  | lo, n + 1 =>
    match m.get lo, Memory.range m (lo + 1) n with
    | some a, some l => some (a :: l)
    | _, _ => none

/-- The elements in index order (R237: "in ascending order"). -/
def Memory.elems {α : Type} (m : Memory α) : List α := m.map Prod.snd

/-- The cells `0 .. n-1` hold values. -/
def Memory.heldBelow {α : Type} (m : Memory α) (n : Nat) : Bool :=
  (List.range n).all fun i => (m.get i).isSome

end Sys2Proof
end

