-- ==== Sys2Proof/Config.lean ====
section
/-! DEFINITION. The configuration registers of R9 and R21, the fixed constants of R9 and R10, and the
values the spec leaves free. -/

namespace Sys2Proof

/-- Which of the two peers this instance is (R9, R92). -/
inductive Node where
  | a
  | b
deriving DecidableEq, Repr

/-- A configuration register whose value R9 fixes at `n`: it can hold no other. -/
structure Fixed (n : Nat) where
deriving DecidableEq, Repr

/-- The value of such a register. -/
def Fixed.val {n : Nat} (_ : Fixed n) : Nat := n

/-- `SAMPLE_FMT` (R9, R17, D17): names the numerics record (`SampleFmt.numerics`, Machine/Numerics.lean).
`other n` stands for every other record over the same patterns. Log 7. -/
inductive SampleFmt where
  | binary32
  | other (n : Nat)
deriving DecidableEq, Repr

/-- The CRC function as a parameter (R182, D3, U4): names the function `Config.crc` (Machine/Codec.lean).
`other n` stands for every other function. Log 8. -/
inductive CrcFn where
  | isoHdlc
  | other (n : Nat)
deriving DecidableEq, Repr

/-- The parameters of R9 and the CRC function of R182, each held in a read-only configuration register
(R21). OPEN parameters take any value; the constraints of R282 are `Config.Admissible` (Safety.lean), a
hypothesis and no check of the block (log 6). -/
structure Config where
  /-- `NODE` -/
  node : Node
  /-- `K`, samples per symbol period -/
  k : Nat
  /-- `P`, preamble length in bits -/
  p : Nat
  /-- `PRE[0..P-1]`, first transmitted first -/
  pre : List Bool
  /-- `A1`, amplitude of a 1 bit -/
  a1 : Sample
  /-- `A0`, amplitude of a 0 bit -/
  a0 : Sample
  /-- `W[0..K-1]`, weights of the preamble comparator -/
  w : List Sample
  /-- `SYNC_THETA` -/
  syncTheta : Sample
  /-- `MAX_BODY`, in bytes -/
  maxBody : Nat
  /-- `NOISE_TH` -/
  noiseTh : Sample
  /-- `BLK`, samples per audio period and direction -/
  blk : Nat
  /-- `WINDOW_SIZE` -/
  windowSize : Nat
  /-- `RETRY_MAX` -/
  retryMax : Nat
  /-- `RTO`, in ticks -/
  rto : Nat
  /-- `IN_DEPTH` -/
  inDepth : Nat
  /-- `OUT_DEPTH` -/
  outDepth : Nat
  /-- `FQ_DEPTH` -/
  fqDepth : Nat
  /-- `SAMPLE_FMT` -/
  sampleFmt : SampleFmt := .binary32
  /-- The CRC function (R182) -/
  crcFn : CrcFn := .isoHdlc
  /-- `LEN_W` -/
  lenW : Fixed 16 := {}
  /-- `SEQ_W` -/
  seqW : Fixed 16 := {}
  /-- `CRC_W` -/
  crcW : Fixed 32 := {}
  /-- `SENT_LEN` -/
  sentLen : Fixed 2 := {}
  /-- `TIME_W` -/
  timeW : Fixed 32 := {}
deriving DecidableEq, Repr

/-- `PK = P * K` (R10). -/
def Config.pk (c : Config) : Nat := c.p * c.k

/-- `HDR_BITS = LEN_W + SEQ_W` (R10). -/
def Config.hdrBits (c : Config) : Nat := c.lenW.val + c.seqW.val

/-- `SEQ_MAX = 2^(SEQ_W-1) - 1` (R10). -/
def Config.seqMax (c : Config) : Nat := 2 ^ (c.seqW.val - 1) - 1

/-- `PAYLOAD_MAX = SEQ_MAX * MAX_BODY` (R10). -/
def Config.payloadMax (c : Config) : Nat := c.seqMax * c.maxBody

/-- The configuration of the reset state: the test configuration TC0 (D40) with MAX_BODY 40,
WINDOW_SIZE 2, RTO 1500, RETRY_MAX 3 and depths that meet R282 and R304. DESIGN CHOICE, unsafe (log 5). -/
def Config.tc0 : Config where
  node := .a
  k := 4
  p := 7
  pre := [true, true, true, false, false, true, false]
  a1 := 0x3F800000#32
  a0 := 0#32
  w := [0x3F800000#32, 0x3F800000#32, 0x3F800000#32, 0x3F800000#32]
  syncTheta := 0#32
  maxBody := 40
  noiseTh := 0x3E800000#32
  blk := 4
  windowSize := 2
  retryMax := 3
  rto := 1500
  inDepth := 64
  outDepth := 3128
  fqDepth := 6

/-- FREE VALUE: the sign and the 22 low fraction bits of the quiet NaN that an addition produces, as a
function of its operands (R17 assumes of the numerics only that it is a function of them). Log 7. -/
opaque Config.addNaN : Sample → Sample → BitVec 23

/-- FREE VALUE: the same for a multiplication. Log 7. -/
opaque Config.mulNaN : Sample → Sample → BitVec 23

/-! OPEN parameter (R9, R17): the functions of the numerics records other than binary32, of which nothing is
assumed but that they are functions of their operands. Log 7. -/

opaque Config.otherAdd : Nat → Sample → Sample → Sample
opaque Config.otherMul : Nat → Sample → Sample → Sample
opaque Config.otherAbs : Nat → Sample → Sample
opaque Config.otherGt : Nat → Sample → Sample → Bool
opaque Config.otherZero : Nat → Sample
opaque Config.otherFinite : Nat → Sample → Bool

/-- OPEN parameter (R182, U4): the CRC functions other than ISO-HDLC. Log 8. -/
opaque Config.otherCrc : Nat → List Byte → BitVec 32

/-- FREE VALUE: `RETRIES` after a resend's continuation that finds 0 there, for which R212 states no result.
Applied to the model's counter `frees`. Log 21. -/
opaque Config.freeRetries : Nat → Nat

/-- FREE VALUE: what a register of `w` bits holds after a rule gives it the number `n` of more than `w` bits,
for which R13 states no result. Log 20. -/
opaque Config.freeRegister : (w n : Nat) → Nat

end Sys2Proof
end

