-- ==== Sys2Proof/Syntax.lean ====
section
/-! DEFINITION. The operations of the block and the frame kinds on the wire: one constructor for each
row of spec/opcode_table.json (R18, R94, R98), with the operands the table gives the row. -/

namespace Sys2Proof

/-- The agents that may hold a queue's lock (R40, R122). -/
inductive Agent where
  | ab
  | dem
  | arq
deriving DecidableEq, Repr

/-- The three locked queues (R40). -/
inductive QueueId where
  | inq
  | outq
  | fq
deriving DecidableEq, Repr

/-- A frame record `{length: u16, sequence: s16, body: bytes}` (R16, R93). `seq` is the two's-complement
pattern of the sequence number (R92). -/
structure Frame where
  len  : BitVec 16
  seq  : BitVec 16
  body : List Byte
deriving DecidableEq, Repr

/-- An element together with the queue it is pushed to: `Q.PUSH(Q, v)` (R125), each queue with its own
element type (R60). -/
inductive QElem where
  | inq  (x : Sample)
  | outq (x : Sample)
  | fq   (f : Frame)
deriving DecidableEq, Repr

/-- The instructions. Names are the table's mnemonics, lower camel case. -/
inductive Instr where
  -- host commands and timebase (R256 to R260, R269)
  | hReset
  | hTransmit (payload : List Byte)
  | hReceive
  | hStop
  | hStatus
  | tbTick
  -- audio boundary and queues (R122, R123, R125, R128 to R131)
  | abPeriod (xs : List Sample)
  | abIn (x : Sample)
  | abOut
  | qAcq (q : QueueId) (a : Agent)
  | qRel (q : QueueId) (a : Agent)
  | qPush (v : QElem)
  | qPop (q : QueueId)
  -- modulator (R141 to R146)
  | modSend (f : Frame)
  | modWaitq
  | modEmit
  | modDrain
  | modBits (b : List Bool)
  -- demodulator (R155 to R167)
  | demStep
  | demSearch (x : Sample)
  | demCorr
  | demSlice (x : Sample)
  | demHeader (x : Sample)
  | demBody (x : Sample)
  | demCrc (x : Sample)
  | demEmit
  | demDiscard
  -- frame codec (R181 to R184)
  | fcPack (len seq : BitVec 16) (body : List Byte)
  | fcCrc32 (len seq : BitVec 16) (body : List Byte)
  | fcEncode (f : Frame)
  | fcDecode (b : List Bool)
  -- channel sensor (R196)
  | csEval
  -- ARQ sender (R208 to R217)
  | txStart
  | txSent0
  | txLoop
  | txDrain
  | txSlide
  | txRetx
  | txNew
  | txFin
  | txAbort
  | txStop
  -- ARQ receiver (R231 to R238)
  | rxStart
  | rxPop
  | rxSent (f : Frame)
  | rxData (f : Frame)
  | rxEcho (f : Frame)
  | rxOther (f : Frame)
  | rxDone
  | rxStop
  -- frames on the wire, with the CRC field as received (R90, R94); LENGTH is the length of the body
  | fSent (n : BitVec 16) (crc : BitVec 32)
  | fAck (seq : BitVec 16) (crc : BitVec 32)
  | fData (seq : BitVec 16) (body : List Byte) (crc : BitVec 32)
  | fRsv (seq : BitVec 16) (body : List Byte) (crc : BitVec 32)
deriving DecidableEq, Repr

/-- What one slot of the schedule holds: the bytes of an operation (its code of R98 and its operands),
or the bytes of a frame on the wire after its preamble (R90). DESIGN CHOICE (log 2). -/
inductive Packet where
  | op   (bytes : List Byte)
  | wire (bytes : List Byte)
deriving DecidableEq, Repr

end Sys2Proof
end

