-- ==== Sys2Proof/Decode.lean ====
section
/-! DEFINITION. From the bytes of a schedule slot to an instruction, and back.

Operations carry the 8-bit code of R98 first. The spec gives no layout for their operands: the layout here
is the model's (DESIGN CHOICE, log 2): multi-byte numbers most significant byte first, a byte or bit
string behind a 32-bit count, one byte a bit, a queue and an agent as one byte each. Frames follow R90,
R64: LENGTH, SEQUENCE, BODY, CRC, most significant byte first. -/

namespace Sys2Proof

/-- Why a packet is no instruction. -/
inductive DecodeError where
  /-- The slot holds no byte. -/
  | emptyPacket
  /-- The code is none of R98's. -/
  | unknownCode (code : Byte)
  /-- The bytes end before the operands do. -/
  | truncated
  /-- The byte names no queue. -/
  | badQueue (b : Byte)
  /-- The byte names no agent. -/
  | badAgent (b : Byte)
  /-- The byte of a bit string is neither 0 nor 1. -/
  | badBit (b : Byte)
  /-- A header whose LENGTH exceeds `MAX_BODY`: of none of the four kinds (R94, R105 and the rows' constraints).
  What the block does with it is R101's. -/
  | overlong (len seq : BitVec 16)
deriving DecidableEq, Repr

/-- What a reader of operands answers: its value and the bytes left. -/
abbrev Read (α : Type) := Except DecodeError (α × List Byte)

/-- One reader after the other. -/
def Read.andThen {α β : Type} (r : Read α) (f : α → List Byte → Read β) : Read β :=
  match r with
  | .ok (a, l) => f a l
  | .error e => .error e

/-! ### Reading operands -/

/-- The first `n` elements and the rest. -/
def takeN {α : Type} : Nat → List α → Option (List α × List α)
  | 0, l => some ([], l)
  | _ + 1, [] => none
  | n + 1, a :: l => (takeN n l).map fun r => (a :: r.1, r.2)

def readN (n : Nat) (l : List Byte) : Read (List Byte) :=
  match takeN n l with
  | some r => .ok r
  | none => .error .truncated

/-- A 16-bit number, most significant byte first (R65). -/
def read16 : List Byte → Read (BitVec 16)
  | a :: b :: l => .ok (a ++ b, l)
  | _ => .error .truncated

/-- A 32-bit number, most significant byte first. -/
def read32 : List Byte → Read (BitVec 32)
  | a :: b :: c :: d :: l => .ok (a ++ b ++ c ++ d, l)
  | _ => .error .truncated

/-- A byte string behind its 32-bit count. -/
def readBytes (l : List Byte) : Read (List Byte) :=
  (read32 l).andThen fun n l => readN n.toNat l

def bitsOfBytes : List Byte → Except DecodeError (List Bool)
  | [] => .ok []
  | b :: l =>
    if b = 0#8 then (bitsOfBytes l).map (false :: ·)
    else if b = 1#8 then (bitsOfBytes l).map (true :: ·)
    else .error (.badBit b)

/-- A bit string behind its 32-bit count, one byte a bit. -/
def readBits (l : List Byte) : Read (List Bool) :=
  (readBytes l).andThen fun bytes l => (bitsOfBytes bytes).map (·, l)

/-- `n` samples. -/
def readSamples : Nat → List Byte → Read (List Sample)
  | 0, l => .ok ([], l)
  | n + 1, l =>
    (read32 l).andThen fun x l => (readSamples n l).andThen fun xs l => .ok (x :: xs, l)

def readQueue : List Byte → Read QueueId
  | [] => .error .truncated
  | b :: l =>
    if b = 0#8 then .ok (.inq, l)
    else if b = 1#8 then .ok (.outq, l)
    else if b = 2#8 then .ok (.fq, l)
    else .error (.badQueue b)

def readAgent : List Byte → Read Agent
  | [] => .error .truncated
  | b :: l =>
    if b = 0#8 then .ok (.ab, l)
    else if b = 1#8 then .ok (.dem, l)
    else if b = 2#8 then .ok (.arq, l)
    else .error (.badAgent b)

def readFrame (l : List Byte) : Read Frame :=
  (read16 l).andThen fun len l =>
  (read16 l).andThen fun seq l =>
  (readBytes l).andThen fun body l => .ok ({ len, seq, body }, l)

def readElem (l : List Byte) : Read QElem :=
  (readQueue l).andThen fun q l =>
    match q with
    | .inq => (read32 l).andThen fun x l => .ok (.inq x, l)
    | .outq => (read32 l).andThen fun x l => .ok (.outq x, l)
    | .fq => (readFrame l).andThen fun f l => .ok (.fq f, l)

/-- A last operand, into a constructor. -/
def operand {α : Type} (r : Read α) (f : α → Instr) : Read Instr :=
  r.andThen fun a l => .ok (f a, l)

/-- Queue and agent (R122, R123). -/
def readGate (f : QueueId → Agent → Instr) (l : List Byte) : Read Instr :=
  (readQueue l).andThen fun q l => operand (readAgent l) (f q)

/-- `len`, `seq`, `body` (R181, R182). -/
def readFields (f : BitVec 16 → BitVec 16 → List Byte → Instr) (l : List Byte) : Read Instr :=
  (read16 l).andThen fun len l =>
  (read16 l).andThen fun seq l => operand (readBytes l) (f len seq)

/-! ### Operations: the code table of R98, one unit a high nibble -/

def decodeHost (l : List Byte) : Nat → Option (Read Instr)
  | 0x0 => some (.ok (.hReset, l))
  | 0x1 => some (operand (readBytes l) .hTransmit)
  | 0x2 => some (.ok (.hReceive, l))
  | 0x3 => some (.ok (.hStop, l))
  | 0x4 => some (.ok (.hStatus, l))
  | 0x8 => some (.ok (.tbTick, l))
  | _ => none

def decodeFifo (blk : Nat) (l : List Byte) : Nat → Option (Read Instr)
  | 0x0 => some (operand (readSamples blk l) .abPeriod)
  | 0x1 => some (operand (read32 l) .abIn)
  | 0x2 => some (.ok (.abOut, l))
  | 0x3 => some (readGate .qAcq l)
  | 0x4 => some (readGate .qRel l)
  | 0x5 => some (operand (readElem l) .qPush)
  | 0x6 => some (operand (readQueue l) .qPop)
  | _ => none

def decodeModulator (l : List Byte) : Nat → Option (Read Instr)
  | 0x0 => some (operand (readFrame l) .modSend)
  | 0x1 => some (.ok (.modWaitq, l))
  | 0x2 => some (.ok (.modEmit, l))
  | 0x3 => some (.ok (.modDrain, l))
  | 0x4 => some (operand (readBits l) .modBits)
  | _ => none

def decodeDemodulator (l : List Byte) : Nat → Option (Read Instr)
  | 0x0 => some (.ok (.demStep, l))
  | 0x1 => some (operand (read32 l) .demSearch)
  | 0x2 => some (.ok (.demCorr, l))
  | 0x3 => some (operand (read32 l) .demSlice)
  | 0x4 => some (operand (read32 l) .demHeader)
  | 0x5 => some (operand (read32 l) .demBody)
  | 0x6 => some (operand (read32 l) .demCrc)
  | 0x7 => some (.ok (.demEmit, l))
  | 0x8 => some (.ok (.demDiscard, l))
  | _ => none

def decodeCodec (l : List Byte) : Nat → Option (Read Instr)
  | 0x0 => some (readFields .fcPack l)
  | 0x1 => some (readFields .fcCrc32 l)
  | 0x2 => some (operand (readFrame l) .fcEncode)
  | 0x3 => some (operand (readBits l) .fcDecode)
  | _ => none

def decodeSensor (l : List Byte) : Nat → Option (Read Instr)
  | 0x0 => some (.ok (.csEval, l))
  | _ => none

def decodeSender (l : List Byte) : Nat → Option (Read Instr)
  | 0x0 => some (.ok (.txStart, l))
  | 0x1 => some (.ok (.txSent0, l))
  | 0x2 => some (.ok (.txLoop, l))
  | 0x3 => some (.ok (.txDrain, l))
  | 0x4 => some (.ok (.txSlide, l))
  | 0x5 => some (.ok (.txRetx, l))
  | 0x6 => some (.ok (.txNew, l))
  | 0x7 => some (.ok (.txFin, l))
  | 0x8 => some (.ok (.txAbort, l))
  | 0x9 => some (.ok (.txStop, l))
  | _ => none

def decodeReceiver (l : List Byte) : Nat → Option (Read Instr)
  | 0x0 => some (.ok (.rxStart, l))
  | 0x1 => some (.ok (.rxPop, l))
  | 0x2 => some (operand (readFrame l) .rxSent)
  | 0x3 => some (operand (readFrame l) .rxData)
  | 0x4 => some (operand (readFrame l) .rxEcho)
  | 0x5 => some (operand (readFrame l) .rxOther)
  | 0x6 => some (.ok (.rxDone, l))
  | 0x7 => some (.ok (.rxStop, l))
  | _ => none

/-- The unit of a code's high nibble and, in it, the operation of its low nibble (R98). -/
def decodeCode (blk : Nat) (code : Byte) (l : List Byte) : Option (Read Instr) :=
  let low := code.toNat % 16
  match code.toNat / 16 with
  | 0 => decodeHost l low
  | 1 => decodeFifo blk l low
  | 2 => decodeModulator l low
  | 3 => decodeDemodulator l low
  | 4 => decodeCodec l low
  | 5 => decodeSensor l low
  | 6 => decodeSender l low
  | 7 => decodeReceiver l low
  | _ => none

/-- An operation and the bytes behind it. `blk` is the width of `AB.PERIOD`'s operand (R131). -/
def decodeOp (blk : Nat) : List Byte → Read Instr
  | [] => .error .emptyPacket
  | code :: l =>
    match decodeCode blk code l with
    | some r => r
    | none => .error (.unknownCode code)

/-! ### Frames on the wire -/

/-- The kinds of a frame (R94). -/
inductive FrameKind where
  | sent
  | rsv
  | ack
  | data
deriving DecidableEq, Repr

/-- The kind of a header, in the order of R94's tests, with the constraints of R105 and of the table's rows. A
LENGTH above `MAX_BODY` is tested first, as the demodulator does (R101): such a header is of no kind. -/
def frameKind (c : Config) (len seq : BitVec 16) : Option FrameKind :=
  if c.maxBody < len.toNat then none
  else if seq = 0#16 ∧ len.toNat = c.sentLen.val then some .sent
  else if seq = 0#16 ∨ seq = 0x8000#16 then some .rsv
  else if len = 0#16 then some .ack
  else some .data

/-- The instruction of a frame of the kind (R94, R96). -/
def wireInstr (k : FrameKind) (seq : BitVec 16) (body : List Byte) (crc : BitVec 32) : Instr :=
  match k with
  | .sent => .fSent (body.getD 0 0#8 ++ body.getD 1 0#8) crc
  | .rsv => .fRsv seq body crc
  | .ack => .fAck seq crc
  | .data => .fData seq body crc

/-- A frame after its preamble: 32 header bits, LENGTH bytes of body, 32 CRC bits (R90, R97). Of a header of
no kind no body or CRC bit is read (R101). -/
def decodeWire (c : Config) (l : List Byte) : Read Instr :=
  match l with
  | [] => .error .emptyPacket
  | _ =>
    (read16 l).andThen fun len l =>
    (read16 l).andThen fun seq l =>
      match frameKind c len seq with
      | none => .error (.overlong len seq)
      | some k =>
        (readN len.toNat l).andThen fun body l =>
        (read32 l).andThen fun crc l => .ok (wireInstr k seq body crc, l)

/-- The instruction of a schedule slot; bytes behind it are padding. `BLK` is the width of `AB.PERIOD`'s
operand (R131) and `MAX_BODY` bounds a frame (R101, R105). -/
def decode (c : Config) (p : Packet) : Except DecodeError Instr :=
  match p with
  | .op l => (decodeOp c.blk l).map Prod.fst
  | .wire l => (decodeWire c l).map Prod.fst

/-! ### The opcode table's numbers -/

/-- The most significant byte first. -/
def bytes16 (v : BitVec 16) : List Byte := [v.extractLsb' 8 8, v.extractLsb' 0 8]

def bytes32 (v : BitVec 32) : List Byte :=
  [v.extractLsb' 24 8, v.extractLsb' 16 8, v.extractLsb' 8 8, v.extractLsb' 0 8]

/-- The slot of an opcode-table row's word: an 8-bit row is an operation's code with operand bytes of
zeros behind it, a 32-bit row is a frame's header word H of R105 with a body and a CRC of zeros. -/
def tablePacket (blk nbits w : Nat) : Packet :=
  if nbits = 32 then
    let h := BitVec.ofNat 32 w
    .wire (bytes32 h ++ List.replicate ((h.extractLsb' 16 16).toNat + 4) 0#8)
  else .op (BitVec.ofNat 8 w :: List.replicate (4 * blk + 16) 0#8)

/-- The instruction the decoder reads from a row's word, under the reset configuration. -/
def decodeTableWord (nbits w : Nat) : Option Instr :=
  if nbits = 8 ∨ nbits = 32 then
    match decode Config.tc0 (tablePacket Config.tc0.blk nbits w) with
    | .ok i => some i
    | .error _ => none
  else none

/-! ### The encoder, written from the same tables -/

def encBytes (l : List Byte) : List Byte := bytes32 (BitVec.ofNat 32 l.length) ++ l

def encBits (b : List Bool) : List Byte :=
  encBytes (b.map fun bit => if bit then 1#8 else 0#8)

def encSamples (xs : List Sample) : List Byte := (xs.map bytes32).flatten

def encQueue : QueueId → Byte
  | .inq => 0#8
  | .outq => 1#8
  | .fq => 2#8

def encAgent : Agent → Byte
  | .ab => 0#8
  | .dem => 1#8
  | .arq => 2#8

def encFrame (f : Frame) : List Byte := bytes16 f.len ++ bytes16 f.seq ++ encBytes f.body

def encElem : QElem → List Byte
  | .inq x => encQueue .inq :: bytes32 x
  | .outq x => encQueue .outq :: bytes32 x
  | .fq f => encQueue .fq :: encFrame f

/-- A frame on the wire from its fields (R90). -/
def encWire (seq : BitVec 16) (body : List Byte) (crc : BitVec 32) : Packet :=
  .wire (bytes16 (BitVec.ofNat 16 body.length) ++ bytes16 seq ++ body ++ bytes32 crc)

/-- The slot of an instruction: the code of R98 and the operands, or the frame of R90. -/
def encode : Instr → Packet
  | .hReset => .op [0x00#8]
  | .hTransmit payload => .op (0x01#8 :: encBytes payload)
  | .hReceive => .op [0x02#8]
  | .hStop => .op [0x03#8]
  | .hStatus => .op [0x04#8]
  | .tbTick => .op [0x08#8]
  | .abPeriod xs => .op (0x10#8 :: encSamples xs)
  | .abIn x => .op (0x11#8 :: bytes32 x)
  | .abOut => .op [0x12#8]
  | .qAcq q a => .op [0x13#8, encQueue q, encAgent a]
  | .qRel q a => .op [0x14#8, encQueue q, encAgent a]
  | .qPush v => .op (0x15#8 :: encElem v)
  | .qPop q => .op [0x16#8, encQueue q]
  | .modSend f => .op (0x20#8 :: encFrame f)
  | .modWaitq => .op [0x21#8]
  | .modEmit => .op [0x22#8]
  | .modDrain => .op [0x23#8]
  | .modBits b => .op (0x24#8 :: encBits b)
  | .demStep => .op [0x30#8]
  | .demSearch x => .op (0x31#8 :: bytes32 x)
  | .demCorr => .op [0x32#8]
  | .demSlice x => .op (0x33#8 :: bytes32 x)
  | .demHeader x => .op (0x34#8 :: bytes32 x)
  | .demBody x => .op (0x35#8 :: bytes32 x)
  | .demCrc x => .op (0x36#8 :: bytes32 x)
  | .demEmit => .op [0x37#8]
  | .demDiscard => .op [0x38#8]
  | .fcPack len seq body => .op (0x40#8 :: (bytes16 len ++ bytes16 seq ++ encBytes body))
  | .fcCrc32 len seq body => .op (0x41#8 :: (bytes16 len ++ bytes16 seq ++ encBytes body))
  | .fcEncode f => .op (0x42#8 :: encFrame f)
  | .fcDecode b => .op (0x43#8 :: encBits b)
  | .csEval => .op [0x50#8]
  | .txStart => .op [0x60#8]
  | .txSent0 => .op [0x61#8]
  | .txLoop => .op [0x62#8]
  | .txDrain => .op [0x63#8]
  | .txSlide => .op [0x64#8]
  | .txRetx => .op [0x65#8]
  | .txNew => .op [0x66#8]
  | .txFin => .op [0x67#8]
  | .txAbort => .op [0x68#8]
  | .txStop => .op [0x69#8]
  | .rxStart => .op [0x70#8]
  | .rxPop => .op [0x71#8]
  | .rxSent f => .op (0x72#8 :: encFrame f)
  | .rxData f => .op (0x73#8 :: encFrame f)
  | .rxEcho f => .op (0x74#8 :: encFrame f)
  | .rxOther f => .op (0x75#8 :: encFrame f)
  | .rxDone => .op [0x76#8]
  | .rxStop => .op [0x77#8]
  | .fSent n crc => encWire 0#16 (bytes16 n) crc
  | .fAck seq crc => encWire seq [] crc
  | .fData seq body crc => encWire seq body crc
  | .fRsv seq body crc => encWire seq body crc

end Sys2Proof
end

