-- ==== Sys2Proof/Machine/Numerics.lean ====
section
/-! DEFINITION. Sample arithmetic. R17's numerics record (`Numerics`), one for each value of `SAMPLE_FMT`:
IEEE 754 binary32, round to nearest even (PRESUMED: the spec marks the format as general knowledge, D17,
G5; log 7), and every other record, of which nothing is known. In binary32 finite values are exact integers
in units of 2^-149; an operation computes exactly and rounds once. -/

namespace Sys2Proof.Machine

/-- The sign bit. -/
def Binary32.neg (x : Sample) : Bool := x.msb

/-- The pattern without the sign bit: it orders magnitudes. -/
def Binary32.magBits (x : Sample) : Nat := x.toNat % 2 ^ 31

/-- The pattern of an infinity's magnitude. -/
def Binary32.infBits : Nat := 0x7F800000

/-- Neither NaN nor infinity: the values the sample interface admits (R17). -/
def Binary32.isFinite (x : Sample) : Bool := Binary32.magBits x < Binary32.infBits

def Binary32.isInf (x : Sample) : Bool := Binary32.magBits x == Binary32.infBits

def Binary32.isNaN (x : Sample) : Bool := Binary32.infBits < Binary32.magBits x

/-- The magnitude of a finite sample in units of 2^-149. -/
def Binary32.magnitude (x : Sample) : Nat :=
  let e := Binary32.magBits x / 2 ^ 23
  let f := Binary32.magBits x % 2 ^ 23
  if e = 0 then f else (2 ^ 23 + f) * 2 ^ (e - 1)

/-- The exact value of a finite sample in units of 2^-149. -/
def Binary32.value (x : Sample) : Int :=
  if Binary32.neg x then -(Binary32.magnitude x : Int) else (Binary32.magnitude x : Int)

/-- The magnitude pattern nearest to `n` units of `2^-(149 + sc)`, ties to even; past the largest finite
value, infinity. -/
def Binary32.roundBits (n sc : Nat) : Nat :=
  let k := max sc (n.log2 - 23)
  let q := n / 2 ^ k
  let r := n % 2 ^ k
  let up := 2 ^ k < 2 * r || (2 * r == 2 ^ k && q % 2 == 1)
  min ((k - sc) * 2 ^ 23 + (if up then q + 1 else q)) Binary32.infBits

/-- A sign and a magnitude pattern. -/
def Binary32.ofBits (neg : Bool) (mag : Nat) : Sample :=
  BitVec.ofNat 32 (mag + if neg then 2 ^ 31 else 0)

/-- A quiet NaN with a sign and low fraction bits that no rule gives (log 7). -/
def Binary32.quietNaN (free : BitVec 23) : Sample :=
  free.extractLsb' 22 1 ++ 0x1FF#9 ++ free.extractLsb' 0 22

/-- `x + y`. -/
def Binary32.add (x y : Sample) : Sample :=
  if Binary32.isNaN x || Binary32.isNaN y then Binary32.quietNaN (Config.addNaN x y)
  else if Binary32.isInf x then
    if Binary32.isInf y && Binary32.neg x != Binary32.neg y then Binary32.quietNaN (Config.addNaN x y) else x
  else if Binary32.isInf y then y
  else
    let z := Binary32.value x + Binary32.value y
    if z = 0 then Binary32.ofBits (Binary32.neg x && Binary32.neg y) 0
    else Binary32.ofBits (z < 0) (Binary32.roundBits z.natAbs 0)

/-- `x * y`. -/
def Binary32.mul (x y : Sample) : Sample :=
  let sign := Binary32.neg x != Binary32.neg y
  if Binary32.isNaN x || Binary32.isNaN y then Binary32.quietNaN (Config.mulNaN x y)
  else if Binary32.isInf x || Binary32.isInf y then
    if Binary32.magBits x = 0 || Binary32.magBits y = 0 then Binary32.quietNaN (Config.mulNaN x y)
    else Binary32.ofBits sign Binary32.infBits
  else Binary32.ofBits sign (Binary32.roundBits (Binary32.magnitude x * Binary32.magnitude y) 149)

/-- `abs(x)`. -/
def Binary32.abs (x : Sample) : Sample := BitVec.ofNat 32 (Binary32.magBits x)

/-- A key that orders the non-NaN samples as their values; both zeros are 0. -/
def Binary32.key (x : Sample) : Int :=
  if Binary32.neg x then -(Binary32.magBits x : Int) else (Binary32.magBits x : Int)

/-- `x > y`; false where one is a NaN. -/
def Binary32.gt (x y : Sample) : Bool :=
  !Binary32.isNaN x && !Binary32.isNaN y && decide (Binary32.key y < Binary32.key x)

end Sys2Proof.Machine

namespace Sys2Proof

/-- The numerics record of R17, with the test for the values that the sample interface admits. -/
structure Numerics where
  add : Sample → Sample → Sample
  mul : Sample → Sample → Sample
  abs : Sample → Sample
  gt : Sample → Sample → Bool
  zero : Sample
  finite : Sample → Bool

/-- The record that a value of `SAMPLE_FMT` names (R9, R17, D17). -/
def SampleFmt.numerics : SampleFmt → Numerics
  | .binary32 =>
    { add := Machine.Binary32.add, mul := Machine.Binary32.mul, abs := Machine.Binary32.abs,
      gt := Machine.Binary32.gt, zero := 0#32, finite := Machine.Binary32.isFinite }
  | .other n =>
    { add := Config.otherAdd n, mul := Config.otherMul n, abs := Config.otherAbs n,
      gt := Config.otherGt n, zero := Config.otherZero n, finite := Config.otherFinite n }

/-- The arithmetic of a configuration. -/
def Config.num (c : Config) : Numerics := c.sampleFmt.numerics

/-- The plain sum, oldest sample first, from 0.0 (R159, R17). -/
def Numerics.sum (n : Numerics) (xs : List Sample) : Sample := xs.foldl n.add n.zero

end Sys2Proof
end

