-- ==== Sys2Proof/Machine/State.lean ====
section
/-! DEFINITION. The state of one block instance (R20), the reasons a step can stop, and the reset
state (R45). -/

namespace Sys2Proof.Machine

/-- `DEM_STATE` (R27). -/
inductive DemState where
  | search
  | header
  | body
  | crc
deriving DecidableEq, Repr

/-- `MOD_PHASE` (R27). -/
inductive ModPhase where
  | idle
  | waitq
  | emit
  | drain
  | done
deriving DecidableEq, Repr

/-- `ARQ_PHASE` (R27). -/
inductive ArqPhase where
  | idle
  | txSent0
  | txLoop
  | txDrain
  | txSlide
  | txRetx
  | txNew
  | txFin
  | rxPop
  | rxAck
deriving DecidableEq, Repr

/-- `ROLE` (R31): 0 sender, 1 receiver. -/
inductive Role where
  | sender
  | receiver
deriving DecidableEq, Repr

/-- `RESULT` (R33). Values 5 to 7 are never produced and have no constructor. -/
inductive CmdResult where
  | none
  | ok
  | linkError
  | stopped
  | rejected
deriving DecidableEq, Repr

/-- An entry of the send window (R36). -/
structure SwEntry where
  acked   : Bool
  sentAt  : BitVec 32
  retries : Nat
deriving DecidableEq, Repr

/-- The events of R250, with the information each records. Nothing raises `spuriousSync` (R251). -/
inductive Event where
  | spuriousSync
  | malformedHeader (len : BitVec 16)
  | crcMismatch
  | ackMismatch (seq : BitVec 16)
  | linkError (m : Nat)
  | inOverflow
  | fqOverflow
deriving DecidableEq, Repr

/-- The result of `FC.DECODE` (R184). -/
inductive DecodeResult where
  | malformed
  | frame (f : Frame) (crcOk : Bool) (used : Nat)
deriving DecidableEq, Repr

/-- What the last value-returning operation answered: the model's own port (log 19). -/
inductive Output where
  | none
  | status (w : BitVec 32)
  | sample (y : Sample)
  | samples (ys : List Sample)
  | frame (f : Frame)
  | bytes (l : List Byte)
  | word (w : BitVec 32)
  | bits (b : List Bool)
  | bit (b : Bool)
  | verdict (b : Bool)
  | decoded (r : DecodeResult)
deriving DecidableEq, Repr

/-- The places whose cells can be without a value (R44), named by a fault that reads one. -/
inductive Place where
  | win
  | rxBody
  | txf
  | txPayload
  | sw
  | frameBody
  | nExp
deriving DecidableEq, Repr

/-- An audio period in progress (R131): the samples still to come in, oldest first, and those already put
out, in order. -/
structure Period where
  ins  : List Sample
  outs : List Sample
deriving DecidableEq, Repr

/-- Who called the `MOD.SEND` in progress: a rule of R141's list, or `MOD.SEND` scheduled alone (log 4). -/
inductive Caller where
  | txSent0
  | txRetx
  | txNew
  | txFin
  | rxData
  | alone
deriving DecidableEq, Repr

/-- The block's state. -/
structure State where
  /-- The configuration registers (R21). -/
  cfg : Config
  /-- `INQ`, head first (R40, R121). -/
  inq : List Sample
  /-- `OUTQ`, head first. -/
  outq : List Sample
  /-- `FQ`, head first. -/
  fq : List Frame
  /-- `LOCK_INQ`, `none` is FREE (R40). -/
  lockInq : Option Agent
  /-- `LOCK_OUTQ` -/
  lockOutq : Option Agent
  /-- `LOCK_FQ` -/
  lockFq : Option Agent
  /-- `DEM_STATE` (R27). -/
  demState : DemState
  /-- `WIN` (R23). -/
  win : Memory Sample
  /-- `WFILL` (R23). -/
  wfill : Nat
  /-- `ACC` (R25). -/
  acc : Sample
  /-- `SCNT` (R25). -/
  scnt : Nat
  /-- `BCNT` (R25). -/
  bcnt : Nat
  /-- `HDR` (R25). -/
  hdr : BitVec 32
  /-- `RX_LEN` (R25). -/
  rxLen : BitVec 16
  /-- `RX_SEQ` (R25). -/
  rxSeq : BitVec 16
  /-- `RX_CUR` (R25). -/
  rxCur : BitVec 8
  /-- `RX_BODY` (R22): the bytes written in the current frame. -/
  rxBody : Memory Byte
  /-- `RX_CRC` (R25). -/
  rxCrc : BitVec 32
  /-- `SH`, oldest first (R24). -/
  sh : List Sample
  /-- `QUIET` (R31). -/
  quiet : Bool
  /-- Where `AB` is in its period: R131 makes the parts of `AB.PERIOD` separate steps (log 14). -/
  period : Option Period
  /-- `TXF` with `TXF_VALID` (R26): `none` is `TXF_VALID = 0`, when `TXF` holds no value (R44). -/
  txf : Option Frame
  /-- `MOD_PHASE` (R27). -/
  modPhase : ModPhase
  /-- The caller of the send in progress, whose continuation R147 enables: the rule that is to return, which the
  spec keeps in no register (log 30). -/
  caller : Option Caller
  /-- `NOW` (R34). -/
  now : BitVec 32
  /-- `ARQ_PHASE` (R27). -/
  arqPhase : ArqPhase
  /-- `BUSY` (R31). -/
  busy : Bool
  /-- `ROLE` (R31). -/
  role : Role
  /-- `STOP_REQ` (R31). -/
  stopReq : Bool
  /-- `RESULT` (R33). -/
  result : CmdResult
  /-- `IN_OVF` (R31). -/
  inOvf : Bool
  /-- `FQ_OVF` (R31). -/
  fqOvf : Bool
  /-- `TX_PAYLOAD` (R39). -/
  txPayload : Memory Byte
  /-- `TX_LEN` (R39). -/
  txLen : Nat
  /-- `N_TX` (R35). -/
  nTx : Nat
  /-- `LAR` (R35). -/
  lar : Nat
  /-- `LFS` (R35). -/
  lfs : Nat
  /-- `SCAN` (R35). -/
  scan : Nat
  /-- `FIN_CNT` (R35). -/
  finCnt : Nat
  /-- `SW` (R36), by magnitude. -/
  sw : Memory SwEntry
  /-- `LFR` (R37). -/
  lfr : Nat
  /-- `N_EXP` (R37). -/
  nExp : Nat
  /-- `COUNT_KNOWN` (R31). -/
  countKnown : Bool
  /-- `RB` (R38), by magnitude. -/
  rb : Memory (List Byte)
  /-- `RX_PAYLOAD` (R39). -/
  rxPayload : Memory Byte
  /-- `RX_PAYLOAD_LEN` (R39). -/
  rxPayloadLen : Nat
  /-- The MODEL's own: what the environment has scheduled, next first (R15, R104; log 1). -/
  sched : List Packet
  /-- The MODEL's own: the event history of R250, oldest first (log 18). -/
  events : List Event
  /-- The MODEL's own: the value last answered (log 19). -/
  out : Output
  /-- The MODEL's own: how many free values of `Config.freeRetries` have been read (log 21). -/
  frees : Nat
deriving DecidableEq, Repr

/-- `TXF_VALID` (R26, R31). -/
def State.txfValid (s : State) : Bool := s.txf.isSome

/-- Why the machine stops. Both are safe: the machine stops where the spec gives no value and no cell. -/
inductive Fault where
  /-- Raised by an operation that reads a cell or an entry that holds no value (R44, U12: "fault"). Safe:
  no agent step of a reachable state reads one. -/
  | noValue (p : Place)
  /-- Raised by a write to a cell that the space does not have: `RX_BODY` has the cells `0..MAX_BODY-1`
  (R22, R60; log 20). Safe: `BODY` is entered only with `RX_LEN <= MAX_BODY` (R162). -/
  | noCell (p : Place)
deriving DecidableEq, Repr

/-- Why an operation is refused. All are safe: the machine stops where a rule says that a model refuses, or
where the operands are outside the domain the rule states (log 24). -/
inductive Refusal where
  /-- Raised by an arm of `exec` that has no meaning yet. Safe. -/
  | notModelled (mnemonic : String)
  /-- Raised by the fetch: the slot's bytes are no instruction (R98). Safe. -/
  | undecodable (e : DecodeError)
  /-- Raised by `AB.IN` and `AB.PERIOD`: a NaN or an infinity at the sample interface (R17, U8). Safe. -/
  | nonFiniteSample
  /-- Raised by `AB.PERIOD` with other than `BLK` samples (R131). Safe. -/
  | wrongSampleCount
  /-- Raised where an agent that holds a lock would acquire one (R122, R75), and where `ARQ` would take a step
  of its sequencer, which may hold, while it holds one (R74, R75, R127; log 11). Safe. -/
  | lockDiscipline
  /-- Raised by `Q.REL`, `Q.PUSH`, `Q.POP` when the acting agent does not hold the lock (R123, R125, R130). Safe. -/
  | lockNotHeld
  /-- Raised by `Q.POP` on an empty queue: it requires `len(Q) > 0` (R130). Safe. -/
  | popEmpty
  /-- Raised by a push that would exceed `OUT_DEPTH` (R145, R262, U10). Safe. -/
  | outqOverflow
  /-- Raised for a frame whose `len` is not its body's length or exceeds `MAX_BODY` (R141, R183). Safe. -/
  | badFrame
  /-- Raised by `FC.PACK` and `FC.CRC32` when the body is not of `len` bytes (R181). Safe. -/
  | bodyLength
  /-- Raised by `FC.DECODE` with fewer bits than it requires (R184, V13 d: "not defined"). Safe. -/
  | tooFewBits
  /-- Raised by `RX.SENT` and `RX.DATA` on a frame outside their stated operands (R233, R234). Safe. -/
  | operandKind
deriving DecidableEq, Repr

/-- The reset state of an instance with configuration `c`, every field as R45 says; the cells R45 leaves
unspecified hold no value (R44, log 9). -/
def State.resetOf (c : Config) : State where
  cfg := c
  inq := []
  outq := []
  fq := []
  lockInq := none
  lockOutq := none
  lockFq := none
  demState := .search
  win := []
  wfill := 0
  acc := c.num.zero
  scnt := 0
  bcnt := 0
  hdr := 0#32
  rxLen := 0#16
  rxSeq := 0#16
  rxCur := 0#8
  rxBody := []
  rxCrc := 0#32
  sh := List.replicate c.pk c.num.zero
  quiet := false
  period := none
  txf := none
  modPhase := .idle
  caller := none
  now := 0#32
  arqPhase := .idle
  busy := false
  role := .sender
  stopReq := false
  result := .none
  inOvf := false
  fqOvf := false
  txPayload := []
  txLen := 0
  nTx := 0
  lar := 0
  lfs := 0
  scan := 0
  finCnt := 0
  sw := []
  lfr := 0
  nExp := 0
  countKnown := false
  rb := []
  rxPayload := []
  rxPayloadLen := 0
  sched := []
  events := []
  out := .none
  frees := 0

/-- The machine right after power-on, which is reset (R281), with the configuration of log 5. -/
def State.reset : State := State.resetOf Config.tc0

end Sys2Proof.Machine
end

