-- ==== Sys2Proof/Machine/Operands.lean ====
section
/-! DEFINITION. The operand forms: sequence numbers and their signs (R13, R92), the frames the ARQ
rules build (R95, R96, R207), the frame kinds as each role tests them (R94, R232), and queue ownership (R42). -/

namespace Sys2Proof.Machine

/-- What a register of `w` bits holds after a rule gives it `n` (R13, R22): `n`, or, where `n` exceeds the
width, a FREE VALUE, since no rule says what happens there. DESIGN CHOICE (log 20). -/
def fitted (w n : Nat) : Nat := if n < 2 ^ w then n else Config.freeRegister w n % 2 ^ w

/-- What a register with the values `0 .. m` holds after a rule gives it `n`, in the same way (log 20). -/
def fittedUpTo (m n : Nat) : Nat := if n ≤ m then n else Config.freeRegister m n % (m + 1)

/-- `sgn(NODE)` (R9): A is +1, B is -1. -/
def sgnNode : Node → Int
  | .a => 1
  | .b => -1

/-- `|sequence|` of a pattern: an unbounded integer, so 32768 for 0x8000 (R13). -/
def seqMag (seq : BitVec 16) : Nat := seq.toInt.natAbs

/-- The pattern of `sgn(NODE) * m` (R13 to_u16, R92). -/
def seqOf (n : Node) (m : Nat) : BitVec 16 := BitVec.ofInt 16 (sgnNode n * m)

/-- A u16's bytes, high byte first (R65, R96). -/
def be16 (v : BitVec 16) : List Byte := [v.extractLsb' 8 8, v.extractLsb' 0 8]

/-- A u32's bytes, high byte first (R183). -/
def be32 (v : BitVec 32) : List Byte :=
  [v.extractLsb' 24 8, v.extractLsb' 16 8, v.extractLsb' 8 8, v.extractLsb' 0 8]

/-- The sentinel of `n` data frames (R96): `SENT_LEN` body bytes. -/
def sentinel (c : Config) (n : Nat) : Frame where
  len := BitVec.ofNat 16 c.sentLen.val
  seq := 0#16
  body := be16 (BitVec.ofNat 16 n)

/-- The acknowledgment this node sends for magnitude `m` (R95, R234). -/
def ackFrame (n : Node) (m : Nat) : Frame where
  len := 0#16
  seq := seqOf n m
  body := []

/-- A frame that may be sent or encoded: `len` is the body's length and at most `MAX_BODY` (R141, R183). -/
def Frame.ok (c : Config) (f : Frame) : Bool :=
  f.len.toNat == f.body.length && decide (f.body.length ≤ c.maxBody)

/-- `N = ceil(len / MAX_BODY)` (R207). -/
def segments (c : Config) (len : Nat) : Nat := (len + c.maxBody - 1) / c.maxBody

/-- `lo` of data frame `m` (R207). -/
def segLo (c : Config) (m : Nat) : Nat := (m - 1) * c.maxBody

/-- `hi` of data frame `m` (R207). -/
def segHi (c : Config) (len m : Nat) : Nat := min (m * c.maxBody) len

/-- `data_frame(m)` (R207), rebuilt from `TX_PAYLOAD` at each send; `none` where a byte of it holds no value. -/
def dataFrame (s : State) (m : Nat) : Option Frame :=
  let n := segHi s.cfg s.txLen m - segLo s.cfg m
  (s.txPayload.range (segLo s.cfg m) n).map fun body =>
    { len := BitVec.ofNat 16 n, seq := seqOf s.cfg.node m, body }

/-- The four cases of `RX.POP` (R232). -/
inductive RxClass where
  | sent
  | data
  | echo
  | other
deriving DecidableEq, Repr

/-- The classification of `RX.POP`, in the order R232 writes its tests. -/
def classify (c : Config) (f : Frame) : RxClass :=
  let own := sgnNode c.node
  if f.seq.toInt = 0 then (if f.len.toNat = c.sentLen.val then .sent else .other)
  else if f.seq.toInt = -32768 then .other
  else if f.seq.toInt.sign = -own ∧ f.len ≠ 0#16 then .data
  else if f.seq.toInt.sign = own then .echo
  else .other

/-- `N_EXP` as it may be read: it has no value while `COUNT_KNOWN` is 0 (R37, R44). -/
def State.expected (s : State) : Option Nat := if s.countKnown then some s.nExp else none

/-- `RX_PAYLOAD` as it may be read: it has no meaning but after a successful receive (R39, R44). -/
def State.received (s : State) : Option (List Byte) :=
  if s.result = .ok ∧ s.role = .receiver then s.rxPayload.range 0 s.rxPayloadLen else none

/-- The queue an element is pushed to. -/
def queueOf : QElem → QueueId
  | .inq _ => .inq
  | .outq _ => .outq
  | .fq _ => .fq

/-- The only agent that pushes to a queue (R42): the acting agent of `Q.PUSH` (log 15). -/
def producer : QueueId → Agent
  | .inq => .ab
  | .outq => .arq
  | .fq => .dem

/-- The only agent that pops a queue (R42): the acting agent of `Q.POP` (log 15). -/
def consumer : QueueId → Agent
  | .inq => .dem
  | .outq => .ab
  | .fq => .arq

end Sys2Proof.Machine
end

