-- ==== Sys2Proof/Machine/Flags.lean ====
section
/-! DEFINITION. The flags: the codes of the sequencer states, results and events, the `STATUS` word,
the test behind `QUIET`, and the elapsed time of a retransmission timer. -/

namespace Sys2Proof.Machine

/-- The encodings of `DEM_STATE` (R27). -/
def DemState.code : DemState → Nat
  | .search => 0
  | .header => 1
  | .body => 2
  | .crc => 3

/-- The encodings of `MOD_PHASE` (R27). -/
def ModPhase.code : ModPhase → Nat
  | .idle => 0
  | .waitq => 1
  | .emit => 2
  | .drain => 3
  | .done => 4

/-- The encodings of `ARQ_PHASE` (R27). -/
def ArqPhase.code : ArqPhase → Nat
  | .idle => 0
  | .txSent0 => 1
  | .txLoop => 2
  | .txDrain => 3
  | .txSlide => 4
  | .txRetx => 5
  | .txNew => 6
  | .txFin => 7
  | .rxPop => 8
  | .rxAck => 9

/-- The event codes of R250. -/
def Event.code : Event → Nat
  | .spuriousSync => 1
  | .malformedHeader _ => 2
  | .crcMismatch => 3
  | .ackMismatch _ => 4
  | .linkError _ => 5
  | .inOverflow => 6
  | .fqOverflow => 7

/-- `RESULT` as its 3 bits (R33). -/
def CmdResult.code : CmdResult → BitVec 3
  | .none => 0#3
  | .ok => 1#3
  | .linkError => 2#3
  | .stopped => 3#3
  | .rejected => 4#3

/-- `ROLE` as its bit (R31). -/
def Role.bit : Role → Bool
  | .sender => false
  | .receiver => true

/-- `STATUS` (R32, R259): `zext_32(RESULT ‖ FQ_OVF ‖ IN_OVF ‖ STOP_REQ ‖ QUIET ‖ ROLE ‖ BUSY)`. -/
def statusWord (s : State) : BitVec 32 :=
  (s.result.code ++ BitVec.ofBool s.fqOvf ++ BitVec.ofBool s.inOvf ++ BitVec.ofBool s.stopReq
    ++ BitVec.ofBool s.quiet ++ BitVec.ofBool s.role.bit ++ BitVec.ofBool s.busy).zeroExtend 32

/-- Some sample of the sensing window is louder than `NOISE_TH` (R196): strict, each on its own. -/
def windowBusy (s : State) : Bool := s.sh.any fun x => s.cfg.num.gt (s.cfg.num.abs x) s.cfg.noiseTh

/-- `(NOW - SENT_AT) mod 2^32` (R34). -/
def elapsed (s : State) (e : SwEntry) : Nat := (s.now - e.sentAt).toNat

/-- The entry's timer has run out: unacknowledged and elapsed above `RTO`, strictly (R212). -/
def overdue (s : State) (e : SwEntry) : Bool := !e.acked && decide (s.cfg.rto < elapsed s e)

/-- The entry at `SCAN` is in the window, overdue and has no retry left: what `TX.RETX` aborts on (R212). -/
def exhausted (s : State) : Bool :=
  decide (s.scan ≤ s.lfs) && (s.sw.get s.scan).any fun e => overdue s e && decide (e.retries = 0)

/-- Where `TX.STOP` is enabled, with a stop requested: at `TX.LOOP`, which runs between sends (R147), or in
`MOD.WAITQ` or `MOD.DRAIN` of the sender (R217, R262). -/
def senderMayStop (s : State) : Bool :=
  s.stopReq && decide ((s.arqPhase = .txLoop ∧ s.modPhase = .idle) ∨
    ((s.modPhase = .waitq ∨ s.modPhase = .drain) ∧ s.role = .sender))

/-- Where `RX.STOP` is enabled, with a stop requested: at `RX.POP`, which runs between sends (R147), or in
`MOD.WAITQ` or `MOD.DRAIN` of the receiver (R238, R262). -/
def receiverMayStop (s : State) : Bool :=
  s.stopReq && decide ((s.arqPhase = .rxPop ∧ s.modPhase = .idle) ∨
    ((s.modPhase = .waitq ∨ s.modPhase = .drain) ∧ s.role = .receiver))

/-- Where `RX.SENT` hands over to `RX.DONE`: in `RX_POP` between sends (R147), with a known count that `RB` has
reached (R233, R237). -/
def receiveComplete (s : State) : Bool :=
  decide (s.arqPhase = .rxPop ∧ s.modPhase = .idle) && s.expected == some s.rb.length

end Sys2Proof.Machine
end

