-- ==== Sys2Proof/Machine/Ops.lean ====
section
/-! DEFINITION. The shared operations of the rules: holds and stops, the locked transaction, events, queue
pushes, the entry into a send, and the two ways a command ends other than by success: the link-error abort
(R265, the block's only trap-like entry; R266: there is no return from it) and the cooperative stop (R262). -/

namespace Sys2Proof.Machine

/-- Why an operation gives no state of its own. `hold` is R14's `hold until c`: the agent has no step. -/
inductive Stop where
  | hold
  | fault (r : Fault)
  | refuse (r : Refusal)
deriving DecidableEq, Repr

/-- What an operation answers: a value (a state, most often), or why there is none. -/
abbrev Act (α : Type) := Except Stop α

/-- One operation after the other. -/
def Act.andThen {α β : Type} (a : Act α) (f : α → Act β) : Act β :=
  match a with
  | .ok x => f x
  | .error e => .error e

/-- The outcome of a step at `s`: a held operation takes no step, so nothing changes (R14, R232, U21; log 3). -/
def settle (s : State) (a : Act State) : Host.Outcome State Fault Refusal :=
  match a with
  | .ok t => .next t
  | .error .hold => .next s
  | .error (.fault r) => .fault r
  | .error (.refuse r) => .refused r

/-! ### Locks -/

/-- `LOCK_Q` (R121). -/
def State.lock (s : State) : QueueId → Option Agent
  | .inq => s.lockInq
  | .outq => s.lockOutq
  | .fq => s.lockFq

/-- `LOCK_Q <- l`. -/
def State.setLock (s : State) (q : QueueId) (l : Option Agent) : State :=
  match q with
  | .inq => { s with lockInq := l }
  | .outq => { s with lockOutq := l }
  | .fq => { s with lockFq := l }

/-- The agent holds some lock. -/
def State.holdsAny (s : State) (a : Agent) : Bool :=
  s.lockInq == some a || s.lockOutq == some a || s.lockFq == some a

/-- `with lock(Q): body` (R124) as the one atomic step of R126, taken at its `Q.ACQ`: enabled when no other
agent is inside a transaction on `Q`. An agent that holds a lock never starts one (R122, R75). Log 11. -/
def withLock {α : Type} (a : Agent) (q : QueueId) (s : State) (body : State → Act α) : Act α :=
  if s.holdsAny a then .error (.refuse .lockDiscipline)
  else
    match s.lock q with
    | some _ => .error .hold
    | none => body s

/-- A step of `ARQ` outside the gate. It may hold, and no agent holds a lock in a hold: it is refused while
`ARQ` holds one (R74, R75, R122, R127; log 11). -/
def arqStep {α : Type} (s : State) (a : Act α) : Act α :=
  if s.holdsAny .arq then .error (.refuse .lockDiscipline) else a

/-! ### Events and queues -/

/-- `raise E(info)`: the record; the event's effect is in the rule that raises it (R14, R250; log 18). -/
def State.raise (s : State) (e : Event) : State := { s with events := s.events ++ [e] }

/-- Push to `INQ`; a full queue drops the sample and sets `IN_OVF` (R63, R128). -/
def pushInq (x : Sample) (s : State) : State :=
  if s.inq.length < s.cfg.inDepth then { s with inq := s.inq ++ [x] }
  else State.raise { s with inOvf := true } .inOverflow

/-- Push to `FQ`; a full queue drops the frame and sets `FQ_OVF` (R63, R167). -/
def pushFq (f : Frame) (s : State) : State :=
  if s.fq.length < s.cfg.fqDepth then { s with fq := s.fq ++ [f] }
  else State.raise { s with fqOvf := true } .fqOverflow

/-- Push to `OUTQ`, all or none; what would exceed `OUT_DEPTH` is refused (R145, U10). -/
def pushOutq (xs : List Sample) (s : State) : Act State :=
  if s.outq.length + xs.length ≤ s.cfg.outDepth then .ok { s with outq := s.outq ++ xs }
  else .error (.refuse .outqOverflow)

/-- Answer a value (log 19). -/
def State.answer (s : State) (o : Output) : State := { s with out := o }

/-! ### Sends, abort and stop -/

/-- A rule of `ARQ` that is no step and no continuation of a send: between the entry and the continuation of one
it is not enabled (R30, R147). -/
def betweenSends {α : Type} (s : State) (a : Act α) : Act α :=
  if s.modPhase = .idle then a else .error .hold

/-- The entry of `MOD.SEND(f)` (R141), taken by the rule `c` in `MOD_PHASE = IDLE`. -/
def sendEntry (c : Caller) (f : Frame) (s : State) : Act State :=
  if Frame.ok s.cfg f then
    betweenSends s (.ok { s with txf := some f, modPhase := .waitq, caller := some c })
  else .error (.refuse .badFrame)

/-- The send has returned to its caller: `MOD_PHASE <- IDLE` (R141, R147). -/
def State.sendReturned (s : State) : State := { s with modPhase := .idle, caller := none }

/-- The form of the rules that send: `entry` when `MOD_PHASE` is IDLE, `cont` when it is DONE and the rule is the
caller; else the modulator's own step or the caller's continuation is the only one (R147, R205). -/
def sending (c : Caller) (s : State) (entry cont : Act State) : Act State :=
  match s.modPhase with
  | .idle => entry
  | .done => if s.caller = some c then cont else .error .hold
  | _ => .error .hold

/-- The command is over: `RESULT <- r; BUSY <- 0; ARQ_PHASE <- IDLE`. -/
def State.endCommand (s : State) (r : CmdResult) : State :=
  { s with result := r, busy := false, arqPhase := .idle }

/-- The link-error abort (R216, R265): the event records `SCAN`; nothing is saved, `LAR`, `LFS`, `N_TX`,
`TX_LEN`, `TX_PAYLOAD` keep their values, the queues, the demodulator and the sensor are untouched. -/
def abort (s : State) : State :=
  State.endCommand { State.raise s (.linkError s.scan) with sw := [] } .linkError

/-- `TX.STOP`'s effect (R217). -/
def stopSender (s : State) : State :=
  State.endCommand
    { s with sw := [], txf := none, modPhase := .idle, caller := none, stopReq := false } .stopped

/-- `RX.STOP`'s effect (R238); `RX_PAYLOAD` holds no value from here on (R44). -/
def stopReceiver (s : State) : State :=
  State.endCommand
    { s with rb := [], countKnown := false, rxPayload := [], rxPayloadLen := 0, txf := none,
             modPhase := .idle, caller := none, stopReq := false } .stopped

/-- The stop taken at a polling point, by role (R261, R262). -/
def stopByRole (s : State) : State :=
  match s.role with
  | .sender => stopSender s
  | .receiver => stopReceiver s

/-- Back to searching with an empty window (R165, R166, R167): the window's cells hold no value at and above
`WFILL` (R23), and the body of the frame just finished is no longer that of a current frame (R44). -/
def State.toSearch (s : State) : State :=
  { s with demState := .search, win := [], wfill := 0, acc := s.cfg.num.zero, scnt := 0, bcnt := 0,
           rxBody := [] }

end Sys2Proof.Machine
end

