-- ==== Sys2Proof/Machine/Codec.lean ====
section
/-! DEFINITION. The frame codec and the CRC-32 generator (spec/43_frame_codec.md): pure functions, each
also an operation that answers its result. -/

namespace Sys2Proof.Machine

/-- `FC.PACK` (R181): the CRC's byte stream, high bytes first. -/
def packBytes (len seq : BitVec 16) (body : List Byte) : List Byte := be16 len ++ be16 seq ++ body

/-- One bit of the inner loop of R182. -/
def crcBit (c : BitVec 32) : BitVec 32 :=
  if c.getLsbD 0 then (c >>> 1) ^^^ 0xEDB88320#32 else c >>> 1

/-- The inner loop: `n` bits. -/
def crcBits : Nat → BitVec 32 → BitVec 32
  | 0, c => c
  | n + 1, c => crcBits n (crcBit c)

/-- One byte of the stream (R182). -/
def crcByte (c : BitVec 32) (b : Byte) : BitVec 32 := crcBits 8 (c ^^^ b.zeroExtend 32)

/-- CRC-32 of a byte string (R182: ISO-HDLC parameters, PRESUMED, log 8): the value that R182 gives the CRC
parameter. -/
def crcOf (bytes : List Byte) : BitVec 32 := bytes.foldl crcByte 0xFFFFFFFF#32 ^^^ 0xFFFFFFFF#32

end Sys2Proof.Machine

namespace Sys2Proof

/-- The CRC function of a configuration, a parameter (R182, D3, U4). -/
def Config.crc (c : Config) (bytes : List Byte) : BitVec 32 :=
  match c.crcFn with
  | .isoHdlc => Machine.crcOf bytes
  | .other n => Config.otherCrc n bytes

end Sys2Proof

namespace Sys2Proof.Machine

/-- `FC.CRC32` (R182). -/
def crc32 (c : Config) (len seq : BitVec 16) (body : List Byte) : BitVec 32 := c.crc (packBytes len seq body)

/-- A byte's bits, first transmitted first: bit 7 first (R64, R100). -/
def bitsOfByte (b : Byte) : List Bool :=
  [b.getLsbD 7, b.getLsbD 6, b.getLsbD 5, b.getLsbD 4, b.getLsbD 3, b.getLsbD 2, b.getLsbD 1, b.getLsbD 0]

/-- `FC.ENCODE`'s bytes: the packed fields, then the CRC high byte first (R183). -/
def frameBytes (c : Config) (f : Frame) : List Byte :=
  packBytes f.len f.seq f.body ++ be32 (crc32 c f.len f.seq f.body)

/-- `FC.ENCODE` (R183), of a frame that `Frame.ok` admits. -/
def frameBits (c : Config) (f : Frame) : List Bool := (frameBytes c f).flatMap bitsOfByte

/-- A field's value from its bits as they arrive: shift left, the new bit in at bit 0 (R99). -/
def shiftIn {w : Nat} (v : BitVec w) (b : Bool) : BitVec w := (v <<< 1) ||| (BitVec.ofBool b).zeroExtend w

/-- The value of a `w`-bit field (R99). -/
def fieldOf (w : Nat) (bits : List Bool) : BitVec w := bits.foldl shiftIn 0#w

/-- `n` body bytes from a bit sequence (R184). -/
def bytesOfBits : Nat → List Bool → List Byte
  | 0, _ => []
  | n + 1, b => fieldOf 8 (b.take 8) :: bytesOfBits n (b.drop 8)

/-- `FC.DECODE` (R184); too few bits are outside its domain. -/
def decodeBits (c : Config) (b : List Bool) : Act DecodeResult :=
  if b.length < 32 then .error (.refuse .tooFewBits)
  else
    let len := fieldOf 16 (b.take 16)
    let seq := fieldOf 16 ((b.drop 16).take 16)
    if c.maxBody < len.toNat then .ok .malformed
    else if b.length < 64 + 8 * len.toNat then .error (.refuse .tooFewBits)
    else
      let body := bytesOfBits len.toNat (b.drop 32)
      let rc := fieldOf 32 ((b.drop (32 + 8 * len.toNat)).take 32)
      .ok (.frame { len, seq, body } (rc == crc32 c len seq body) (64 + 8 * len.toNat))

/-- `FC.PACK(len, seq, body)` (R181). -/
def execFcPack (len seq : BitVec 16) (body : List Byte) (s : State) : Host.Outcome State Fault Refusal :=
  if len.toNat = body.length then .next (s.answer (.bytes (packBytes len seq body)))
  else .refused .bodyLength

/-- `FC.CRC32(len, seq, body)` (R182). -/
def execFcCrc32 (len seq : BitVec 16) (body : List Byte) (s : State) : Host.Outcome State Fault Refusal :=
  if len.toNat = body.length then .next (s.answer (.word (crc32 s.cfg len seq body)))
  else .refused .bodyLength

/-- `FC.ENCODE(f)` (R183). -/
def execFcEncode (f : Frame) (s : State) : Host.Outcome State Fault Refusal :=
  if Frame.ok s.cfg f then .next (s.answer (.bits (frameBits s.cfg f))) else .refused .badFrame

/-- `FC.DECODE(b)` (R184). -/
def execFcDecode (b : List Bool) (s : State) : Host.Outcome State Fault Refusal :=
  settle s ((decodeBits s.cfg b).andThen fun r => .ok (s.answer (.decoded r)))

end Sys2Proof.Machine
end

