-- ==== Sys2Proof/Machine/Demodulator.lean ====
section
/-! DEFINITION. The demodulator: preamble comparator, bit slicer, frame synchronizer
(spec/42_demodulator.md). -/

namespace Sys2Proof.Machine

/-- `DEM.SLICE` (R158): strictly above 0.0 is a 1. -/
def slice (n : Numerics) (x : Sample) : Bool := n.gt x n.zero

/-- One group's weighted sum, oldest sample first, from 0.0 (R157). -/
def weightedSum (n : Numerics) (w xs : List Sample) : Sample := n.sum (List.zipWith n.mul w xs)

/-- The bits of `n` groups of `K` samples (R157): strictly above `SYNC_THETA` is a 1. -/
def groupBits (c : Config) : Nat → List Sample → List Bool
  | 0, _ => []
  | n + 1, xs => c.num.gt (weightedSum c.num c.w (xs.take c.k)) c.syncTheta :: groupBits c n (xs.drop c.k)

/-- The comparison of a full window with the preamble (R157): every position must agree. -/
def preambleMatch (c : Config) (xs : List Sample) : Bool := groupBits c c.p xs == c.pre

/-- `DEM.CORR` (R157): it requires `WFILL = PK`; cells at and above `WFILL` hold no value (R44). -/
def correlate (s : State) : Act Bool :=
  if s.wfill = s.cfg.pk then
    match s.win.range 0 s.cfg.pk with
    | some xs => .ok (preambleMatch s.cfg xs)
    | none => .error (.fault (.noValue .win))
  else .error (.fault (.noValue .win))

/-- The window with the sample slid in (R156). -/
def slideWindow (x : Sample) (s : State) : Act State :=
  if s.wfill < s.cfg.pk then .ok { s with win := s.win.set s.wfill x, wfill := s.wfill + 1 }
  else
    match s.win.range 1 (s.cfg.pk - 1) with
    | some xs => .ok { s with win := Memory.ofList (xs ++ [x]) }
    | none => .error (.fault (.noValue .win))

/-- Synchronization declared (R156, R28): the consumed samples are discarded, and no byte of the new current
frame's body is written yet (R44). -/
def synchronize (s : State) : State :=
  { s with demState := .header, win := [], wfill := 0, acc := s.cfg.num.zero, scnt := 0, bcnt := 0,
           hdr := 0#32, rxBody := [] }

/-- `DEM.SEARCH(x)` (R156). -/
def demSearch (x : Sample) (s : State) : Act State :=
  (slideWindow x s).andThen fun s =>
    if s.wfill = s.cfg.pk then
      (correlate s).andThen fun found => .ok (if found then synchronize s else s)
    else .ok s

/-- The symbol integrator (R159): the bit is there at every `K`-th sample. -/
def integrate (x : Sample) (s : State) : Option Bool × State :=
  let acc := s.cfg.num.add s.acc x
  if s.scnt + 1 < s.cfg.k then (none, { s with acc := acc, scnt := s.scnt + 1 })
  else (some (slice s.cfg.num acc), { s with acc := s.cfg.num.zero, scnt := 0 })

/-- `DEM.DISCARD` (R165). -/
def discard (s : State) : State := s.toSearch

/-- The 32nd header bit (R160): LENGTH and SEQUENCE are latched, a new body begins, the length is tested. -/
def latchHeader (s : State) : State :=
  let s := { s with rxLen := s.hdr.extractLsb' 16 16, rxSeq := s.hdr.extractLsb' 0 16, bcnt := 0,
                    rxCur := 0#8, rxCrc := 0#32, rxBody := [] }
  if s.cfg.maxBody < s.rxLen.toNat then discard (s.raise (.malformedHeader s.rxLen))
  else if s.rxLen = 0#16 then { s with demState := .crc }
  else { s with demState := .body }

/-- One more bit counted: `BCNT` has 20 bits (R22, log 20). -/
def State.countBit (s : State) : State := { s with bcnt := fitted 20 (s.bcnt + 1) }

/-- A header bit (R160). -/
def headerBit (b : Bool) (s : State) : State :=
  let s := State.countBit { s with hdr := shiftIn s.hdr b }
  if s.bcnt = s.cfg.hdrBits then latchHeader s else s

/-- `DEM.HEADER(x)` (R160). -/
def demHeader (x : Sample) (s : State) : State :=
  match integrate x s with
  | (none, s) => s
  | (some b, s) => headerBit b s

/-- A full `RX_CUR` goes to `RX_BODY[BCNT / 8 - 1]` (R162), one of the cells `0..MAX_BODY-1` (R22, log 20). -/
def storeByte (s : State) : Act State :=
  if 8 ≤ s.bcnt ∧ s.bcnt ≤ 8 * s.cfg.maxBody then
    .ok { s with rxBody := s.rxBody.set (s.bcnt / 8 - 1) s.rxCur, rxCur := 0#8 }
  else .error (.fault (.noCell .rxBody))

/-- A body bit (R162). -/
def bodyBit (b : Bool) (s : State) : Act State :=
  let s := State.countBit { s with rxCur := shiftIn s.rxCur b }
  (if s.bcnt % 8 = 0 then storeByte s else .ok s).andThen fun s =>
    .ok (if s.bcnt = 8 * s.rxLen.toNat then { s with demState := .crc, bcnt := 0 } else s)

/-- `DEM.BODY(x)` (R162). -/
def demBody (x : Sample) (s : State) : Act State :=
  match integrate x s with
  | (none, s) => .ok s
  | (some b, s) => bodyBit b s

/-- `RX_BODY[0..RX_LEN-1]`, a fault where a byte holds no value (R44). -/
def receivedBody (s : State) : Act (List Byte) :=
  match s.rxBody.range 0 s.rxLen.toNat with
  | some body => .ok body
  | none => .error (.fault (.noValue .rxBody))

/-- `DEM.EMIT` (R167). -/
def emitFrame (s : State) : Act State :=
  (receivedBody s).andThen fun body =>
    withLock .dem .fq s fun s =>
      .ok (State.toSearch (pushFq { len := s.rxLen, seq := s.rxSeq, body } s))

/-- The 32nd CRC bit (R163): emit on a match of all 32 bits, else `CrcMismatch` (R164). -/
def checkCrc (s : State) : Act State :=
  (receivedBody s).andThen fun body =>
    if crc32 s.cfg s.rxLen s.rxSeq body = s.rxCrc then emitFrame s
    else .ok (discard (s.raise .crcMismatch))

/-- A CRC bit (R163). -/
def crcFieldBit (b : Bool) (s : State) : Act State :=
  let s := State.countBit { s with rxCrc := shiftIn s.rxCrc b }
  if s.bcnt = s.cfg.crcW.val then checkCrc s else .ok s

/-- `DEM.CRC(x)` (R163). -/
def demCrc (x : Sample) (s : State) : Act State :=
  match integrate x s with
  | (none, s) => .ok s
  | (some b, s) => crcFieldBit b s

/-- The state machine's action on a popped sample (R155, R28). -/
def demAct (x : Sample) (s : State) : Act State :=
  match s.demState with
  | .search => demSearch x s
  | .header => .ok (demHeader x s)
  | .body => demBody x s
  | .crc => demCrc x s

/-- `DEM.STEP` (R155): pop and act, one step; an empty queue holds. -/
def execDemStep (s : State) : Host.Outcome State Fault Refusal :=
  settle s (withLock .dem .inq s fun s =>
    match s.inq with
    | [] => .error .hold
    | x :: q => demAct x { s with inq := q })

/-- `DEM.SEARCH(x)` (R156), alone (log 4). -/
def execDemSearch (x : Sample) (s : State) : Host.Outcome State Fault Refusal := settle s (demSearch x s)

/-- `DEM.CORR` (R157): the verdict is answered. -/
def execDemCorr (s : State) : Host.Outcome State Fault Refusal :=
  settle s ((correlate s).andThen fun found => .ok (s.answer (.verdict found)))

/-- `DEM.SLICE(S)` (R158). -/
def execDemSlice (x : Sample) (s : State) : Host.Outcome State Fault Refusal :=
  .next (s.answer (.bit (slice s.cfg.num x)))

/-- `DEM.HEADER(x)` (R160), alone (log 4). -/
def execDemHeader (x : Sample) (s : State) : Host.Outcome State Fault Refusal := .next (demHeader x s)

/-- `DEM.BODY(x)` (R162), alone (log 4). -/
def execDemBody (x : Sample) (s : State) : Host.Outcome State Fault Refusal := settle s (demBody x s)

/-- `DEM.CRC(x)` (R163), alone (log 4). -/
def execDemCrc (x : Sample) (s : State) : Host.Outcome State Fault Refusal := settle s (demCrc x s)

/-- `DEM.EMIT` (R167), alone (log 4). -/
def execDemEmit (s : State) : Host.Outcome State Fault Refusal := settle s (emitFrame s)

/-- `DEM.DISCARD` (R165), alone (log 4). -/
def execDemDiscard (s : State) : Host.Outcome State Fault Refusal := .next (discard s)

end Sys2Proof.Machine
end

