-- ==== Sys2Proof/Machine/Sensor.lean ====
section
/-! DEFINITION. The channel sensor (spec/44_channel_sensor.md). -/

namespace Sys2Proof.Machine

/-- `QUIET` recomputed from `SH` alone (R196). -/
def senseChannel (s : State) : State := { s with quiet := !windowBusy s }

/-- `CS.EVAL` (R196). R196 states no condition on where `AB` is in its period: scheduled alone it runs in the middle
of a period too, over the samples that have come in by then, and leaves the period where it is (DESIGN CHOICE,
log 14). -/
def execCsEval (s : State) : Host.Outcome State Fault Refusal := .next (senseChannel s)

end Sys2Proof.Machine
end

