-- ==== Sys2Proof/Machine/Fifo.lean ====
section
/-! DEFINITION. The queues' gate and the audio boundary (spec/40_sample_fifo.md). -/

namespace Sys2Proof.Machine

/-- Shift by one, append: the new sample is the newest (R24, R128). -/
def shiftHistory (sh : List Sample) (x : Sample) : List Sample := (sh ++ [x]).drop 1

/-- `AB.IN(x)` (R128): `SH` sees the sample whether or not `INQ` takes it. -/
def audioIn (x : Sample) (s : State) : Act State :=
  if s.cfg.num.finite x then
    withLock .ab .inq s fun s => .ok (pushInq x { s with sh := shiftHistory s.sh x })
  else .error (.refuse .nonFiniteSample)

/-- `AB.OUT` (R129): the head of `OUTQ`, or silence. -/
def audioOut (s : State) : Act (Sample × State) :=
  withLock .ab .outq s fun s =>
    match s.outq with
    | [] => .ok (s.cfg.num.zero, s)
    | y :: q => .ok (y, { s with outq := q })

/-- The next part of a period in progress (R131): a sample in, then, `BLK` times, a sample out, then the
sensing, which ends the period and answers the samples put out (log 19). -/
def periodPart (p : Period) (s : State) : Act State :=
  match p.ins with
  | x :: xs => (audioIn x s).andThen fun s => .ok { s with period := some { p with ins := xs } }
  | [] =>
    if p.outs.length < s.cfg.blk then
      (audioOut s).andThen fun r =>
        .ok { r.2 with period := some { p with outs := p.outs ++ [r.1] } }
    else .ok ((senseChannel { s with period := none }).answer (.samples p.outs))

/-- `AB.PERIOD(x)` (R131): its `2 * BLK + 1` parts are separate steps, and each slot of `AB.PERIOD` performs
the next of them; the operand is taken by the slot that begins a period (log 14). -/
def audioPeriod (xs : List Sample) (s : State) : Act State :=
  match s.period with
  | some p => periodPart p s
  | none =>
    if xs.length = s.cfg.blk then
      if xs.all s.cfg.num.finite then periodPart { ins := xs, outs := [] } s
      else .error (.refuse .nonFiniteSample)
    else .error (.refuse .wrongSampleCount)

/-- `Q.ACQ(Q)` (R122). R122 states no condition on the sequencer registers: scheduled alone it runs in every phase of
its agent, of `ARQ` also during a send and with `ARQ_PHASE = IDLE` (DESIGN CHOICE, log 31). -/
def execQAcq (q : QueueId) (a : Agent) (s : State) : Host.Outcome State Fault Refusal :=
  settle s (withLock a q s fun s => .ok (s.setLock q (some a)))

/-- `Q.REL(Q)` (R123), in every phase of its agent (DESIGN CHOICE, log 31). -/
def execQRel (q : QueueId) (a : Agent) (s : State) : Host.Outcome State Fault Refusal :=
  if s.lock q = some a then .next (s.setLock q none) else .refused .lockNotHeld

/-- `Q.PUSH(Q, v)` (R125), by the queue's only producer (R42, log 15), with the queue's overflow rule (R63). No
rule speaks of a frame record here whose `len` is not its body's length or exceeds `MAX_BODY`: it is queued
as it is (DESIGN CHOICE, log 28). It runs in every phase of its agent (DESIGN CHOICE, log 31). -/
def execQPush (v : QElem) (s : State) : Host.Outcome State Fault Refusal :=
  if s.lock (queueOf v) = some (producer (queueOf v)) then
    match v with
    | .inq x => .next (pushInq x s)
    | .outq x => settle s (pushOutq [x] s)
    | .fq f => .next (pushFq f s)
  else .refused .lockNotHeld

/-- The head of a queue and the state without it. -/
def popQueue (q : QueueId) (s : State) : Option (Output × State) :=
  match q with
  | .inq => match s.inq with
    | [] => none
    | x :: l => some (.sample x, { s with inq := l })
  | .outq => match s.outq with
    | [] => none
    | x :: l => some (.sample x, { s with outq := l })
  | .fq => match s.fq with
    | [] => none
    | f :: l => some (.frame f, { s with fq := l })

/-- `Q.POP(Q)` (R130), by the queue's only consumer (R42, log 15), in every phase of its agent (DESIGN CHOICE,
log 31). -/
def execQPop (q : QueueId) (s : State) : Host.Outcome State Fault Refusal :=
  if s.lock q = some (consumer q) then
    match popQueue q s with
    | some (v, t) => .next (t.answer v)
    | none => .refused .popEmpty
  else .refused .lockNotHeld

/-- `AB.IN(x)` (R128). Scheduled alone it runs in the middle of a period too (DESIGN CHOICE, log 14). -/
def execAbIn (x : Sample) (s : State) : Host.Outcome State Fault Refusal := settle s (audioIn x s)

/-- `AB.OUT` (R129): the sample is answered (log 19). Scheduled alone it runs in the middle of a period too
(DESIGN CHOICE, log 14). -/
def execAbOut (s : State) : Host.Outcome State Fault Refusal :=
  settle s ((audioOut s).andThen fun r => .ok (r.2.answer (.sample r.1)))

/-- `AB.PERIOD(x)` (R131): the next part of a period. -/
def execAbPeriod (xs : List Sample) (s : State) : Host.Outcome State Fault Refusal :=
  settle s (audioPeriod xs s)

end Sys2Proof.Machine
end

