-- ==== Sys2Proof/Machine/Receiver.lean ====
section
/-! DEFINITION. The ARQ sequencer in the receiver role (spec/46_arq_receiver.md). -/

namespace Sys2Proof.Machine

/-- `RX.START` (R231). The flush of `FQ` is a transaction of the ARQ agent (R42, log 16). `RX_PAYLOAD`
holds no value from here on (R44). -/
def startReceiver (s : State) : Act State :=
  betweenSends s (withLock .arq .fq s fun s =>
    .ok { s with busy := true, role := .receiver, stopReq := false, result := .none, fq := [],
                 rb := [], lfr := 0, nExp := 0, countKnown := false, rxPayload := [], rxPayloadLen := 0,
                 arqPhase := .rxPop })

/-- `RX.DONE` (R237): the bodies in ascending magnitude order; `RX_PAYLOAD_LEN` has 32 bits (R22, log 20). -/
def assemble (s : State) : State :=
  let bytes := s.rb.elems.flatten
  State.endCommand
    { s with rxPayload := Memory.ofList bytes, rxPayloadLen := fitted 32 bytes.length,
             rb := [] } .ok

/-- `RX.SENT(f)` (R233): record the count, then test it, as read back from `N_EXP` (R44). -/
def takeSentinel (f : Frame) (s : State) : Act State :=
  match f.body with
  | hi :: lo :: _ =>
    let s := { s with nExp := hi.toNat * 256 + lo.toNat, countKnown := true }
    match s.expected with
    | some n => .ok (if s.rb.length = n then assemble s else s)
    | none => .error (.fault (.noValue .nExp))
  | _ => .error (.fault (.noValue .frameBody))

/-- `LFR` advanced while the next magnitude is present (R234); each time round uses a key of its own, so
`n = |RB|` rounds are enough. -/
def advance : Nat → Memory (List Byte) → Nat → Nat
  | 0, _, l => l
  | n + 1, rb, l => if (rb.get (l + 1)).isSome then advance n rb (l + 1) else l

/-- The first copy is kept (R234). No rule speaks of a body here whose length is not `len` or exceeds
`MAX_BODY`: it is stored as it is (DESIGN CHOICE, log 28). -/
def storeBody (m : Nat) (body : List Byte) (rb : Memory (List Byte)) : Memory (List Byte) :=
  if (rb.get m).isSome then rb else rb.set m body

/-- `RX.DATA(f)`'s first part (R234): store, advance `LFR`, acknowledge unconditionally. -/
def takeData (f : Frame) (s : State) : Act State :=
  let m := seqMag f.seq
  let rb := storeBody m f.body s.rb
  (sendEntry .rxData (ackFrame s.cfg.node m) { s with rb := rb, lfr := advance rb.length rb s.lfr }).andThen
    fun s => .ok { s with arqPhase := .rxAck }

/-- The sub-operation `RX.POP` performs on a popped frame (R232); an echo and a frame that fits no case are
dropped (R235, R236). -/
def takeFrame (f : Frame) (s : State) : Act State :=
  match classify s.cfg f with
  | .sent => takeSentinel f s
  | .data => takeData f s
  | .echo => .ok s
  | .other => .ok s

/-- `RX.START` (R231): enabled when `BUSY = 0`, between sends (R147). -/
def execRxStart (s : State) : Host.Outcome State Fault Refusal :=
  settle s (arqStep s (if s.busy then .error .hold else startReceiver s))

/-- `RX.POP` (R232), between sends (R147): a polling point of the stop; an empty queue is retried. -/
def execRxPop (s : State) : Host.Outcome State Fault Refusal :=
  settle s (arqStep s (if s.arqPhase = .rxPop ∧ s.modPhase = .idle then
    if s.stopReq then .ok (stopReceiver s)
    else withLock .arq .fq s fun s =>
      match s.fq with
      | [] => .ok s
      | f :: q => takeFrame f { s with fq := q }
  else .error .hold))

/-- `RX.SENT(f)` (R233), alone (log 4), in the phase in which `RX.POP` performs it: its operand is a frame of
sequence 0 and length 2. Its body may have other than `len` bytes (DESIGN CHOICE, log 28). -/
def execRxSent (f : Frame) (s : State) : Host.Outcome State Fault Refusal :=
  settle s (arqStep s (if s.arqPhase = .rxPop ∧ s.modPhase = .idle then
    if f.seq = 0#16 ∧ f.len.toNat = s.cfg.sentLen.val then takeSentinel f s
    else .error (.refuse .operandKind)
  else .error .hold))

/-- `RX.DATA(f)` (R234): its continuation when `ARQ_PHASE` is RX_ACK and the send has returned; its first
part, alone (log 4), in the phase in which `RX.POP` performs it, on a data frame of the peer, whose body may
have other than `len` bytes (DESIGN CHOICE, log 28). -/
def execRxData (f : Frame) (s : State) : Host.Outcome State Fault Refusal :=
  settle s (arqStep s (match s.arqPhase with
    | .rxAck =>
      sending .rxData s (.error .hold) (.ok { s.sendReturned with arqPhase := .rxPop })
    | .rxPop =>
      betweenSends s (if classify s.cfg f = .data then takeData f s else .error (.refuse .operandKind))
    | _ => .error .hold))

/-- `RX.ECHO(f)` (R235): the frame is dropped. -/
def execRxEcho (_f : Frame) (s : State) : Host.Outcome State Fault Refusal := .next s

/-- `RX.OTHER(f)` (R236): the frame is dropped. -/
def execRxOther (_f : Frame) (s : State) : Host.Outcome State Fault Refusal := .next s

/-- `RX.DONE` (R237), alone (log 4): enabled where `RX.SENT` performs it. -/
def execRxDone (s : State) : Host.Outcome State Fault Refusal :=
  settle s (arqStep s (if receiveComplete s then .ok (assemble s) else .error .hold))

/-- `RX.STOP` (R238), alone (log 4): enabled at the receiver's polling points with a stop requested. -/
def execRxStop (s : State) : Host.Outcome State Fault Refusal :=
  settle s (arqStep s (if receiverMayStop s then .ok (stopReceiver s) else .error .hold))

end Sys2Proof.Machine
end

