-- ==== Sys2Proof/Machine/Sender.lean ====
section
/-! DEFINITION. The ARQ sequencer in the sender role (spec/45_arq_sender.md). -/

namespace Sys2Proof.Machine

/-- `TX.START` (R208). The flush of `FQ` is a transaction of the ARQ agent (R42, log 16). -/
def startSender (s : State) : Act State :=
  let n := segments s.cfg s.txLen
  betweenSends s (
    if s.cfg.seqMax < n then .ok { s with result := .rejected }
    else
      withLock .arq .fq s fun s =>
        .ok { s with busy := true, role := .sender, stopReq := false, result := .none, fq := [],
                     nTx := n, lar := 0, lfs := 0, scan := 0, finCnt := 0, sw := [],
                     arqPhase := .txSent0 })

/-- The data frame `m` is rebuilt and its send entered by the rule `c` (R207, R212, R213). -/
def sendData (c : Caller) (m : Nat) (s : State) : Act State :=
  match dataFrame s m with
  | some f => sendEntry c f s
  | none => .error (.fault (.noValue .txPayload))

/-- The frame is an acknowledgment, `F.ACK` (R94, R105): zero length, and neither of the reserved sequences 0 and
-32768. Of the latter, R101, D12 and U6 give no event, against R210's test and V27 (DESIGN CHOICE, log 29). -/
def isAck (f : Frame) : Bool := decide (f.len = 0#16 ∧ f.seq ≠ 0#16 ∧ f.seq ≠ 0x8000#16)

/-- What `TX.DRAIN` does with a popped frame (R210): magnitude and length alone decide, not the sign.
An acknowledgment of no entry of the window raises `AckMismatch` (R101, R254). -/
def takeAck (f : Frame) (s : State) : Act State :=
  if f.len = 0#16 ∧ s.lar < seqMag f.seq ∧ seqMag f.seq ≤ s.lfs then
    match s.sw.get (seqMag f.seq) with
    | some e => .ok { s with sw := s.sw.set (seqMag f.seq) { e with acked := true } }
    | none => .error (.fault (.noValue .sw))
  else if isAck f then .ok (s.raise (.ackMismatch f.seq))
  else .ok s

/-- The loop of `TX.SLIDE` (R211), at most `n` times round. -/
def slideWhile : Nat → State → Act State
  | 0, s => .ok s
  | n + 1, s =>
    match s.sw.get (s.lar + 1) with
    | none => .error (.fault (.noValue .sw))
    | some e =>
      if e.acked then slideWhile n { s with sw := s.sw.erase (s.lar + 1), lar := s.lar + 1 }
      else .ok s

/-- `SCAN <- n`: `SCAN` has 16 bits (R22, log 20). -/
def State.withScan (s : State) (n : Nat) : State := { s with scan := fitted 16 n }

/-- The examination of entry `SCAN` (R212). -/
def examineEntry (s : State) : Act State :=
  if s.lfs < s.scan then .ok { s with arqPhase := .txNew }
  else
    match s.sw.get s.scan with
    | none => .error (.fault (.noValue .sw))
    | some e =>
      if overdue s e then
        if e.retries = 0 then .ok (abort s) else sendData .txRetx s.scan s
      else .ok (s.withScan (s.scan + 1))

/-- `RETRIES - 1` (R212). Of 0 the rule states no result: a FREE VALUE of R36's range 0..RETRY_MAX, read off
the counter `frees` (DESIGN CHOICE, log 21). -/
def decrementRetries (n : Nat) (s : State) : Nat × State :=
  match n with
  | r + 1 => (r, s)
  | 0 => (Config.freeRetries s.frees % (s.cfg.retryMax + 1), { s with frees := s.frees + 1 })

/-- The continuation after a resend returned (R212): the timer restarts at the return. -/
def finishResend (s : State) : Act State :=
  match s.sw.get s.scan with
  | none => .error (.fault (.noValue .sw))
  | some e =>
    let r := decrementRetries e.retries s
    .ok (({ r.2 with sw := s.sw.set s.scan { e with sentAt := s.now, retries := r.1 } }.sendReturned).withScan
      (s.scan + 1))

/-- The window allows a new frame (R213). -/
def windowOpen (s : State) : Bool := decide (s.lfs - s.lar < s.cfg.windowSize ∧ s.lfs < s.nTx)

/-- A new frame, if the window allows it (R213). -/
def sendNew (s : State) : Act State :=
  if windowOpen s then sendData .txNew (s.lfs + 1) { s with lfs := s.lfs + 1 }
  else .ok { s with arqPhase := .txLoop }

/-- The continuation of a new frame's send (R213): its entry is created. -/
def finishNew (s : State) : State :=
  { s.sendReturned with
    sw := s.sw.set s.lfs { acked := false, sentAt := s.now, retries := s.cfg.retryMax }, arqPhase := .txLoop }

/-- The continuation of a closing sentinel (R215); `FIN_CNT` counts 0..2 (R22, log 20). -/
def finishFin (s : State) : State :=
  let s := { s.sendReturned with finCnt := fittedUpTo 2 (s.finCnt + 1) }
  if s.finCnt = 2 then s.endCommand .ok else s

/-- `TX.START` (R208): enabled when `BUSY = 0`, between sends (R147). -/
def execTxStart (s : State) : Host.Outcome State Fault Refusal :=
  settle s (arqStep s (if s.busy then .error .hold else startSender s))

/-- `TX.SENT0` (R209). -/
def execTxSent0 (s : State) : Host.Outcome State Fault Refusal :=
  settle s (arqStep s (if s.arqPhase = .txSent0 then
    sending .txSent0 s (sendEntry .txSent0 (sentinel s.cfg s.nTx) s)
      (.ok { s.sendReturned with arqPhase := .txLoop })
  else .error .hold))

/-- `TX.LOOP` (R214), between sends (R147): the stop wins over completion (R264). -/
def execTxLoop (s : State) : Host.Outcome State Fault Refusal :=
  settle s (arqStep s (if s.arqPhase = .txLoop ∧ s.modPhase = .idle then
    if s.stopReq then .ok (stopSender s)
    else if s.lar = s.nTx then .ok { s with finCnt := 0, arqPhase := .txFin }
    else .ok { s with arqPhase := .txDrain }
  else .error .hold))

/-- `TX.DRAIN` (R210), between sends (R147). -/
def execTxDrain (s : State) : Host.Outcome State Fault Refusal :=
  settle s (arqStep s (if s.arqPhase = .txDrain ∧ s.modPhase = .idle then
    withLock .arq .fq s fun s =>
      match s.fq with
      | [] => .ok { s with arqPhase := .txSlide }
      | f :: q => takeAck f { s with fq := q }
  else .error .hold))

/-- `TX.SLIDE` (R211), between sends (R147). -/
def execTxSlide (s : State) : Host.Outcome State Fault Refusal :=
  settle s (arqStep s (if s.arqPhase = .txSlide ∧ s.modPhase = .idle then
    (slideWhile (s.lfs - s.lar) s).andThen fun s =>
      .ok ({ s with arqPhase := .txRetx }.withScan (s.lar + 1))
  else .error .hold))

/-- `TX.RETX` (R212). -/
def execTxRetx (s : State) : Host.Outcome State Fault Refusal :=
  settle s (arqStep s (if s.arqPhase = .txRetx then sending .txRetx s (examineEntry s) (finishResend s)
  else .error .hold))

/-- `TX.NEW` (R213). -/
def execTxNew (s : State) : Host.Outcome State Fault Refusal :=
  settle s (arqStep s (if s.arqPhase = .txNew then sending .txNew s (sendNew s) (.ok (finishNew s))
  else .error .hold))

/-- `TX.FIN` (R215). -/
def execTxFin (s : State) : Host.Outcome State Fault Refusal :=
  settle s (arqStep s (if s.arqPhase = .txFin then
    sending .txFin s (sendEntry .txFin (sentinel s.cfg s.nTx) s) (.ok (finishFin s))
  else .error .hold))

/-- `TX.ABORT` (R216), alone (log 4): enabled where `TX.RETX` performs it. -/
def execTxAbort (s : State) : Host.Outcome State Fault Refusal :=
  settle s (arqStep s (if s.arqPhase = .txRetx ∧ s.modPhase = .idle ∧ exhausted s then .ok (abort s)
  else .error .hold))

/-- `TX.STOP` (R217), alone (log 4): enabled at the sender's polling points with a stop requested. -/
def execTxStop (s : State) : Host.Outcome State Fault Refusal :=
  settle s (arqStep s (if senderMayStop s then .ok (stopSender s) else .error .hold))

end Sys2Proof.Machine
end

