-- ==== Sys2Proof/Machine/HostOps.lean ====
section
/-! DEFINITION. The host's commands and the timebase (spec/60_exceptions.md, spec/70_reset_and_hazards.md). -/

namespace Sys2Proof.Machine

/-- The state after `H.RESET` (R280, R45): everything but the configuration (R21) and the model's own
schedule, history, answer and counter (logs 1, 18, 19, 21). -/
def resetBlock (s : State) : State :=
  { State.resetOf s.cfg with
    sched := s.sched, events := s.events, out := s.out, frees := s.frees }

/-- `H.RESET` (R260, R280). -/
def execHReset (s : State) : Host.Outcome State Fault Refusal := .next (resetBlock s)

/-- `H.TRANSMIT(payload)` (R256): ignored while busy; too long a payload is rejected before it is stored;
`TX_LEN` has 32 bits (R22, log 20). The start waits for the end of a send in progress (R147, log 10). -/
def execHTransmit (payload : List Byte) (s : State) : Host.Outcome State Fault Refusal :=
  settle s (if s.busy then .ok s
  else if s.cfg.payloadMax < payload.length then .ok { s with result := .rejected }
  else startSender { s with txPayload := Memory.ofList payload, txLen := fitted 32 payload.length })

/-- `H.RECEIVE` (R257): ignored while busy. The start waits for the end of a send in progress (R147, log 10). -/
def execHReceive (s : State) : Host.Outcome State Fault Refusal :=
  settle s (if s.busy then .ok s else startReceiver s)

/-- `H.STOP` (R258): without effect when no command runs. -/
def execHStop (s : State) : Host.Outcome State Fault Refusal :=
  .next (if s.busy then { s with stopReq := true } else s)

/-- `H.STATUS` (R259): the word is answered. -/
def execHStatus (s : State) : Host.Outcome State Fault Refusal := .next (s.answer (.status (statusWord s)))

/-- `TB.TICK` (R269). -/
def execTbTick (s : State) : Host.Outcome State Fault Refusal := .next { s with now := s.now + 1#32 }

end Sys2Proof.Machine
end

