-- ==== Sys2Proof/Machine/Modulator.lean ====
section
/-! DEFINITION. The modulator (spec/41_modulator.md). -/

namespace Sys2Proof.Machine

/-- `MOD.BITS` (R142): each bit is `K` equal samples. -/
def modulate (c : Config) (b : List Bool) : List Sample :=
  b.flatMap fun bit => List.replicate c.k (if bit then c.a1 else c.a0)

/-- The samples of a frame (R143, R145): preamble, then `FC.ENCODE`. -/
def frameSamples (c : Config) (f : Frame) : List Sample := modulate c (c.pre ++ frameBits c f)

/-- `MOD.SEND(f)` (R141): its entry step. The waits and the emission are steps of their own. Scheduled alone it is
its own caller, and so the operation that takes the return (R147), in every `ARQ_PHASE`, IDLE among them (log 4). -/
def execModSend (f : Frame) (s : State) : Host.Outcome State Fault Refusal :=
  settle s (arqStep s (if Frame.ok s.cfg f then sending .alone s (sendEntry .alone f s) (.ok s.sendReturned)
  else .error (.refuse .badFrame)))

/-- `MOD.WAITQ` (R144): a polling point of the stop, then the carrier-sense gate. -/
def execModWaitq (s : State) : Host.Outcome State Fault Refusal :=
  settle s (arqStep s (if s.modPhase = .waitq then
    if s.stopReq then .ok (stopByRole s)
    else if s.quiet then .ok { s with modPhase := .emit }
    else .error .hold
  else .error .hold))

/-- `MOD.EMIT` (R145): the whole frame into `OUTQ` in one transaction. -/
def execModEmit (s : State) : Host.Outcome State Fault Refusal :=
  settle s (arqStep s (if s.modPhase = .emit then
    match s.txf with
    | none => .error (.fault (.noValue .txf))
    | some f =>
      if Frame.ok s.cfg f then
        withLock .arq .outq s fun s =>
          (pushOutq (frameSamples s.cfg f) s).andThen fun s =>
            .ok { s with txf := none, modPhase := .drain }
      else .error (.refuse .badFrame)
  else .error .hold))

/-- `MOD.DRAIN` (R146): a polling point of the stop, then the wait for an empty `OUTQ`. -/
def execModDrain (s : State) : Host.Outcome State Fault Refusal :=
  settle s (arqStep s (if s.modPhase = .drain then
    if s.stopReq then .ok (stopByRole s)
    else withLock .arq .outq s fun s =>
      if s.outq = [] then .ok { s with modPhase := .done } else .error .hold
  else .error .hold))

/-- `MOD.BITS(B)` (R142). -/
def execModBits (b : List Bool) (s : State) : Host.Outcome State Fault Refusal :=
  .next (s.answer (.samples (modulate s.cfg b)))

end Sys2Proof.Machine
end

