-- ==== Sys2Proof/Machine/Wire.lean ====
section
/-! DEFINITION. The four frame kinds of the opcode table (R94). The meaning of such a row is the reception of
one frame of that kind from the wire: what the demodulator does over its header, body and CRC bits
(R160 to R167, R186 b), taken as one step (log 17). The demodulator does not classify (R167): what the kinds
mean to the ARQ roles is in `TX.DRAIN` and `RX.POP`. -/

namespace Sys2Proof.Machine

/-- The header registers once the 32nd header bit is in (R160). -/
def withHeader (f : Frame) (s : State) : State :=
  { s with hdr := f.len ++ f.seq, rxLen := f.len, rxSeq := f.seq, rxCur := 0#8, rxCrc := 0#32,
           rxBody := [] }

/-- The header is in and its LENGTH is above `MAX_BODY` (R160, R101): no body or CRC bit is read. -/
def rejectHeader (f : Frame) (s : State) : State := discard ((withHeader f s).raise (.malformedHeader f.len))

/-- One frame read off the wire by a demodulator that was searching; one that is reading another frame does
not see it (R298). -/
def receiveWire (f : Frame) (crc : BitVec 32) (s : State) : Act State :=
  if s.demState = .search then
    if f.len.toNat = f.body.length then
      if s.cfg.maxBody < f.len.toNat then .ok (rejectHeader f s)
      else checkCrc { withHeader f s with rxBody := Memory.ofList f.body, rxCrc := crc }
    else .error (.refuse .badFrame)
  else .error .hold

/-- A header whose LENGTH is above `MAX_BODY` on the wire (R101): the searching demodulator rejects it; one that is
reading another frame does not see it. -/
def execOverlong (len seq : BitVec 16) (s : State) : Host.Outcome State Fault Refusal :=
  settle s (if s.demState = .search then .ok (rejectHeader { len, seq, body := [] } s) else .error .hold)

/-- A frame with the LENGTH of its body. -/
def wireFrame (seq : BitVec 16) (body : List Byte) : Frame where
  len := BitVec.ofNat 16 body.length
  seq := seq
  body := body

/-- `F.SENT` (R94, R96). -/
def execFSent (n : BitVec 16) (crc : BitVec 32) (s : State) : Host.Outcome State Fault Refusal :=
  settle s (receiveWire (wireFrame 0#16 (be16 n)) crc s)

/-- `F.ACK` (R94, R95). -/
def execFAck (seq : BitVec 16) (crc : BitVec 32) (s : State) : Host.Outcome State Fault Refusal :=
  settle s (receiveWire (wireFrame seq []) crc s)

/-- `F.DATA` (R94). -/
def execFData (seq : BitVec 16) (body : List Byte) (crc : BitVec 32) (s : State) :
    Host.Outcome State Fault Refusal :=
  settle s (receiveWire (wireFrame seq body) crc s)

/-- `F.RSV` (R94, R101): validated like any frame, ignored by both roles later. -/
def execFRsv (seq : BitVec 16) (body : List Byte) (crc : BitVec 32) (s : State) :
    Host.Outcome State Fault Refusal :=
  settle s (receiveWire (wireFrame seq body) crc s)

end Sys2Proof.Machine
end

