-- ==== Sys2Proof/Machine/Dispatch.lean ====
section
/-! DEFINITION. One arm for each operation: one direct call of its meaning. -/

namespace Sys2Proof.Machine

def exec (i : Instr) (s : State) : Host.Outcome State Fault Refusal :=
  match i with
  | .hReset => Sys2Proof.Machine.execHReset s
  | .hTransmit payload => Sys2Proof.Machine.execHTransmit payload s
  | .hReceive => Sys2Proof.Machine.execHReceive s
  | .hStop => Sys2Proof.Machine.execHStop s
  | .hStatus => Sys2Proof.Machine.execHStatus s
  | .tbTick => Sys2Proof.Machine.execTbTick s
  | .abPeriod xs => Sys2Proof.Machine.execAbPeriod xs s
  | .abIn x => Sys2Proof.Machine.execAbIn x s
  | .abOut => Sys2Proof.Machine.execAbOut s
  | .qAcq q a => Sys2Proof.Machine.execQAcq q a s
  | .qRel q a => Sys2Proof.Machine.execQRel q a s
  | .qPush v => Sys2Proof.Machine.execQPush v s
  | .qPop q => Sys2Proof.Machine.execQPop q s
  | .modSend f => Sys2Proof.Machine.execModSend f s
  | .modWaitq => Sys2Proof.Machine.execModWaitq s
  | .modEmit => Sys2Proof.Machine.execModEmit s
  | .modDrain => Sys2Proof.Machine.execModDrain s
  | .modBits b => Sys2Proof.Machine.execModBits b s
  | .demStep => Sys2Proof.Machine.execDemStep s
  | .demSearch x => Sys2Proof.Machine.execDemSearch x s
  | .demCorr => Sys2Proof.Machine.execDemCorr s
  | .demSlice x => Sys2Proof.Machine.execDemSlice x s
  | .demHeader x => Sys2Proof.Machine.execDemHeader x s
  | .demBody x => Sys2Proof.Machine.execDemBody x s
  | .demCrc x => Sys2Proof.Machine.execDemCrc x s
  | .demEmit => Sys2Proof.Machine.execDemEmit s
  | .demDiscard => Sys2Proof.Machine.execDemDiscard s
  | .fcPack len seq body => Sys2Proof.Machine.execFcPack len seq body s
  | .fcCrc32 len seq body => Sys2Proof.Machine.execFcCrc32 len seq body s
  | .fcEncode f => Sys2Proof.Machine.execFcEncode f s
  | .fcDecode b => Sys2Proof.Machine.execFcDecode b s
  | .csEval => Sys2Proof.Machine.execCsEval s
  | .txStart => Sys2Proof.Machine.execTxStart s
  | .txSent0 => Sys2Proof.Machine.execTxSent0 s
  | .txLoop => Sys2Proof.Machine.execTxLoop s
  | .txDrain => Sys2Proof.Machine.execTxDrain s
  | .txSlide => Sys2Proof.Machine.execTxSlide s
  | .txRetx => Sys2Proof.Machine.execTxRetx s
  | .txNew => Sys2Proof.Machine.execTxNew s
  | .txFin => Sys2Proof.Machine.execTxFin s
  | .txAbort => Sys2Proof.Machine.execTxAbort s
  | .txStop => Sys2Proof.Machine.execTxStop s
  | .rxStart => Sys2Proof.Machine.execRxStart s
  | .rxPop => Sys2Proof.Machine.execRxPop s
  | .rxSent f => Sys2Proof.Machine.execRxSent f s
  | .rxData f => Sys2Proof.Machine.execRxData f s
  | .rxEcho f => Sys2Proof.Machine.execRxEcho f s
  | .rxOther f => Sys2Proof.Machine.execRxOther f s
  | .rxDone => Sys2Proof.Machine.execRxDone s
  | .rxStop => Sys2Proof.Machine.execRxStop s
  | .fSent n crc => Sys2Proof.Machine.execFSent n crc s
  | .fAck seq crc => Sys2Proof.Machine.execFAck seq crc s
  | .fData seq body crc => Sys2Proof.Machine.execFData seq body crc s
  | .fRsv seq body crc => Sys2Proof.Machine.execFRsv seq body crc s

end Sys2Proof.Machine
end

