-- ==== Sys2Proof/Machine/Fetch.lean ====
section
/-! DEFINITION. Fetching: the next slot of the schedule (log 1). -/

namespace Sys2Proof.Machine

/-- The next slot and the state without it; `none` when nothing is scheduled. -/
def fetch (s : State) : Option (Packet × State) :=
  match s.sched with
  | [] => none
  | p :: rest => some (p, { s with sched := rest })

/-- The instruction of a slot. -/
def fetchDecode (s : State) (p : Packet) : Except DecodeError Instr := decode s.cfg p

/-- A slot placed where the next fetch takes it. -/
def placeNext (s : State) (p : Packet) : State := { s with sched := p :: s.sched }

end Sys2Proof.Machine
end

