-- ==== Sys2Proof/Machine/Step.lean ====
section
/-! DEFINITION. One step of the block: the scheduled agent's operation (R15). -/

namespace Sys2Proof.Machine

/-- A step: the next slot of the schedule is fetched, decoded and run. A header whose LENGTH is
above `MAX_BODY` has the effect R101 gives it (log 17). With nothing scheduled no agent steps and nothing changes
(log 1). -/
def step (s : State) : Host.Outcome State Fault Refusal :=
  match fetch s with
  | none => .next s
  | some (p, t) =>
    match fetchDecode t p with
    | .ok i => exec i t
    | .error (.overlong len seq) => execOverlong len seq t
    | .error e => .refused (.undecodable e)

/-- The state whose next step runs the instruction of an opcode-table word (log 1, log 2). -/
def State.withFetchWord (s : State) (nbits w : Nat) : State :=
  placeNext s (tablePacket s.cfg.blk nbits w)

end Sys2Proof.Machine
end

