-- ==== Sys2Proof/Safety.lean ====
section
/-! DEFINITION. What counts as a sound run: the configurations of R282, the agents' own steps, and the
invariants of R43 with what makes them inductive. -/

namespace Sys2Proof.Machine

/-! ### Configurations -/

/-- The sizes, depths and times that R9 and R282 ask for, and arrays as long as they say. -/
structure Config.Sized (c : Config) : Prop where
  k : 1 ≤ c.k
  p : 1 ≤ c.p
  pre : c.pre.length = c.p
  w : c.w.length = c.k
  maxBody : 2 ≤ c.maxBody ∧ c.maxBody ≤ 65535
  blk : 1 ≤ c.blk
  window : 1 ≤ c.windowSize
  rto : 1 ≤ c.rto ∧ c.rto < 2 ^ 31
  inDepth : c.blk ≤ c.inDepth
  outDepth : c.k * (c.p + 64 + 8 * c.maxBody) ≤ c.outDepth
  fqDepth : 1 ≤ c.fqDepth

/-- `x > y`, of two numbers: a NaN and an infinity are none (R17). -/
def above (c : Config) (x y : Sample) : Prop :=
  c.num.finite x = true ∧ c.num.finite y = true ∧ c.num.gt x y = true

/-- `x >= y`, of two numbers. -/
def atLeast (c : Config) (x y : Sample) : Prop :=
  c.num.finite x = true ∧ c.num.finite y = true ∧ c.num.gt y x = false

/-- `A1 > 0 >= A0` (R282): what a clean symbol is made of. -/
def cleanSymbols (c : Config) : Prop := above c c.a1 c.num.zero ∧ atLeast c c.num.zero c.a0

/-- The value is 0.0 (R296 a): neither above it nor below. -/
def isZero (c : Config) (x : Sample) : Prop := c.num.gt x c.num.zero = false ∧ c.num.gt c.num.zero x = false

/-- The preamble's requirements (R296): (a) it is not all zeros where `A0` is 0.0; (b) no window of `d` samples
of silence and the first `PK - d` samples of the modulated preamble matches. -/
def preambleOk (c : Config) : Prop :=
  (isZero c c.a0 → true ∈ c.pre) ∧ ∀ d, 1 ≤ d → d < c.pk →
    preambleMatch c (List.replicate d c.num.zero ++ (modulate c c.pre).take (c.pk - d)) = false

/-- Which configurations the rules speak about (R282): hypotheses, not checked by the block (log 6). That a
link's two nodes agree is outside one node. -/
structure Config.Admissible (c : Config) : Prop where
  sized : Config.Sized c
  symbols : cleanSymbols c
  weights : ∀ x ∈ c.w, atLeast c x c.num.zero
  someWeight : ∃ x ∈ c.w, above c x c.num.zero
  weightSum : c.num.finite (c.num.sum c.w) = true
  thetaBelowOnes : above c (c.num.mul (c.num.sum c.w) c.a1) c.syncTheta
  thetaAboveZeros : atLeast c c.syncTheta (c.num.mul (c.num.sum c.w) c.a0)
  noiseNotNegative : atLeast c c.noiseTh c.num.zero
  noiseBelowOnes : above c c.a1 c.noiseTh
  preamble : preambleOk c

/-- `demodulate` of R148: consecutive groups of `K` samples, the slicer on each group's plain sum. -/
def demodulate (c : Config) (xs : List Sample) : List Bool :=
  (List.range (xs.length / c.k)).map fun i => slice c.num (c.num.sum ((xs.drop (i * c.k)).take c.k))

/-- `S_i` of R157, index by index: the weighted sum of the `i`-th group of `K` samples, oldest first. -/
def groupSum (c : Config) (xs : List Sample) (i : Nat) : Sample :=
  (List.range c.k).foldl
    (fun acc j => c.num.add acc
      (c.num.mul (c.w.getD j c.num.zero) (xs.getD (i * c.k + j) c.num.zero))) c.num.zero

/-- One entry of the table-driven CRC (R185): the inner loop of R182 run eight times. -/
def crcTable (n : Byte) : BitVec 32 := crcBits 8 (n.zeroExtend 32)

/-- The table-driven CRC (R185). -/
def crcByTable (bytes : List Byte) : BitVec 32 :=
  bytes.foldl (fun (c : BitVec 32) (b : Byte) => crcTable (c.extractLsb' 0 8 ^^^ b) ^^^ (c >>> 8))
    0xFFFFFFFF#32 ^^^ 0xFFFFFFFF#32

/-- A bit sequence with the bit at `i` inverted. -/
def flipAt (b : List Bool) (i : Nat) : List Bool := b.modify i (!·)

/-! ### Reset -/

/-- The values R45 lists, of an instance with configuration `c`. The cells R45 leaves unspecified are not among
them. -/
structure ResetValues (c : Config) (t : State) : Prop where
  cfg : t.cfg = c
  queues : t.inq = [] ∧ t.outq = [] ∧ t.fq = []
  locks : t.lockInq = none ∧ t.lockOutq = none ∧ t.lockFq = none
  sensor : t.sh.length = c.pk ∧ (∀ x ∈ t.sh, x = c.num.zero) ∧ t.quiet = false
  overflow : t.inOvf = false ∧ t.fqOvf = false
  dem : t.demState = .search ∧ t.wfill = 0 ∧ t.acc = c.num.zero ∧ t.scnt = 0 ∧ t.bcnt = 0
  header : t.hdr = 0#32 ∧ t.rxLen = 0#16 ∧ t.rxSeq = 0#16 ∧ t.rxCur = 0#8 ∧ t.rxCrc = 0#32
  modulator : t.txfValid = false ∧ t.modPhase = .idle
  time : t.now = 0#32
  arq : t.arqPhase = .idle ∧ t.busy = false ∧ t.role = .sender ∧ t.stopReq = false ∧ t.result = .none
  sender : t.nTx = 0 ∧ t.lar = 0 ∧ t.lfs = 0 ∧ t.scan = 0 ∧ t.finCnt = 0 ∧ t.sw = []
  receiver : t.lfr = 0 ∧ t.nExp = 0 ∧ t.countKnown = false ∧ t.rb = []
  lengths : t.txLen = 0 ∧ t.rxPayloadLen = 0

/-- The operations of `ARQ` outside the gate (R15, R140): what `ARQ` may not do while it holds a lock. -/
def arqOperation : Instr → Bool
  | .modSend _ | .modWaitq | .modEmit | .modDrain => true
  | .txStart | .txSent0 | .txLoop | .txDrain | .txSlide | .txRetx | .txNew | .txFin | .txAbort | .txStop => true
  | .rxStart | .rxPop | .rxSent _ | .rxData _ | .rxDone | .rxStop => true
  | .rxEcho _ | .rxOther _ => false
  | .hReset | .hTransmit _ | .hReceive | .hStop | .hStatus | .tbTick => false
  | .abPeriod _ | .abIn _ | .abOut | .qAcq _ _ | .qRel _ _ | .qPush _ | .qPop _ => false
  | .modBits _ | .demStep | .demSearch _ | .demCorr | .demSlice _ | .demHeader _ | .demBody _ | .demCrc _
  | .demEmit | .demDiscard => false
  | .fcPack _ _ _ | .fcCrc32 _ _ _ | .fcEncode _ | .fcDecode _ | .csEval => false
  | .fSent _ _ | .fAck _ _ | .fData _ _ _ | .fRsv _ _ _ => false

/-! ### Locks -/

/-- Agent `a` may start a transaction on `q`: the queue is free and the agent holds no lock (R122, R75). -/
def State.gateOpen (s : State) (a : Agent) (q : QueueId) : Prop :=
  s.lock q = none ∧ s.holdsAny a = false

/-- Agent `a` waits at the gate of `q`: another agent is inside, and `a` holds no lock (R122). -/
def State.gateShut (s : State) (a : Agent) (q : QueueId) : Prop :=
  s.lock q ≠ none ∧ s.holdsAny a = false

/-! ### The agents' steps -/

/-- The operations that are steps of an agent by themselves (R15, R104): host commands, the timebase, the
audio boundary, the gate, `DEM.STEP`, the modulator's three steps, the sequencer's steps; the frames of the
medium (log 17) and the pure functions. The others are parts of these (log 4); `RX.DATA` is a step of its own
only in its continuation (R234). -/
def agentStep (i : Instr) (s : State) : Bool :=
  match i with
  | .hReset | .hTransmit _ | .hReceive | .hStop | .hStatus | .tbTick => true
  | .abPeriod _ | .abIn _ | .abOut | .csEval => true
  | .qAcq _ _ | .qRel _ _ => true
  | .qPush _ | .qPop _ => false
  | .modSend _ => false
  | .modWaitq | .modEmit | .modDrain | .modBits _ => true
  | .demStep => true
  | .demSearch _ | .demCorr | .demHeader _ | .demBody _ | .demCrc _ | .demEmit | .demDiscard => false
  | .demSlice _ => true
  | .fcPack _ _ _ | .fcCrc32 _ _ _ | .fcEncode _ | .fcDecode _ => true
  | .txStart | .txAbort | .txStop => false
  | .txSent0 | .txLoop | .txDrain | .txSlide | .txRetx | .txNew | .txFin => true
  | .rxStart | .rxSent _ | .rxDone | .rxStop => false
  | .rxPop | .rxEcho _ | .rxOther _ => true
  | .rxData _ => s.arqPhase = .rxAck
  | .fSent _ _ | .fAck _ _ | .fData _ _ _ | .fRsv _ _ _ => true

/-! ### Invariants of every operation -/

/-- No two locks are held by one agent (R75). -/
def oneLockEach (s : State) : Prop :=
  (s.lockInq = none ∨ s.lockInq ≠ s.lockOutq) ∧ (s.lockInq = none ∨ s.lockInq ≠ s.lockFq) ∧
    (s.lockOutq = none ∨ s.lockOutq ≠ s.lockFq)

/-- Every register keeps its width and range (R22, R35, R36, R37). -/
structure WidthInv (s : State) : Prop where
  wfill : s.wfill ≤ s.cfg.pk
  scnt : s.scnt = 0 ∨ s.scnt < s.cfg.k
  bcnt : s.bcnt < 2 ^ 20
  txLen : s.txLen < 2 ^ 32
  nTx : s.nTx < 2 ^ 16
  lar : s.lar < 2 ^ 16
  lfs : s.lfs < 2 ^ 16
  scan : s.scan < 2 ^ 16
  finCnt : s.finCnt ≤ 2
  retries : ∀ m e, s.sw.get m = some e → e.retries ≤ s.cfg.retryMax
  lfr : s.lfr < 2 ^ 16
  nExp : s.nExp < 2 ^ 16
  keys : ∀ m b, s.rb.get m = some b → m < 2 ^ 16
  rxPayloadLen : s.rxPayloadLen < 2 ^ 32

/-- A period in progress has at most `BLK` samples to come in and `BLK` put out, and puts none out before all
are in (R131). -/
def periodInv (s : State) : Prop :=
  ∀ p, s.period = some p →
    p.ins.length ≤ s.cfg.blk ∧ p.outs.length ≤ s.cfg.blk ∧ (p.ins ≠ [] → p.outs = []) ∧
      ∀ x ∈ p.ins, s.cfg.num.finite x = true

/-- The storage is well formed: every indexed space has its one form, every register its width, no queue
exceeds its capacity, the sensing history has `PK` samples, an agent holds at most one lock (R22, R24, R40, R43,
R75). -/
structure StoreInv (s : State) : Prop where
  inq : s.inq.length ≤ s.cfg.inDepth
  outq : s.outq.length ≤ s.cfg.outDepth
  fq : s.fq.length ≤ s.cfg.fqDepth
  sh : s.sh.length = s.cfg.pk
  locks : oneLockEach s
  win : s.win.wf
  rxBody : s.rxBody.wf
  sw : s.sw.wf
  rb : s.rb.wf
  txPayload : s.txPayload.wf
  rxPayload : s.rxPayload.wf
  widths : WidthInv s
  period : periodInv s

/-! ### Invariants of the agents' steps -/

/-- The phases of the sender's procedure (R29). -/
def ArqPhase.isTx : ArqPhase → Bool
  | .txSent0 | .txLoop | .txDrain | .txSlide | .txRetx | .txNew | .txFin => true
  | .idle | .rxPop | .rxAck => false

/-- The phases of the receiver's procedure (R29). -/
def ArqPhase.isRx : ArqPhase → Bool
  | .rxPop | .rxAck => true
  | .idle | .txSent0 | .txLoop | .txDrain | .txSlide | .txRetx | .txNew | .txFin => false

/-- The phases in which no send is in progress (R43). -/
def ArqPhase.noSend : ArqPhase → Bool
  | .idle | .txLoop | .txDrain | .txSlide | .rxPop => true
  | .txSent0 | .txRetx | .txNew | .txFin | .rxAck => false

/-- A transmit command runs. -/
def State.sending (s : State) : Prop := s.busy = true ∧ s.role = .sender

/-- A receive command runs. -/
def State.receiving (s : State) : Prop := s.busy = true ∧ s.role = .receiver

/-- The rule whose send runs in a phase (R141). -/
def ArqPhase.caller : ArqPhase → Option Caller
  | .txSent0 => some .txSent0
  | .txRetx => some .txRetx
  | .txNew => some .txNew
  | .txFin => some .txFin
  | .rxAck => some .rxData
  | .idle | .txLoop | .txDrain | .txSlide | .rxPop => none

/-- The sequencers agree: `BUSY`, `ROLE`, `ARQ_PHASE`, `MOD_PHASE`, `TXF`, the caller (R26, R29, R30, R43, R147). -/
structure PhaseInv (s : State) : Prop where
  busy : s.busy = false ↔ s.arqPhase = .idle
  tx : s.arqPhase.isTx = true → s.role = .sender
  rx : s.arqPhase.isRx = true → s.role = .receiver
  quietPhases : s.arqPhase.noSend = true → s.modPhase = .idle
  ack : s.arqPhase = .rxAck → s.modPhase ≠ .idle
  txf : s.txf.isSome = true ↔ s.modPhase = .waitq ∨ s.modPhase = .emit
  frame : ∀ f, s.txf = some f → Frame.ok s.cfg f = true
  caller : s.caller = if s.modPhase = .idle then none else s.arqPhase.caller

/-- The demodulator's registers agree with its state (R22, R23, R28, R43, R44). -/
structure DemInv (s : State) : Prop where
  wfill : s.wfill ≤ s.cfg.pk
  empty : s.demState ≠ .search → s.wfill = 0
  win : ∀ i, (s.win.get i).isSome = true ↔ i < s.wfill
  scnt : s.scnt < s.cfg.k
  search : s.demState = .search → s.scnt = 0 ∧ s.bcnt = 0 ∧ s.acc = s.cfg.num.zero
  header : s.demState = .header → s.bcnt < 32
  body : s.demState = .body →
    s.rxLen.toNat ≤ s.cfg.maxBody ∧ s.bcnt < 8 * s.rxLen.toNat ∧
      ∀ i, i < s.bcnt / 8 → (s.rxBody.get i).isSome = true
  crc : s.demState = .crc →
    s.rxLen.toNat ≤ s.cfg.maxBody ∧ s.bcnt < 32 ∧
      ∀ i, i < s.rxLen.toNat → (s.rxBody.get i).isSome = true
  fq : ∀ f, f ∈ s.fq → Frame.ok s.cfg f = true

/-- `SW` lacks the entry of `LFS` while the send inside `TX.NEW` runs (R36). -/
def State.newInFlight (s : State) : Prop := s.arqPhase = .txNew ∧ s.modPhase ≠ .idle

/-- The sender's cursors, its window and its buffer (R35, R36, R39, R43, R207, R212, R218). -/
structure SendInv (s : State) : Prop where
  order : s.lar ≤ s.lfs ∧ s.lfs ≤ s.nTx ∧ s.nTx ≤ s.cfg.seqMax
  window : s.lfs - s.lar ≤ s.cfg.windowSize
  domain : s.sending → ∀ m, (s.sw.get m).isSome = true ↔
    s.lar < m ∧ m ≤ s.lfs ∧ ¬ (s.newInFlight ∧ m = s.lfs)
  idle : ¬ s.sending → s.sw = []
  retries : ∀ m e, s.sw.get m = some e → e.retries ≤ s.cfg.retryMax
  newest : s.newInFlight → s.lar < s.lfs
  scan : s.arqPhase = .txRetx → s.lar < s.scan ∧ s.scan ≤ s.lfs + 1
  resend : s.arqPhase = .txRetx → s.modPhase ≠ .idle →
    ∃ e, s.sw.get s.scan = some e ∧ e.acked = false ∧ 1 ≤ e.retries
  fin : s.arqPhase = .txFin → s.lar = s.nTx ∧ s.finCnt < 2
  count : s.sending → s.nTx = segments s.cfg s.txLen
  payload : s.sending → ∀ i, i < s.txLen → (s.txPayload.get i).isSome = true

/-- The receiver's reassembly buffer and cursor (R37, R38, R43). -/
structure ReceiveInv (s : State) : Prop where
  keys : ∀ m b, s.rb.get m = some b → 1 ≤ m ∧ m ≤ s.cfg.seqMax ∧ 1 ≤ b.length ∧ b.length ≤ s.cfg.maxBody
  lfr : s.lfr ≤ s.cfg.seqMax
  below : s.receiving → ∀ m, 1 ≤ m → m ≤ s.lfr → (s.rb.get m).isSome = true
  next : s.receiving → s.rb.get (s.lfr + 1) = none
  idle : ¬ s.receiving → s.rb = []

/-- R43 for the agents' steps, with what makes it inductive (log 23). -/
structure LinkInv (s : State) : Prop where
  store : StoreInv s
  phase : PhaseInv s
  dem : DemInv s
  send : SendInv s
  receive : ReceiveInv s

/-- `OUTQ` is empty unless a frame is draining (R43); a stop taken in `DRAIN` breaks it (R262). -/
def outqDrained (s : State) : Prop := s.modPhase ≠ .drain → s.outq = []

/-! ### Frames from the wire -/

/-- The instruction `i` is the reception of the frame `f` with the CRC field `crc` (R94): `f.len` counts the body. -/
def carriesFrame (i : Instr) (f : Frame) (crc : BitVec 32) : Prop :=
  f.body.length < 2 ^ 16 ∧ f.len = BitVec.ofNat 16 f.body.length ∧
    ((∃ n : BitVec 16, i = .fSent n crc ∧ f.seq = 0#16 ∧
        f.body = [BitVec.ofNat 8 (n.toNat / 256), BitVec.ofNat 8 n.toNat]) ∨
      (i = .fAck f.seq crc ∧ f.body = []) ∨ i = .fData f.seq f.body crc ∨ i = .fRsv f.seq f.body crc)

/-! ### Runs of one operation -/

/-- `n` times the same operation, stopping at the first fault or refusal. -/
def repeatOp (i : Instr) : Nat → State → Host.Outcome State Fault Refusal
  | 0, s => .next s
  | n + 1, s =>
    match exec i s with
    | .next t => repeatOp i n t
    | .fault r => .fault r
    | .refused r => .refused r

end Sys2Proof.Machine
end

