-- ==== Sys2Proof/WellFormed.lean ====
section
/-! DEFINITION. Which instructions are well formed: the operand ranges that the encodings of R90, R94
and R98 can carry. -/

namespace Sys2Proof

/-- A byte or bit string's length fits the 32-bit count of the operand layout (log 2). -/
def lengthFits {α : Type} (l : List α) : Bool := l.length < 2 ^ 32

/-- A frame record's body fits the operand layout; its `len` may differ from the body's length, which the
rules then refuse (R183). -/
def Frame.wf (f : Frame) : Bool := lengthFits f.body

/-- The operand of `Q.PUSH`. -/
def QElem.wf : QElem → Bool
  | .inq _ => true
  | .outq _ => true
  | .fq f => f.wf

/-- A sequence pattern with a magnitude in 1..32767 (R92, R94). -/
def seqHasMagnitude (seq : BitVec 16) : Bool := seq != 0#16 && seq != 0x8000#16

/-- Well-formed instructions under a configuration: `AB.PERIOD` carries `BLK` samples (R131); a wire frame
meets the header constraint of its kind (R94, R105, the table's rows: no LENGTH is above `MAX_BODY`, a data frame's
is at least 1) and has a body that a 16-bit LENGTH can count. -/
def Instr.wf (c : Config) : Instr → Bool
  | .hReset | .hReceive | .hStop | .hStatus | .tbTick => true
  | .hTransmit payload => lengthFits payload
  | .abPeriod xs => xs.length == c.blk
  | .abIn _ | .abOut | .qAcq _ _ | .qRel _ _ | .qPop _ => true
  | .qPush v => v.wf
  | .modSend f => f.wf
  | .modWaitq | .modEmit | .modDrain => true
  | .modBits b => lengthFits b
  | .demStep | .demSearch _ | .demCorr | .demSlice _ | .demHeader _ | .demBody _ | .demCrc _
  | .demEmit | .demDiscard => true
  | .fcPack _ _ body => lengthFits body
  | .fcCrc32 _ _ body => lengthFits body
  | .fcEncode f => f.wf
  | .fcDecode b => lengthFits b
  | .csEval => true
  | .txStart | .txSent0 | .txLoop | .txDrain | .txSlide | .txRetx | .txNew | .txFin | .txAbort
  | .txStop => true
  | .rxStart | .rxPop | .rxDone | .rxStop => true
  | .rxSent f => f.wf
  | .rxData f => f.wf
  | .rxEcho f => f.wf
  | .rxOther f => f.wf
  | .fSent _ _ => c.sentLen.val ≤ c.maxBody
  | .fAck seq _ => seqHasMagnitude seq
  | .fData seq body _ =>
      seqHasMagnitude seq && (1 ≤ body.length && body.length ≤ c.maxBody && body.length < 2 ^ 16)
  | .fRsv seq body _ =>
      body.length ≤ c.maxBody && body.length < 2 ^ 16 &&
        (seq == 0x8000#16 || (seq == 0#16 && body.length != c.sentLen.val))

end Sys2Proof
end

