-- ==== Sys2Proof/Certificates/Slice0/Obligations.lean ====
section
/-! DEFINITION. The statements for the provers. Where a statement's hypothesis is an open gate
(`State.gateOpen`), the operation contains a locked transaction; what happens at a shut gate is
`TransactionsWaitAtAShutGate`. -/

open Sys2Proof Sys2Proof.Machine

/-! ### Host commands and the timebase -/

/-- R45: `H.RESET`, in any state, and power-on leave the listed values; the configuration registers keep
theirs. -/
def Obligations.ResetLeavesTheResetValues : Prop :=
  (∀ s : State, ∃ t, exec .hReset s = .next t ∧ ResetValues s.cfg t) ∧
  ∀ c : Config, ResetValues c (State.resetOf c)

/-- R256, R208: `H.TRANSMIT` is ignored while busy, too long a payload sets `RESULT` and nothing else, and
otherwise the payload is stored and the sender started; `TX.START` alone, for a stored payload: too many frames
set `RESULT` and nothing else. The flush of `FQ` waits for its lock (log 16), and the start for the end of a send in
progress (`OneSendAtATime`). `MAX_BODY` is in the range of R9. -/
def Obligations.TransmitStoresThePayloadAndStartsTheSender : Prop :=
  ∀ s : State, 1 ≤ s.cfg.maxBody → s.cfg.maxBody ≤ 65535 →
    (∀ payload : List Byte,
      (s.busy = true → exec (.hTransmit payload) s = .next s) ∧
      (s.busy = false → s.cfg.payloadMax < payload.length →
        exec (.hTransmit payload) s = .next { s with result := .rejected }) ∧
      (s.busy = false → payload.length ≤ s.cfg.payloadMax → s.modPhase = .idle → s.gateOpen .arq .fq →
        ∃ m : Memory Byte, (∀ i, m.get i = payload[i]?) ∧
          exec (.hTransmit payload) s = .next
            { s with txPayload := m, txLen := payload.length,
                     busy := true, role := .sender, stopReq := false, result := .none, fq := [],
                     nTx := (payload.length + s.cfg.maxBody - 1) / s.cfg.maxBody,
                     lar := 0, lfs := 0, scan := 0, finCnt := 0, sw := [], arqPhase := .txSent0 })) ∧
    (s.busy = false → s.modPhase = .idle → s.holdsAny .arq = false →
      32767 < (s.txLen + s.cfg.maxBody - 1) / s.cfg.maxBody →
      exec .txStart s = .next { s with result := .rejected }) ∧
    (s.busy = false → s.modPhase = .idle → s.gateOpen .arq .fq →
      (s.txLen + s.cfg.maxBody - 1) / s.cfg.maxBody ≤ 32767 → exec .txStart s = .next
        { s with busy := true, role := .sender, stopReq := false, result := .none, fq := [],
                 nTx := (s.txLen + s.cfg.maxBody - 1) / s.cfg.maxBody,
                 lar := 0, lfs := 0, scan := 0, finCnt := 0, sw := [], arqPhase := .txSent0 })

/-- R257, R231: a receive command starts, from the host or alone; the host's is ignored while busy. The
start waits for the end of a send in progress (`OneSendAtATime`). Nothing is said of `RX_PAYLOAD`, which has no meaning
from here on (R44). -/
def Obligations.ReceiveStartsTheReceiver : Prop :=
  ∀ s : State,
    (s.busy = true → exec .hReceive s = .next s) ∧
    (s.busy = false → s.modPhase = .idle → s.gateOpen .arq .fq → ∀ i ∈ [Instr.hReceive, Instr.rxStart],
      ∃ m : Memory Byte, exec i s = .next
        { s with busy := true, role := .receiver, stopReq := false, result := .none, fq := [], rb := [],
                 lfr := 0, nExp := 0, countKnown := false, rxPayload := m, rxPayloadLen := 0,
                 arqPhase := .rxPop })

/-- R259, R32: the status word bit by bit; it is answered (log 19) and nothing else changes. -/
def Obligations.StatusWordHoldsTheFlags : Prop :=
  ∀ s : State, ∃ w : BitVec 32, exec .hStatus s = .next { s with out := .status w } ∧
    w.getLsbD 0 = s.busy ∧ w.getLsbD 1 = (s.role == .receiver) ∧ w.getLsbD 2 = s.quiet ∧
    w.getLsbD 3 = s.stopReq ∧ w.getLsbD 4 = s.inOvf ∧ w.getLsbD 5 = s.fqOvf ∧
    (w >>> 6).toNat = (match s.result with
      | .none => 0 | .ok => 1 | .linkError => 2 | .stopped => 3 | .rejected => 4)

/-- R258, R269: `H.STOP` sets `STOP_REQ` while a command runs and does nothing else or otherwise; a tick counts `NOW`
up modulo 2^32. -/
def Obligations.StopRequestsAndTicks : Prop :=
  ∀ s : State,
    (s.busy = true → exec .hStop s = .next { s with stopReq := true }) ∧
    (s.busy = false → exec .hStop s = .next s) ∧
    ∃ n : BitVec 32, exec .tbTick s = .next { s with now := n } ∧ n.toNat = (s.now.toNat + 1) % 2 ^ 32

/-! ### The gate, the queues and the audio boundary -/

/-- R122, R123: a free queue is taken, a queue of one's own is given back; a release by another agent is
refused, and so is an acquisition by an agent that holds a lock. -/
def Obligations.LocksAreTakenAndGivenBack : Prop :=
  ∀ (s : State) (q : QueueId) (a : Agent),
    (s.gateOpen a q → ∃ t, exec (.qAcq q a) s = .next t ∧ t.lock q = some a ∧
      (∀ r, r ≠ q → t.lock r = s.lock r) ∧
      t = { s with lockInq := t.lockInq, lockOutq := t.lockOutq, lockFq := t.lockFq }) ∧
    (s.lock q = some a → ∃ t, exec (.qRel q a) s = .next t ∧ t.lock q = none ∧
      (∀ r, r ≠ q → t.lock r = s.lock r) ∧
      t = { s with lockInq := t.lockInq, lockOutq := t.lockOutq, lockFq := t.lockFq }) ∧
    (s.lock q ≠ some a → exec (.qRel q a) s = .refused .lockNotHeld) ∧
    (s.holdsAny a = true → exec (.qAcq q a) s = .refused .lockDiscipline)

/-- R122, R124, R75, R127 with the model's choices of logs 3, 10, 11, 12, 13, 14, 16 and 17: an agent whose next
step is a transaction on a queue that another agent has locked takes no step, in each operation that contains
one; and while `ARQ` itself holds a lock, every operation of `ARQ` outside the gate is refused (log 11). Those that
also wait for the end of a send (`OneSendAtATime`) are taken between sends. -/
def Obligations.TransactionsWaitAtAShutGate : Prop :=
  ∀ s : State,
    (∀ q a, s.gateShut a q → exec (.qAcq q a) s = .next s) ∧
    (∀ x, s.gateShut .ab .inq → s.cfg.num.finite x = true → exec (.abIn x) s = .next s) ∧
    (s.gateShut .ab .outq → exec .abOut s = .next s) ∧
    (∀ xs, s.gateShut .ab .inq → s.period = none → xs.length = s.cfg.blk → 1 ≤ s.cfg.blk →
      (∀ x ∈ xs, s.cfg.num.finite x = true) → exec (.abPeriod xs) s = .next s) ∧
    (∀ xs x rest outs, s.gateShut .ab .inq → s.period = some { ins := x :: rest, outs := outs } →
      s.cfg.num.finite x = true → exec (.abPeriod xs) s = .next s) ∧
    (∀ xs outs, s.gateShut .ab .outq → s.period = some { ins := [], outs := outs } →
      outs.length < s.cfg.blk → exec (.abPeriod xs) s = .next s) ∧
    (s.gateShut .arq .fq → s.busy = false → s.modPhase = .idle →
      ∀ i ∈ [Instr.hReceive, Instr.rxStart], exec i s = .next s) ∧
    (∀ payload, s.gateShut .arq .fq → s.busy = false → s.modPhase = .idle → 1 ≤ s.cfg.maxBody →
      s.cfg.maxBody ≤ 65535 → payload.length ≤ s.cfg.payloadMax → exec (.hTransmit payload) s = .next s) ∧
    (s.gateShut .arq .fq → s.busy = false → s.modPhase = .idle →
      (s.txLen + s.cfg.maxBody - 1) / s.cfg.maxBody ≤ 32767 → exec .txStart s = .next s) ∧
    (s.gateShut .dem .inq → exec .demStep s = .next s) ∧
    (∀ body, s.gateShut .dem .fq → s.rxBody.range 0 s.rxLen.toNat = some body →
      exec .demEmit s = .next s ∧
      ∀ x, s.cfg.k ≤ s.scnt + 1 → s.bcnt + 1 = 32 →
        crc32 s.cfg s.rxLen s.rxSeq body = (s.rxCrc <<< 1) |||
          (BitVec.ofBool (s.cfg.num.gt (s.cfg.num.add s.acc x) s.cfg.num.zero)).zeroExtend 32 →
        exec (.demCrc x) s = .next s ∧
        ∀ l, s.gateOpen .dem .inq → s.inq = x :: l → s.demState = .crc → exec .demStep s = .next s) ∧
    (∀ i f crc, s.gateShut .dem .fq → s.demState = .search → carriesFrame i f crc →
      f.body.length ≤ s.cfg.maxBody → crc = crc32 s.cfg f.len f.seq f.body → exec i s = .next s) ∧
    (s.gateShut .arq .fq → s.arqPhase = .txDrain → s.modPhase = .idle → exec .txDrain s = .next s) ∧
    (s.gateShut .arq .fq → s.arqPhase = .rxPop → s.modPhase = .idle → s.stopReq = false →
      exec .rxPop s = .next s) ∧
    (s.gateShut .arq .outq → s.modPhase = .drain → s.stopReq = false → exec .modDrain s = .next s) ∧
    (∀ f, s.gateShut .arq .outq → s.modPhase = .emit → s.txf = some f → Frame.ok s.cfg f = true →
      exec .modEmit s = .next s) ∧
    (∀ i, arqOperation i = true → s.holdsAny .arq = true → exec i s = .refused .lockDiscipline)

/-- R125, R63: a push inside a transaction appends at the tail; a full `INQ` or `FQ` drops the element and sets
its sticky flag. The pushing agent is the queue's producer (log 15). That a push beyond `OUT_DEPTH`, and a push
without the lock, are REFUSED is the model's choice (log 24), and so is that a frame record whose `len` is not
its body's length is queued as it is (log 28). -/
def Obligations.PushAppendsAtTheTail : Prop :=
  ∀ s : State,
    (∀ x, s.lockInq = some .ab →
      (s.inq.length < s.cfg.inDepth → exec (.qPush (.inq x)) s = .next { s with inq := s.inq ++ [x] }) ∧
      (s.cfg.inDepth ≤ s.inq.length → exec (.qPush (.inq x)) s =
        .next { s with inOvf := true, events := s.events ++ [.inOverflow] })) ∧
    (∀ x, s.lockOutq = some .arq →
      (s.outq.length < s.cfg.outDepth → exec (.qPush (.outq x)) s = .next { s with outq := s.outq ++ [x] }) ∧
      (s.cfg.outDepth ≤ s.outq.length → exec (.qPush (.outq x)) s = .refused .outqOverflow)) ∧
    (∀ f, s.lockFq = some .dem →
      (s.fq.length < s.cfg.fqDepth → exec (.qPush (.fq f)) s = .next { s with fq := s.fq ++ [f] }) ∧
      (s.cfg.fqDepth ≤ s.fq.length → exec (.qPush (.fq f)) s =
        .next { s with fqOvf := true, events := s.events ++ [.fqOverflow] })) ∧
    (∀ v, s.lock (queueOf v) ≠ some (producer (queueOf v)) → exec (.qPush v) s = .refused .lockNotHeld)

/-- R130: a pop inside a transaction removes the head and answers it (log 19). That a pop of an empty queue, and a
pop without the lock, are REFUSED is the model's choice (log 24): R130 only says that the pop requires them. -/
def Obligations.PopRemovesTheHead : Prop :=
  ∀ s : State,
    (∀ x l, s.lockInq = some .dem → s.inq = x :: l →
      exec (.qPop .inq) s = .next { s with inq := l, out := .sample x }) ∧
    (∀ x l, s.lockOutq = some .ab → s.outq = x :: l →
      exec (.qPop .outq) s = .next { s with outq := l, out := .sample x }) ∧
    (∀ f l, s.lockFq = some .arq → s.fq = f :: l →
      exec (.qPop .fq) s = .next { s with fq := l, out := .frame f }) ∧
    (s.lockInq = some .dem → s.inq = [] → exec (.qPop .inq) s = .refused .popEmpty) ∧
    (s.lockOutq = some .ab → s.outq = [] → exec (.qPop .outq) s = .refused .popEmpty) ∧
    (s.lockFq = some .arq → s.fq = [] → exec (.qPop .fq) s = .refused .popEmpty) ∧
    (∀ q, s.lock q ≠ some (consumer q) → exec (.qPop q) s = .refused .lockNotHeld)

/-- R128, R17: `SH` shifts by one and takes `x` at its newest place whether or not `INQ` takes it; a full `INQ`
drops it and sets `IN_OVF`; a NaN or an infinity is refused. -/
def Obligations.InboundSampleEntersHistoryAndQueue : Prop :=
  ∀ (s : State) (x : Sample),
    (s.cfg.num.finite x = true → s.gateOpen .ab .inq → s.sh.length = s.cfg.pk → 1 ≤ s.cfg.pk →
      ∃ sh : List Sample, sh.length = s.cfg.pk ∧ (∀ i, i < s.cfg.pk - 1 → sh[i]? = s.sh[i + 1]?) ∧
        sh[s.cfg.pk - 1]? = some x ∧
        (s.inq.length < s.cfg.inDepth →
          exec (.abIn x) s = .next { s with sh := sh, inq := s.inq ++ [x] }) ∧
        (s.cfg.inDepth ≤ s.inq.length →
          exec (.abIn x) s =
            .next { s with sh := sh, inOvf := true, events := s.events ++ [.inOverflow] })) ∧
    (s.cfg.num.finite x = false → exec (.abIn x) s = .refused .nonFiniteSample)

/-- R129: the head of `OUTQ`, or 0.0 and no change of the queue; the sample is answered (log 19). -/
def Obligations.OutboundSampleIsTheHeadOrSilence : Prop :=
  ∀ s : State, s.gateOpen .ab .outq →
    (∀ y l, s.outq = y :: l → exec .abOut s = .next { s with outq := l, out := .sample y }) ∧
    (s.outq = [] → exec .abOut s = .next { s with out := .sample s.cfg.num.zero })

/-- R131: the parts of an audio period, each a step of its own (log 14 for who supplies the operand): a sample in,
`BLK` times, then a sample out, `BLK` times, then the sensing; and what `2 * BLK + 1` of them in a row leave, in
closed form. -/
def Obligations.AudioPeriodMovesABlockEachWay : Prop :=
  ∀ (s : State) (xs : List Sample),
    (s.period = none → xs.length = s.cfg.blk → 1 ≤ s.cfg.blk → (∀ x ∈ xs, s.cfg.num.finite x = true) →
      s.gateOpen .ab .inq →
      exec (.abPeriod xs) s = exec (.abPeriod xs) { s with period := some { ins := xs, outs := [] } }) ∧
    (∀ x rest outs, s.period = some { ins := x :: rest, outs := outs } → s.cfg.num.finite x = true →
      s.gateOpen .ab .inq → ∃ u, exec (.abIn x) s = .next u ∧
        exec (.abPeriod xs) s = .next { u with period := some { ins := rest, outs := outs } }) ∧
    (∀ outs, s.period = some { ins := [], outs := outs } → outs.length < s.cfg.blk → s.gateOpen .ab .outq →
      ∃ u y, exec .abOut s = .next u ∧ u.out = .sample y ∧ exec (.abPeriod xs) s =
        .next { u with out := s.out, period := some { ins := [], outs := outs ++ [y] } }) ∧
    (∀ outs, s.period = some { ins := [], outs := outs } → s.cfg.blk ≤ outs.length →
      ∃ u, exec .csEval s = .next u ∧
        exec (.abPeriod xs) s = .next { u with period := none, out := .samples outs }) ∧
    (s.period = none → xs.length = s.cfg.blk → 1 ≤ s.cfg.blk → (∀ x ∈ xs, s.cfg.num.finite x = true) →
      s.gateOpen .ab .inq → s.gateOpen .ab .outq → s.inq.length ≤ s.cfg.inDepth →
      ∃ t, repeatOp (.abPeriod xs) (2 * s.cfg.blk + 1) s = .next t ∧
        t.inq = (s.inq ++ xs).take s.cfg.inDepth ∧
        t.inOvf = (s.inOvf || decide (s.cfg.inDepth < s.inq.length + xs.length)) ∧
        t.events = s.events ++
          List.replicate (s.inq.length + xs.length - s.cfg.inDepth) Event.inOverflow ∧
        t.sh = (s.sh ++ xs).drop xs.length ∧
        t.outq = s.outq.drop s.cfg.blk ∧
        t.out = .samples ((s.outq ++ List.replicate s.cfg.blk s.cfg.num.zero).take s.cfg.blk) ∧
        (t.quiet = true ↔ ∀ x ∈ t.sh, s.cfg.num.gt (s.cfg.num.abs x) s.cfg.noiseTh = false) ∧
        t = { s with inq := t.inq, inOvf := t.inOvf, events := t.events, sh := t.sh, outq := t.outq,
                     out := t.out, quiet := t.quiet })

/-- R61: in every step each queue only loses elements at its head or only gains elements at its tail; nothing
is reordered, duplicated or taken from the middle. -/
def Obligations.QueuesAreFirstInFirstOut : Prop :=
  ∀ (i : Instr) (s t : State), exec i s = .next t →
    ((∃ n, t.inq = s.inq.drop n) ∨ ∃ l, t.inq = s.inq ++ l) ∧
    ((∃ n, t.outq = s.outq.drop n) ∨ ∃ l, t.outq = s.outq ++ l) ∧
    ((∃ n, t.fq = s.fq.drop n) ∨ ∃ l, t.fq = s.fq ++ l)

/-! ### The modulator -/

/-- R141, R147, R30: the entry hands the frame over, between sends only; while a send is in progress no rule of `ARQ`
runs but the modulator's steps and, at its end, its caller's continuation. `MOD.SEND` scheduled alone is its own caller
(log 4); a rule that is not enabled holds (log 3), the start of a command among them (log 10); that the caller is kept
in a field is log 30. The gate's operations of `ARQ`, scheduled alone, are not among those that hold
(log 31). A frame whose `len` is not its body's length, or exceeds `MAX_BODY`, is refused (log 24). -/
def Obligations.OneSendAtATime : Prop :=
  ∀ s : State, s.holdsAny .arq = false →
    (∀ f : Frame, f.len.toNat = f.body.length → f.body.length ≤ s.cfg.maxBody →
      (s.modPhase = .idle → exec (.modSend f) s =
        .next { s with txf := some f, modPhase := .waitq, caller := some .alone }) ∧
      (s.modPhase = .done → s.caller = some .alone →
        exec (.modSend f) s = .next { s with modPhase := .idle, caller := none }) ∧
      (s.modPhase ≠ .idle → ¬ (s.modPhase = .done ∧ s.caller = some .alone) →
        exec (.modSend f) s = .next s)) ∧
    (∀ f : Frame, f.len.toNat ≠ f.body.length ∨ s.cfg.maxBody < f.body.length →
      exec (.modSend f) s = .refused .badFrame) ∧
    (s.modPhase ≠ .idle →
      (∀ i ∈ [Instr.hReceive, .txStart, .txLoop, .txDrain, .txSlide, .txAbort, .rxStart, .rxPop, .rxDone],
        exec i s = .next s) ∧
      (∀ payload : List Byte, payload.length ≤ s.cfg.payloadMax → exec (.hTransmit payload) s = .next s) ∧
      (∀ f, exec (.rxSent f) s = .next s) ∧
      (∀ p ∈ [(Instr.txSent0, Caller.txSent0), (.txRetx, .txRetx), (.txNew, .txNew), (.txFin, .txFin)],
        ¬ (s.modPhase = .done ∧ s.caller = some p.2 ∧ s.arqPhase.caller = some p.2) →
        exec p.1 s = .next s) ∧
      ∀ f, ¬ (s.modPhase = .done ∧ s.caller = some .rxData ∧ s.arqPhase = .rxAck) →
        exec (.rxData f) s = .next s)

/-- R144, R261: with a stop requested, what `TX.STOP` or `RX.STOP` does, by role; else the gate on `QUIET`, a
hold (log 3) while it is 0. -/
def Obligations.SendWaitsForQuiet : Prop :=
  ∀ s : State, s.modPhase = .waitq →
    (s.stopReq = true → s.role = .sender → exec .modWaitq s = exec .txStop s) ∧
    (s.stopReq = true → s.role = .receiver → exec .modWaitq s = exec .rxStop s) ∧
    (s.holdsAny .arq = false →
      (s.stopReq = true → ∃ t, exec .modWaitq s = .next t) ∧
      (s.stopReq = false → s.quiet = true → exec .modWaitq s = .next { s with modPhase := .emit }) ∧
      (s.stopReq = false → s.quiet = false → exec .modWaitq s = .next s))

/-- R145, R143: preamble and encoded frame, `K` samples a bit, appended in one step; more than `OUT_DEPTH` is
refused. -/
def Obligations.EmitAppendsTheWholeFrame : Prop :=
  ∀ (s : State) (f : Frame), s.modPhase = .emit → s.txf = some f → Frame.ok s.cfg f = true →
    s.gateOpen .arq .outq → s.cfg.pre.length = s.cfg.p →
    ∃ S : List Sample, S = modulate s.cfg (s.cfg.pre ++ frameBits s.cfg f) ∧
      S.length = s.cfg.k * (s.cfg.p + 64 + 8 * f.len.toNat) ∧
      (s.outq.length + S.length ≤ s.cfg.outDepth → exec .modEmit s =
        .next { s with outq := s.outq ++ S, txf := none, modPhase := .drain }) ∧
      (s.cfg.outDepth < s.outq.length + S.length → exec .modEmit s = .refused .outqOverflow)

/-- R146, R262: with a stop requested, what `TX.STOP` or `RX.STOP` does, by role; else the wait for an empty
`OUTQ`, a hold (log 3) while it is not. -/
def Obligations.SendReturnsWhenDrained : Prop :=
  ∀ s : State, s.modPhase = .drain →
    (s.stopReq = true → s.role = .sender → exec .modDrain s = exec .txStop s) ∧
    (s.stopReq = true → s.role = .receiver → exec .modDrain s = exec .rxStop s) ∧
    (s.stopReq = false → s.gateOpen .arq .outq → s.outq = [] →
      exec .modDrain s = .next { s with modPhase := .done }) ∧
    (s.stopReq = false → s.gateOpen .arq .outq → s.outq ≠ [] → exec .modDrain s = .next s)

/-- R142: `K` equal samples a bit, in order; the samples are answered (log 19). -/
def Obligations.BitsBecomeEqualSamples : Prop :=
  ∀ (s : State) (b : List Bool), ∃ S : List Sample,
    exec (.modBits b) s = .next { s with out := .samples S } ∧ S.length = b.length * s.cfg.k ∧
    ∀ i j, i < b.length → j < s.cfg.k →
      S[i * s.cfg.k + j]? = some (if b[i]? = some true then s.cfg.a1 else s.cfg.a0)

/-- R148: demodulating the noiseless modulation of any bit string gives it back, in the spec's sample format. -/
def Obligations.DemodulateInvertsModulate : Prop :=
  ∀ (c : Config) (b : List Bool), c.sampleFmt = .binary32 → 1 ≤ c.k → cleanSymbols c →
    demodulate c (modulate c b) = b

/-! ### The demodulator -/

/-- R155: one sample is popped and the state machine acts on it, in one step; an empty queue holds (log 3). -/
def Obligations.DemStepPopsAndActs : Prop :=
  ∀ s : State, 1 ≤ s.cfg.p → 1 ≤ s.cfg.k → DemInv s → s.gateOpen .dem .inq → s.gateOpen .dem .fq →
    (s.inq = [] → exec .demStep s = .next s) ∧
    ∀ x l, s.inq = x :: l → ∃ t, exec .demStep s = .next t ∧ t.inq = l ∧
      exec (match s.demState with
        | .search => .demSearch x
        | .header => .demHeader x
        | .body => .demBody x
        | .crc => .demCrc x) { s with inq := l } = .next t

/-- R156, with the window's samples as a list, oldest first. Where `WFILL` is 0 no cell of `WIN` holds a value, and at
the start of a frame no cell of `RX_BODY` (R44): nothing is said of them. -/
def Obligations.SearchSlidesTheWindowAndSynchronizes : Prop :=
  ∀ (s : State) (x : Sample) (xs : List Sample), s.wfill ≤ s.cfg.pk → 1 ≤ s.cfg.pk →
    s.win.range 0 s.wfill = some xs →
    let ys := if s.wfill < s.cfg.pk then xs ++ [x] else (xs ++ [x]).drop 1
    ∃ t, exec (.demSearch x) s = .next t ∧
      (ys.length = s.cfg.pk → preambleMatch s.cfg ys = true →
        t = { s with demState := .header, win := t.win, wfill := 0, acc := s.cfg.num.zero, scnt := 0,
                     bcnt := 0, hdr := 0#32, rxBody := t.rxBody }) ∧
      (ys.length < s.cfg.pk ∨ preambleMatch s.cfg ys = false →
        t.wfill = ys.length ∧ t.win.range 0 t.wfill = some ys ∧
        t = { s with win := t.win, wfill := t.wfill })

/-- R157: every one of the `P` group sums, compared strictly with `SYNC_THETA`, must give its preamble bit; the
verdict is answered (log 19). -/
def Obligations.ComparatorMatchesEveryGroup : Prop :=
  ∀ (s : State) (xs : List Sample), s.wfill = s.cfg.pk → s.win.range 0 s.cfg.pk = some xs →
    s.cfg.w.length = s.cfg.k → s.cfg.pre.length = s.cfg.p →
    ∃ v : Bool, exec .demCorr s = .next { s with out := .verdict v } ∧
      (v = true ↔ ∀ i, i < s.cfg.p →
        s.cfg.pre[i]? = some (s.cfg.num.gt (groupSum s.cfg xs i) s.cfg.syncTheta))

/-- R158: a sample slices to 1 exactly when it is strictly above 0.0; in the spec's format, where it is no NaN, exactly
when it is neither negative nor one of the two zeros; the bit is answered (log 19). -/
def Obligations.SlicerIsStrict : Prop :=
  ∀ (s : State) (x : Sample), ∃ b : Bool, exec (.demSlice x) s = .next { s with out := .bit b } ∧
    b = s.cfg.num.gt x s.cfg.num.zero ∧
    (s.cfg.sampleFmt = .binary32 → Binary32.isNaN x = false → (b = true ↔ x.msb = false ∧ x ≠ 0#32))

/-- R160, R159, R161: the integrator; a header bit shifted in; at the 32nd, both fields latched, the length tested,
and the next state. No rule says what `BCNT` holds past its 20 bits (log 20). Nothing is said of the cells that hold
no value from there on (R44: `RX_BODY`, and `WIN` at `WFILL = 0`). -/
def Obligations.HeaderBitsAreReadAndTested : Prop :=
  ∀ (s : State) (x : Sample),
    let b := s.cfg.num.gt (s.cfg.num.add s.acc x) s.cfg.num.zero
    let h : BitVec 32 := (s.hdr <<< 1) ||| (BitVec.ofBool b).zeroExtend 32
    let len : BitVec 16 := h.extractLsb' 16 16
    let seq : BitVec 16 := h.extractLsb' 0 16
    (s.scnt + 1 < s.cfg.k → exec (.demHeader x) s =
      .next { s with acc := s.cfg.num.add s.acc x, scnt := s.scnt + 1 }) ∧
    (s.cfg.k ≤ s.scnt + 1 → s.bcnt + 1 ≠ 32 → s.bcnt + 1 < 2 ^ 20 → exec (.demHeader x) s =
      .next { s with acc := s.cfg.num.zero, scnt := 0, hdr := h, bcnt := s.bcnt + 1 }) ∧
    (s.cfg.k ≤ s.scnt + 1 → s.bcnt + 1 = 32 →
      ∃ t, exec (.demHeader x) s = .next t ∧
        t.hdr = h ∧ t.rxLen = len ∧ t.rxSeq = seq ∧ t.bcnt = 0 ∧ t.rxCur = 0#8 ∧ t.rxCrc = 0#32 ∧
        t.acc = s.cfg.num.zero ∧ t.scnt = 0 ∧
        (s.cfg.maxBody < len.toNat → t.demState = .search ∧ t.wfill = 0 ∧
          t.events = s.events ++ [.malformedHeader len]) ∧
        (len.toNat ≤ s.cfg.maxBody → t.wfill = s.wfill ∧ t.win = s.win ∧ t.events = s.events ∧
          t.demState = if len = 0#16 then .crc else .body) ∧
        t = { s with hdr := t.hdr, rxLen := t.rxLen, rxSeq := t.rxSeq, bcnt := t.bcnt, rxCur := t.rxCur,
                     rxCrc := t.rxCrc, rxBody := t.rxBody, acc := t.acc, scnt := t.scnt,
                     demState := t.demState, win := t.win, wfill := t.wfill, events := t.events })

/-- R162, R159: a body bit shifted in, every eighth completing a byte at its offset, the last ending the body. No rule
says what `BCNT` holds past its 20 bits, and `RX_BODY` has no cell past `MAX_BODY` (R22; log 20: a fault). -/
def Obligations.BodyBitsFillBytesInOrder : Prop :=
  ∀ (s : State) (x : Sample),
    let b := s.cfg.num.gt (s.cfg.num.add s.acc x) s.cfg.num.zero
    let cur : BitVec 8 := (s.rxCur <<< 1) ||| (BitVec.ofBool b).zeroExtend 8
    (s.scnt + 1 < s.cfg.k → exec (.demBody x) s =
      .next { s with acc := s.cfg.num.add s.acc x, scnt := s.scnt + 1 }) ∧
    (s.cfg.k ≤ s.scnt + 1 → (s.bcnt + 1) % 8 = 0 → 8 * s.cfg.maxBody < s.bcnt + 1 → s.bcnt + 1 < 2 ^ 20 →
      exec (.demBody x) s = .fault (.noCell .rxBody)) ∧
    (s.cfg.k ≤ s.scnt + 1 → s.bcnt + 1 < 2 ^ 20 → ((s.bcnt + 1) % 8 = 0 → s.bcnt + 1 ≤ 8 * s.cfg.maxBody) →
      ∃ t, exec (.demBody x) s = .next t ∧ t.acc = s.cfg.num.zero ∧ t.scnt = 0 ∧
        ((s.bcnt + 1) % 8 = 0 → t.rxCur = 0#8 ∧
          ∀ i, t.rxBody.get i = if i = (s.bcnt + 1) / 8 - 1 then some cur else s.rxBody.get i) ∧
        ((s.bcnt + 1) % 8 ≠ 0 → t.rxCur = cur ∧ t.rxBody = s.rxBody) ∧
        (s.bcnt + 1 = 8 * s.rxLen.toNat → t.demState = .crc ∧ t.bcnt = 0) ∧
        (s.bcnt + 1 ≠ 8 * s.rxLen.toNat → t.demState = s.demState ∧ t.bcnt = s.bcnt + 1) ∧
        t = { s with acc := t.acc, scnt := t.scnt, rxCur := t.rxCur, rxBody := t.rxBody,
                     demState := t.demState, bcnt := t.bcnt })

/-- R163, R159, R164: a CRC bit shifted in; at the 32nd, the frame is emitted when all 32 bits agree, and
discarded with `CrcMismatch` when they do not. No rule says what `BCNT` holds past its 20 bits (log 20). -/
def Obligations.CrcFieldDecidesTheFrame : Prop :=
  ∀ (s : State) (x : Sample) (body : List Byte),
    s.rxBody.range 0 s.rxLen.toNat = some body → s.gateOpen .dem .fq →
    let b := s.cfg.num.gt (s.cfg.num.add s.acc x) s.cfg.num.zero
    let rc : BitVec 32 := (s.rxCrc <<< 1) ||| (BitVec.ofBool b).zeroExtend 32
    let u : State := { s with acc := s.cfg.num.zero, scnt := 0, rxCrc := rc, bcnt := s.bcnt + 1 }
    (s.scnt + 1 < s.cfg.k → exec (.demCrc x) s =
      .next { s with acc := s.cfg.num.add s.acc x, scnt := s.scnt + 1 }) ∧
    (s.cfg.k ≤ s.scnt + 1 → s.bcnt + 1 ≠ 32 → s.bcnt + 1 < 2 ^ 20 → exec (.demCrc x) s = .next u) ∧
    (s.cfg.k ≤ s.scnt + 1 → s.bcnt + 1 = 32 → crc32 s.cfg s.rxLen s.rxSeq body = rc →
      exec (.demCrc x) s = exec .demEmit u ∧ ∃ t, exec (.demCrc x) s = .next t) ∧
    (s.cfg.k ≤ s.scnt + 1 → s.bcnt + 1 = 32 → crc32 s.cfg s.rxLen s.rxSeq body ≠ rc →
      exec (.demCrc x) s = exec .demDiscard { u with events := s.events ++ [.crcMismatch] } ∧
        ∃ t, exec (.demCrc x) s = .next t)

/-- R167, R165: an emitted frame goes to the tail of `FQ`, or is dropped with `FQ_OVF` when it is full; then, as
after a discard, the demodulator is back to searching. Nothing is said of `WIN` and `RX_BODY`, whose cells hold no
value at `WFILL = 0` and outside a current frame (R44). -/
def Obligations.EmitAndDiscardReturnToSearching : Prop :=
  ∀ s : State,
    (∀ body : List Byte, s.rxBody.range 0 s.rxLen.toNat = some body → s.gateOpen .dem .fq →
      ∃ (w : Memory Sample) (m : Memory Byte),
        (s.fq.length < s.cfg.fqDepth → exec .demEmit s =
          .next { s with fq := s.fq ++ [{ len := s.rxLen, seq := s.rxSeq, body := body }],
                         demState := .search, win := w, wfill := 0, acc := s.cfg.num.zero,
                         scnt := 0, bcnt := 0, rxBody := m }) ∧
        (s.cfg.fqDepth ≤ s.fq.length → exec .demEmit s =
          .next { s with fqOvf := true, events := s.events ++ [.fqOverflow], demState := .search, win := w,
                         wfill := 0, acc := s.cfg.num.zero, scnt := 0, bcnt := 0, rxBody := m })) ∧
    ∃ (w : Memory Sample) (m : Memory Byte), exec .demDiscard s =
      .next { s with demState := .search, win := w, wfill := 0, acc := s.cfg.num.zero, scnt := 0, bcnt := 0,
                     rxBody := m }

/-- R186 (b), R168, R167, R296: the noiseless samples of a frame, taken one `DEM.STEP` each, are received as exactly
that frame, which raises nothing and leaves what follows in `INQ`: `K * (64 + 8 * L)` steps from the synchronization,
`K * (P + 64 + 8 * L)` steps from a window of silence with the preamble in front, for a preamble that R296 admits
and that the comparator finds in its own modulation. In the spec's sample format, with whatever CRC function. -/
def Obligations.NoiselessFrameIsReceived : Prop :=
  ∀ (s : State) (f : Frame) (rest : List Sample), s.cfg.sampleFmt = .binary32 → Config.Sized s.cfg →
    cleanSymbols s.cfg → Frame.ok s.cfg f = true → s.gateOpen .dem .inq → s.gateOpen .dem .fq →
    s.fq.length < s.cfg.fqDepth →
    (s.demState = .header → s.scnt = 0 → s.bcnt = 0 → s.acc = s.cfg.num.zero →
      s.inq = modulate s.cfg (frameBits s.cfg f) ++ rest →
      ∃ t, repeatOp .demStep (s.cfg.k * (64 + 8 * f.len.toNat)) s = .next t ∧
        t.fq = s.fq ++ [f] ∧ t.inq = rest ∧ t.demState = .search ∧ t.wfill = 0 ∧ t.events = s.events) ∧
    (s.demState = .search → s.wfill = s.cfg.pk →
      s.win.range 0 s.cfg.pk = some (List.replicate s.cfg.pk s.cfg.num.zero) →
      preambleOk s.cfg → preambleMatch s.cfg (modulate s.cfg s.cfg.pre) = true →
      s.inq = modulate s.cfg (s.cfg.pre ++ frameBits s.cfg f) ++ rest →
      ∃ t, repeatOp .demStep (s.cfg.k * (s.cfg.p + 64 + 8 * f.len.toNat)) s = .next t ∧
        t.fq = s.fq ++ [f] ∧ t.inq = rest ∧ t.demState = .search ∧ t.wfill = 0 ∧ t.events = s.events)

/-! ### The frame codec -/

/-- R181, R182: the packed bytes, high bytes first, and the CRC of them: the configuration's CRC function (R182), which
with R182's value is the bitwise algorithm; both are answered (log 19). That a body of another length is REFUSED
is the model's choice (log 24). -/
def Obligations.PackAndCrcAnswerTheirValues : Prop :=
  ∀ (s : State) (len seq : BitVec 16) (body : List Byte),
    (len.toNat = body.length →
      exec (.fcPack len seq body) s = .next { s with
        out := .bytes ([BitVec.ofNat 8 (len.toNat / 256), BitVec.ofNat 8 len.toNat,
          BitVec.ofNat 8 (seq.toNat / 256), BitVec.ofNat 8 seq.toNat] ++ body) } ∧
      ∃ w, exec (.fcCrc32 len seq body) s = .next { s with out := .word w } ∧
        w = s.cfg.crc (packBytes len seq body) ∧
        (s.cfg.crcFn = .isoHdlc → w = crcOf (packBytes len seq body))) ∧
    (len.toNat ≠ body.length →
      exec (.fcPack len seq body) s = .refused .bodyLength ∧
      exec (.fcCrc32 len seq body) s = .refused .bodyLength)

/-- R185: the table-driven form gives the same value for every byte string, with the three table entries given. -/
def Obligations.CrcAgreesWithItsTableDrivenForm : Prop :=
  (∀ bytes : List Byte, crcOf bytes = crcByTable bytes) ∧
  crcTable 0#8 = 0#32 ∧ crcTable 1#8 = 0x77073096#32 ∧ crcTable 255#8 = 0x2D02EF8D#32

/-- R183: `64 + 8 * len` bits, bit `8n + k` being bit `7-k` of byte `n` of the packed fields and the CRC, high byte
first; the bits are answered (log 19); a frame outside the domain is refused. -/
def Obligations.EncodeLaysBitsOutInOrder : Prop :=
  ∀ (s : State) (f : Frame),
    (Frame.ok s.cfg f = true → ∃ b : List Bool, exec (.fcEncode f) s = .next { s with out := .bits b } ∧
      b.length = 64 + 8 * f.len.toNat ∧
      ∀ n k v, k < 8 →
        (packBytes f.len f.seq f.body ++ be32 (crc32 s.cfg f.len f.seq f.body))[n]? = some v →
        b[8 * n + k]? = some (v.getLsbD (7 - k))) ∧
    (Frame.ok s.cfg f = false → exec (.fcEncode f) s = .refused .badFrame)

/-- R184, R99: every field by its positional value, the verdict, the bits used; `Malformed` from the length alone.
That fewer bits than the rule requires are REFUSED, in both places, is the model's choice (log 24): V13 d calls the
result not defined. The result is answered (log 19). -/
def Obligations.DecodeReadsPositionalFields : Prop :=
  (∀ (w : Nat) (b : List Bool), b.length = w →
    (fieldOf w b).toNat = ((List.range w).map fun i =>
      if b[i]? = some true then 2 ^ (w - 1 - i) else 0).sum) ∧
  ∀ (s : State) (b : List Bool),
    let len : BitVec 16 := fieldOf 16 (b.take 16)
    let seq : BitVec 16 := fieldOf 16 ((b.drop 16).take 16)
    let crc : BitVec 32 := fieldOf 32 ((b.drop (32 + 8 * len.toNat)).take 32)
    (b.length < 32 → exec (.fcDecode b) s = .refused .tooFewBits) ∧
    (32 ≤ b.length → s.cfg.maxBody < len.toNat →
      exec (.fcDecode b) s = .next { s with out := .decoded .malformed }) ∧
    (32 ≤ b.length → len.toNat ≤ s.cfg.maxBody → b.length < 64 + 8 * len.toNat →
      exec (.fcDecode b) s = .refused .tooFewBits) ∧
    (len.toNat ≤ s.cfg.maxBody → 64 + 8 * len.toNat ≤ b.length →
      ∃ body : List Byte, body.length = len.toNat ∧
        (∀ j, j < len.toNat → body[j]? = some (fieldOf 8 ((b.drop (32 + 8 * j)).take 8))) ∧
        exec (.fcDecode b) s = .next { s with
          out := .decoded (.frame { len := len, seq := seq, body := body }
            (crc == crc32 s.cfg len seq body) (64 + 8 * len.toNat)) })

/-- R186 (a): decoding an encoded frame gives it back, with a good CRC and all its bits used. -/
def Obligations.DecodeInvertsEncodeOfFrames : Prop :=
  ∀ (s : State) (f : Frame) (rest : List Bool), Frame.ok s.cfg f = true →
    exec (.fcDecode (frameBits s.cfg f ++ rest)) s =
      .next { s with out := .decoded (.frame f true (64 + 8 * f.len.toNat)) }

/-- R186 (c): inverting any one bit of SEQUENCE, BODY or CRC of an encoded frame makes the verdict false, with the CRC
function that R182 names, whose parameters are PRESUMED (log 8). -/
def Obligations.SingleBitErrorIsDetected : Prop :=
  ∀ (s : State) (f : Frame) (i : Nat), s.cfg.crcFn = .isoHdlc → Frame.ok s.cfg f = true → 16 ≤ i →
    i < 64 + 8 * f.len.toNat →
    ∃ g : Frame, exec (.fcDecode (flipAt (frameBits s.cfg f) i)) s =
      .next { s with out := .decoded (.frame g false (64 + 8 * f.len.toNat)) }

/-! ### The channel sensor -/

/-- R196: quiet exactly when no sample of the window is strictly louder than `NOISE_TH`; the previous value and
everything else play no part. -/
def Obligations.QuietIsAThresholdOnEverySample : Prop :=
  ∀ s : State, ∃ q : Bool, exec .csEval s = .next { s with quiet := q } ∧
    (q = true ↔ ∀ x ∈ s.sh, s.cfg.num.gt (s.cfg.num.abs x) s.cfg.noiseTh = false)

/-! ### The ARQ sender -/

/-- R209, R215: the opening sentinel and the closing ones, entry and continuation; the second closing one ends the
command with `OK`. The field `caller` is the model's (log 30). -/
def Obligations.SentinelsOpenAndCloseTheTransfer : Prop :=
  ∀ s : State, 2 ≤ s.cfg.maxBody → s.holdsAny .arq = false →
    let f : Frame := { len := 2#16, seq := 0#16,
                       body := [BitVec.ofNat 8 (s.nTx / 256), BitVec.ofNat 8 s.nTx] }
    (s.arqPhase = .txSent0 → s.nTx < 65536 →
      (s.modPhase = .idle → exec .txSent0 s =
        .next { s with txf := some f, modPhase := .waitq, caller := some .txSent0 }) ∧
      (s.modPhase = .done → s.caller = some .txSent0 → exec .txSent0 s =
        .next { s with modPhase := .idle, caller := none, arqPhase := .txLoop })) ∧
    (s.arqPhase = .txFin → s.nTx < 65536 →
      (s.modPhase = .idle → exec .txFin s =
        .next { s with txf := some f, modPhase := .waitq, caller := some .txFin }) ∧
      (s.modPhase = .done → s.caller = some .txFin → s.finCnt + 1 < 2 →
        exec .txFin s = .next { s with modPhase := .idle, caller := none, finCnt := s.finCnt + 1 }) ∧
      (s.modPhase = .done → s.caller = some .txFin → s.finCnt + 1 = 2 →
        exec .txFin s = .next { s with modPhase := .idle, caller := none, finCnt := 2, result := .ok,
                                       busy := false, arqPhase := .idle }))

/-- R214, R264: between sends, the stop first, then completion, then another pass. -/
def Obligations.LoopTestsStopThenCompletion : Prop :=
  ∀ s : State, s.arqPhase = .txLoop → s.modPhase = .idle → s.holdsAny .arq = false →
    (s.stopReq = true → exec .txLoop s = exec .txStop s ∧ ∃ t, exec .txLoop s = .next t) ∧
    (s.stopReq = false → s.lar = s.nTx →
      exec .txLoop s = .next { s with finCnt := 0, arqPhase := .txFin }) ∧
    (s.stopReq = false → s.lar ≠ s.nTx → exec .txLoop s = .next { s with arqPhase := .txDrain })

/-- R210, between sends: an empty queue ends the drain; a zero-length frame with a magnitude in `(LAR, LFS]` marks its
entry, an acknowledgment outside raises `AckMismatch`, and every other frame is dropped. That the reserved sequence
-32768 raises nothing is the model's choice where the spec's files differ (log 29). -/
def Obligations.DrainTakesOneFrame : Prop :=
  ∀ s : State, s.arqPhase = .txDrain → s.modPhase = .idle → s.gateOpen .arq .fq →
    (s.fq = [] → exec .txDrain s = .next { s with arqPhase := .txSlide }) ∧
    ∀ f l, s.fq = f :: l →
      (∀ e, f.len = 0#16 → s.lar < f.seq.toInt.natAbs → f.seq.toInt.natAbs ≤ s.lfs →
        s.sw.get f.seq.toInt.natAbs = some e →
        ∃ t, exec .txDrain s = .next t ∧
          (∀ m, t.sw.get m = if m = f.seq.toInt.natAbs then some { e with acked := true } else s.sw.get m) ∧
          t = { s with fq := l, sw := t.sw }) ∧
      (f.len = 0#16 → f.seq ≠ 0#16 → f.seq ≠ 0x8000#16 →
        ¬ (s.lar < f.seq.toInt.natAbs ∧ f.seq.toInt.natAbs ≤ s.lfs) →
        exec .txDrain s = .next { s with fq := l, events := s.events ++ [.ackMismatch f.seq] }) ∧
      (f.len = 0#16 → f.seq = 0x8000#16 → ¬ (s.lar < f.seq.toInt.natAbs ∧ f.seq.toInt.natAbs ≤ s.lfs) →
        exec .txDrain s = .next { s with fq := l }) ∧
      (f.len ≠ 0#16 ∨ f.seq = 0#16 → exec .txDrain s = .next { s with fq := l })

/-- R211, between sends: `LAR` advances over the acknowledged entries, which are destroyed, and stops at the first that
is not, or at `LFS`; the scan starts behind it. -/
def Obligations.SlideStopsAtTheFirstUnacknowledged : Prop :=
  ∀ s : State, s.arqPhase = .txSlide → s.modPhase = .idle → s.holdsAny .arq = false → s.lfs ≤ 32767 →
    s.lar ≤ s.lfs → s.sw.wf →
    (∀ m, s.lar < m → m ≤ s.lfs → (s.sw.get m).isSome = true) →
    ∃ t, exec .txSlide s = .next t ∧ s.lar ≤ t.lar ∧ t.lar ≤ s.lfs ∧ t.scan = t.lar + 1 ∧
      (∀ m e, s.lar < m → m ≤ t.lar → s.sw.get m = some e → e.acked = true) ∧
      (∀ e, t.lar < s.lfs → s.sw.get (t.lar + 1) = some e → e.acked = false) ∧
      (∀ m, t.sw.get m = if s.lar < m ∧ m ≤ t.lar then none else s.sw.get m) ∧
      t = { s with lar := t.lar, sw := t.sw, scan := t.scan, arqPhase := .txRetx }

/-- R212: past the window the scan ends; an overdue unacknowledged entry is resent, or ends the command when no
retry is left; any other is passed over; after a resend its timer restarts and its retries drop by one. R212 gives
no result for the decrement of 0: of it the statement says no more than R36's range (log 21). `SCAN` is in R43's
range. The field `caller` is the model's (log 30). -/
def Obligations.ScanResendsOrAborts : Prop :=
  ∀ s : State, s.arqPhase = .txRetx → s.holdsAny .arq = false → s.scan ≤ 32768 →
    (s.modPhase = .idle → s.lfs < s.scan → exec .txRetx s = .next { s with arqPhase := .txNew }) ∧
    (s.modPhase = .idle → s.scan ≤ s.lfs → ∀ e, s.sw.get s.scan = some e →
      (e.acked = true ∨ (s.now.toNat + 2 ^ 32 - e.sentAt.toNat) % 2 ^ 32 ≤ s.cfg.rto →
        exec .txRetx s = .next { s with scan := s.scan + 1 }) ∧
      (e.acked = false → s.cfg.rto < (s.now.toNat + 2 ^ 32 - e.sentAt.toNat) % 2 ^ 32 →
        (e.retries = 0 → exec .txRetx s = exec .txAbort s ∧ ∃ t, exec .txRetx s = .next t) ∧
        (∀ f, e.retries ≠ 0 → dataFrame s s.scan = some f → Frame.ok s.cfg f = true →
          exec .txRetx s =
            .next { s with txf := some f, modPhase := .waitq, caller := some .txRetx }))) ∧
    (s.modPhase = .done → s.caller = some .txRetx → ∀ e, s.sw.get s.scan = some e →
      ∃ t r, exec .txRetx s = .next t ∧ (1 ≤ e.retries → r = e.retries - 1 ∧ t.frees = s.frees) ∧
        (e.retries = 0 → r ≤ s.cfg.retryMax) ∧
        (∀ m, t.sw.get m = if m = s.scan
          then some { acked := e.acked, sentAt := s.now, retries := r } else s.sw.get m) ∧
        t = { s with sw := t.sw, scan := s.scan + 1, modPhase := .idle, caller := none, frees := t.frees })

/-- R213: one new frame when the window and the payload allow it; at the return its entry is created. The field
`caller` is the model's (log 30). -/
def Obligations.OneNewFrameAPass : Prop :=
  ∀ s : State, s.arqPhase = .txNew → s.holdsAny .arq = false → s.lar ≤ s.lfs →
    (∀ f, s.modPhase = .idle → s.lfs - s.lar < s.cfg.windowSize → s.lfs < s.nTx →
      dataFrame s (s.lfs + 1) = some f → Frame.ok s.cfg f = true →
      exec .txNew s = .next
        { s with lfs := s.lfs + 1, txf := some f, modPhase := .waitq, caller := some .txNew }) ∧
    (s.modPhase = .idle → ¬ (s.lfs - s.lar < s.cfg.windowSize ∧ s.lfs < s.nTx) →
      exec .txNew s = .next { s with arqPhase := .txLoop }) ∧
    (s.modPhase = .done → s.caller = some .txNew → ∃ t, exec .txNew s = .next t ∧
      (∀ m, t.sw.get m = if m = s.lfs
        then some { acked := false, sentAt := s.now, retries := s.cfg.retryMax } else s.sw.get m) ∧
      t = { s with sw := t.sw, modPhase := .idle, caller := none, arqPhase := .txLoop })

/-- R216, R265: the abort, enabled only where `TX.RETX` finds an overdue entry without retries: its event records
`SCAN`, it empties the window and gives the result, and everything else keeps its value. R217, R238, R262: what a
requested stop leaves, in each role, enabled only at that role's polling points, `TX.LOOP` and `RX.POP` between sends
(R147), and with no caller of a send after it, a field of the model (log 30); nothing is said of `RX_PAYLOAD`, which has
no meaning then (R44). Where they are not enabled they hold (log 3). -/
def Obligations.AbortAndStopEndTheCommand : Prop :=
  ∀ s : State, s.holdsAny .arq = false →
    (s.arqPhase = .txRetx → s.modPhase = .idle → s.scan ≤ s.lfs →
      (∃ e, s.sw.get s.scan = some e ∧ e.acked = false ∧ e.retries = 0 ∧
        s.cfg.rto < (s.now.toNat + 2 ^ 32 - e.sentAt.toNat) % 2 ^ 32) →
      exec .txAbort s =
        .next { s with events := s.events ++ [.linkError s.scan], sw := [], result := .linkError,
                       busy := false, arqPhase := .idle }) ∧
    (s.arqPhase ≠ .txRetx ∨ s.modPhase ≠ .idle ∨ s.lfs < s.scan ∨
      (∀ e, s.sw.get s.scan = some e → e.acked = true ∨ e.retries ≠ 0 ∨
        (s.now.toNat + 2 ^ 32 - e.sentAt.toNat) % 2 ^ 32 ≤ s.cfg.rto) →
      exec .txAbort s = .next s) ∧
    (s.stopReq = true →
      ((s.arqPhase = .txLoop ∧ s.modPhase = .idle) ∨
        ((s.modPhase = .waitq ∨ s.modPhase = .drain) ∧ s.role = .sender)) →
      exec .txStop s = .next { s with sw := [], txf := none, modPhase := .idle, caller := none,
                                      stopReq := false, result := .stopped, busy := false,
                                      arqPhase := .idle }) ∧
    (s.stopReq = false ∨
      ¬ ((s.arqPhase = .txLoop ∧ s.modPhase = .idle) ∨
        ((s.modPhase = .waitq ∨ s.modPhase = .drain) ∧ s.role = .sender)) →
      exec .txStop s = .next s) ∧
    (s.stopReq = true →
      ((s.arqPhase = .rxPop ∧ s.modPhase = .idle) ∨
        ((s.modPhase = .waitq ∨ s.modPhase = .drain) ∧ s.role = .receiver)) →
      ∃ m : Memory Byte, exec .rxStop s =
        .next { s with rb := [], countKnown := false, rxPayload := m, rxPayloadLen := 0, txf := none,
                       modPhase := .idle, caller := none, stopReq := false, result := .stopped, busy := false,
                       arqPhase := .idle }) ∧
    (s.stopReq = false ∨
      ¬ ((s.arqPhase = .rxPop ∧ s.modPhase = .idle) ∨
        ((s.modPhase = .waitq ∨ s.modPhase = .drain) ∧ s.role = .receiver)) →
      exec .rxStop s = .next s)

/-- R207: the frames `1 .. N` of a payload exist, are admissible, carry the node's sign, have full bodies but the
last, which is not empty, and their bodies in order are the payload. -/
def Obligations.SegmentsPartitionThePayload : Prop :=
  ∀ (s : State) (payload : List Byte), Config.Sized s.cfg →
    s.txPayload = Memory.ofList payload → s.txLen = payload.length →
    let n := (payload.length + s.cfg.maxBody - 1) / s.cfg.maxBody
    n ≤ 32767 →
    ∃ frames : List Frame, frames.length = n ∧ (frames.map Frame.body).flatten = payload ∧
      ∀ m f, 1 ≤ m → frames[m - 1]? = some f →
        dataFrame s m = some f ∧ Frame.ok s.cfg f = true ∧ 1 ≤ f.body.length ∧
        (m < n → f.body.length = s.cfg.maxBody) ∧
        f.seq.toInt = (if s.cfg.node = .a then (m : Int) else -(m : Int))

/-- R218: `LFS` grows only in `TX.NEW`, by 1 and under its guard, and `LAR` only grows and never past `LFS`, but for
the start of a command and reset, which set both to 0. -/
def Obligations.CursorsMoveOnlyAsTheWindowAllows : Prop :=
  ∀ (i : Instr) (s t : State), LinkInv s → agentStep i s = true → exec i s = .next t →
    ((i = .hReset ∨ ∃ payload, i = .hTransmit payload) ∧ t.lar = 0 ∧ t.lfs = 0) ∨
    (s.lar ≤ t.lar ∧ t.lar ≤ t.lfs ∧ t.lfs - t.lar ≤ t.cfg.windowSize ∧
      (t.lfs = s.lfs ∨
        (i = .txNew ∧ t.lfs = s.lfs + 1 ∧ s.lfs - s.lar < s.cfg.windowSize ∧ s.lfs < s.nTx)))

/-! ### The ARQ receiver -/

/-- R232, R264, between sends: the stop first; an empty queue changes nothing; else the frame is popped and the one
sub-operation of its kind is done on it in the same step. -/
def Obligations.PopClassifiesTheFrame : Prop :=
  ∀ s : State, s.arqPhase = .rxPop → s.modPhase = .idle → s.holdsAny .arq = false →
    (s.stopReq = true → exec .rxPop s = exec .rxStop s ∧ ∃ t, exec .rxPop s = .next t) ∧
    (s.stopReq = false → s.gateOpen .arq .fq →
      (s.fq = [] → exec .rxPop s = .next s) ∧
      ∀ f l, s.fq = f :: l → Frame.ok s.cfg f = true →
        let u : State := { s with fq := l }
        let own : Int := if s.cfg.node = .a then 1 else -1
        (∃ t, exec .rxPop s = .next t) ∧
        (f.seq = 0#16 → f.len = 2#16 → exec .rxPop s = exec (.rxSent f) u) ∧
        (f.seq = 0#16 → f.len ≠ 2#16 → exec .rxPop s = .next u) ∧
        (f.seq = 0x8000#16 → exec .rxPop s = .next u) ∧
        (f.seq ≠ 0#16 → f.seq ≠ 0x8000#16 → f.seq.toInt.sign = -own → f.len ≠ 0#16 →
          exec .rxPop s = exec (.rxData f) u) ∧
        (f.seq ≠ 0#16 → f.seq ≠ 0x8000#16 → f.seq.toInt.sign = -own → f.len = 0#16 →
          exec .rxPop s = .next u) ∧
        (f.seq ≠ 0#16 → f.seq ≠ 0x8000#16 → f.seq.toInt.sign = own → exec .rxPop s = .next u))

/-- R233: the count is recorded, then completion is tested, where `RX.POP` performs it. -/
def Obligations.SentinelRecordsTheCountAndTests : Prop :=
  ∀ (s : State) (f : Frame) (hi lo : Byte), s.arqPhase = .rxPop → s.modPhase = .idle → s.holdsAny .arq = false →
    f.seq = 0#16 → f.len = 2#16 → f.body = [hi, lo] →
    let n := hi.toNat * 256 + lo.toNat
    let u : State := { s with nExp := n, countKnown := true }
    (s.rb.length ≠ n → exec (.rxSent f) s = .next u) ∧
    (s.rb.length = n → exec (.rxSent f) s = exec .rxDone u ∧ ∃ t, exec (.rxSent f) s = .next t)

/-- R237, enabled only where `RX.SENT` performs it: the bodies in ascending order of magnitude are the payload, the
buffer is emptied and the command ends. No rule gives `RX_PAYLOAD_LEN` past its 32 bits (log 20). Where it is not
enabled it holds (log 3). -/
def Obligations.DoneAssemblesThePayload : Prop :=
  ∀ s : State, s.holdsAny .arq = false →
    (s.rb.wf → s.arqPhase = .rxPop → s.modPhase = .idle → s.countKnown = true → s.rb.length = s.nExp →
      ∃ (bytes : List Byte) (keys : List Nat) (m : Memory Byte) (t : State),
        keys.Pairwise (· < ·) ∧ (∀ k, k ∈ keys ↔ (s.rb.get k).isSome = true) ∧
        bytes = (keys.map fun k => (s.rb.get k).getD []).flatten ∧ (∀ i, m.get i = bytes[i]?) ∧
        exec .rxDone s = .next t ∧ (bytes.length < 2 ^ 32 → t.rxPayloadLen = bytes.length) ∧
        t = { s with rxPayload := m, rxPayloadLen := t.rxPayloadLen, rb := [], result := .ok,
                     busy := false, arqPhase := .idle }) ∧
    (s.arqPhase ≠ .rxPop ∨ s.modPhase ≠ .idle ∨ s.countKnown = false ∨ s.rb.length ≠ s.nExp →
      exec .rxDone s = .next s)

/-- R234: the first copy is kept, `LFR` moves to the end of the run of magnitudes present, the acknowledgment's send
is entered, and its return goes back to popping. A body that is not of `len` bytes is stored as it is, which is the
model's choice (log 28). The field `caller` is the model's too (log 30). -/
def Obligations.DataIsStoredAndAcknowledged : Prop :=
  ∀ (s : State) (f : Frame), s.holdsAny .arq = false →
    (s.arqPhase = .rxPop → s.modPhase = .idle →
      (∀ m, 1 ≤ m → m ≤ s.lfr → (s.rb.get m).isSome = true) →
      f.len ≠ 0#16 → f.seq ≠ 0#16 → f.seq ≠ 0x8000#16 →
      f.seq.toInt.sign = (if s.cfg.node = .a then -1 else 1) →
      ∃ t, exec (.rxData f) s = .next t ∧
        (∀ m, t.rb.get m = if m = f.seq.toInt.natAbs ∧ s.rb.get m = none then some f.body else s.rb.get m) ∧
        s.lfr ≤ t.lfr ∧ (∀ m, 1 ≤ m → m ≤ t.lfr → (t.rb.get m).isSome = true) ∧
        t.rb.get (t.lfr + 1) = none ∧
        t = { s with rb := t.rb, lfr := t.lfr, txf := some { len := 0#16, seq := -f.seq, body := [] },
                     modPhase := .waitq, caller := some .rxData, arqPhase := .rxAck }) ∧
    (s.arqPhase = .rxAck → s.modPhase = .done → s.caller = some .rxData →
      exec (.rxData f) s = .next { s with modPhase := .idle, caller := none, arqPhase := .rxPop })

/-- R235, R236: the frame is dropped and nothing changes. -/
def Obligations.EchoAndOtherFramesAreDropped : Prop :=
  ∀ (s : State) (f : Frame), exec (.rxEcho f) s = .next s ∧ exec (.rxOther f) s = .next s

/-- R233, R237, R207 together: a receiver that holds exactly the bodies of a transfer's frames, in whatever order and
however often they came, delivers the sender's payload when the sentinel arrives. -/
def Obligations.ReassemblyDeliversThePayload : Prop :=
  ∀ (r s : State) (payload : List Byte), Config.Sized s.cfg →
    s.txPayload = Memory.ofList payload → s.txLen = payload.length →
    let n := (payload.length + s.cfg.maxBody - 1) / s.cfg.maxBody
    n ≤ 32767 → r.arqPhase = .rxPop → r.modPhase = .idle → r.holdsAny .arq = false → r.rb.wf →
    (∀ m, r.rb.get m = if 1 ≤ m ∧ m ≤ n then (dataFrame s m).map Frame.body else none) →
    ∃ t, exec (.rxSent { len := 2#16, seq := 0#16,
                         body := [BitVec.ofNat 8 (n / 256), BitVec.ofNat 8 n] }) r = .next t ∧
      t.rxPayload = Memory.ofList payload ∧ t.rxPayloadLen = payload.length ∧ t.result = .ok ∧
      t.busy = false ∧ t.rb = []

/-! ### Frames from the wire -/

/-- The meaning the model gives the four wire rows (log 17), from R160 to R167: a searching demodulator takes a whole
frame in one step; it emits it, or discards it with `CrcMismatch` or `MalformedHeader`; one that is reading another frame
does not see it. -/
def Obligations.WireFramesAreValidatedAndQueued : Prop :=
  ∀ (s : State) (i : Instr) (f : Frame) (crc : BitVec 32), carriesFrame i f crc →
    (s.demState ≠ .search → exec i s = .next s) ∧
    (s.demState = .search → ∀ u : State,
      u = { s with hdr := f.len ++ f.seq, rxLen := f.len, rxSeq := f.seq, rxCur := 0#8, win := [], wfill := 0,
                   acc := s.cfg.num.zero, scnt := 0, bcnt := 0, rxBody := [] } →
      (s.cfg.maxBody < f.body.length → exec i s =
        .next { u with rxCrc := 0#32, events := s.events ++ [.malformedHeader f.len] }) ∧
      (f.body.length ≤ s.cfg.maxBody → crc ≠ crc32 s.cfg f.len f.seq f.body → exec i s =
        .next { u with rxCrc := crc, events := s.events ++ [.crcMismatch] }) ∧
      (f.body.length ≤ s.cfg.maxBody → crc = crc32 s.cfg f.len f.seq f.body → s.gateOpen .dem .fq →
        (s.fq.length < s.cfg.fqDepth → exec i s =
          .next { u with rxCrc := crc, fq := s.fq ++ [f] }) ∧
        (s.cfg.fqDepth ≤ s.fq.length → exec i s =
          .next { u with rxCrc := crc, fqOvf := true,
                         events := s.events ++ [.fqOverflow] })))

/-! ### Decoding and stepping -/

/-- The decoder gives back every well-formed instruction from its encoding (logs 2 and 17 for the layout). -/
def Obligations.DecodeInvertsEncode : Prop :=
  ∀ (c : Config) (i : Instr), i.wf c = true → decode c (encode i) = .ok i

/-- The operation codes of R98 and the headers of R105, a few of each kind, written out; a header whose LENGTH exceeds
the reset configuration's `MAX_BODY` of 40 is of no kind. -/
def Obligations.SampleWordsDecode : Prop :=
  decodeTableWord 8 0x00 = some .hReset ∧ decodeTableWord 8 0x08 = some .tbTick ∧
  decodeTableWord 8 0x12 = some .abOut ∧ decodeTableWord 8 0x21 = some .modWaitq ∧
  decodeTableWord 8 0x30 = some .demStep ∧ decodeTableWord 8 0x50 = some .csEval ∧
  decodeTableWord 8 0x68 = some .txAbort ∧ decodeTableWord 8 0x71 = some .rxPop ∧
  decodeTableWord 32 0x00020000 = some (.fSent 0#16 0#32) ∧
  decodeTableWord 32 0x0000FFFF = some (.fAck 0xFFFF#16 0#32) ∧
  decodeTableWord 32 0x00010001 = some (.fData 1#16 [0#8] 0#32) ∧
  decodeTableWord 32 0x00008000 = some (.fRsv 0x8000#16 [] 0#32) ∧
  decodeTableWord 32 0x00290001 = none ∧ decodeTableWord 32 0xFFFF8000 = none

/-- A step takes the next slot of the schedule and runs the instruction it decodes to (log 1); a header whose LENGTH
exceeds `MAX_BODY`, of no frame kind, with whatever bytes behind it or none, is rejected by a searching demodulator
with `MalformedHeader` (R101, log 17); other bytes that are no instruction are refused, the model's choice
(log 24); with nothing scheduled nothing changes. -/
def Obligations.StepRunsTheDecodedInstruction : Prop :=
  ∀ s : State,
    (∀ p l i, s.sched = p :: l → decode s.cfg p = .ok i → step s = exec i { s with sched := l }) ∧
    (∀ p l len seq, s.sched = p :: l → decode s.cfg p = .error (.overlong len seq) →
      (s.demState ≠ .search → step s = .next { s with sched := l }) ∧
      (s.demState = .search → step s = .next
        { s with sched := l, hdr := len ++ seq, rxLen := len, rxSeq := seq, rxCur := 0#8, rxCrc := 0#32,
                 win := [], wfill := 0, acc := s.cfg.num.zero, scnt := 0, bcnt := 0, rxBody := [],
                 events := s.events ++ [.malformedHeader len] })) ∧
    (∀ (l0 l1 s0 s1 : Byte) rest, s.cfg.maxBody < 256 * l0.toNat + l1.toNat →
      decode s.cfg (.wire (l0 :: l1 :: s0 :: s1 :: rest)) = .error (.overlong (l0 ++ l1) (s0 ++ s1))) ∧
    (∀ p l e, s.sched = p :: l → decode s.cfg p = .error e → (∀ len seq, e ≠ .overlong len seq) →
      step s = .refused (.undecodable e)) ∧
    (s.sched = [] → step s = .next s)

/-! ### Invariants and whole-machine rules -/

/-- R22, R24, R36, R40, R43, R63, R75: every step keeps the storage well formed and every register within its width,
whatever is scheduled. The place of the audio period (R131) is the model's field (log 14). -/
def Obligations.EveryStepKeepsTheStorageWellFormed : Prop :=
  ∀ s t : State, StoreInv s → step s = .next t → StoreInv t

/-- R43 and what makes it inductive: every step of an agent keeps it (log 23). Its clauses about the caller of a send
and the place of the audio period are about fields of the model (logs 14, 30). -/
def Obligations.AgentStepsKeepTheLinkInvariant : Prop :=
  ∀ (i : Instr) (s t : State), Config.Sized s.cfg → LinkInv s → agentStep i s = true →
    exec i s = .next t → LinkInv t

/-- The reset state of every configuration of admissible sizes meets both invariants, whose fields of the model are
reset as logs 14 and 30 say. -/
def Obligations.ResetMeetsTheInvariants : Prop :=
  ∀ c : Config, Config.Sized c →
    StoreInv (State.resetOf c) ∧ LinkInv (State.resetOf c) ∧ outqDrained (State.resetOf c)

/-- R44: no step of an agent reads state that holds no value, and none writes past the end of `RX_BODY`. -/
def Obligations.AgentStepsNeverFault : Prop :=
  ∀ (i : Instr) (s : State) (r : Fault), Config.Sized s.cfg → LinkInv s → agentStep i s = true →
    exec i s ≠ .fault r

/-- R43, last clause: `OUTQ` is empty whenever no frame drains, except after a stop taken in `DRAIN`. -/
def Obligations.OutqIsEmptyBetweenFrames : Prop :=
  ∀ (i : Instr) (s t : State), PhaseInv s → outqDrained s → agentStep i s = true →
    ¬ (i = .modDrain ∧ s.stopReq = true) → exec i s = .next t → outqDrained t

/-- R21, R31, R34, R36, R42, R79: who may write what. The configuration is never written; `NOW`, the sensor's history and
flag, the payload to send, the send window and its cursors, the reassembly buffer and its cursor change only in the
operations named; the sticky bits are only set. Two clauses are about devices of the model, not of the spec, and rest
on its choices: that the place of the audio period changes only in `AB.PERIOD` (log 14), and that the event history
only grows (log 18). -/
def Obligations.OnlyOwnersWriteTheirState : Prop :=
  ∀ (i : Instr) (s t : State), exec i s = .next t →
    t.cfg = s.cfg ∧
    (i ≠ .hReset →
      (i ≠ .tbTick → t.now = s.now) ∧
      ((∀ xs, i ≠ .abPeriod xs) → (∀ x, i ≠ .abIn x) → t.sh = s.sh) ∧
      ((∀ xs, i ≠ .abPeriod xs) → i ≠ .csEval → t.quiet = s.quiet) ∧
      ((∀ xs, i ≠ .abPeriod xs) → t.period = s.period) ∧
      (s.inOvf = true → t.inOvf = true) ∧ (s.fqOvf = true → t.fqOvf = true) ∧
      (s.events <+: t.events) ∧
      ((∀ p, i ≠ .hTransmit p) → t.txPayload = s.txPayload ∧ t.txLen = s.txLen) ∧
      (t.sw = s.sw ∨ (∃ p, i = .hTransmit p) ∨
        i ∈ [Instr.txStart, .txLoop, .txDrain, .txSlide, .txRetx, .txNew, .txAbort, .txStop, .modWaitq,
          .modDrain]) ∧
      (t.lar = s.lar ∨ (∃ p, i = .hTransmit p) ∨ i ∈ [Instr.txStart, .txSlide]) ∧
      (t.lfs = s.lfs ∨ (∃ p, i = .hTransmit p) ∨ i ∈ [Instr.txStart, .txNew]) ∧
      (t.rb = s.rb ∨ (∃ f, i = .rxSent f ∨ i = .rxData f) ∨
        i ∈ [Instr.hReceive, .rxStart, .rxPop, .rxDone, .rxStop, .modWaitq, .modDrain]) ∧
      (t.lfr = s.lfr ∨ (∃ f, i = .rxData f) ∨ i ∈ [Instr.hReceive, .rxStart, .rxPop]) ∧
      (t.busy = true → s.busy = true ∨ (∃ p, i = .hTransmit p) ∨
        i ∈ [Instr.hReceive, Instr.txStart, Instr.rxStart]))
end

