-- ==== Sys2Proof/Laws/Dispatch.lean ====
section
/-! SUPPORT. `exec` at each constructor, so that no proof unfolds the dispatch. -/

namespace Sys2Proof.Machine

variable (s : State)

@[simp] theorem exec_hReset :
    exec .hReset s = execHReset s := rfl

@[simp] theorem exec_hTransmit (payload : List Byte) :
    exec (.hTransmit payload) s = execHTransmit payload s := rfl

@[simp] theorem exec_hReceive :
    exec .hReceive s = execHReceive s := rfl

@[simp] theorem exec_hStop :
    exec .hStop s = execHStop s := rfl

@[simp] theorem exec_hStatus :
    exec .hStatus s = execHStatus s := rfl

@[simp] theorem exec_tbTick :
    exec .tbTick s = execTbTick s := rfl

@[simp] theorem exec_abPeriod (xs : List Sample) :
    exec (.abPeriod xs) s = execAbPeriod xs s := rfl

@[simp] theorem exec_abIn (x : Sample) :
    exec (.abIn x) s = execAbIn x s := rfl

@[simp] theorem exec_abOut :
    exec .abOut s = execAbOut s := rfl

@[simp] theorem exec_qAcq (q : QueueId) (a : Agent) :
    exec (.qAcq q a) s = execQAcq q a s := rfl

@[simp] theorem exec_qRel (q : QueueId) (a : Agent) :
    exec (.qRel q a) s = execQRel q a s := rfl

@[simp] theorem exec_qPush (v : QElem) :
    exec (.qPush v) s = execQPush v s := rfl

@[simp] theorem exec_qPop (q : QueueId) :
    exec (.qPop q) s = execQPop q s := rfl

@[simp] theorem exec_modSend (f : Frame) :
    exec (.modSend f) s = execModSend f s := rfl

@[simp] theorem exec_modWaitq :
    exec .modWaitq s = execModWaitq s := rfl

@[simp] theorem exec_modEmit :
    exec .modEmit s = execModEmit s := rfl

@[simp] theorem exec_modDrain :
    exec .modDrain s = execModDrain s := rfl

@[simp] theorem exec_modBits (b : List Bool) :
    exec (.modBits b) s = execModBits b s := rfl

@[simp] theorem exec_demStep :
    exec .demStep s = execDemStep s := rfl

@[simp] theorem exec_demSearch (x : Sample) :
    exec (.demSearch x) s = execDemSearch x s := rfl

@[simp] theorem exec_demCorr :
    exec .demCorr s = execDemCorr s := rfl

@[simp] theorem exec_demSlice (x : Sample) :
    exec (.demSlice x) s = execDemSlice x s := rfl

@[simp] theorem exec_demHeader (x : Sample) :
    exec (.demHeader x) s = execDemHeader x s := rfl

@[simp] theorem exec_demBody (x : Sample) :
    exec (.demBody x) s = execDemBody x s := rfl

@[simp] theorem exec_demCrc (x : Sample) :
    exec (.demCrc x) s = execDemCrc x s := rfl

@[simp] theorem exec_demEmit :
    exec .demEmit s = execDemEmit s := rfl

@[simp] theorem exec_demDiscard :
    exec .demDiscard s = execDemDiscard s := rfl

@[simp] theorem exec_fcPack (len : BitVec 16) (seq : BitVec 16) (body : List Byte) :
    exec (.fcPack len seq body) s = execFcPack len seq body s := rfl

@[simp] theorem exec_fcCrc32 (len : BitVec 16) (seq : BitVec 16) (body : List Byte) :
    exec (.fcCrc32 len seq body) s = execFcCrc32 len seq body s := rfl

@[simp] theorem exec_fcEncode (f : Frame) :
    exec (.fcEncode f) s = execFcEncode f s := rfl

@[simp] theorem exec_fcDecode (b : List Bool) :
    exec (.fcDecode b) s = execFcDecode b s := rfl

@[simp] theorem exec_csEval :
    exec .csEval s = execCsEval s := rfl

@[simp] theorem exec_txStart :
    exec .txStart s = execTxStart s := rfl

@[simp] theorem exec_txSent0 :
    exec .txSent0 s = execTxSent0 s := rfl

@[simp] theorem exec_txLoop :
    exec .txLoop s = execTxLoop s := rfl

@[simp] theorem exec_txDrain :
    exec .txDrain s = execTxDrain s := rfl

@[simp] theorem exec_txSlide :
    exec .txSlide s = execTxSlide s := rfl

@[simp] theorem exec_txRetx :
    exec .txRetx s = execTxRetx s := rfl

@[simp] theorem exec_txNew :
    exec .txNew s = execTxNew s := rfl

@[simp] theorem exec_txFin :
    exec .txFin s = execTxFin s := rfl

@[simp] theorem exec_txAbort :
    exec .txAbort s = execTxAbort s := rfl

@[simp] theorem exec_txStop :
    exec .txStop s = execTxStop s := rfl

@[simp] theorem exec_rxStart :
    exec .rxStart s = execRxStart s := rfl

@[simp] theorem exec_rxPop :
    exec .rxPop s = execRxPop s := rfl

@[simp] theorem exec_rxSent (f : Frame) :
    exec (.rxSent f) s = execRxSent f s := rfl

@[simp] theorem exec_rxData (f : Frame) :
    exec (.rxData f) s = execRxData f s := rfl

@[simp] theorem exec_rxEcho (f : Frame) :
    exec (.rxEcho f) s = execRxEcho f s := rfl

@[simp] theorem exec_rxOther (f : Frame) :
    exec (.rxOther f) s = execRxOther f s := rfl

@[simp] theorem exec_rxDone :
    exec .rxDone s = execRxDone s := rfl

@[simp] theorem exec_rxStop :
    exec .rxStop s = execRxStop s := rfl

@[simp] theorem exec_fSent (n : BitVec 16) (crc : BitVec 32) :
    exec (.fSent n crc) s = execFSent n crc s := rfl

@[simp] theorem exec_fAck (seq : BitVec 16) (crc : BitVec 32) :
    exec (.fAck seq crc) s = execFAck seq crc s := rfl

@[simp] theorem exec_fData (seq : BitVec 16) (body : List Byte) (crc : BitVec 32) :
    exec (.fData seq body crc) s = execFData seq body crc s := rfl

@[simp] theorem exec_fRsv (seq : BitVec 16) (body : List Byte) (crc : BitVec 32) :
    exec (.fRsv seq body crc) s = execFRsv seq body crc s := rfl

end Sys2Proof.Machine
end

