-- ==== Sys2Proof/Laws/Memory.lean ====
section
/-! SUPPORT. The laws of indexed storage: read after write, and that every operation keeps the one form. -/

namespace Sys2Proof

variable {α : Type}

@[simp] theorem Memory.get_nil (i : Nat) : Memory.get ([] : Memory α) i = none := rfl

theorem Memory.get_cons (k : Nat) (v : α) (m : Memory α) (i : Nat) :
    Memory.get ((k, v) :: m) i = if i = k then some v else Memory.get m i := rfl

/-- Below every index of the space nothing is held. -/
theorem Memory.get_eq_none_of_lt (m : Memory α) (i : Nat) (h : ∀ p ∈ m, i < p.1) : m.get i = none := by
  induction m with
  | nil => rfl
  | cons p m ih =>
    obtain ⟨k, v⟩ := p
    have hp : i < k := h (k, v) List.mem_cons_self
    rw [Memory.get_cons, if_neg (by omega)]
    exact ih fun q hq => h q (List.mem_cons_of_mem _ hq)

theorem Memory.wf_nil : Memory.wf ([] : Memory α) := List.Pairwise.nil

theorem Memory.wf_cons {p : Nat × α} {m : Memory α} :
    Memory.wf (p :: m) ↔ (∀ q ∈ m, p.1 < q.1) ∧ Memory.wf m := List.pairwise_cons

@[simp] theorem Memory.get_set_self (m : Memory α) (i : Nat) (v : α) : (m.set i v).get i = some v := by
  induction m with
  | nil => simp [Memory.set, Memory.get]
  | cons p m ih =>
    obtain ⟨k, w⟩ := p
    simp only [Memory.set]
    split
    · simp [Memory.get]
    · split
      · simp [Memory.get]
      · rw [Memory.get_cons, if_neg (by omega)]; exact ih

theorem Memory.get_set_of_ne (m : Memory α) (i j : Nat) (v : α) (h : j ≠ i) : (m.set i v).get j = m.get j := by
  induction m with
  | nil => simp [Memory.set, Memory.get, h]
  | cons p m ih =>
    obtain ⟨k, w⟩ := p
    simp only [Memory.set]
    split
    · rw [Memory.get_cons, if_neg h]
    · split
      · subst i; simp [Memory.get_cons, h]
      · simp only [Memory.get_cons, ih]

/-- Read after write. -/
theorem Memory.get_set (m : Memory α) (i j : Nat) (v : α) :
    (m.set i v).get j = if j = i then some v else m.get j := by
  by_cases h : j = i
  · subst h; simp
  · rw [if_neg h]; exact Memory.get_set_of_ne m i j v h

theorem Memory.mem_set {m : Memory α} {i : Nat} {v : α} {p : Nat × α} (h : p ∈ m.set i v) :
    p = (i, v) ∨ p ∈ m := by
  induction m with
  | nil => simpa [Memory.set] using h
  | cons q m ih =>
    obtain ⟨k, w⟩ := q
    simp only [Memory.set] at h
    split at h
    · simpa using h
    · split at h
      · rcases List.mem_cons.mp h with h | h
        · exact .inl h
        · exact .inr (List.mem_cons_of_mem _ h)
      · rcases List.mem_cons.mp h with h | h
        · exact .inr (by simp [h])
        · rcases ih h with h | h
          · exact .inl h
          · exact .inr (List.mem_cons_of_mem _ h)

/-- A write keeps the one form. -/
theorem Memory.wf_set {m : Memory α} (i : Nat) (v : α) (h : m.wf) : (m.set i v).wf := by
  induction m with
  | nil => simp [Memory.set]
  | cons p m ih =>
    obtain ⟨k, w⟩ := p
    obtain ⟨hk, hm⟩ := Memory.wf_cons.mp h
    simp only [Memory.set]
    split
    · refine Memory.wf_cons.mpr ⟨?_, h⟩
      intro q hq
      rcases List.mem_cons.mp hq with rfl | hq
      · assumption
      · have := hk q hq; simp at this ⊢; omega
    · split
      · subst i; exact Memory.wf_cons.mpr ⟨hk, hm⟩
      · refine Memory.wf_cons.mpr ⟨?_, ih hm⟩
        intro q hq
        rcases Memory.mem_set hq with rfl | hq
        · simp; omega
        · exact hk q hq

theorem Memory.mem_erase {m : Memory α} {i : Nat} {p : Nat × α} (h : p ∈ m.erase i) : p ∈ m := by
  induction m with
  | nil => exact h
  | cons q m ih =>
    obtain ⟨k, w⟩ := q
    simp only [Memory.erase] at h
    split at h
    · exact List.mem_cons_of_mem _ h
    · rcases List.mem_cons.mp h with h | h
      · simp [h]
      · exact List.mem_cons_of_mem _ (ih h)

/-- An erasure keeps the one form. -/
theorem Memory.wf_erase {m : Memory α} (i : Nat) (h : m.wf) : (m.erase i).wf := by
  induction m with
  | nil => exact h
  | cons p m ih =>
    obtain ⟨k, w⟩ := p
    obtain ⟨hk, hm⟩ := Memory.wf_cons.mp h
    simp only [Memory.erase]
    split
    · exact hm
    · exact Memory.wf_cons.mpr ⟨fun q hq => hk q (Memory.mem_erase hq), ih hm⟩

/-- Read after an erasure. -/
theorem Memory.get_erase {m : Memory α} (h : m.wf) (i j : Nat) :
    (m.erase i).get j = if j = i then none else m.get j := by
  induction m with
  | nil => simp [Memory.erase]
  | cons p m ih =>
    obtain ⟨k, w⟩ := p
    obtain ⟨hk, hm⟩ := Memory.wf_cons.mp h
    simp only [Memory.erase]
    split
    · subst i
      by_cases hj : j = k
      · subst hj; rw [if_pos rfl]; exact Memory.get_eq_none_of_lt m j hk
      · rw [if_neg hj, Memory.get_cons, if_neg hj]
    · rw [Memory.get_cons, ih hm, Memory.get_cons]
      split <;> split <;> simp_all

theorem Memory.le_of_mem_ofListFrom {l : List α} {n : Nat} {p : Nat × α}
    (h : p ∈ Memory.ofListFrom n l) : n ≤ p.1 := by
  induction l generalizing n with
  | nil => simp [Memory.ofListFrom] at h
  | cons a l ih =>
    rcases List.mem_cons.mp h with rfl | h
    · simp
    · have := ih h; omega

theorem Memory.wf_ofListFrom (n : Nat) (l : List α) : (Memory.ofListFrom n l).wf := by
  induction l generalizing n with
  | nil => exact List.Pairwise.nil
  | cons a l ih =>
    refine Memory.wf_cons.mpr ⟨?_, ih (n + 1)⟩
    intro q hq
    have := Memory.le_of_mem_ofListFrom hq
    simp; omega

/-- A list stored from 0 on has the one form. -/
theorem Memory.wf_ofList (l : List α) : (Memory.ofList l).wf := Memory.wf_ofListFrom 0 l

theorem Memory.get_ofListFrom (n : Nat) (l : List α) (i : Nat) :
    (Memory.ofListFrom n l).get (n + i) = l[i]? := by
  induction l generalizing n i with
  | nil => simp [Memory.ofListFrom]
  | cons a l ih =>
    simp only [Memory.ofListFrom, Memory.get_cons]
    cases i with
    | zero => simp
    | succ i =>
      rw [if_neg (by omega)]
      have := ih (n + 1) i
      rw [show n + (i + 1) = n + 1 + i by omega, this]
      simp

/-- What a stored list reads as. -/
@[simp] theorem Memory.get_ofList (l : List α) (i : Nat) : (Memory.ofList l).get i = l[i]? := by
  have := Memory.get_ofListFrom 0 l i
  simpa [Memory.ofList] using this

/-- A range is held exactly when every cell of it is, and then has the range's length and contents. -/
theorem Memory.range_eq_some {m : Memory α} {lo n : Nat} {l : List α} :
    m.range lo n = some l ↔ l.length = n ∧ ∀ i, i < n → m.get (lo + i) = l[i]? := by
  induction n generalizing lo l with
  | zero =>
    simp [Memory.range, eq_comm]
  | succ n ih =>
    simp only [Memory.range]
    constructor
    · intro h
      split at h
      · rename_i a l' ha hl
        cases h
        obtain ⟨h1, h2⟩ := ih.mp hl
        refine ⟨by simp [h1], ?_⟩
        intro i hi
        cases i with
        | zero => simpa using ha
        | succ i =>
          have := h2 i (by omega)
          rw [show lo + (i + 1) = lo + 1 + i by omega, this]; simp
      · cases h
    · rintro ⟨h1, h2⟩
      cases l with
      | nil => simp at h1
      | cons a l =>
        have ha : m.get lo = some a := by simpa using h2 0 (by omega)
        have hl : m.range (lo + 1) n = some l := by
          refine ih.mpr ⟨by simpa using h1, ?_⟩
          intro i hi
          have := h2 (i + 1) (by omega)
          rw [show lo + (i + 1) = lo + 1 + i by omega] at this
          simpa using this
        simp [ha, hl]

theorem Memory.range_isSome {m : Memory α} {lo n : Nat}
    (h : ∀ i, i < n → (m.get (lo + i)).isSome = true) : ∃ l, m.range lo n = some l := by
  induction n generalizing lo with
  | zero => exact ⟨[], rfl⟩
  | succ n ih =>
    obtain ⟨l, hl⟩ := ih (lo := lo + 1) fun i hi => by
      have := h (i + 1) (by omega)
      rwa [show lo + 1 + i = lo + (i + 1) by omega]
    obtain ⟨a, ha⟩ := Option.isSome_iff_exists.mp (by simpa using h 0 (by omega))
    exact ⟨a :: l, by simp [Memory.range, ha, hl]⟩

theorem Memory.range_ofList (l : List α) : (Memory.ofList l).range 0 l.length = some l := by
  refine Memory.range_eq_some.mpr ⟨rfl, ?_⟩
  intro i _
  simp

theorem Memory.eq_nil_of_get_none {m : Memory α} (h : ∀ i, m.get i = none) : m = [] := by
  cases m with
  | nil => rfl
  | cons p m => simpa [Memory.get] using h p.1

theorem Memory.get_isSome_of_mem {m : Memory α} {p : Nat × α} (h : p ∈ m) : (m.get p.1).isSome = true := by
  induction m with
  | nil => simp at h
  | cons q m ih =>
    obtain ⟨k, w⟩ := q
    rw [Memory.get_cons]
    split
    · rfl
    · rcases List.mem_cons.mp h with rfl | h
      · simp_all
      · exact ih h

theorem Memory.mem_of_get {m : Memory α} {i : Nat} {v : α} (h : m.get i = some v) : (i, v) ∈ m := by
  induction m with
  | nil => simp at h
  | cons q m ih =>
    obtain ⟨k, w⟩ := q
    rw [Memory.get_cons] at h
    split at h
    · cases h; subst i; simp
    · exact List.mem_cons_of_mem _ (ih h)

/-- Two spaces of the one form that read the same everywhere are the same data. -/
theorem Memory.ext_get {m n : Memory α} (hm : m.wf) (hn : n.wf) (h : ∀ i, m.get i = n.get i) : m = n := by
  induction m generalizing n with
  | nil => exact (Memory.eq_nil_of_get_none fun i => (h i).symm).symm
  | cons p m ih =>
    obtain ⟨k, v⟩ := p
    cases n with
    | nil => have := h k; simp [Memory.get_cons] at this
    | cons q n =>
      obtain ⟨k', v'⟩ := q
      obtain ⟨hk, hm'⟩ := Memory.wf_cons.mp hm
      obtain ⟨hk', hn'⟩ := Memory.wf_cons.mp hn
      have hkk : k = k' := by
        have h1 := h k
        have h2 := h k'
        simp only [Memory.get_cons, if_true] at h1 h2
        by_contra hne
        rw [if_neg hne] at h1
        rw [if_neg (fun e => hne e.symm)] at h2
        have a := hk' _ (Memory.mem_of_get h1.symm)
        have b := hk _ (Memory.mem_of_get h2)
        simp at a b; omega
      subst hkk
      have hv : v = v' := by have := h k; simpa [Memory.get_cons] using this
      subst hv
      congr 1
      refine ih hm' hn' fun i => ?_
      by_cases hi : i = k
      · subst hi
        rw [Memory.get_eq_none_of_lt m i hk, Memory.get_eq_none_of_lt n i hk']
      · have := h i
        simpa [Memory.get_cons, hi] using this

/-- A space that holds `1 .. n` has at least `n` entries. -/
theorem Memory.le_length_of_held {m : Memory α} {n : Nat}
    (h : ∀ i, 1 ≤ i → i ≤ n → (m.get i).isSome = true) : n ≤ m.length := by
  have hsub : List.range' 1 n ⊆ m.map Prod.fst := by
    intro i hi
    have hi' := List.mem_range'_1.mp hi
    obtain ⟨v, hv⟩ := Option.isSome_iff_exists.mp (h i hi'.1 (by omega))
    exact List.mem_map.mpr ⟨(i, v), Memory.mem_of_get hv, rfl⟩
  have hnd : (List.range' 1 n).Nodup := List.nodup_range'
  have := (List.subperm_of_subset hnd hsub).length_le
  simpa using this

end Sys2Proof
end

