-- ==== Sys2Proof/Laws/State.lean ====
section
/-! SUPPORT. One lemma per field and per named update of the state: what the update leaves there. -/

namespace Sys2Proof.Machine

variable (s : State)

@[simp] theorem answer_cfg (o : Output) : (s.answer o).cfg = s.cfg := rfl
@[simp] theorem answer_inq (o : Output) : (s.answer o).inq = s.inq := rfl
@[simp] theorem answer_outq (o : Output) : (s.answer o).outq = s.outq := rfl
@[simp] theorem answer_fq (o : Output) : (s.answer o).fq = s.fq := rfl
@[simp] theorem answer_lockInq (o : Output) : (s.answer o).lockInq = s.lockInq := rfl
@[simp] theorem answer_lockOutq (o : Output) : (s.answer o).lockOutq = s.lockOutq := rfl
@[simp] theorem answer_lockFq (o : Output) : (s.answer o).lockFq = s.lockFq := rfl
@[simp] theorem answer_demState (o : Output) : (s.answer o).demState = s.demState := rfl
@[simp] theorem answer_win (o : Output) : (s.answer o).win = s.win := rfl
@[simp] theorem answer_wfill (o : Output) : (s.answer o).wfill = s.wfill := rfl
@[simp] theorem answer_acc (o : Output) : (s.answer o).acc = s.acc := rfl
@[simp] theorem answer_scnt (o : Output) : (s.answer o).scnt = s.scnt := rfl
@[simp] theorem answer_bcnt (o : Output) : (s.answer o).bcnt = s.bcnt := rfl
@[simp] theorem answer_hdr (o : Output) : (s.answer o).hdr = s.hdr := rfl
@[simp] theorem answer_rxLen (o : Output) : (s.answer o).rxLen = s.rxLen := rfl
@[simp] theorem answer_rxSeq (o : Output) : (s.answer o).rxSeq = s.rxSeq := rfl
@[simp] theorem answer_rxCur (o : Output) : (s.answer o).rxCur = s.rxCur := rfl
@[simp] theorem answer_rxBody (o : Output) : (s.answer o).rxBody = s.rxBody := rfl
@[simp] theorem answer_rxCrc (o : Output) : (s.answer o).rxCrc = s.rxCrc := rfl
@[simp] theorem answer_sh (o : Output) : (s.answer o).sh = s.sh := rfl
@[simp] theorem answer_quiet (o : Output) : (s.answer o).quiet = s.quiet := rfl
@[simp] theorem answer_period (o : Output) : (s.answer o).period = s.period := rfl
@[simp] theorem answer_txf (o : Output) : (s.answer o).txf = s.txf := rfl
@[simp] theorem answer_modPhase (o : Output) : (s.answer o).modPhase = s.modPhase := rfl
@[simp] theorem answer_caller (o : Output) : (s.answer o).caller = s.caller := rfl
@[simp] theorem answer_now (o : Output) : (s.answer o).now = s.now := rfl
@[simp] theorem answer_arqPhase (o : Output) : (s.answer o).arqPhase = s.arqPhase := rfl
@[simp] theorem answer_busy (o : Output) : (s.answer o).busy = s.busy := rfl
@[simp] theorem answer_role (o : Output) : (s.answer o).role = s.role := rfl
@[simp] theorem answer_stopReq (o : Output) : (s.answer o).stopReq = s.stopReq := rfl
@[simp] theorem answer_result (o : Output) : (s.answer o).result = s.result := rfl
@[simp] theorem answer_inOvf (o : Output) : (s.answer o).inOvf = s.inOvf := rfl
@[simp] theorem answer_fqOvf (o : Output) : (s.answer o).fqOvf = s.fqOvf := rfl
@[simp] theorem answer_txPayload (o : Output) : (s.answer o).txPayload = s.txPayload := rfl
@[simp] theorem answer_txLen (o : Output) : (s.answer o).txLen = s.txLen := rfl
@[simp] theorem answer_nTx (o : Output) : (s.answer o).nTx = s.nTx := rfl
@[simp] theorem answer_lar (o : Output) : (s.answer o).lar = s.lar := rfl
@[simp] theorem answer_lfs (o : Output) : (s.answer o).lfs = s.lfs := rfl
@[simp] theorem answer_scan (o : Output) : (s.answer o).scan = s.scan := rfl
@[simp] theorem answer_finCnt (o : Output) : (s.answer o).finCnt = s.finCnt := rfl
@[simp] theorem answer_sw (o : Output) : (s.answer o).sw = s.sw := rfl
@[simp] theorem answer_lfr (o : Output) : (s.answer o).lfr = s.lfr := rfl
@[simp] theorem answer_nExp (o : Output) : (s.answer o).nExp = s.nExp := rfl
@[simp] theorem answer_countKnown (o : Output) : (s.answer o).countKnown = s.countKnown := rfl
@[simp] theorem answer_rb (o : Output) : (s.answer o).rb = s.rb := rfl
@[simp] theorem answer_rxPayload (o : Output) : (s.answer o).rxPayload = s.rxPayload := rfl
@[simp] theorem answer_rxPayloadLen (o : Output) : (s.answer o).rxPayloadLen = s.rxPayloadLen := rfl
@[simp] theorem answer_sched (o : Output) : (s.answer o).sched = s.sched := rfl
@[simp] theorem answer_events (o : Output) : (s.answer o).events = s.events := rfl
@[simp] theorem answer_out (o : Output) : (s.answer o).out = o := rfl
@[simp] theorem answer_frees (o : Output) : (s.answer o).frees = s.frees := rfl

@[simp] theorem raise_cfg (e : Event) : (s.raise e).cfg = s.cfg := rfl
@[simp] theorem raise_inq (e : Event) : (s.raise e).inq = s.inq := rfl
@[simp] theorem raise_outq (e : Event) : (s.raise e).outq = s.outq := rfl
@[simp] theorem raise_fq (e : Event) : (s.raise e).fq = s.fq := rfl
@[simp] theorem raise_lockInq (e : Event) : (s.raise e).lockInq = s.lockInq := rfl
@[simp] theorem raise_lockOutq (e : Event) : (s.raise e).lockOutq = s.lockOutq := rfl
@[simp] theorem raise_lockFq (e : Event) : (s.raise e).lockFq = s.lockFq := rfl
@[simp] theorem raise_demState (e : Event) : (s.raise e).demState = s.demState := rfl
@[simp] theorem raise_win (e : Event) : (s.raise e).win = s.win := rfl
@[simp] theorem raise_wfill (e : Event) : (s.raise e).wfill = s.wfill := rfl
@[simp] theorem raise_acc (e : Event) : (s.raise e).acc = s.acc := rfl
@[simp] theorem raise_scnt (e : Event) : (s.raise e).scnt = s.scnt := rfl
@[simp] theorem raise_bcnt (e : Event) : (s.raise e).bcnt = s.bcnt := rfl
@[simp] theorem raise_hdr (e : Event) : (s.raise e).hdr = s.hdr := rfl
@[simp] theorem raise_rxLen (e : Event) : (s.raise e).rxLen = s.rxLen := rfl
@[simp] theorem raise_rxSeq (e : Event) : (s.raise e).rxSeq = s.rxSeq := rfl
@[simp] theorem raise_rxCur (e : Event) : (s.raise e).rxCur = s.rxCur := rfl
@[simp] theorem raise_rxBody (e : Event) : (s.raise e).rxBody = s.rxBody := rfl
@[simp] theorem raise_rxCrc (e : Event) : (s.raise e).rxCrc = s.rxCrc := rfl
@[simp] theorem raise_sh (e : Event) : (s.raise e).sh = s.sh := rfl
@[simp] theorem raise_quiet (e : Event) : (s.raise e).quiet = s.quiet := rfl
@[simp] theorem raise_period (e : Event) : (s.raise e).period = s.period := rfl
@[simp] theorem raise_txf (e : Event) : (s.raise e).txf = s.txf := rfl
@[simp] theorem raise_modPhase (e : Event) : (s.raise e).modPhase = s.modPhase := rfl
@[simp] theorem raise_caller (e : Event) : (s.raise e).caller = s.caller := rfl
@[simp] theorem raise_now (e : Event) : (s.raise e).now = s.now := rfl
@[simp] theorem raise_arqPhase (e : Event) : (s.raise e).arqPhase = s.arqPhase := rfl
@[simp] theorem raise_busy (e : Event) : (s.raise e).busy = s.busy := rfl
@[simp] theorem raise_role (e : Event) : (s.raise e).role = s.role := rfl
@[simp] theorem raise_stopReq (e : Event) : (s.raise e).stopReq = s.stopReq := rfl
@[simp] theorem raise_result (e : Event) : (s.raise e).result = s.result := rfl
@[simp] theorem raise_inOvf (e : Event) : (s.raise e).inOvf = s.inOvf := rfl
@[simp] theorem raise_fqOvf (e : Event) : (s.raise e).fqOvf = s.fqOvf := rfl
@[simp] theorem raise_txPayload (e : Event) : (s.raise e).txPayload = s.txPayload := rfl
@[simp] theorem raise_txLen (e : Event) : (s.raise e).txLen = s.txLen := rfl
@[simp] theorem raise_nTx (e : Event) : (s.raise e).nTx = s.nTx := rfl
@[simp] theorem raise_lar (e : Event) : (s.raise e).lar = s.lar := rfl
@[simp] theorem raise_lfs (e : Event) : (s.raise e).lfs = s.lfs := rfl
@[simp] theorem raise_scan (e : Event) : (s.raise e).scan = s.scan := rfl
@[simp] theorem raise_finCnt (e : Event) : (s.raise e).finCnt = s.finCnt := rfl
@[simp] theorem raise_sw (e : Event) : (s.raise e).sw = s.sw := rfl
@[simp] theorem raise_lfr (e : Event) : (s.raise e).lfr = s.lfr := rfl
@[simp] theorem raise_nExp (e : Event) : (s.raise e).nExp = s.nExp := rfl
@[simp] theorem raise_countKnown (e : Event) : (s.raise e).countKnown = s.countKnown := rfl
@[simp] theorem raise_rb (e : Event) : (s.raise e).rb = s.rb := rfl
@[simp] theorem raise_rxPayload (e : Event) : (s.raise e).rxPayload = s.rxPayload := rfl
@[simp] theorem raise_rxPayloadLen (e : Event) : (s.raise e).rxPayloadLen = s.rxPayloadLen := rfl
@[simp] theorem raise_sched (e : Event) : (s.raise e).sched = s.sched := rfl
@[simp] theorem raise_events (e : Event) : (s.raise e).events = s.events ++ [e] := rfl
@[simp] theorem raise_out (e : Event) : (s.raise e).out = s.out := rfl
@[simp] theorem raise_frees (e : Event) : (s.raise e).frees = s.frees := rfl

@[simp] theorem endCommand_cfg (r : CmdResult) : (s.endCommand r).cfg = s.cfg := rfl
@[simp] theorem endCommand_inq (r : CmdResult) : (s.endCommand r).inq = s.inq := rfl
@[simp] theorem endCommand_outq (r : CmdResult) : (s.endCommand r).outq = s.outq := rfl
@[simp] theorem endCommand_fq (r : CmdResult) : (s.endCommand r).fq = s.fq := rfl
@[simp] theorem endCommand_lockInq (r : CmdResult) : (s.endCommand r).lockInq = s.lockInq := rfl
@[simp] theorem endCommand_lockOutq (r : CmdResult) : (s.endCommand r).lockOutq = s.lockOutq := rfl
@[simp] theorem endCommand_lockFq (r : CmdResult) : (s.endCommand r).lockFq = s.lockFq := rfl
@[simp] theorem endCommand_demState (r : CmdResult) : (s.endCommand r).demState = s.demState := rfl
@[simp] theorem endCommand_win (r : CmdResult) : (s.endCommand r).win = s.win := rfl
@[simp] theorem endCommand_wfill (r : CmdResult) : (s.endCommand r).wfill = s.wfill := rfl
@[simp] theorem endCommand_acc (r : CmdResult) : (s.endCommand r).acc = s.acc := rfl
@[simp] theorem endCommand_scnt (r : CmdResult) : (s.endCommand r).scnt = s.scnt := rfl
@[simp] theorem endCommand_bcnt (r : CmdResult) : (s.endCommand r).bcnt = s.bcnt := rfl
@[simp] theorem endCommand_hdr (r : CmdResult) : (s.endCommand r).hdr = s.hdr := rfl
@[simp] theorem endCommand_rxLen (r : CmdResult) : (s.endCommand r).rxLen = s.rxLen := rfl
@[simp] theorem endCommand_rxSeq (r : CmdResult) : (s.endCommand r).rxSeq = s.rxSeq := rfl
@[simp] theorem endCommand_rxCur (r : CmdResult) : (s.endCommand r).rxCur = s.rxCur := rfl
@[simp] theorem endCommand_rxBody (r : CmdResult) : (s.endCommand r).rxBody = s.rxBody := rfl
@[simp] theorem endCommand_rxCrc (r : CmdResult) : (s.endCommand r).rxCrc = s.rxCrc := rfl
@[simp] theorem endCommand_sh (r : CmdResult) : (s.endCommand r).sh = s.sh := rfl
@[simp] theorem endCommand_quiet (r : CmdResult) : (s.endCommand r).quiet = s.quiet := rfl
@[simp] theorem endCommand_period (r : CmdResult) : (s.endCommand r).period = s.period := rfl
@[simp] theorem endCommand_txf (r : CmdResult) : (s.endCommand r).txf = s.txf := rfl
@[simp] theorem endCommand_modPhase (r : CmdResult) : (s.endCommand r).modPhase = s.modPhase := rfl
@[simp] theorem endCommand_caller (r : CmdResult) : (s.endCommand r).caller = s.caller := rfl
@[simp] theorem endCommand_now (r : CmdResult) : (s.endCommand r).now = s.now := rfl
@[simp] theorem endCommand_arqPhase (r : CmdResult) : (s.endCommand r).arqPhase = .idle := rfl
@[simp] theorem endCommand_busy (r : CmdResult) : (s.endCommand r).busy = false := rfl
@[simp] theorem endCommand_role (r : CmdResult) : (s.endCommand r).role = s.role := rfl
@[simp] theorem endCommand_stopReq (r : CmdResult) : (s.endCommand r).stopReq = s.stopReq := rfl
@[simp] theorem endCommand_result (r : CmdResult) : (s.endCommand r).result = r := rfl
@[simp] theorem endCommand_inOvf (r : CmdResult) : (s.endCommand r).inOvf = s.inOvf := rfl
@[simp] theorem endCommand_fqOvf (r : CmdResult) : (s.endCommand r).fqOvf = s.fqOvf := rfl
@[simp] theorem endCommand_txPayload (r : CmdResult) : (s.endCommand r).txPayload = s.txPayload := rfl
@[simp] theorem endCommand_txLen (r : CmdResult) : (s.endCommand r).txLen = s.txLen := rfl
@[simp] theorem endCommand_nTx (r : CmdResult) : (s.endCommand r).nTx = s.nTx := rfl
@[simp] theorem endCommand_lar (r : CmdResult) : (s.endCommand r).lar = s.lar := rfl
@[simp] theorem endCommand_lfs (r : CmdResult) : (s.endCommand r).lfs = s.lfs := rfl
@[simp] theorem endCommand_scan (r : CmdResult) : (s.endCommand r).scan = s.scan := rfl
@[simp] theorem endCommand_finCnt (r : CmdResult) : (s.endCommand r).finCnt = s.finCnt := rfl
@[simp] theorem endCommand_sw (r : CmdResult) : (s.endCommand r).sw = s.sw := rfl
@[simp] theorem endCommand_lfr (r : CmdResult) : (s.endCommand r).lfr = s.lfr := rfl
@[simp] theorem endCommand_nExp (r : CmdResult) : (s.endCommand r).nExp = s.nExp := rfl
@[simp] theorem endCommand_countKnown (r : CmdResult) : (s.endCommand r).countKnown = s.countKnown := rfl
@[simp] theorem endCommand_rb (r : CmdResult) : (s.endCommand r).rb = s.rb := rfl
@[simp] theorem endCommand_rxPayload (r : CmdResult) : (s.endCommand r).rxPayload = s.rxPayload := rfl
@[simp] theorem endCommand_rxPayloadLen (r : CmdResult) : (s.endCommand r).rxPayloadLen = s.rxPayloadLen := rfl
@[simp] theorem endCommand_sched (r : CmdResult) : (s.endCommand r).sched = s.sched := rfl
@[simp] theorem endCommand_events (r : CmdResult) : (s.endCommand r).events = s.events := rfl
@[simp] theorem endCommand_out (r : CmdResult) : (s.endCommand r).out = s.out := rfl
@[simp] theorem endCommand_frees (r : CmdResult) : (s.endCommand r).frees = s.frees := rfl

@[simp] theorem toSearch_cfg : s.toSearch.cfg = s.cfg := rfl
@[simp] theorem toSearch_inq : s.toSearch.inq = s.inq := rfl
@[simp] theorem toSearch_outq : s.toSearch.outq = s.outq := rfl
@[simp] theorem toSearch_fq : s.toSearch.fq = s.fq := rfl
@[simp] theorem toSearch_lockInq : s.toSearch.lockInq = s.lockInq := rfl
@[simp] theorem toSearch_lockOutq : s.toSearch.lockOutq = s.lockOutq := rfl
@[simp] theorem toSearch_lockFq : s.toSearch.lockFq = s.lockFq := rfl
@[simp] theorem toSearch_demState : s.toSearch.demState = .search := rfl
@[simp] theorem toSearch_win : s.toSearch.win = [] := rfl
@[simp] theorem toSearch_wfill : s.toSearch.wfill = 0 := rfl
@[simp] theorem toSearch_acc : s.toSearch.acc = s.cfg.num.zero := rfl
@[simp] theorem toSearch_scnt : s.toSearch.scnt = 0 := rfl
@[simp] theorem toSearch_bcnt : s.toSearch.bcnt = 0 := rfl
@[simp] theorem toSearch_hdr : s.toSearch.hdr = s.hdr := rfl
@[simp] theorem toSearch_rxLen : s.toSearch.rxLen = s.rxLen := rfl
@[simp] theorem toSearch_rxSeq : s.toSearch.rxSeq = s.rxSeq := rfl
@[simp] theorem toSearch_rxCur : s.toSearch.rxCur = s.rxCur := rfl
@[simp] theorem toSearch_rxBody : s.toSearch.rxBody = [] := rfl
@[simp] theorem toSearch_rxCrc : s.toSearch.rxCrc = s.rxCrc := rfl
@[simp] theorem toSearch_sh : s.toSearch.sh = s.sh := rfl
@[simp] theorem toSearch_quiet : s.toSearch.quiet = s.quiet := rfl
@[simp] theorem toSearch_period : s.toSearch.period = s.period := rfl
@[simp] theorem toSearch_txf : s.toSearch.txf = s.txf := rfl
@[simp] theorem toSearch_modPhase : s.toSearch.modPhase = s.modPhase := rfl
@[simp] theorem toSearch_caller : s.toSearch.caller = s.caller := rfl
@[simp] theorem toSearch_now : s.toSearch.now = s.now := rfl
@[simp] theorem toSearch_arqPhase : s.toSearch.arqPhase = s.arqPhase := rfl
@[simp] theorem toSearch_busy : s.toSearch.busy = s.busy := rfl
@[simp] theorem toSearch_role : s.toSearch.role = s.role := rfl
@[simp] theorem toSearch_stopReq : s.toSearch.stopReq = s.stopReq := rfl
@[simp] theorem toSearch_result : s.toSearch.result = s.result := rfl
@[simp] theorem toSearch_inOvf : s.toSearch.inOvf = s.inOvf := rfl
@[simp] theorem toSearch_fqOvf : s.toSearch.fqOvf = s.fqOvf := rfl
@[simp] theorem toSearch_txPayload : s.toSearch.txPayload = s.txPayload := rfl
@[simp] theorem toSearch_txLen : s.toSearch.txLen = s.txLen := rfl
@[simp] theorem toSearch_nTx : s.toSearch.nTx = s.nTx := rfl
@[simp] theorem toSearch_lar : s.toSearch.lar = s.lar := rfl
@[simp] theorem toSearch_lfs : s.toSearch.lfs = s.lfs := rfl
@[simp] theorem toSearch_scan : s.toSearch.scan = s.scan := rfl
@[simp] theorem toSearch_finCnt : s.toSearch.finCnt = s.finCnt := rfl
@[simp] theorem toSearch_sw : s.toSearch.sw = s.sw := rfl
@[simp] theorem toSearch_lfr : s.toSearch.lfr = s.lfr := rfl
@[simp] theorem toSearch_nExp : s.toSearch.nExp = s.nExp := rfl
@[simp] theorem toSearch_countKnown : s.toSearch.countKnown = s.countKnown := rfl
@[simp] theorem toSearch_rb : s.toSearch.rb = s.rb := rfl
@[simp] theorem toSearch_rxPayload : s.toSearch.rxPayload = s.rxPayload := rfl
@[simp] theorem toSearch_rxPayloadLen : s.toSearch.rxPayloadLen = s.rxPayloadLen := rfl
@[simp] theorem toSearch_sched : s.toSearch.sched = s.sched := rfl
@[simp] theorem toSearch_events : s.toSearch.events = s.events := rfl
@[simp] theorem toSearch_out : s.toSearch.out = s.out := rfl
@[simp] theorem toSearch_frees : s.toSearch.frees = s.frees := rfl

@[simp] theorem abort_cfg : (abort s).cfg = s.cfg := rfl
@[simp] theorem abort_inq : (abort s).inq = s.inq := rfl
@[simp] theorem abort_outq : (abort s).outq = s.outq := rfl
@[simp] theorem abort_fq : (abort s).fq = s.fq := rfl
@[simp] theorem abort_lockInq : (abort s).lockInq = s.lockInq := rfl
@[simp] theorem abort_lockOutq : (abort s).lockOutq = s.lockOutq := rfl
@[simp] theorem abort_lockFq : (abort s).lockFq = s.lockFq := rfl
@[simp] theorem abort_demState : (abort s).demState = s.demState := rfl
@[simp] theorem abort_win : (abort s).win = s.win := rfl
@[simp] theorem abort_wfill : (abort s).wfill = s.wfill := rfl
@[simp] theorem abort_acc : (abort s).acc = s.acc := rfl
@[simp] theorem abort_scnt : (abort s).scnt = s.scnt := rfl
@[simp] theorem abort_bcnt : (abort s).bcnt = s.bcnt := rfl
@[simp] theorem abort_hdr : (abort s).hdr = s.hdr := rfl
@[simp] theorem abort_rxLen : (abort s).rxLen = s.rxLen := rfl
@[simp] theorem abort_rxSeq : (abort s).rxSeq = s.rxSeq := rfl
@[simp] theorem abort_rxCur : (abort s).rxCur = s.rxCur := rfl
@[simp] theorem abort_rxBody : (abort s).rxBody = s.rxBody := rfl
@[simp] theorem abort_rxCrc : (abort s).rxCrc = s.rxCrc := rfl
@[simp] theorem abort_sh : (abort s).sh = s.sh := rfl
@[simp] theorem abort_quiet : (abort s).quiet = s.quiet := rfl
@[simp] theorem abort_period : (abort s).period = s.period := rfl
@[simp] theorem abort_txf : (abort s).txf = s.txf := rfl
@[simp] theorem abort_modPhase : (abort s).modPhase = s.modPhase := rfl
@[simp] theorem abort_caller : (abort s).caller = s.caller := rfl
@[simp] theorem abort_now : (abort s).now = s.now := rfl
@[simp] theorem abort_arqPhase : (abort s).arqPhase = .idle := rfl
@[simp] theorem abort_busy : (abort s).busy = false := rfl
@[simp] theorem abort_role : (abort s).role = s.role := rfl
@[simp] theorem abort_stopReq : (abort s).stopReq = s.stopReq := rfl
@[simp] theorem abort_result : (abort s).result = .linkError := rfl
@[simp] theorem abort_inOvf : (abort s).inOvf = s.inOvf := rfl
@[simp] theorem abort_fqOvf : (abort s).fqOvf = s.fqOvf := rfl
@[simp] theorem abort_txPayload : (abort s).txPayload = s.txPayload := rfl
@[simp] theorem abort_txLen : (abort s).txLen = s.txLen := rfl
@[simp] theorem abort_nTx : (abort s).nTx = s.nTx := rfl
@[simp] theorem abort_lar : (abort s).lar = s.lar := rfl
@[simp] theorem abort_lfs : (abort s).lfs = s.lfs := rfl
@[simp] theorem abort_scan : (abort s).scan = s.scan := rfl
@[simp] theorem abort_finCnt : (abort s).finCnt = s.finCnt := rfl
@[simp] theorem abort_sw : (abort s).sw = [] := rfl
@[simp] theorem abort_lfr : (abort s).lfr = s.lfr := rfl
@[simp] theorem abort_nExp : (abort s).nExp = s.nExp := rfl
@[simp] theorem abort_countKnown : (abort s).countKnown = s.countKnown := rfl
@[simp] theorem abort_rb : (abort s).rb = s.rb := rfl
@[simp] theorem abort_rxPayload : (abort s).rxPayload = s.rxPayload := rfl
@[simp] theorem abort_rxPayloadLen : (abort s).rxPayloadLen = s.rxPayloadLen := rfl
@[simp] theorem abort_sched : (abort s).sched = s.sched := rfl
@[simp] theorem abort_events : (abort s).events = s.events ++ [.linkError s.scan] := rfl
@[simp] theorem abort_out : (abort s).out = s.out := rfl
@[simp] theorem abort_frees : (abort s).frees = s.frees := rfl

@[simp] theorem stopSender_cfg : (stopSender s).cfg = s.cfg := rfl
@[simp] theorem stopSender_inq : (stopSender s).inq = s.inq := rfl
@[simp] theorem stopSender_outq : (stopSender s).outq = s.outq := rfl
@[simp] theorem stopSender_fq : (stopSender s).fq = s.fq := rfl
@[simp] theorem stopSender_lockInq : (stopSender s).lockInq = s.lockInq := rfl
@[simp] theorem stopSender_lockOutq : (stopSender s).lockOutq = s.lockOutq := rfl
@[simp] theorem stopSender_lockFq : (stopSender s).lockFq = s.lockFq := rfl
@[simp] theorem stopSender_demState : (stopSender s).demState = s.demState := rfl
@[simp] theorem stopSender_win : (stopSender s).win = s.win := rfl
@[simp] theorem stopSender_wfill : (stopSender s).wfill = s.wfill := rfl
@[simp] theorem stopSender_acc : (stopSender s).acc = s.acc := rfl
@[simp] theorem stopSender_scnt : (stopSender s).scnt = s.scnt := rfl
@[simp] theorem stopSender_bcnt : (stopSender s).bcnt = s.bcnt := rfl
@[simp] theorem stopSender_hdr : (stopSender s).hdr = s.hdr := rfl
@[simp] theorem stopSender_rxLen : (stopSender s).rxLen = s.rxLen := rfl
@[simp] theorem stopSender_rxSeq : (stopSender s).rxSeq = s.rxSeq := rfl
@[simp] theorem stopSender_rxCur : (stopSender s).rxCur = s.rxCur := rfl
@[simp] theorem stopSender_rxBody : (stopSender s).rxBody = s.rxBody := rfl
@[simp] theorem stopSender_rxCrc : (stopSender s).rxCrc = s.rxCrc := rfl
@[simp] theorem stopSender_sh : (stopSender s).sh = s.sh := rfl
@[simp] theorem stopSender_quiet : (stopSender s).quiet = s.quiet := rfl
@[simp] theorem stopSender_period : (stopSender s).period = s.period := rfl
@[simp] theorem stopSender_txf : (stopSender s).txf = none := rfl
@[simp] theorem stopSender_modPhase : (stopSender s).modPhase = .idle := rfl
@[simp] theorem stopSender_caller : (stopSender s).caller = none := rfl
@[simp] theorem stopSender_now : (stopSender s).now = s.now := rfl
@[simp] theorem stopSender_arqPhase : (stopSender s).arqPhase = .idle := rfl
@[simp] theorem stopSender_busy : (stopSender s).busy = false := rfl
@[simp] theorem stopSender_role : (stopSender s).role = s.role := rfl
@[simp] theorem stopSender_stopReq : (stopSender s).stopReq = false := rfl
@[simp] theorem stopSender_result : (stopSender s).result = .stopped := rfl
@[simp] theorem stopSender_inOvf : (stopSender s).inOvf = s.inOvf := rfl
@[simp] theorem stopSender_fqOvf : (stopSender s).fqOvf = s.fqOvf := rfl
@[simp] theorem stopSender_txPayload : (stopSender s).txPayload = s.txPayload := rfl
@[simp] theorem stopSender_txLen : (stopSender s).txLen = s.txLen := rfl
@[simp] theorem stopSender_nTx : (stopSender s).nTx = s.nTx := rfl
@[simp] theorem stopSender_lar : (stopSender s).lar = s.lar := rfl
@[simp] theorem stopSender_lfs : (stopSender s).lfs = s.lfs := rfl
@[simp] theorem stopSender_scan : (stopSender s).scan = s.scan := rfl
@[simp] theorem stopSender_finCnt : (stopSender s).finCnt = s.finCnt := rfl
@[simp] theorem stopSender_sw : (stopSender s).sw = [] := rfl
@[simp] theorem stopSender_lfr : (stopSender s).lfr = s.lfr := rfl
@[simp] theorem stopSender_nExp : (stopSender s).nExp = s.nExp := rfl
@[simp] theorem stopSender_countKnown : (stopSender s).countKnown = s.countKnown := rfl
@[simp] theorem stopSender_rb : (stopSender s).rb = s.rb := rfl
@[simp] theorem stopSender_rxPayload : (stopSender s).rxPayload = s.rxPayload := rfl
@[simp] theorem stopSender_rxPayloadLen : (stopSender s).rxPayloadLen = s.rxPayloadLen := rfl
@[simp] theorem stopSender_sched : (stopSender s).sched = s.sched := rfl
@[simp] theorem stopSender_events : (stopSender s).events = s.events := rfl
@[simp] theorem stopSender_out : (stopSender s).out = s.out := rfl
@[simp] theorem stopSender_frees : (stopSender s).frees = s.frees := rfl

@[simp] theorem stopReceiver_cfg : (stopReceiver s).cfg = s.cfg := rfl
@[simp] theorem stopReceiver_inq : (stopReceiver s).inq = s.inq := rfl
@[simp] theorem stopReceiver_outq : (stopReceiver s).outq = s.outq := rfl
@[simp] theorem stopReceiver_fq : (stopReceiver s).fq = s.fq := rfl
@[simp] theorem stopReceiver_lockInq : (stopReceiver s).lockInq = s.lockInq := rfl
@[simp] theorem stopReceiver_lockOutq : (stopReceiver s).lockOutq = s.lockOutq := rfl
@[simp] theorem stopReceiver_lockFq : (stopReceiver s).lockFq = s.lockFq := rfl
@[simp] theorem stopReceiver_demState : (stopReceiver s).demState = s.demState := rfl
@[simp] theorem stopReceiver_win : (stopReceiver s).win = s.win := rfl
@[simp] theorem stopReceiver_wfill : (stopReceiver s).wfill = s.wfill := rfl
@[simp] theorem stopReceiver_acc : (stopReceiver s).acc = s.acc := rfl
@[simp] theorem stopReceiver_scnt : (stopReceiver s).scnt = s.scnt := rfl
@[simp] theorem stopReceiver_bcnt : (stopReceiver s).bcnt = s.bcnt := rfl
@[simp] theorem stopReceiver_hdr : (stopReceiver s).hdr = s.hdr := rfl
@[simp] theorem stopReceiver_rxLen : (stopReceiver s).rxLen = s.rxLen := rfl
@[simp] theorem stopReceiver_rxSeq : (stopReceiver s).rxSeq = s.rxSeq := rfl
@[simp] theorem stopReceiver_rxCur : (stopReceiver s).rxCur = s.rxCur := rfl
@[simp] theorem stopReceiver_rxBody : (stopReceiver s).rxBody = s.rxBody := rfl
@[simp] theorem stopReceiver_rxCrc : (stopReceiver s).rxCrc = s.rxCrc := rfl
@[simp] theorem stopReceiver_sh : (stopReceiver s).sh = s.sh := rfl
@[simp] theorem stopReceiver_quiet : (stopReceiver s).quiet = s.quiet := rfl
@[simp] theorem stopReceiver_period : (stopReceiver s).period = s.period := rfl
@[simp] theorem stopReceiver_txf : (stopReceiver s).txf = none := rfl
@[simp] theorem stopReceiver_modPhase : (stopReceiver s).modPhase = .idle := rfl
@[simp] theorem stopReceiver_caller : (stopReceiver s).caller = none := rfl
@[simp] theorem stopReceiver_now : (stopReceiver s).now = s.now := rfl
@[simp] theorem stopReceiver_arqPhase : (stopReceiver s).arqPhase = .idle := rfl
@[simp] theorem stopReceiver_busy : (stopReceiver s).busy = false := rfl
@[simp] theorem stopReceiver_role : (stopReceiver s).role = s.role := rfl
@[simp] theorem stopReceiver_stopReq : (stopReceiver s).stopReq = false := rfl
@[simp] theorem stopReceiver_result : (stopReceiver s).result = .stopped := rfl
@[simp] theorem stopReceiver_inOvf : (stopReceiver s).inOvf = s.inOvf := rfl
@[simp] theorem stopReceiver_fqOvf : (stopReceiver s).fqOvf = s.fqOvf := rfl
@[simp] theorem stopReceiver_txPayload : (stopReceiver s).txPayload = s.txPayload := rfl
@[simp] theorem stopReceiver_txLen : (stopReceiver s).txLen = s.txLen := rfl
@[simp] theorem stopReceiver_nTx : (stopReceiver s).nTx = s.nTx := rfl
@[simp] theorem stopReceiver_lar : (stopReceiver s).lar = s.lar := rfl
@[simp] theorem stopReceiver_lfs : (stopReceiver s).lfs = s.lfs := rfl
@[simp] theorem stopReceiver_scan : (stopReceiver s).scan = s.scan := rfl
@[simp] theorem stopReceiver_finCnt : (stopReceiver s).finCnt = s.finCnt := rfl
@[simp] theorem stopReceiver_sw : (stopReceiver s).sw = s.sw := rfl
@[simp] theorem stopReceiver_lfr : (stopReceiver s).lfr = s.lfr := rfl
@[simp] theorem stopReceiver_nExp : (stopReceiver s).nExp = s.nExp := rfl
@[simp] theorem stopReceiver_countKnown : (stopReceiver s).countKnown = false := rfl
@[simp] theorem stopReceiver_rb : (stopReceiver s).rb = [] := rfl
@[simp] theorem stopReceiver_rxPayload : (stopReceiver s).rxPayload = [] := rfl
@[simp] theorem stopReceiver_rxPayloadLen : (stopReceiver s).rxPayloadLen = 0 := rfl
@[simp] theorem stopReceiver_sched : (stopReceiver s).sched = s.sched := rfl
@[simp] theorem stopReceiver_events : (stopReceiver s).events = s.events := rfl
@[simp] theorem stopReceiver_out : (stopReceiver s).out = s.out := rfl
@[simp] theorem stopReceiver_frees : (stopReceiver s).frees = s.frees := rfl

@[simp] theorem synchronize_cfg : (synchronize s).cfg = s.cfg := rfl
@[simp] theorem synchronize_inq : (synchronize s).inq = s.inq := rfl
@[simp] theorem synchronize_outq : (synchronize s).outq = s.outq := rfl
@[simp] theorem synchronize_fq : (synchronize s).fq = s.fq := rfl
@[simp] theorem synchronize_lockInq : (synchronize s).lockInq = s.lockInq := rfl
@[simp] theorem synchronize_lockOutq : (synchronize s).lockOutq = s.lockOutq := rfl
@[simp] theorem synchronize_lockFq : (synchronize s).lockFq = s.lockFq := rfl
@[simp] theorem synchronize_demState : (synchronize s).demState = .header := rfl
@[simp] theorem synchronize_win : (synchronize s).win = [] := rfl
@[simp] theorem synchronize_wfill : (synchronize s).wfill = 0 := rfl
@[simp] theorem synchronize_acc : (synchronize s).acc = s.cfg.num.zero := rfl
@[simp] theorem synchronize_scnt : (synchronize s).scnt = 0 := rfl
@[simp] theorem synchronize_bcnt : (synchronize s).bcnt = 0 := rfl
@[simp] theorem synchronize_hdr : (synchronize s).hdr = 0#32 := rfl
@[simp] theorem synchronize_rxLen : (synchronize s).rxLen = s.rxLen := rfl
@[simp] theorem synchronize_rxSeq : (synchronize s).rxSeq = s.rxSeq := rfl
@[simp] theorem synchronize_rxCur : (synchronize s).rxCur = s.rxCur := rfl
@[simp] theorem synchronize_rxBody : (synchronize s).rxBody = [] := rfl
@[simp] theorem synchronize_rxCrc : (synchronize s).rxCrc = s.rxCrc := rfl
@[simp] theorem synchronize_sh : (synchronize s).sh = s.sh := rfl
@[simp] theorem synchronize_quiet : (synchronize s).quiet = s.quiet := rfl
@[simp] theorem synchronize_period : (synchronize s).period = s.period := rfl
@[simp] theorem synchronize_txf : (synchronize s).txf = s.txf := rfl
@[simp] theorem synchronize_modPhase : (synchronize s).modPhase = s.modPhase := rfl
@[simp] theorem synchronize_caller : (synchronize s).caller = s.caller := rfl
@[simp] theorem synchronize_now : (synchronize s).now = s.now := rfl
@[simp] theorem synchronize_arqPhase : (synchronize s).arqPhase = s.arqPhase := rfl
@[simp] theorem synchronize_busy : (synchronize s).busy = s.busy := rfl
@[simp] theorem synchronize_role : (synchronize s).role = s.role := rfl
@[simp] theorem synchronize_stopReq : (synchronize s).stopReq = s.stopReq := rfl
@[simp] theorem synchronize_result : (synchronize s).result = s.result := rfl
@[simp] theorem synchronize_inOvf : (synchronize s).inOvf = s.inOvf := rfl
@[simp] theorem synchronize_fqOvf : (synchronize s).fqOvf = s.fqOvf := rfl
@[simp] theorem synchronize_txPayload : (synchronize s).txPayload = s.txPayload := rfl
@[simp] theorem synchronize_txLen : (synchronize s).txLen = s.txLen := rfl
@[simp] theorem synchronize_nTx : (synchronize s).nTx = s.nTx := rfl
@[simp] theorem synchronize_lar : (synchronize s).lar = s.lar := rfl
@[simp] theorem synchronize_lfs : (synchronize s).lfs = s.lfs := rfl
@[simp] theorem synchronize_scan : (synchronize s).scan = s.scan := rfl
@[simp] theorem synchronize_finCnt : (synchronize s).finCnt = s.finCnt := rfl
@[simp] theorem synchronize_sw : (synchronize s).sw = s.sw := rfl
@[simp] theorem synchronize_lfr : (synchronize s).lfr = s.lfr := rfl
@[simp] theorem synchronize_nExp : (synchronize s).nExp = s.nExp := rfl
@[simp] theorem synchronize_countKnown : (synchronize s).countKnown = s.countKnown := rfl
@[simp] theorem synchronize_rb : (synchronize s).rb = s.rb := rfl
@[simp] theorem synchronize_rxPayload : (synchronize s).rxPayload = s.rxPayload := rfl
@[simp] theorem synchronize_rxPayloadLen : (synchronize s).rxPayloadLen = s.rxPayloadLen := rfl
@[simp] theorem synchronize_sched : (synchronize s).sched = s.sched := rfl
@[simp] theorem synchronize_events : (synchronize s).events = s.events := rfl
@[simp] theorem synchronize_out : (synchronize s).out = s.out := rfl
@[simp] theorem synchronize_frees : (synchronize s).frees = s.frees := rfl

@[simp] theorem withHeader_cfg (f : Frame) : (withHeader f s).cfg = s.cfg := rfl
@[simp] theorem withHeader_inq (f : Frame) : (withHeader f s).inq = s.inq := rfl
@[simp] theorem withHeader_outq (f : Frame) : (withHeader f s).outq = s.outq := rfl
@[simp] theorem withHeader_fq (f : Frame) : (withHeader f s).fq = s.fq := rfl
@[simp] theorem withHeader_lockInq (f : Frame) : (withHeader f s).lockInq = s.lockInq := rfl
@[simp] theorem withHeader_lockOutq (f : Frame) : (withHeader f s).lockOutq = s.lockOutq := rfl
@[simp] theorem withHeader_lockFq (f : Frame) : (withHeader f s).lockFq = s.lockFq := rfl
@[simp] theorem withHeader_demState (f : Frame) : (withHeader f s).demState = s.demState := rfl
@[simp] theorem withHeader_win (f : Frame) : (withHeader f s).win = s.win := rfl
@[simp] theorem withHeader_wfill (f : Frame) : (withHeader f s).wfill = s.wfill := rfl
@[simp] theorem withHeader_acc (f : Frame) : (withHeader f s).acc = s.acc := rfl
@[simp] theorem withHeader_scnt (f : Frame) : (withHeader f s).scnt = s.scnt := rfl
@[simp] theorem withHeader_bcnt (f : Frame) : (withHeader f s).bcnt = s.bcnt := rfl
@[simp] theorem withHeader_hdr (f : Frame) : (withHeader f s).hdr = f.len ++ f.seq := rfl
@[simp] theorem withHeader_rxLen (f : Frame) : (withHeader f s).rxLen = f.len := rfl
@[simp] theorem withHeader_rxSeq (f : Frame) : (withHeader f s).rxSeq = f.seq := rfl
@[simp] theorem withHeader_rxCur (f : Frame) : (withHeader f s).rxCur = 0#8 := rfl
@[simp] theorem withHeader_rxBody (f : Frame) : (withHeader f s).rxBody = [] := rfl
@[simp] theorem withHeader_rxCrc (f : Frame) : (withHeader f s).rxCrc = 0#32 := rfl
@[simp] theorem withHeader_sh (f : Frame) : (withHeader f s).sh = s.sh := rfl
@[simp] theorem withHeader_quiet (f : Frame) : (withHeader f s).quiet = s.quiet := rfl
@[simp] theorem withHeader_period (f : Frame) : (withHeader f s).period = s.period := rfl
@[simp] theorem withHeader_txf (f : Frame) : (withHeader f s).txf = s.txf := rfl
@[simp] theorem withHeader_modPhase (f : Frame) : (withHeader f s).modPhase = s.modPhase := rfl
@[simp] theorem withHeader_caller (f : Frame) : (withHeader f s).caller = s.caller := rfl
@[simp] theorem withHeader_now (f : Frame) : (withHeader f s).now = s.now := rfl
@[simp] theorem withHeader_arqPhase (f : Frame) : (withHeader f s).arqPhase = s.arqPhase := rfl
@[simp] theorem withHeader_busy (f : Frame) : (withHeader f s).busy = s.busy := rfl
@[simp] theorem withHeader_role (f : Frame) : (withHeader f s).role = s.role := rfl
@[simp] theorem withHeader_stopReq (f : Frame) : (withHeader f s).stopReq = s.stopReq := rfl
@[simp] theorem withHeader_result (f : Frame) : (withHeader f s).result = s.result := rfl
@[simp] theorem withHeader_inOvf (f : Frame) : (withHeader f s).inOvf = s.inOvf := rfl
@[simp] theorem withHeader_fqOvf (f : Frame) : (withHeader f s).fqOvf = s.fqOvf := rfl
@[simp] theorem withHeader_txPayload (f : Frame) : (withHeader f s).txPayload = s.txPayload := rfl
@[simp] theorem withHeader_txLen (f : Frame) : (withHeader f s).txLen = s.txLen := rfl
@[simp] theorem withHeader_nTx (f : Frame) : (withHeader f s).nTx = s.nTx := rfl
@[simp] theorem withHeader_lar (f : Frame) : (withHeader f s).lar = s.lar := rfl
@[simp] theorem withHeader_lfs (f : Frame) : (withHeader f s).lfs = s.lfs := rfl
@[simp] theorem withHeader_scan (f : Frame) : (withHeader f s).scan = s.scan := rfl
@[simp] theorem withHeader_finCnt (f : Frame) : (withHeader f s).finCnt = s.finCnt := rfl
@[simp] theorem withHeader_sw (f : Frame) : (withHeader f s).sw = s.sw := rfl
@[simp] theorem withHeader_lfr (f : Frame) : (withHeader f s).lfr = s.lfr := rfl
@[simp] theorem withHeader_nExp (f : Frame) : (withHeader f s).nExp = s.nExp := rfl
@[simp] theorem withHeader_countKnown (f : Frame) : (withHeader f s).countKnown = s.countKnown := rfl
@[simp] theorem withHeader_rb (f : Frame) : (withHeader f s).rb = s.rb := rfl
@[simp] theorem withHeader_rxPayload (f : Frame) : (withHeader f s).rxPayload = s.rxPayload := rfl
@[simp] theorem withHeader_rxPayloadLen (f : Frame) : (withHeader f s).rxPayloadLen = s.rxPayloadLen := rfl
@[simp] theorem withHeader_sched (f : Frame) : (withHeader f s).sched = s.sched := rfl
@[simp] theorem withHeader_events (f : Frame) : (withHeader f s).events = s.events := rfl
@[simp] theorem withHeader_out (f : Frame) : (withHeader f s).out = s.out := rfl
@[simp] theorem withHeader_frees (f : Frame) : (withHeader f s).frees = s.frees := rfl

@[simp] theorem senseChannel_cfg : (senseChannel s).cfg = s.cfg := rfl
@[simp] theorem senseChannel_inq : (senseChannel s).inq = s.inq := rfl
@[simp] theorem senseChannel_outq : (senseChannel s).outq = s.outq := rfl
@[simp] theorem senseChannel_fq : (senseChannel s).fq = s.fq := rfl
@[simp] theorem senseChannel_lockInq : (senseChannel s).lockInq = s.lockInq := rfl
@[simp] theorem senseChannel_lockOutq : (senseChannel s).lockOutq = s.lockOutq := rfl
@[simp] theorem senseChannel_lockFq : (senseChannel s).lockFq = s.lockFq := rfl
@[simp] theorem senseChannel_demState : (senseChannel s).demState = s.demState := rfl
@[simp] theorem senseChannel_win : (senseChannel s).win = s.win := rfl
@[simp] theorem senseChannel_wfill : (senseChannel s).wfill = s.wfill := rfl
@[simp] theorem senseChannel_acc : (senseChannel s).acc = s.acc := rfl
@[simp] theorem senseChannel_scnt : (senseChannel s).scnt = s.scnt := rfl
@[simp] theorem senseChannel_bcnt : (senseChannel s).bcnt = s.bcnt := rfl
@[simp] theorem senseChannel_hdr : (senseChannel s).hdr = s.hdr := rfl
@[simp] theorem senseChannel_rxLen : (senseChannel s).rxLen = s.rxLen := rfl
@[simp] theorem senseChannel_rxSeq : (senseChannel s).rxSeq = s.rxSeq := rfl
@[simp] theorem senseChannel_rxCur : (senseChannel s).rxCur = s.rxCur := rfl
@[simp] theorem senseChannel_rxBody : (senseChannel s).rxBody = s.rxBody := rfl
@[simp] theorem senseChannel_rxCrc : (senseChannel s).rxCrc = s.rxCrc := rfl
@[simp] theorem senseChannel_sh : (senseChannel s).sh = s.sh := rfl
@[simp] theorem senseChannel_quiet : (senseChannel s).quiet = !windowBusy s := rfl
@[simp] theorem senseChannel_period : (senseChannel s).period = s.period := rfl
@[simp] theorem senseChannel_txf : (senseChannel s).txf = s.txf := rfl
@[simp] theorem senseChannel_modPhase : (senseChannel s).modPhase = s.modPhase := rfl
@[simp] theorem senseChannel_caller : (senseChannel s).caller = s.caller := rfl
@[simp] theorem senseChannel_now : (senseChannel s).now = s.now := rfl
@[simp] theorem senseChannel_arqPhase : (senseChannel s).arqPhase = s.arqPhase := rfl
@[simp] theorem senseChannel_busy : (senseChannel s).busy = s.busy := rfl
@[simp] theorem senseChannel_role : (senseChannel s).role = s.role := rfl
@[simp] theorem senseChannel_stopReq : (senseChannel s).stopReq = s.stopReq := rfl
@[simp] theorem senseChannel_result : (senseChannel s).result = s.result := rfl
@[simp] theorem senseChannel_inOvf : (senseChannel s).inOvf = s.inOvf := rfl
@[simp] theorem senseChannel_fqOvf : (senseChannel s).fqOvf = s.fqOvf := rfl
@[simp] theorem senseChannel_txPayload : (senseChannel s).txPayload = s.txPayload := rfl
@[simp] theorem senseChannel_txLen : (senseChannel s).txLen = s.txLen := rfl
@[simp] theorem senseChannel_nTx : (senseChannel s).nTx = s.nTx := rfl
@[simp] theorem senseChannel_lar : (senseChannel s).lar = s.lar := rfl
@[simp] theorem senseChannel_lfs : (senseChannel s).lfs = s.lfs := rfl
@[simp] theorem senseChannel_scan : (senseChannel s).scan = s.scan := rfl
@[simp] theorem senseChannel_finCnt : (senseChannel s).finCnt = s.finCnt := rfl
@[simp] theorem senseChannel_sw : (senseChannel s).sw = s.sw := rfl
@[simp] theorem senseChannel_lfr : (senseChannel s).lfr = s.lfr := rfl
@[simp] theorem senseChannel_nExp : (senseChannel s).nExp = s.nExp := rfl
@[simp] theorem senseChannel_countKnown : (senseChannel s).countKnown = s.countKnown := rfl
@[simp] theorem senseChannel_rb : (senseChannel s).rb = s.rb := rfl
@[simp] theorem senseChannel_rxPayload : (senseChannel s).rxPayload = s.rxPayload := rfl
@[simp] theorem senseChannel_rxPayloadLen : (senseChannel s).rxPayloadLen = s.rxPayloadLen := rfl
@[simp] theorem senseChannel_sched : (senseChannel s).sched = s.sched := rfl
@[simp] theorem senseChannel_events : (senseChannel s).events = s.events := rfl
@[simp] theorem senseChannel_out : (senseChannel s).out = s.out := rfl
@[simp] theorem senseChannel_frees : (senseChannel s).frees = s.frees := rfl

@[simp] theorem finishNew_cfg : (finishNew s).cfg = s.cfg := rfl
@[simp] theorem finishNew_inq : (finishNew s).inq = s.inq := rfl
@[simp] theorem finishNew_outq : (finishNew s).outq = s.outq := rfl
@[simp] theorem finishNew_fq : (finishNew s).fq = s.fq := rfl
@[simp] theorem finishNew_lockInq : (finishNew s).lockInq = s.lockInq := rfl
@[simp] theorem finishNew_lockOutq : (finishNew s).lockOutq = s.lockOutq := rfl
@[simp] theorem finishNew_lockFq : (finishNew s).lockFq = s.lockFq := rfl
@[simp] theorem finishNew_demState : (finishNew s).demState = s.demState := rfl
@[simp] theorem finishNew_win : (finishNew s).win = s.win := rfl
@[simp] theorem finishNew_wfill : (finishNew s).wfill = s.wfill := rfl
@[simp] theorem finishNew_acc : (finishNew s).acc = s.acc := rfl
@[simp] theorem finishNew_scnt : (finishNew s).scnt = s.scnt := rfl
@[simp] theorem finishNew_bcnt : (finishNew s).bcnt = s.bcnt := rfl
@[simp] theorem finishNew_hdr : (finishNew s).hdr = s.hdr := rfl
@[simp] theorem finishNew_rxLen : (finishNew s).rxLen = s.rxLen := rfl
@[simp] theorem finishNew_rxSeq : (finishNew s).rxSeq = s.rxSeq := rfl
@[simp] theorem finishNew_rxCur : (finishNew s).rxCur = s.rxCur := rfl
@[simp] theorem finishNew_rxBody : (finishNew s).rxBody = s.rxBody := rfl
@[simp] theorem finishNew_rxCrc : (finishNew s).rxCrc = s.rxCrc := rfl
@[simp] theorem finishNew_sh : (finishNew s).sh = s.sh := rfl
@[simp] theorem finishNew_quiet : (finishNew s).quiet = s.quiet := rfl
@[simp] theorem finishNew_period : (finishNew s).period = s.period := rfl
@[simp] theorem finishNew_txf : (finishNew s).txf = s.txf := rfl
@[simp] theorem finishNew_modPhase : (finishNew s).modPhase = .idle := rfl
@[simp] theorem finishNew_caller : (finishNew s).caller = none := rfl
@[simp] theorem finishNew_now : (finishNew s).now = s.now := rfl
@[simp] theorem finishNew_arqPhase : (finishNew s).arqPhase = .txLoop := rfl
@[simp] theorem finishNew_busy : (finishNew s).busy = s.busy := rfl
@[simp] theorem finishNew_role : (finishNew s).role = s.role := rfl
@[simp] theorem finishNew_stopReq : (finishNew s).stopReq = s.stopReq := rfl
@[simp] theorem finishNew_result : (finishNew s).result = s.result := rfl
@[simp] theorem finishNew_inOvf : (finishNew s).inOvf = s.inOvf := rfl
@[simp] theorem finishNew_fqOvf : (finishNew s).fqOvf = s.fqOvf := rfl
@[simp] theorem finishNew_txPayload : (finishNew s).txPayload = s.txPayload := rfl
@[simp] theorem finishNew_txLen : (finishNew s).txLen = s.txLen := rfl
@[simp] theorem finishNew_nTx : (finishNew s).nTx = s.nTx := rfl
@[simp] theorem finishNew_lar : (finishNew s).lar = s.lar := rfl
@[simp] theorem finishNew_lfs : (finishNew s).lfs = s.lfs := rfl
@[simp] theorem finishNew_scan : (finishNew s).scan = s.scan := rfl
@[simp] theorem finishNew_finCnt : (finishNew s).finCnt = s.finCnt := rfl
@[simp] theorem finishNew_sw : (finishNew s).sw = s.sw.set s.lfs ⟨false, s.now, s.cfg.retryMax⟩ := rfl
@[simp] theorem finishNew_lfr : (finishNew s).lfr = s.lfr := rfl
@[simp] theorem finishNew_nExp : (finishNew s).nExp = s.nExp := rfl
@[simp] theorem finishNew_countKnown : (finishNew s).countKnown = s.countKnown := rfl
@[simp] theorem finishNew_rb : (finishNew s).rb = s.rb := rfl
@[simp] theorem finishNew_rxPayload : (finishNew s).rxPayload = s.rxPayload := rfl
@[simp] theorem finishNew_rxPayloadLen : (finishNew s).rxPayloadLen = s.rxPayloadLen := rfl
@[simp] theorem finishNew_sched : (finishNew s).sched = s.sched := rfl
@[simp] theorem finishNew_events : (finishNew s).events = s.events := rfl
@[simp] theorem finishNew_out : (finishNew s).out = s.out := rfl
@[simp] theorem finishNew_frees : (finishNew s).frees = s.frees := rfl

@[simp] theorem sendReturned_cfg : s.sendReturned.cfg = s.cfg := rfl
@[simp] theorem sendReturned_inq : s.sendReturned.inq = s.inq := rfl
@[simp] theorem sendReturned_outq : s.sendReturned.outq = s.outq := rfl
@[simp] theorem sendReturned_fq : s.sendReturned.fq = s.fq := rfl
@[simp] theorem sendReturned_lockInq : s.sendReturned.lockInq = s.lockInq := rfl
@[simp] theorem sendReturned_lockOutq : s.sendReturned.lockOutq = s.lockOutq := rfl
@[simp] theorem sendReturned_lockFq : s.sendReturned.lockFq = s.lockFq := rfl
@[simp] theorem sendReturned_demState : s.sendReturned.demState = s.demState := rfl
@[simp] theorem sendReturned_win : s.sendReturned.win = s.win := rfl
@[simp] theorem sendReturned_wfill : s.sendReturned.wfill = s.wfill := rfl
@[simp] theorem sendReturned_acc : s.sendReturned.acc = s.acc := rfl
@[simp] theorem sendReturned_scnt : s.sendReturned.scnt = s.scnt := rfl
@[simp] theorem sendReturned_bcnt : s.sendReturned.bcnt = s.bcnt := rfl
@[simp] theorem sendReturned_hdr : s.sendReturned.hdr = s.hdr := rfl
@[simp] theorem sendReturned_rxLen : s.sendReturned.rxLen = s.rxLen := rfl
@[simp] theorem sendReturned_rxSeq : s.sendReturned.rxSeq = s.rxSeq := rfl
@[simp] theorem sendReturned_rxCur : s.sendReturned.rxCur = s.rxCur := rfl
@[simp] theorem sendReturned_rxBody : s.sendReturned.rxBody = s.rxBody := rfl
@[simp] theorem sendReturned_rxCrc : s.sendReturned.rxCrc = s.rxCrc := rfl
@[simp] theorem sendReturned_sh : s.sendReturned.sh = s.sh := rfl
@[simp] theorem sendReturned_quiet : s.sendReturned.quiet = s.quiet := rfl
@[simp] theorem sendReturned_period : s.sendReturned.period = s.period := rfl
@[simp] theorem sendReturned_txf : s.sendReturned.txf = s.txf := rfl
@[simp] theorem sendReturned_modPhase : s.sendReturned.modPhase = .idle := rfl
@[simp] theorem sendReturned_caller : s.sendReturned.caller = none := rfl
@[simp] theorem sendReturned_now : s.sendReturned.now = s.now := rfl
@[simp] theorem sendReturned_arqPhase : s.sendReturned.arqPhase = s.arqPhase := rfl
@[simp] theorem sendReturned_busy : s.sendReturned.busy = s.busy := rfl
@[simp] theorem sendReturned_role : s.sendReturned.role = s.role := rfl
@[simp] theorem sendReturned_stopReq : s.sendReturned.stopReq = s.stopReq := rfl
@[simp] theorem sendReturned_result : s.sendReturned.result = s.result := rfl
@[simp] theorem sendReturned_inOvf : s.sendReturned.inOvf = s.inOvf := rfl
@[simp] theorem sendReturned_fqOvf : s.sendReturned.fqOvf = s.fqOvf := rfl
@[simp] theorem sendReturned_txPayload : s.sendReturned.txPayload = s.txPayload := rfl
@[simp] theorem sendReturned_txLen : s.sendReturned.txLen = s.txLen := rfl
@[simp] theorem sendReturned_nTx : s.sendReturned.nTx = s.nTx := rfl
@[simp] theorem sendReturned_lar : s.sendReturned.lar = s.lar := rfl
@[simp] theorem sendReturned_lfs : s.sendReturned.lfs = s.lfs := rfl
@[simp] theorem sendReturned_scan : s.sendReturned.scan = s.scan := rfl
@[simp] theorem sendReturned_finCnt : s.sendReturned.finCnt = s.finCnt := rfl
@[simp] theorem sendReturned_sw : s.sendReturned.sw = s.sw := rfl
@[simp] theorem sendReturned_lfr : s.sendReturned.lfr = s.lfr := rfl
@[simp] theorem sendReturned_nExp : s.sendReturned.nExp = s.nExp := rfl
@[simp] theorem sendReturned_countKnown : s.sendReturned.countKnown = s.countKnown := rfl
@[simp] theorem sendReturned_rb : s.sendReturned.rb = s.rb := rfl
@[simp] theorem sendReturned_rxPayload : s.sendReturned.rxPayload = s.rxPayload := rfl
@[simp] theorem sendReturned_rxPayloadLen : s.sendReturned.rxPayloadLen = s.rxPayloadLen := rfl
@[simp] theorem sendReturned_sched : s.sendReturned.sched = s.sched := rfl
@[simp] theorem sendReturned_events : s.sendReturned.events = s.events := rfl
@[simp] theorem sendReturned_out : s.sendReturned.out = s.out := rfl
@[simp] theorem sendReturned_frees : s.sendReturned.frees = s.frees := rfl

@[simp] theorem countBit_cfg : s.countBit.cfg = s.cfg := rfl
@[simp] theorem countBit_inq : s.countBit.inq = s.inq := rfl
@[simp] theorem countBit_outq : s.countBit.outq = s.outq := rfl
@[simp] theorem countBit_fq : s.countBit.fq = s.fq := rfl
@[simp] theorem countBit_lockInq : s.countBit.lockInq = s.lockInq := rfl
@[simp] theorem countBit_lockOutq : s.countBit.lockOutq = s.lockOutq := rfl
@[simp] theorem countBit_lockFq : s.countBit.lockFq = s.lockFq := rfl
@[simp] theorem countBit_demState : s.countBit.demState = s.demState := rfl
@[simp] theorem countBit_win : s.countBit.win = s.win := rfl
@[simp] theorem countBit_wfill : s.countBit.wfill = s.wfill := rfl
@[simp] theorem countBit_acc : s.countBit.acc = s.acc := rfl
@[simp] theorem countBit_scnt : s.countBit.scnt = s.scnt := rfl
@[simp] theorem countBit_bcnt : s.countBit.bcnt = fitted 20 (s.bcnt + 1) := rfl
@[simp] theorem countBit_hdr : s.countBit.hdr = s.hdr := rfl
@[simp] theorem countBit_rxLen : s.countBit.rxLen = s.rxLen := rfl
@[simp] theorem countBit_rxSeq : s.countBit.rxSeq = s.rxSeq := rfl
@[simp] theorem countBit_rxCur : s.countBit.rxCur = s.rxCur := rfl
@[simp] theorem countBit_rxBody : s.countBit.rxBody = s.rxBody := rfl
@[simp] theorem countBit_rxCrc : s.countBit.rxCrc = s.rxCrc := rfl
@[simp] theorem countBit_sh : s.countBit.sh = s.sh := rfl
@[simp] theorem countBit_quiet : s.countBit.quiet = s.quiet := rfl
@[simp] theorem countBit_period : s.countBit.period = s.period := rfl
@[simp] theorem countBit_txf : s.countBit.txf = s.txf := rfl
@[simp] theorem countBit_modPhase : s.countBit.modPhase = s.modPhase := rfl
@[simp] theorem countBit_caller : s.countBit.caller = s.caller := rfl
@[simp] theorem countBit_now : s.countBit.now = s.now := rfl
@[simp] theorem countBit_arqPhase : s.countBit.arqPhase = s.arqPhase := rfl
@[simp] theorem countBit_busy : s.countBit.busy = s.busy := rfl
@[simp] theorem countBit_role : s.countBit.role = s.role := rfl
@[simp] theorem countBit_stopReq : s.countBit.stopReq = s.stopReq := rfl
@[simp] theorem countBit_result : s.countBit.result = s.result := rfl
@[simp] theorem countBit_inOvf : s.countBit.inOvf = s.inOvf := rfl
@[simp] theorem countBit_fqOvf : s.countBit.fqOvf = s.fqOvf := rfl
@[simp] theorem countBit_txPayload : s.countBit.txPayload = s.txPayload := rfl
@[simp] theorem countBit_txLen : s.countBit.txLen = s.txLen := rfl
@[simp] theorem countBit_nTx : s.countBit.nTx = s.nTx := rfl
@[simp] theorem countBit_lar : s.countBit.lar = s.lar := rfl
@[simp] theorem countBit_lfs : s.countBit.lfs = s.lfs := rfl
@[simp] theorem countBit_scan : s.countBit.scan = s.scan := rfl
@[simp] theorem countBit_finCnt : s.countBit.finCnt = s.finCnt := rfl
@[simp] theorem countBit_sw : s.countBit.sw = s.sw := rfl
@[simp] theorem countBit_lfr : s.countBit.lfr = s.lfr := rfl
@[simp] theorem countBit_nExp : s.countBit.nExp = s.nExp := rfl
@[simp] theorem countBit_countKnown : s.countBit.countKnown = s.countKnown := rfl
@[simp] theorem countBit_rb : s.countBit.rb = s.rb := rfl
@[simp] theorem countBit_rxPayload : s.countBit.rxPayload = s.rxPayload := rfl
@[simp] theorem countBit_rxPayloadLen : s.countBit.rxPayloadLen = s.rxPayloadLen := rfl
@[simp] theorem countBit_sched : s.countBit.sched = s.sched := rfl
@[simp] theorem countBit_events : s.countBit.events = s.events := rfl
@[simp] theorem countBit_out : s.countBit.out = s.out := rfl
@[simp] theorem countBit_frees : s.countBit.frees = s.frees := rfl

@[simp] theorem withScan_cfg (n : Nat) : (s.withScan n).cfg = s.cfg := rfl
@[simp] theorem withScan_inq (n : Nat) : (s.withScan n).inq = s.inq := rfl
@[simp] theorem withScan_outq (n : Nat) : (s.withScan n).outq = s.outq := rfl
@[simp] theorem withScan_fq (n : Nat) : (s.withScan n).fq = s.fq := rfl
@[simp] theorem withScan_lockInq (n : Nat) : (s.withScan n).lockInq = s.lockInq := rfl
@[simp] theorem withScan_lockOutq (n : Nat) : (s.withScan n).lockOutq = s.lockOutq := rfl
@[simp] theorem withScan_lockFq (n : Nat) : (s.withScan n).lockFq = s.lockFq := rfl
@[simp] theorem withScan_demState (n : Nat) : (s.withScan n).demState = s.demState := rfl
@[simp] theorem withScan_win (n : Nat) : (s.withScan n).win = s.win := rfl
@[simp] theorem withScan_wfill (n : Nat) : (s.withScan n).wfill = s.wfill := rfl
@[simp] theorem withScan_acc (n : Nat) : (s.withScan n).acc = s.acc := rfl
@[simp] theorem withScan_scnt (n : Nat) : (s.withScan n).scnt = s.scnt := rfl
@[simp] theorem withScan_bcnt (n : Nat) : (s.withScan n).bcnt = s.bcnt := rfl
@[simp] theorem withScan_hdr (n : Nat) : (s.withScan n).hdr = s.hdr := rfl
@[simp] theorem withScan_rxLen (n : Nat) : (s.withScan n).rxLen = s.rxLen := rfl
@[simp] theorem withScan_rxSeq (n : Nat) : (s.withScan n).rxSeq = s.rxSeq := rfl
@[simp] theorem withScan_rxCur (n : Nat) : (s.withScan n).rxCur = s.rxCur := rfl
@[simp] theorem withScan_rxBody (n : Nat) : (s.withScan n).rxBody = s.rxBody := rfl
@[simp] theorem withScan_rxCrc (n : Nat) : (s.withScan n).rxCrc = s.rxCrc := rfl
@[simp] theorem withScan_sh (n : Nat) : (s.withScan n).sh = s.sh := rfl
@[simp] theorem withScan_quiet (n : Nat) : (s.withScan n).quiet = s.quiet := rfl
@[simp] theorem withScan_period (n : Nat) : (s.withScan n).period = s.period := rfl
@[simp] theorem withScan_txf (n : Nat) : (s.withScan n).txf = s.txf := rfl
@[simp] theorem withScan_modPhase (n : Nat) : (s.withScan n).modPhase = s.modPhase := rfl
@[simp] theorem withScan_caller (n : Nat) : (s.withScan n).caller = s.caller := rfl
@[simp] theorem withScan_now (n : Nat) : (s.withScan n).now = s.now := rfl
@[simp] theorem withScan_arqPhase (n : Nat) : (s.withScan n).arqPhase = s.arqPhase := rfl
@[simp] theorem withScan_busy (n : Nat) : (s.withScan n).busy = s.busy := rfl
@[simp] theorem withScan_role (n : Nat) : (s.withScan n).role = s.role := rfl
@[simp] theorem withScan_stopReq (n : Nat) : (s.withScan n).stopReq = s.stopReq := rfl
@[simp] theorem withScan_result (n : Nat) : (s.withScan n).result = s.result := rfl
@[simp] theorem withScan_inOvf (n : Nat) : (s.withScan n).inOvf = s.inOvf := rfl
@[simp] theorem withScan_fqOvf (n : Nat) : (s.withScan n).fqOvf = s.fqOvf := rfl
@[simp] theorem withScan_txPayload (n : Nat) : (s.withScan n).txPayload = s.txPayload := rfl
@[simp] theorem withScan_txLen (n : Nat) : (s.withScan n).txLen = s.txLen := rfl
@[simp] theorem withScan_nTx (n : Nat) : (s.withScan n).nTx = s.nTx := rfl
@[simp] theorem withScan_lar (n : Nat) : (s.withScan n).lar = s.lar := rfl
@[simp] theorem withScan_lfs (n : Nat) : (s.withScan n).lfs = s.lfs := rfl
@[simp] theorem withScan_scan (n : Nat) : (s.withScan n).scan = fitted 16 n := rfl
@[simp] theorem withScan_finCnt (n : Nat) : (s.withScan n).finCnt = s.finCnt := rfl
@[simp] theorem withScan_sw (n : Nat) : (s.withScan n).sw = s.sw := rfl
@[simp] theorem withScan_lfr (n : Nat) : (s.withScan n).lfr = s.lfr := rfl
@[simp] theorem withScan_nExp (n : Nat) : (s.withScan n).nExp = s.nExp := rfl
@[simp] theorem withScan_countKnown (n : Nat) : (s.withScan n).countKnown = s.countKnown := rfl
@[simp] theorem withScan_rb (n : Nat) : (s.withScan n).rb = s.rb := rfl
@[simp] theorem withScan_rxPayload (n : Nat) : (s.withScan n).rxPayload = s.rxPayload := rfl
@[simp] theorem withScan_rxPayloadLen (n : Nat) : (s.withScan n).rxPayloadLen = s.rxPayloadLen := rfl
@[simp] theorem withScan_sched (n : Nat) : (s.withScan n).sched = s.sched := rfl
@[simp] theorem withScan_events (n : Nat) : (s.withScan n).events = s.events := rfl
@[simp] theorem withScan_out (n : Nat) : (s.withScan n).out = s.out := rfl
@[simp] theorem withScan_frees (n : Nat) : (s.withScan n).frees = s.frees := rfl

/-! A lock write changes its lock only. -/

@[simp] theorem setLock_cfg (q : QueueId) (l : Option Agent) : (s.setLock q l).cfg = s.cfg := by cases q <;> rfl
@[simp] theorem setLock_inq (q : QueueId) (l : Option Agent) : (s.setLock q l).inq = s.inq := by cases q <;> rfl
@[simp] theorem setLock_outq (q : QueueId) (l : Option Agent) : (s.setLock q l).outq = s.outq := by cases q <;> rfl
@[simp] theorem setLock_fq (q : QueueId) (l : Option Agent) : (s.setLock q l).fq = s.fq := by cases q <;> rfl
@[simp] theorem setLock_demState (q : QueueId) (l : Option Agent) : (s.setLock q l).demState = s.demState := by cases q <;> rfl
@[simp] theorem setLock_win (q : QueueId) (l : Option Agent) : (s.setLock q l).win = s.win := by cases q <;> rfl
@[simp] theorem setLock_wfill (q : QueueId) (l : Option Agent) : (s.setLock q l).wfill = s.wfill := by cases q <;> rfl
@[simp] theorem setLock_acc (q : QueueId) (l : Option Agent) : (s.setLock q l).acc = s.acc := by cases q <;> rfl
@[simp] theorem setLock_scnt (q : QueueId) (l : Option Agent) : (s.setLock q l).scnt = s.scnt := by cases q <;> rfl
@[simp] theorem setLock_bcnt (q : QueueId) (l : Option Agent) : (s.setLock q l).bcnt = s.bcnt := by cases q <;> rfl
@[simp] theorem setLock_hdr (q : QueueId) (l : Option Agent) : (s.setLock q l).hdr = s.hdr := by cases q <;> rfl
@[simp] theorem setLock_rxLen (q : QueueId) (l : Option Agent) : (s.setLock q l).rxLen = s.rxLen := by cases q <;> rfl
@[simp] theorem setLock_rxSeq (q : QueueId) (l : Option Agent) : (s.setLock q l).rxSeq = s.rxSeq := by cases q <;> rfl
@[simp] theorem setLock_rxCur (q : QueueId) (l : Option Agent) : (s.setLock q l).rxCur = s.rxCur := by cases q <;> rfl
@[simp] theorem setLock_rxBody (q : QueueId) (l : Option Agent) : (s.setLock q l).rxBody = s.rxBody := by cases q <;> rfl
@[simp] theorem setLock_rxCrc (q : QueueId) (l : Option Agent) : (s.setLock q l).rxCrc = s.rxCrc := by cases q <;> rfl
@[simp] theorem setLock_sh (q : QueueId) (l : Option Agent) : (s.setLock q l).sh = s.sh := by cases q <;> rfl
@[simp] theorem setLock_quiet (q : QueueId) (l : Option Agent) : (s.setLock q l).quiet = s.quiet := by cases q <;> rfl
@[simp] theorem setLock_period (q : QueueId) (l : Option Agent) : (s.setLock q l).period = s.period := by cases q <;> rfl
@[simp] theorem setLock_txf (q : QueueId) (l : Option Agent) : (s.setLock q l).txf = s.txf := by cases q <;> rfl
@[simp] theorem setLock_modPhase (q : QueueId) (l : Option Agent) : (s.setLock q l).modPhase = s.modPhase := by cases q <;> rfl
@[simp] theorem setLock_caller (q : QueueId) (l : Option Agent) : (s.setLock q l).caller = s.caller := by cases q <;> rfl
@[simp] theorem setLock_now (q : QueueId) (l : Option Agent) : (s.setLock q l).now = s.now := by cases q <;> rfl
@[simp] theorem setLock_arqPhase (q : QueueId) (l : Option Agent) : (s.setLock q l).arqPhase = s.arqPhase := by cases q <;> rfl
@[simp] theorem setLock_busy (q : QueueId) (l : Option Agent) : (s.setLock q l).busy = s.busy := by cases q <;> rfl
@[simp] theorem setLock_role (q : QueueId) (l : Option Agent) : (s.setLock q l).role = s.role := by cases q <;> rfl
@[simp] theorem setLock_stopReq (q : QueueId) (l : Option Agent) : (s.setLock q l).stopReq = s.stopReq := by cases q <;> rfl
@[simp] theorem setLock_result (q : QueueId) (l : Option Agent) : (s.setLock q l).result = s.result := by cases q <;> rfl
@[simp] theorem setLock_inOvf (q : QueueId) (l : Option Agent) : (s.setLock q l).inOvf = s.inOvf := by cases q <;> rfl
@[simp] theorem setLock_fqOvf (q : QueueId) (l : Option Agent) : (s.setLock q l).fqOvf = s.fqOvf := by cases q <;> rfl
@[simp] theorem setLock_txPayload (q : QueueId) (l : Option Agent) : (s.setLock q l).txPayload = s.txPayload := by cases q <;> rfl
@[simp] theorem setLock_txLen (q : QueueId) (l : Option Agent) : (s.setLock q l).txLen = s.txLen := by cases q <;> rfl
@[simp] theorem setLock_nTx (q : QueueId) (l : Option Agent) : (s.setLock q l).nTx = s.nTx := by cases q <;> rfl
@[simp] theorem setLock_lar (q : QueueId) (l : Option Agent) : (s.setLock q l).lar = s.lar := by cases q <;> rfl
@[simp] theorem setLock_lfs (q : QueueId) (l : Option Agent) : (s.setLock q l).lfs = s.lfs := by cases q <;> rfl
@[simp] theorem setLock_scan (q : QueueId) (l : Option Agent) : (s.setLock q l).scan = s.scan := by cases q <;> rfl
@[simp] theorem setLock_finCnt (q : QueueId) (l : Option Agent) : (s.setLock q l).finCnt = s.finCnt := by cases q <;> rfl
@[simp] theorem setLock_sw (q : QueueId) (l : Option Agent) : (s.setLock q l).sw = s.sw := by cases q <;> rfl
@[simp] theorem setLock_lfr (q : QueueId) (l : Option Agent) : (s.setLock q l).lfr = s.lfr := by cases q <;> rfl
@[simp] theorem setLock_nExp (q : QueueId) (l : Option Agent) : (s.setLock q l).nExp = s.nExp := by cases q <;> rfl
@[simp] theorem setLock_countKnown (q : QueueId) (l : Option Agent) : (s.setLock q l).countKnown = s.countKnown := by cases q <;> rfl
@[simp] theorem setLock_rb (q : QueueId) (l : Option Agent) : (s.setLock q l).rb = s.rb := by cases q <;> rfl
@[simp] theorem setLock_rxPayload (q : QueueId) (l : Option Agent) : (s.setLock q l).rxPayload = s.rxPayload := by cases q <;> rfl
@[simp] theorem setLock_rxPayloadLen (q : QueueId) (l : Option Agent) : (s.setLock q l).rxPayloadLen = s.rxPayloadLen := by cases q <;> rfl
@[simp] theorem setLock_sched (q : QueueId) (l : Option Agent) : (s.setLock q l).sched = s.sched := by cases q <;> rfl
@[simp] theorem setLock_events (q : QueueId) (l : Option Agent) : (s.setLock q l).events = s.events := by cases q <;> rfl
@[simp] theorem setLock_out (q : QueueId) (l : Option Agent) : (s.setLock q l).out = s.out := by cases q <;> rfl
@[simp] theorem setLock_frees (q : QueueId) (l : Option Agent) : (s.setLock q l).frees = s.frees := by cases q <;> rfl

@[simp] theorem lock_setLock (q r : QueueId) (l : Option Agent) :
    (s.setLock q l).lock r = if r = q then l else s.lock r := by cases q <;> cases r <;> rfl

end Sys2Proof.Machine
end

