-- ==== Sys2Proof/Laws/Ops.lean ====
section
/-! SUPPORT. For each shared operation, one lemma that says everything it can answer. -/

namespace Sys2Proof.Machine

variable {α β : Type} {s t : State}

/-! ### Acts and their settlement -/

@[simp] theorem Act.andThen_ok (x : α) (f : α → Act β) : Act.andThen (.ok x) f = f x := rfl

@[simp] theorem Act.andThen_error (e : Stop) (f : α → Act β) : Act.andThen (.error e) f = .error e := rfl

theorem Act.andThen_eq_ok {a : Act α} {f : α → Act β} {y : β} :
    a.andThen f = .ok y ↔ ∃ x, a = .ok x ∧ f x = .ok y := by
  cases a <;> simp [Act.andThen]

theorem Act.andThen_eq_error {a : Act α} {f : α → Act β} {e : Stop} :
    a.andThen f = .error e ↔ a = .error e ∨ ∃ x, a = .ok x ∧ f x = .error e := by
  cases a <;> simp [Act.andThen]

@[simp] theorem settle_ok : settle s (.ok t) = .next t := rfl

@[simp] theorem settle_hold : settle s (.error .hold) = .next s := rfl

@[simp] theorem settle_fault (r : Fault) : settle s (.error (.fault r)) = .fault r := rfl

@[simp] theorem settle_refuse (r : Refusal) : settle s (.error (.refuse r)) = .refused r := rfl

/-- A settled operation answers its state, or the state it held in. -/
theorem settle_eq_next {a : Act State} :
    settle s a = .next t ↔ a = .ok t ∨ (a = .error .hold ∧ t = s) := by
  rcases a with e | x
  · cases e <;> simp [settle, eq_comm (a := t)]
  · simp [settle]

theorem settle_eq_fault {a : Act State} {r : Fault} :
    settle s a = .fault r ↔ a = .error (.fault r) := by
  rcases a with e | x
  · cases e <;> simp [settle]
  · simp [settle]

theorem settle_eq_refused {a : Act State} {r : Refusal} :
    settle s a = .refused r ↔ a = .error (.refuse r) := by
  rcases a with e | x
  · cases e <;> simp [settle]
  · simp [settle]

/-! ### Locks -/

/-- A transaction that answers was taken at an open gate, and is its body. -/
theorem withLock_eq_ok {a : Agent} {q : QueueId} {body : State → Act α} {y : α} :
    withLock a q s body = .ok y ↔ s.gateOpen a q ∧ body s = .ok y := by
  unfold withLock State.gateOpen
  cases h : s.holdsAny a <;> cases h' : s.lock q <;> simp

/-- At an open gate a transaction is its body. -/
theorem withLock_of_gateOpen {a : Agent} {q : QueueId} {body : State → Act α} (h : s.gateOpen a q) :
    withLock a q s body = body s := by
  obtain ⟨h1, h2⟩ := h
  simp [withLock, h1, h2]

/-- At a shut gate it holds. -/
theorem withLock_of_gateShut {a : Agent} {q : QueueId} {body : State → Act α} (h : s.gateShut a q) :
    withLock a q s body = .error .hold := by
  obtain ⟨h1, h2⟩ := h
  cases h' : s.lock q <;> simp_all [withLock]

/-- An agent that holds a lock is refused. -/
theorem withLock_of_holdsAny {a : Agent} {q : QueueId} {body : State → Act α} (h : s.holdsAny a = true) :
    withLock a q s body = .error (.refuse .lockDiscipline) := by
  simp [withLock, h]

/-- A transaction faults only where its body does. -/
theorem withLock_eq_fault {a : Agent} {q : QueueId} {body : State → Act α} {r : Fault} :
    withLock a q s body = .error (.fault r) ↔ s.gateOpen a q ∧ body s = .error (.fault r) := by
  unfold withLock State.gateOpen
  cases h : s.holdsAny a <;> cases h' : s.lock q <;> simp

/-! ### Steps of ARQ outside the gate -/

theorem arqStep_eq_ok {a : Act α} {x : α} :
    arqStep s a = .ok x ↔ s.holdsAny .arq = false ∧ a = .ok x := by
  unfold arqStep
  cases h : s.holdsAny .arq <;> simp

/-- While `ARQ` holds no lock its step is what the rule says. -/
theorem arqStep_of_free {a : Act α} (h : s.holdsAny .arq = false) : arqStep s a = a := by
  simp [arqStep, h]

/-- While it holds one, its step is refused. -/
theorem arqStep_of_holdsAny {a : Act α} (h : s.holdsAny .arq = true) :
    arqStep s a = .error (.refuse .lockDiscipline) := by
  simp [arqStep, h]

theorem arqStep_eq_fault {a : Act α} {r : Fault} :
    arqStep s a = .error (.fault r) ↔ s.holdsAny .arq = false ∧ a = .error (.fault r) := by
  unfold arqStep
  cases h : s.holdsAny .arq <;> simp

/-- A settled step of `ARQ` answers what the rule says, or the state it held in. -/
theorem settle_arqStep_next {a : Act State} (h : settle s (arqStep s a) = .next t) :
    (s.holdsAny .arq = false ∧ a = .ok t) ∨ t = s := by
  rcases settle_eq_next.mp h with h | h
  · exact .inl (arqStep_eq_ok.mp h)
  · exact .inr h.2

/-! ### Registers of a stated width -/

theorem fitted_lt (w n : Nat) : fitted w n < 2 ^ w := by
  unfold fitted
  split
  · assumption
  · exact Nat.mod_lt _ (Nat.two_pow_pos w)

theorem fitted_of_lt {w n : Nat} (h : n < 2 ^ w) : fitted w n = n := by simp [fitted, h]

theorem fittedUpTo_le (m n : Nat) : fittedUpTo m n ≤ m := by
  unfold fittedUpTo
  split
  · assumption
  · exact Nat.le_of_lt_succ (Nat.mod_lt _ (Nat.succ_pos m))

theorem fittedUpTo_of_le {m n : Nat} (h : n ≤ m) : fittedUpTo m n = n := by simp [fittedUpTo, h]

@[simp] theorem hdrBits_eq (c : Config) : c.hdrBits = 32 := rfl

@[simp] theorem crcW_eq (c : Config) : c.crcW.val = 32 := rfl

@[simp] theorem sentLen_eq (c : Config) : c.sentLen.val = 2 := rfl

theorem seqMax_eq (c : Config) : c.seqMax = 32767 := rfl

/-! ### Queues -/

/-- What a push to `INQ` does. -/
theorem pushInq_cases (x : Sample) (s : State) :
    (s.inq.length < s.cfg.inDepth ∧ pushInq x s = { s with inq := s.inq ++ [x] }) ∨
    (s.cfg.inDepth ≤ s.inq.length ∧
      pushInq x s = { s with inOvf := true, events := s.events ++ [.inOverflow] }) := by
  unfold pushInq
  split
  · exact .inl ⟨by assumption, rfl⟩
  · exact .inr ⟨by omega, rfl⟩

/-- What a push to `FQ` does. -/
theorem pushFq_cases (f : Frame) (s : State) :
    (s.fq.length < s.cfg.fqDepth ∧ pushFq f s = { s with fq := s.fq ++ [f] }) ∨
    (s.cfg.fqDepth ≤ s.fq.length ∧
      pushFq f s = { s with fqOvf := true, events := s.events ++ [.fqOverflow] }) := by
  unfold pushFq
  split
  · exact .inl ⟨by assumption, rfl⟩
  · exact .inr ⟨by omega, rfl⟩

/-- A push to `OUTQ` is all or refused. -/
theorem pushOutq_eq_ok {xs : List Sample} :
    pushOutq xs s = .ok t ↔
      s.outq.length + xs.length ≤ s.cfg.outDepth ∧ t = { s with outq := s.outq ++ xs } := by
  unfold pushOutq
  split
  · simp_all [eq_comm (a := t)]
  · simp; omega

/-! ### Sends -/

/-- A rule that runs between sends answers there only. -/
theorem betweenSends_eq_ok {a : Act α} {x : α} :
    betweenSends s a = .ok x ↔ s.modPhase = .idle ∧ a = .ok x := by
  unfold betweenSends
  split <;> simp_all

/-- Between sends it is what the rule says. -/
theorem betweenSends_of_idle {a : Act α} (h : s.modPhase = .idle) : betweenSends s a = a := if_pos h

/-- While a send is in progress it holds. -/
theorem betweenSends_of_send {a : Act α} (h : s.modPhase ≠ .idle) : betweenSends s a = .error .hold :=
  if_neg h

theorem betweenSends_eq_fault {a : Act α} {r : Fault} :
    betweenSends s a = .error (.fault r) ↔ s.modPhase = .idle ∧ a = .error (.fault r) := by
  unfold betweenSends
  split <;> simp_all

/-- The entry into a send. -/
theorem sendEntry_eq_ok {c : Caller} {f : Frame} :
    sendEntry c f s = .ok t ↔ Frame.ok s.cfg f = true ∧ s.modPhase = .idle ∧
      t = { s with txf := some f, modPhase := .waitq, caller := some c } := by
  unfold sendEntry
  split
  · simp_all [betweenSends_eq_ok, eq_comm (a := t)]
  · simp_all

theorem sendEntry_ne_fault {c : Caller} {f : Frame} {r : Fault} : sendEntry c f s ≠ .error (.fault r) := by
  unfold sendEntry
  split <;> simp [betweenSends_eq_fault]

/-- The form of the sending rules: entry, continuation, or nothing. -/
theorem sending_eq_ok {c : Caller} {entry cont : Act State} :
    Machine.sending c s entry cont = .ok t ↔
      (s.modPhase = .idle ∧ entry = .ok t) ∨ (s.modPhase = .done ∧ s.caller = some c ∧ cont = .ok t) := by
  unfold Machine.sending
  cases h : s.modPhase <;> by_cases hc : s.caller = some c <;> simp [hc]

theorem sending_eq_fault {c : Caller} {entry cont : Act State} {r : Fault} :
    Machine.sending c s entry cont = .error (.fault r) ↔
      (s.modPhase = .idle ∧ entry = .error (.fault r)) ∨
      (s.modPhase = .done ∧ s.caller = some c ∧ cont = .error (.fault r)) := by
  unfold Machine.sending
  cases h : s.modPhase <;> by_cases hc : s.caller = some c <;> simp [hc]

/-- A data frame is rebuilt and its send entered. -/
theorem sendData_eq_ok {c : Caller} {m : Nat} :
    sendData c m s = .ok t ↔ ∃ f, dataFrame s m = some f ∧ sendEntry c f s = .ok t := by
  unfold sendData
  cases h : dataFrame s m <;> simp

/-! ### The sender's parts -/

/-- What `TX.DRAIN` makes of a popped frame. -/
theorem takeAck_eq_ok {f : Frame} :
    takeAck f s = .ok t ↔
      (f.len = 0#16 ∧ s.lar < seqMag f.seq ∧ seqMag f.seq ≤ s.lfs ∧
        ∃ e, s.sw.get (seqMag f.seq) = some e ∧
          t = { s with sw := s.sw.set (seqMag f.seq) { e with acked := true } }) ∨
      (¬ (f.len = 0#16 ∧ s.lar < seqMag f.seq ∧ seqMag f.seq ≤ s.lfs) ∧
        t = if isAck f then s.raise (.ackMismatch f.seq) else s) := by
  unfold takeAck
  split
  · rename_i h
    cases h' : s.sw.get (seqMag f.seq) <;> simp [h, eq_comm (a := t)]
  · rename_i h
    split <;> simp_all [eq_comm (a := t)]

/-- The examination of the entry at `SCAN`. -/
theorem examineEntry_eq_ok :
    examineEntry s = .ok t ↔
      (s.lfs < s.scan ∧ t = { s with arqPhase := .txNew }) ∨
      (s.scan ≤ s.lfs ∧ ∃ e, s.sw.get s.scan = some e ∧
        ((overdue s e = true ∧ e.retries = 0 ∧ t = abort s) ∨
         (overdue s e = true ∧ e.retries ≠ 0 ∧ sendData .txRetx s.scan s = .ok t) ∨
         (overdue s e = false ∧ t = s.withScan (s.scan + 1)))) := by
  unfold examineEntry
  by_cases h : s.lfs < s.scan
  · have h2 : ¬ s.scan ≤ s.lfs := by omega
    rw [if_pos h]; simp [h, h2, eq_comm (a := t)]
  · have h2 : s.scan ≤ s.lfs := by omega
    rw [if_neg h]
    cases h' : s.sw.get s.scan with
    | none => simp [h]
    | some e =>
      cases ho : overdue s e <;> by_cases hr : e.retries = 0 <;> simp [h, h2, ho, hr, eq_comm (a := t)]

/-- What is left of a retry count: one less, or a free value within R36's range. -/
theorem decrementRetries_cases (n : Nat) (s : State) :
    (1 ≤ n ∧ decrementRetries n s = (n - 1, s)) ∨
    (n = 0 ∧ ∃ r, r ≤ s.cfg.retryMax ∧ decrementRetries n s = (r, { s with frees := s.frees + 1 })) := by
  cases n with
  | zero => exact .inr ⟨rfl, _, Nat.le_of_lt_succ (Nat.mod_lt _ (Nat.succ_pos _)), rfl⟩
  | succ n => exact .inl ⟨by omega, rfl⟩

/-- The continuation of a resend. -/
theorem finishResend_eq_ok :
    finishResend s = .ok t ↔ ∃ e, s.sw.get s.scan = some e ∧
      t = { s with
            sw := s.sw.set s.scan { e with sentAt := s.now, retries := (decrementRetries e.retries s).1 },
            scan := fitted 16 (s.scan + 1), modPhase := .idle, caller := none,
            frees := if e.retries = 0 then s.frees + 1 else s.frees } := by
  unfold finishResend
  cases h : s.sw.get s.scan with
  | none => simp
  | some e =>
    cases hr : e.retries <;> simp [eq_comm (a := t), hr, decrementRetries, State.withScan, State.sendReturned]

/-! ### The demodulator's parts -/

/-- The frame of the received registers goes to `FQ`. -/
theorem emitFrame_eq_ok :
    emitFrame s = .ok t ↔ ∃ body, s.rxBody.range 0 s.rxLen.toNat = some body ∧ s.gateOpen .dem .fq ∧
      t = State.toSearch (pushFq { len := s.rxLen, seq := s.rxSeq, body } s) := by
  unfold emitFrame receivedBody
  cases h : s.rxBody.range 0 s.rxLen.toNat <;> simp [withLock_eq_ok, eq_comm (a := t)]

/-- The verdict on the received CRC. -/
theorem checkCrc_eq_ok :
    checkCrc s = .ok t ↔ ∃ body, s.rxBody.range 0 s.rxLen.toNat = some body ∧
      ((crc32 s.cfg s.rxLen s.rxSeq body = s.rxCrc ∧ emitFrame s = .ok t) ∨
       (crc32 s.cfg s.rxLen s.rxSeq body ≠ s.rxCrc ∧ t = discard (s.raise .crcMismatch))) := by
  unfold checkCrc receivedBody
  cases h : s.rxBody.range 0 s.rxLen.toNat with
  | none => simp
  | some body =>
    by_cases hc : crc32 s.cfg s.rxLen s.rxSeq body = s.rxCrc <;> simp [hc, eq_comm (a := t)]

/-- The window after one more sample. -/
theorem slideWindow_eq_ok {x : Sample} :
    slideWindow x s = .ok t ↔
      (s.wfill < s.cfg.pk ∧ t = { s with win := s.win.set s.wfill x, wfill := s.wfill + 1 }) ∨
      (s.cfg.pk ≤ s.wfill ∧ ∃ xs, s.win.range 1 (s.cfg.pk - 1) = some xs ∧
        t = { s with win := Memory.ofList (xs ++ [x]) }) := by
  unfold slideWindow
  by_cases h : s.wfill < s.cfg.pk
  · have h2 : ¬ s.cfg.pk ≤ s.wfill := by omega
    simp [h, h2, eq_comm (a := t)]
  · rw [if_neg h]
    cases h' : s.win.range 1 (s.cfg.pk - 1) with
    | none => simp [h]
    | some xs =>
      simp [h, eq_comm (a := t)]
      omega

/-- The comparator's verdict. -/
theorem correlate_eq_ok {v : Bool} :
    correlate s = .ok v ↔ s.wfill = s.cfg.pk ∧
      ∃ xs, s.win.range 0 s.cfg.pk = some xs ∧ v = preambleMatch s.cfg xs := by
  unfold correlate
  by_cases h : s.wfill = s.cfg.pk
  · rw [if_pos h]
    cases h' : s.win.range 0 s.cfg.pk <;> simp [h, eq_comm (a := v)]
  · simp [h]

/-- The integrator: a bit at every `K`-th sample. -/
theorem integrate_cases (x : Sample) (s : State) :
    (s.scnt + 1 < s.cfg.k ∧
      integrate x s = (none, { s with acc := s.cfg.num.add s.acc x, scnt := s.scnt + 1 })) ∨
    (s.cfg.k ≤ s.scnt + 1 ∧
      integrate x s = (some (slice s.cfg.num (s.cfg.num.add s.acc x)),
        { s with acc := s.cfg.num.zero, scnt := 0 })) := by
  unfold integrate
  by_cases h : s.scnt + 1 < s.cfg.k
  · exact .inl ⟨h, by simp [h]⟩
  · exact .inr ⟨by omega, by simp [h]⟩

/-- A body bit: at every eighth, the byte goes to its cell; then the end of the body is tested. -/
theorem bodyBit_eq_ok {b : Bool} :
    bodyBit b s = .ok t ↔
      (fitted 20 (s.bcnt + 1) % 8 = 0 →
        8 ≤ fitted 20 (s.bcnt + 1) ∧ fitted 20 (s.bcnt + 1) ≤ 8 * s.cfg.maxBody) ∧
      t = { s with
            rxCur := if fitted 20 (s.bcnt + 1) % 8 = 0 then 0#8 else shiftIn s.rxCur b,
            rxBody := if fitted 20 (s.bcnt + 1) % 8 = 0
              then s.rxBody.set (fitted 20 (s.bcnt + 1) / 8 - 1) (shiftIn s.rxCur b) else s.rxBody,
            demState := if fitted 20 (s.bcnt + 1) = 8 * s.rxLen.toNat then .crc else s.demState,
            bcnt := if fitted 20 (s.bcnt + 1) = 8 * s.rxLen.toNat then 0 else fitted 20 (s.bcnt + 1) } := by
  unfold bodyBit storeByte State.countBit
  by_cases h8 : fitted 20 (s.bcnt + 1) % 8 = 0
  · by_cases hc : 8 ≤ fitted 20 (s.bcnt + 1) ∧ fitted 20 (s.bcnt + 1) ≤ 8 * s.cfg.maxBody
    · by_cases he : fitted 20 (s.bcnt + 1) = 8 * s.rxLen.toNat <;>
        simp_all [eq_comm (a := t)]
    · simp [h8, hc]
  · by_cases he : fitted 20 (s.bcnt + 1) = 8 * s.rxLen.toNat <;> simp_all [eq_comm (a := t)]

/-! ### The audio boundary's parts -/

/-- One inbound sample. -/
theorem audioIn_eq_ok {x : Sample} :
    audioIn x s = .ok t ↔ s.cfg.num.finite x = true ∧ s.gateOpen .ab .inq ∧
      t = pushInq x { s with sh := shiftHistory s.sh x } := by
  unfold audioIn
  cases h : s.cfg.num.finite x <;> simp [withLock_eq_ok, eq_comm (a := t)]

/-- One outbound sample. -/
theorem audioOut_eq_ok {r : Sample × State} :
    audioOut s = .ok r ↔ s.gateOpen .ab .outq ∧
      r = (s.outq.headD s.cfg.num.zero, { s with outq := s.outq.tail }) := by
  unfold audioOut
  rw [withLock_eq_ok]
  cases h : s.outq with
  | nil =>
    have : ({ s with outq := [] } : State) = s := by rw [← h]
    simp [this, eq_comm (a := r)]
  | cons y q => simp [eq_comm (a := r)]

end Sys2Proof.Machine
end

