-- ==== Sys2Proof/Laws/Meanings.lean ====
section
/-! SUPPORT. For each operation with more than one outcome, one lemma that says every next state it can
answer. -/

namespace Sys2Proof.Machine

variable {s t : State}

/-! ### Starting a command -/

/-- `TX.START` answers a rejection, or the sender's first state. -/
theorem startSender_eq_ok :
    startSender s = .ok t ↔ s.modPhase = .idle ∧
      ((s.cfg.seqMax < segments s.cfg s.txLen ∧ t = { s with result := .rejected }) ∨
      (segments s.cfg s.txLen ≤ s.cfg.seqMax ∧ s.gateOpen .arq .fq ∧
        t = { s with busy := true, role := .sender, stopReq := false, result := .none, fq := [],
                     nTx := segments s.cfg s.txLen, lar := 0, lfs := 0, scan := 0, finCnt := 0, sw := [],
                     arqPhase := .txSent0 })) := by
  simp only [startSender, betweenSends_eq_ok]
  by_cases h : s.cfg.seqMax < segments s.cfg s.txLen
  · have h2 : ¬ segments s.cfg s.txLen ≤ s.cfg.seqMax := by omega
    simp [h, h2, eq_comm (a := t)]
  · have h2 : segments s.cfg s.txLen ≤ s.cfg.seqMax := by omega
    simp [h, h2, withLock_eq_ok, eq_comm (a := t)]

/-- `RX.START` answers the receiver's first state. -/
theorem startReceiver_eq_ok :
    startReceiver s = .ok t ↔ s.modPhase = .idle ∧ s.gateOpen .arq .fq ∧
      t = { s with busy := true, role := .receiver, stopReq := false, result := .none, fq := [], rb := [],
                   lfr := 0, nExp := 0, countKnown := false, rxPayload := [], rxPayloadLen := 0,
                   arqPhase := .rxPop } := by
  unfold startReceiver
  simp [betweenSends_eq_ok, withLock_eq_ok, eq_comm (a := t)]

theorem execHTransmit_next {payload : List Byte} (h : execHTransmit payload s = .next t) :
    t = s ∨ (s.busy = false ∧ s.cfg.payloadMax < payload.length ∧ t = { s with result := .rejected }) ∨
    (s.busy = false ∧ payload.length ≤ s.cfg.payloadMax ∧
      startSender { s with txPayload := Memory.ofList payload, txLen := fitted 32 payload.length } = .ok t) := by
  unfold execHTransmit at h
  rcases settle_eq_next.mp h with h | ⟨-, rfl⟩
  · by_cases hb : s.busy = true
    · rw [if_pos hb] at h; exact .inl (by simpa using h.symm)
    · rw [if_neg hb] at h
      by_cases hp : s.cfg.payloadMax < payload.length
      · rw [if_pos hp] at h
        exact .inr (.inl ⟨by simpa using hb, hp, by simpa only [Except.ok.injEq] using h.symm⟩)
      · rw [if_neg hp] at h
        exact .inr (.inr ⟨by simpa using hb, by omega, h⟩)
  · exact .inl rfl

theorem execHReceive_next (h : execHReceive s = .next t) :
    t = s ∨ (s.busy = false ∧ startReceiver s = .ok t) := by
  unfold execHReceive at h
  rcases settle_eq_next.mp h with h | ⟨-, rfl⟩
  · by_cases hb : s.busy = true
    · rw [if_pos hb] at h; exact .inl (by simpa using h.symm)
    · rw [if_neg hb] at h
      exact .inr ⟨by simpa using hb, h⟩
  · exact .inl rfl

theorem execTxStart_next (h : execTxStart s = .next t) :
    t = s ∨ (s.busy = false ∧ startSender s = .ok t) := by
  unfold execTxStart at h
  rcases settle_arqStep_next h with ⟨-, h⟩ | rfl
  · by_cases hb : s.busy = true
    · rw [if_pos hb] at h; cases h
    · rw [if_neg hb] at h
      exact .inr ⟨by simpa using hb, h⟩
  · exact .inl rfl

theorem execRxStart_next (h : execRxStart s = .next t) :
    t = s ∨ (s.busy = false ∧ startReceiver s = .ok t) := by
  unfold execRxStart at h
  rcases settle_arqStep_next h with ⟨-, h⟩ | rfl
  · by_cases hb : s.busy = true
    · rw [if_pos hb] at h; cases h
    · rw [if_neg hb] at h
      exact .inr ⟨by simpa using hb, h⟩
  · exact .inl rfl

/-! ### The gate and the audio boundary -/

theorem execQAcq_next {q : QueueId} {a : Agent} (h : execQAcq q a s = .next t) :
    t = s ∨ (s.gateOpen a q ∧ t = s.setLock q (some a)) := by
  unfold execQAcq at h
  rcases settle_eq_next.mp h with h | ⟨-, rfl⟩
  · obtain ⟨h1, h2⟩ := withLock_eq_ok.mp h
    exact .inr ⟨h1, by simpa using h2.symm⟩
  · exact .inl rfl

theorem execQRel_next {q : QueueId} {a : Agent} (h : execQRel q a s = .next t) :
    s.lock q = some a ∧ t = s.setLock q none := by
  unfold execQRel at h
  split at h
  · exact ⟨by assumption, by simpa using h.symm⟩
  · cases h

theorem execQPush_next {v : QElem} (h : execQPush v s = .next t) :
    s.lock (queueOf v) = some (producer (queueOf v)) ∧
      ((∃ x, v = .inq x ∧ t = pushInq x s) ∨
       (∃ x, v = .outq x ∧ s.outq.length + 1 ≤ s.cfg.outDepth ∧ t = { s with outq := s.outq ++ [x] }) ∨
       (∃ f, v = .fq f ∧ t = pushFq f s)) := by
  unfold execQPush at h
  split at h
  · refine ⟨by assumption, ?_⟩
    cases v with
    | inq x => exact .inl ⟨x, rfl, by simpa using h.symm⟩
    | outq x =>
      rcases settle_eq_next.mp h with h | ⟨h, -⟩
      · obtain ⟨h1, h2⟩ := pushOutq_eq_ok.mp h
        exact .inr (.inl ⟨x, rfl, h1, h2⟩)
      · unfold pushOutq at h; split at h <;> simp at h
    | fq f => exact .inr (.inr ⟨f, rfl, by simpa using h.symm⟩)
  · cases h

theorem execQPop_next {q : QueueId} (h : execQPop q s = .next t) :
    s.lock q = some (consumer q) ∧ ∃ v u, popQueue q s = some (v, u) ∧ t = u.answer v := by
  unfold execQPop at h
  split at h
  · refine ⟨by assumption, ?_⟩
    split at h
    · rename_i v u hv
      exact ⟨v, u, hv, by simpa using h.symm⟩
    · cases h
  · cases h

theorem execAbIn_next {x : Sample} (h : execAbIn x s = .next t) :
    t = s ∨ (s.cfg.num.finite x = true ∧ s.gateOpen .ab .inq ∧
      t = pushInq x { s with sh := shiftHistory s.sh x }) := by
  unfold execAbIn at h
  rcases settle_eq_next.mp h with h | ⟨-, rfl⟩
  · exact .inr (audioIn_eq_ok.mp h)
  · exact .inl rfl

theorem execAbOut_next (h : execAbOut s = .next t) :
    t = s ∨ (s.gateOpen .ab .outq ∧
      t = { s with outq := s.outq.tail, out := .sample (s.outq.headD s.cfg.num.zero) }) := by
  unfold execAbOut at h
  rcases settle_eq_next.mp h with h | ⟨-, rfl⟩
  · obtain ⟨r, hr, h⟩ := Act.andThen_eq_ok.mp h
    obtain ⟨h1, rfl⟩ := audioOut_eq_ok.mp hr
    exact .inr ⟨h1, by simpa [State.answer, eq_comm (a := t)] using h⟩
  · exact .inl rfl

/-- A part of a period: a sample in, a sample out, or the sensing. -/
theorem periodPart_eq_ok {p : Period} :
    periodPart p s = .ok t ↔
      (∃ x xs, p.ins = x :: xs ∧ s.cfg.num.finite x = true ∧ s.gateOpen .ab .inq ∧
        t = { pushInq x { s with sh := shiftHistory s.sh x } with period := some { p with ins := xs } }) ∨
      (p.ins = [] ∧ p.outs.length < s.cfg.blk ∧ s.gateOpen .ab .outq ∧
        t = { s with outq := s.outq.tail,
                     period := some { p with outs := p.outs ++ [s.outq.headD s.cfg.num.zero] } }) ∨
      (p.ins = [] ∧ s.cfg.blk ≤ p.outs.length ∧
        t = { s with quiet := !windowBusy s, period := none, out := .samples p.outs }) := by
  obtain ⟨ins, outs⟩ := p
  cases ins with
  | cons x xs =>
    simp only [periodPart, Act.andThen_eq_ok, audioIn_eq_ok]
    constructor
    · rintro ⟨u, ⟨h1, h2, rfl⟩, h3⟩
      exact .inl ⟨x, xs, rfl, h1, h2, by simpa using h3.symm⟩
    · rintro (⟨y, ys, he, h1, h2, rfl⟩ | ⟨he, -⟩ | ⟨he, -⟩)
      · simp at he; obtain ⟨rfl, rfl⟩ := he
        exact ⟨_, ⟨h1, h2, rfl⟩, rfl⟩
      · simp at he
      · simp at he
  | nil =>
    by_cases h : outs.length < s.cfg.blk
    · have h' : ¬ s.cfg.blk ≤ outs.length := by omega
      simp only [periodPart, if_pos h, Act.andThen_eq_ok, audioOut_eq_ok]
      constructor
      · rintro ⟨r, ⟨h1, rfl⟩, h2⟩
        exact .inr (.inl ⟨trivial, h, h1, by simpa using h2.symm⟩)
      · rintro (⟨y, ys, he, -⟩ | ⟨-, -, h1, rfl⟩ | ⟨-, h2, -⟩)
        · simp at he
        · exact ⟨_, ⟨h1, rfl⟩, rfl⟩
        · exact absurd h2 h'
    · have h' : s.cfg.blk ≤ outs.length := by omega
      simp only [periodPart, if_neg h]
      constructor
      · intro h1
        exact .inr (.inr ⟨trivial, h', by simpa [senseChannel, windowBusy, State.answer] using h1.symm⟩)
      · rintro (⟨y, ys, he, -⟩ | ⟨-, h2, -⟩ | ⟨-, -, rfl⟩)
        · simp at he
        · exact absurd h2 h
        · simp [senseChannel, windowBusy, State.answer]

/-- A slot of `AB.PERIOD` performs a part: of the period in progress, or the first of a new one. -/
theorem execAbPeriod_next {xs : List Sample} (h : execAbPeriod xs s = .next t) :
    t = s ∨ (∃ p, s.period = some p ∧ periodPart p s = .ok t) ∨
    (s.period = none ∧ xs.length = s.cfg.blk ∧ xs.all s.cfg.num.finite = true ∧
      periodPart { ins := xs, outs := [] } s = .ok t) := by
  unfold execAbPeriod audioPeriod at h
  rcases settle_eq_next.mp h with h | ⟨-, rfl⟩
  · cases hp : s.period with
    | some p => rw [hp] at h; exact .inr (.inl ⟨p, rfl, h⟩)
    | none =>
      simp only [hp] at h
      by_cases hl : xs.length = s.cfg.blk
      · rw [if_pos hl] at h
        by_cases hf : xs.all s.cfg.num.finite = true
        · rw [if_pos hf] at h; exact .inr (.inr ⟨rfl, hl, hf, h⟩)
        · rw [if_neg hf] at h; cases h
      · rw [if_neg hl] at h; cases h
  · exact .inl rfl

/-! ### The modulator -/

theorem execModSend_next {f : Frame} (h : execModSend f s = .next t) :
    t = s ∨ (Frame.ok s.cfg f = true ∧
      ((s.modPhase = .idle ∧ sendEntry .alone f s = .ok t) ∨
       (s.modPhase = .done ∧ s.caller = some .alone ∧ t = { s with modPhase := .idle, caller := none }))) := by
  unfold execModSend at h
  rcases settle_arqStep_next h with ⟨-, h⟩ | rfl
  · by_cases hf : Frame.ok s.cfg f = true
    · rw [if_pos hf] at h
      rcases sending_eq_ok.mp h with h | ⟨h1, h2, h3⟩
      · exact .inr ⟨hf, .inl h⟩
      · exact .inr ⟨hf, .inr ⟨h1, h2, by simpa [State.sendReturned] using h3.symm⟩⟩
    · rw [if_neg hf] at h; cases h
  · exact .inl rfl

theorem execModWaitq_next (h : execModWaitq s = .next t) :
    t = s ∨ (s.modPhase = .waitq ∧ s.stopReq = true ∧ t = stopByRole s) ∨
    (s.modPhase = .waitq ∧ s.stopReq = false ∧ s.quiet = true ∧ t = { s with modPhase := .emit }) := by
  unfold execModWaitq at h
  rcases settle_arqStep_next h with ⟨-, h⟩ | rfl
  · by_cases hp : s.modPhase = .waitq
    · rw [if_pos hp] at h
      by_cases hs : s.stopReq = true
      · rw [if_pos hs] at h; exact .inr (.inl ⟨hp, hs, by simpa using h.symm⟩)
      · rw [if_neg hs] at h
        by_cases hq : s.quiet = true
        · rw [if_pos hq] at h; exact .inr (.inr ⟨hp, by simpa using hs, hq, by simpa using h.symm⟩)
        · rw [if_neg hq] at h; cases h
    · rw [if_neg hp] at h; cases h
  · exact .inl rfl

theorem execModEmit_next (h : execModEmit s = .next t) :
    t = s ∨ (s.modPhase = .emit ∧ ∃ f, s.txf = some f ∧ Frame.ok s.cfg f = true ∧ s.gateOpen .arq .outq ∧
      s.outq.length + (frameSamples s.cfg f).length ≤ s.cfg.outDepth ∧
      t = { s with outq := s.outq ++ frameSamples s.cfg f, txf := none, modPhase := .drain }) := by
  unfold execModEmit at h
  rcases settle_arqStep_next h with ⟨-, h⟩ | rfl
  · by_cases hp : s.modPhase = .emit
    · rw [if_pos hp] at h
      cases hf : s.txf with
      | none => rw [hf] at h; cases h
      | some f =>
        simp only [hf] at h
        by_cases hk : Frame.ok s.cfg f = true
        · rw [if_pos hk] at h
          obtain ⟨hg, h⟩ := withLock_eq_ok.mp h
          obtain ⟨u, hu, h⟩ := Act.andThen_eq_ok.mp h
          obtain ⟨hd, rfl⟩ := pushOutq_eq_ok.mp hu
          exact .inr ⟨hp, f, rfl, hk, hg, hd, by simpa using h.symm⟩
        · rw [if_neg hk] at h; cases h
    · rw [if_neg hp] at h; cases h
  · exact .inl rfl

theorem execModDrain_next (h : execModDrain s = .next t) :
    t = s ∨ (s.modPhase = .drain ∧ s.stopReq = true ∧ t = stopByRole s) ∨
    (s.modPhase = .drain ∧ s.stopReq = false ∧ s.gateOpen .arq .outq ∧ s.outq = [] ∧
      t = { s with modPhase := .done }) := by
  unfold execModDrain at h
  rcases settle_arqStep_next h with ⟨-, h⟩ | rfl
  · by_cases hp : s.modPhase = .drain
    · rw [if_pos hp] at h
      by_cases hs : s.stopReq = true
      · rw [if_pos hs] at h; exact .inr (.inl ⟨hp, hs, by simpa using h.symm⟩)
      · rw [if_neg hs] at h
        obtain ⟨hg, h⟩ := withLock_eq_ok.mp h
        by_cases hq : s.outq = []
        · rw [if_pos hq] at h; exact .inr (.inr ⟨hp, by simpa using hs, hg, hq, by simpa using h.symm⟩)
        · rw [if_neg hq] at h; cases h
    · rw [if_neg hp] at h; cases h
  · exact .inl rfl

/-! ### The demodulator -/

theorem execDemStep_next (h : execDemStep s = .next t) :
    t = s ∨ (s.gateOpen .dem .inq ∧ ∃ x q, s.inq = x :: q ∧ demAct x { s with inq := q } = .ok t) := by
  unfold execDemStep at h
  rcases settle_eq_next.mp h with h | ⟨-, rfl⟩
  · obtain ⟨hg, h⟩ := withLock_eq_ok.mp h
    cases hq : s.inq with
    | nil => rw [hq] at h; cases h
    | cons x q => simp only [hq] at h; exact .inr ⟨hg, x, q, rfl, h⟩
  · exact .inl rfl

/-! ### The sender -/

theorem execTxSent0_next (h : execTxSent0 s = .next t) :
    t = s ∨ (s.arqPhase = .txSent0 ∧
      ((s.modPhase = .idle ∧ sendEntry .txSent0 (sentinel s.cfg s.nTx) s = .ok t) ∨
       (s.modPhase = .done ∧ s.caller = some .txSent0 ∧
         t = { s with modPhase := .idle, caller := none, arqPhase := .txLoop }))) := by
  unfold execTxSent0 at h
  rcases settle_arqStep_next h with ⟨-, h⟩ | rfl
  · by_cases hp : s.arqPhase = .txSent0
    · rw [if_pos hp] at h
      rcases sending_eq_ok.mp h with h | ⟨h1, h2, h3⟩
      · exact .inr ⟨hp, .inl h⟩
      · exact .inr ⟨hp, .inr ⟨h1, h2, by simpa using h3.symm⟩⟩
    · rw [if_neg hp] at h; cases h
  · exact .inl rfl

theorem execTxLoop_next (h : execTxLoop s = .next t) :
    t = s ∨ (s.arqPhase = .txLoop ∧ s.modPhase = .idle ∧
      ((s.stopReq = true ∧ t = stopSender s) ∨
       (s.stopReq = false ∧ s.lar = s.nTx ∧ t = { s with finCnt := 0, arqPhase := .txFin }) ∨
       (s.stopReq = false ∧ s.lar ≠ s.nTx ∧ t = { s with arqPhase := .txDrain }))) := by
  unfold execTxLoop at h
  rcases settle_arqStep_next h with ⟨-, h⟩ | rfl
  · by_cases hp : s.arqPhase = .txLoop ∧ s.modPhase = .idle
    · rw [if_pos hp] at h
      refine .inr ⟨hp.1, hp.2, ?_⟩
      by_cases hs : s.stopReq = true
      · rw [if_pos hs] at h; exact .inl ⟨hs, by simpa using h.symm⟩
      · rw [if_neg hs] at h
        have hs : s.stopReq = false := by simpa using hs
        by_cases hl : s.lar = s.nTx
        · rw [if_pos hl] at h; exact .inr (.inl ⟨hs, hl, by simpa using h.symm⟩)
        · rw [if_neg hl] at h; exact .inr (.inr ⟨hs, hl, by simpa using h.symm⟩)
    · rw [if_neg hp] at h; cases h
  · exact .inl rfl

theorem execTxDrain_next (h : execTxDrain s = .next t) :
    t = s ∨ (s.arqPhase = .txDrain ∧ s.modPhase = .idle ∧ s.gateOpen .arq .fq ∧
      ((s.fq = [] ∧ t = { s with arqPhase := .txSlide }) ∨
       ∃ f q, s.fq = f :: q ∧ takeAck f { s with fq := q } = .ok t)) := by
  unfold execTxDrain at h
  rcases settle_arqStep_next h with ⟨-, h⟩ | rfl
  · by_cases hp : s.arqPhase = .txDrain ∧ s.modPhase = .idle
    · rw [if_pos hp] at h
      obtain ⟨hg, h⟩ := withLock_eq_ok.mp h
      refine .inr ⟨hp.1, hp.2, hg, ?_⟩
      cases hq : s.fq with
      | nil => simp only [hq] at h; exact .inl ⟨rfl, by simpa using h.symm⟩
      | cons f q => simp only [hq] at h; exact .inr ⟨f, q, rfl, h⟩
    · rw [if_neg hp] at h; cases h
  · exact .inl rfl

/-- What `TX.SLIDE`'s loop answers: `LAR` advanced by `k` over acknowledged entries, which are gone, and stopped
by an entry that is not acknowledged or at the bound. -/
theorem slideWhile_eq_ok {n : Nat} (hw : s.sw.wf) (h : slideWhile n s = .ok t) :
    ∃ k sw, k ≤ n ∧ t = { s with sw := sw, lar := s.lar + k } ∧ sw.wf ∧
      (∀ m, sw.get m = if s.lar < m ∧ m ≤ s.lar + k then none else s.sw.get m) ∧
      (∀ m, s.lar < m → m ≤ s.lar + k → ∃ e, s.sw.get m = some e ∧ e.acked = true) ∧
      (k < n → ∃ e, s.sw.get (s.lar + k + 1) = some e ∧ e.acked = false) := by
  induction n generalizing s with
  | zero =>
    simp [slideWhile] at h; subst h
    refine ⟨0, s.sw, Nat.le_refl 0, rfl, hw, ?_, ?_, ?_⟩
    · intro m; rw [if_neg (by omega)]
    · intro m h1 h2; omega
    · intro h; omega
  | succ n ih =>
    simp only [slideWhile] at h
    cases he : s.sw.get (s.lar + 1) with
    | none => rw [he] at h; cases h
    | some e =>
      simp only [he] at h
      by_cases ha : e.acked = true
      · rw [if_pos ha] at h
        obtain ⟨k, sw, hk, rfl, hwf, hget, hack, hstop⟩ := ih (Memory.wf_erase _ hw) h
        have her := Memory.get_erase (α := SwEntry) hw (s.lar + 1)
        refine ⟨k + 1, sw, by omega, ?_, hwf, ?_, ?_, ?_⟩
        · simp; omega
        · intro m
          have h1 := hget m
          simp only [her] at h1
          rw [h1]
          by_cases c1 : s.lar + 1 < m ∧ m ≤ s.lar + 1 + k
          · rw [if_pos c1, if_pos (by omega)]
          · rw [if_neg c1]
            by_cases c2 : m = s.lar + 1
            · rw [if_pos c2, if_pos (by omega)]
            · rw [if_neg c2, if_neg (by omega)]
        · intro m h1 h2
          by_cases c : m = s.lar + 1
          · subst c; exact ⟨e, he, ha⟩
          · obtain ⟨e', h3, h4⟩ := hack m (by simp; omega) (by simp; omega)
            simp only [her] at h3
            rw [if_neg c] at h3
            exact ⟨e', h3, h4⟩
        · intro hlt
          obtain ⟨e', h3, h4⟩ := hstop (by omega)
          simp only [her] at h3
          rw [if_neg (by omega)] at h3
          exact ⟨e', by rw [← h3]; congr 1; omega, h4⟩
      · rw [if_neg ha] at h
        simp at h; subst h
        refine ⟨0, s.sw, Nat.zero_le _, rfl, hw, ?_, ?_, ?_⟩
        · intro m; rw [if_neg (by omega)]
        · intro m h1 h2; omega
        · intro _; exact ⟨e, by simpa using he, by simpa using ha⟩

theorem execTxSlide_next (h : execTxSlide s = .next t) :
    t = s ∨ (s.arqPhase = .txSlide ∧ s.modPhase = .idle ∧ ∃ u, slideWhile (s.lfs - s.lar) s = .ok u ∧
      t = { u with scan := fitted 16 (u.lar + 1), arqPhase := .txRetx }) := by
  unfold execTxSlide at h
  rcases settle_arqStep_next h with ⟨-, h⟩ | rfl
  · by_cases hp : s.arqPhase = .txSlide ∧ s.modPhase = .idle
    · rw [if_pos hp] at h
      obtain ⟨u, hu, h⟩ := Act.andThen_eq_ok.mp h
      exact .inr ⟨hp.1, hp.2, u, hu, by simpa [State.withScan] using h.symm⟩
    · rw [if_neg hp] at h; cases h
  · exact .inl rfl

theorem execTxRetx_next (h : execTxRetx s = .next t) :
    t = s ∨ (s.arqPhase = .txRetx ∧
      ((s.modPhase = .idle ∧ examineEntry s = .ok t) ∨
       (s.modPhase = .done ∧ s.caller = some .txRetx ∧ finishResend s = .ok t))) := by
  unfold execTxRetx at h
  rcases settle_arqStep_next h with ⟨-, h⟩ | rfl
  · by_cases hp : s.arqPhase = .txRetx
    · rw [if_pos hp] at h
      exact .inr ⟨hp, sending_eq_ok.mp h⟩
    · rw [if_neg hp] at h; cases h
  · exact .inl rfl

theorem execTxNew_next (h : execTxNew s = .next t) :
    t = s ∨ (s.arqPhase = .txNew ∧
      ((s.modPhase = .idle ∧ windowOpen s = true ∧
          sendData .txNew (s.lfs + 1) { s with lfs := s.lfs + 1 } = .ok t) ∨
       (s.modPhase = .idle ∧ windowOpen s = false ∧ t = { s with arqPhase := .txLoop }) ∨
       (s.modPhase = .done ∧ s.caller = some .txNew ∧ t = finishNew s))) := by
  unfold execTxNew at h
  rcases settle_arqStep_next h with ⟨-, h⟩ | rfl
  · by_cases hp : s.arqPhase = .txNew
    · rw [if_pos hp] at h
      refine .inr ⟨hp, ?_⟩
      rcases sending_eq_ok.mp h with ⟨h1, h2⟩ | ⟨h1, h2, h3⟩
      · unfold sendNew at h2
        by_cases hw : windowOpen s = true
        · rw [if_pos hw] at h2; exact .inl ⟨h1, hw, h2⟩
        · rw [if_neg hw] at h2; exact .inr (.inl ⟨h1, by simpa using hw, by simpa using h2.symm⟩)
      · exact .inr (.inr ⟨h1, h2, by simpa using h3.symm⟩)
    · rw [if_neg hp] at h; cases h
  · exact .inl rfl

theorem execTxFin_next (h : execTxFin s = .next t) :
    t = s ∨ (s.arqPhase = .txFin ∧
      ((s.modPhase = .idle ∧ sendEntry .txFin (sentinel s.cfg s.nTx) s = .ok t) ∨
       (s.modPhase = .done ∧ s.caller = some .txFin ∧ t = finishFin s))) := by
  unfold execTxFin at h
  rcases settle_arqStep_next h with ⟨-, h⟩ | rfl
  · by_cases hp : s.arqPhase = .txFin
    · rw [if_pos hp] at h
      rcases sending_eq_ok.mp h with h | ⟨h1, h2, h3⟩
      · exact .inr ⟨hp, .inl h⟩
      · exact .inr ⟨hp, .inr ⟨h1, h2, by simpa using h3.symm⟩⟩
    · rw [if_neg hp] at h; cases h
  · exact .inl rfl

theorem execTxAbort_next (h : execTxAbort s = .next t) :
    t = s ∨ (s.arqPhase = .txRetx ∧ s.modPhase = .idle ∧ exhausted s = true ∧ t = abort s) := by
  unfold execTxAbort at h
  rcases settle_arqStep_next h with ⟨-, h⟩ | rfl
  · split at h
    · rename_i hc; exact .inr ⟨hc.1, hc.2.1, hc.2.2, by simpa using h.symm⟩
    · cases h
  · exact .inl rfl

theorem execTxStop_next (h : execTxStop s = .next t) :
    t = s ∨ (senderMayStop s = true ∧ t = stopSender s) := by
  unfold execTxStop at h
  rcases settle_arqStep_next h with ⟨-, h⟩ | rfl
  · by_cases hs : senderMayStop s = true
    · rw [if_pos hs] at h; exact .inr ⟨hs, by simpa using h.symm⟩
    · rw [if_neg hs] at h; cases h
  · exact .inl rfl

/-! ### The receiver -/

/-- `RX.SENT` records the count, then tests. -/
theorem takeSentinel_eq_ok {f : Frame} :
    takeSentinel f s = .ok t ↔ ∃ hi lo rest, f.body = hi :: lo :: rest ∧
      t = if s.rb.length = hi.toNat * 256 + lo.toNat
          then assemble { s with nExp := hi.toNat * 256 + lo.toNat, countKnown := true }
          else { s with nExp := hi.toNat * 256 + lo.toNat, countKnown := true } := by
  unfold takeSentinel
  rcases f.body with _ | ⟨hi, _ | ⟨lo, rest⟩⟩
  · simp
  · simp
  · simp [State.expected, eq_comm (a := t)]

/-- `RX.DATA`'s first part stores, advances and enters the acknowledgment's send. -/
theorem takeData_eq_ok {f : Frame} :
    takeData f s = .ok t ↔ s.modPhase = .idle ∧ Frame.ok s.cfg (ackFrame s.cfg.node (seqMag f.seq)) = true ∧
      t = { s with
            rb := storeBody (seqMag f.seq) f.body s.rb,
            lfr := advance (storeBody (seqMag f.seq) f.body s.rb).length
                    (storeBody (seqMag f.seq) f.body s.rb) s.lfr,
            txf := some (ackFrame s.cfg.node (seqMag f.seq)), modPhase := .waitq, caller := some .rxData,
            arqPhase := .rxAck } := by
  unfold takeData
  simp only [Act.andThen_eq_ok, sendEntry_eq_ok]
  constructor
  · rintro ⟨u, ⟨h1, h2, rfl⟩, h3⟩
    exact ⟨h2, h1, by simpa using h3.symm⟩
  · rintro ⟨h1, h2, rfl⟩
    exact ⟨_, ⟨h2, h1, rfl⟩, rfl⟩

theorem execRxPop_next (h : execRxPop s = .next t) :
    t = s ∨ (s.arqPhase = .rxPop ∧ s.modPhase = .idle ∧ s.stopReq = true ∧ t = stopReceiver s) ∨
    (s.arqPhase = .rxPop ∧ s.modPhase = .idle ∧ s.stopReq = false ∧ s.gateOpen .arq .fq ∧
      ∃ f q, s.fq = f :: q ∧ takeFrame f { s with fq := q } = .ok t) := by
  unfold execRxPop at h
  rcases settle_arqStep_next h with ⟨-, h⟩ | rfl
  · by_cases hp : s.arqPhase = .rxPop ∧ s.modPhase = .idle
    · rw [if_pos hp] at h
      by_cases hs : s.stopReq = true
      · rw [if_pos hs] at h; exact .inr (.inl ⟨hp.1, hp.2, hs, by simpa using h.symm⟩)
      · rw [if_neg hs] at h
        obtain ⟨hg, h⟩ := withLock_eq_ok.mp h
        cases hq : s.fq with
        | nil => simp only [hq] at h; exact .inl (by simpa using h.symm)
        | cons f q =>
          simp only [hq] at h
          exact .inr (.inr ⟨hp.1, hp.2, by simpa using hs, hg, f, q, rfl, h⟩)
    · rw [if_neg hp] at h; cases h
  · exact .inl rfl

theorem execRxSent_next {f : Frame} (h : execRxSent f s = .next t) :
    t = s ∨ (s.arqPhase = .rxPop ∧ s.modPhase = .idle ∧ f.seq = 0#16 ∧ f.len.toNat = 2 ∧ takeSentinel f s = .ok t) := by
  unfold execRxSent at h
  rcases settle_arqStep_next h with ⟨-, h⟩ | rfl
  · by_cases hp : s.arqPhase = .rxPop ∧ s.modPhase = .idle
    · rw [if_pos hp] at h
      split at h
      · rename_i hc; exact .inr ⟨hp.1, hp.2, hc.1, hc.2, h⟩
      · cases h
    · rw [if_neg hp] at h; cases h
  · exact .inl rfl

theorem execRxData_next {f : Frame} (h : execRxData f s = .next t) :
    t = s ∨ (s.arqPhase = .rxAck ∧ s.modPhase = .done ∧ s.caller = some .rxData ∧
      t = { s with modPhase := .idle, caller := none, arqPhase := .rxPop }) ∨
    (s.arqPhase = .rxPop ∧ s.modPhase = .idle ∧ classify s.cfg f = .data ∧ takeData f s = .ok t) := by
  unfold execRxData at h
  rcases settle_arqStep_next h with ⟨-, h⟩ | rfl
  · cases hp : s.arqPhase <;> simp only [hp] at h <;> try cases h
    · obtain ⟨hm, h⟩ := betweenSends_eq_ok.mp h
      by_cases hc : classify s.cfg f = .data
      · rw [if_pos hc] at h; exact .inr (.inr ⟨rfl, hm, hc, h⟩)
      · rw [if_neg hc] at h; cases h
    · rcases sending_eq_ok.mp h with ⟨-, h⟩ | ⟨h1, h2, h3⟩
      · cases h
      · exact .inr (.inl ⟨rfl, h1, h2, by simpa [State.sendReturned] using h3.symm⟩)
  · exact .inl rfl

theorem execRxDone_next (h : execRxDone s = .next t) :
    t = s ∨ (receiveComplete s = true ∧ t = assemble s) := by
  unfold execRxDone at h
  rcases settle_arqStep_next h with ⟨-, h⟩ | rfl
  · by_cases hs : receiveComplete s = true
    · rw [if_pos hs] at h; exact .inr ⟨hs, by simpa using h.symm⟩
    · rw [if_neg hs] at h; cases h
  · exact .inl rfl

theorem execRxStop_next (h : execRxStop s = .next t) :
    t = s ∨ (receiverMayStop s = true ∧ t = stopReceiver s) := by
  unfold execRxStop at h
  rcases settle_arqStep_next h with ⟨-, h⟩ | rfl
  · by_cases hs : receiverMayStop s = true
    · rw [if_pos hs] at h; exact .inr ⟨hs, by simpa using h.symm⟩
    · rw [if_neg hs] at h; cases h
  · exact .inl rfl

/-! ### Frames from the wire -/

/-- What the reception of a frame answers. -/
theorem receiveWire_eq_ok {f : Frame} {crc : BitVec 32} :
    receiveWire f crc s = .ok t ↔ s.demState = .search ∧ f.len.toNat = f.body.length ∧
      ((s.cfg.maxBody < f.len.toNat ∧ t = rejectHeader f s) ∨
       (f.len.toNat ≤ s.cfg.maxBody ∧
         checkCrc { withHeader f s with rxBody := Memory.ofList f.body, rxCrc := crc } = .ok t)) := by
  unfold receiveWire
  by_cases hs : s.demState = .search
  · rw [if_pos hs]
    by_cases hl : f.len.toNat = f.body.length
    · rw [if_pos hl]
      by_cases hm : s.cfg.maxBody < f.len.toNat
      · have h2 : ¬ f.len.toNat ≤ s.cfg.maxBody := by omega
        simp only [withHeader_cfg]
        simp [hs, hl, hl ▸ hm, hl ▸ h2, eq_comm (a := t)]
      · have h2 : f.len.toNat ≤ s.cfg.maxBody := by omega
        simp only [withHeader_cfg]
        simp only [hs, true_and, h2, hm, false_and, false_or]
        exact ⟨fun h => ⟨hl, h⟩, fun h => h.2⟩
    · simp [hl]
  · simp [hs]

theorem wire_next {f : Frame} {crc : BitVec 32} (h : settle s (receiveWire f crc s) = .next t) :
    t = s ∨ receiveWire f crc s = .ok t := by
  rcases settle_eq_next.mp h with h | ⟨-, rfl⟩
  · exact .inr h
  · exact .inl rfl

end Sys2Proof.Machine
end

