-- ==== Sys2Proof/Tests/Slice0.lean ====
section
/-! SUPPORT. Tests: ill-formed terms the checks refuse, words written out from the spec's encodings, the
vectors of spec/95_test_vectors.md, and for every statement with hypotheses states that meet them.
Expected values are the spec's (the vector is named) or worked by hand from the rule named. -/

namespace Sys2Proof.Tests

open Sys2Proof.Machine

-- One theorem after the other: the kernel's checks would otherwise each hold a thread.
set_option Elab.async false

/-! ### Ill-formed terms -/

theorem test_wf_period_length : Instr.wf Config.tc0 (.abPeriod [0#32, 0#32, 0#32]) = false := by decide

theorem test_wf_counts {l : List Byte} (h : l.length = 2 ^ 32) :
    Instr.wf Config.tc0 (.hTransmit l) = false ∧ Instr.wf Config.tc0 (.fcPack 0#16 0#16 l) = false ∧
    Instr.wf Config.tc0 (.fcCrc32 0#16 0#16 l) = false := by
  simp [Instr.wf, lengthFits, h]

theorem test_wf_bit_counts {l : List Bool} (h : l.length = 2 ^ 32) :
    Instr.wf Config.tc0 (.modBits l) = false ∧ Instr.wf Config.tc0 (.fcDecode l) = false := by
  simp [Instr.wf, lengthFits, h]

theorem test_wf_frame_records {f : Frame} (h : f.body.length = 2 ^ 32) :
    Instr.wf Config.tc0 (.modSend f) = false ∧ Instr.wf Config.tc0 (.qPush (.fq f)) = false ∧
    Instr.wf Config.tc0 (.fcEncode f) = false ∧ Instr.wf Config.tc0 (.rxSent f) = false ∧
    Instr.wf Config.tc0 (.rxData f) = false ∧ Instr.wf Config.tc0 (.rxEcho f) = false ∧
    Instr.wf Config.tc0 (.rxOther f) = false := by
  simp [Instr.wf, QElem.wf, Frame.wf, lengthFits, h]

theorem test_wf_wire_headers :
    Instr.wf Config.tc0 (.fAck 0#16 0#32) = false ∧ Instr.wf Config.tc0 (.fAck 0x8000#16 0#32) = false ∧
    Instr.wf Config.tc0 (.fData 0#16 [1#8] 0#32) = false ∧
    Instr.wf Config.tc0 (.fData 0x8000#16 [1#8] 0#32) = false ∧
    Instr.wf Config.tc0 (.fData 1#16 [] 0#32) = false ∧
    Instr.wf Config.tc0 (.fRsv 1#16 [] 0#32) = false ∧
    Instr.wf Config.tc0 (.fRsv 0#16 [1#8, 2#8] 0#32) = false := by decide

theorem test_wf_wire_bodies {l : List Byte} (h : l.length = 2 ^ 16) :
    Instr.wf Config.tc0 (.fData 1#16 l 0#32) = false ∧
    Instr.wf Config.tc0 (.fRsv 0x8000#16 l 0#32) = false := by
  simp [Instr.wf, h]

/-- R105: a data frame's LENGTH is at most `MAX_BODY`, 40 in the reset configuration. -/
theorem test_wf_data_length :
    Instr.wf Config.tc0 (.fData 1#16 (List.replicate 40 0#8) 0#32) = true ∧
    Instr.wf Config.tc0 (.fData 1#16 (List.replicate 41 0#8) 0#32) = false := by decide

/-! ### Codes and words, written out from R98, R105 and the operand layout of log 2 -/

/-- The decoder's configuration: two samples a period. -/
def tc2 : Config := { Config.tc0 with blk := 2 }

theorem test_decode_h_reset : decode tc2 (.op [0x00#8]) = .ok (.hReset) := by rfl

theorem test_decode_h_transmit :
    decode tc2 (.op [0x01#8, 0x00#8, 0x00#8, 0x00#8, 0x02#8, 0x4F#8, 0x4B#8])
      = .ok (.hTransmit [0x4F#8, 0x4B#8]) := by rfl

theorem test_decode_h_receive : decode tc2 (.op [0x02#8]) = .ok (.hReceive) := by rfl

theorem test_decode_h_stop : decode tc2 (.op [0x03#8]) = .ok (.hStop) := by rfl

theorem test_decode_h_status : decode tc2 (.op [0x04#8]) = .ok (.hStatus) := by rfl

theorem test_decode_tb_tick : decode tc2 (.op [0x08#8]) = .ok (.tbTick) := by rfl

theorem test_decode_ab_period :
    decode tc2 (.op [0x10#8, 0x3F#8, 0x80#8, 0x00#8, 0x00#8, 0xBF#8, 0x00#8, 0x00#8, 0x01#8])
      = .ok (.abPeriod [0x3F800000#32, 0xBF000001#32]) := by rfl

theorem test_decode_ab_in :
    decode tc2 (.op [0x11#8, 0x3F#8, 0x80#8, 0x00#8, 0x01#8])
      = .ok (.abIn 0x3F800001#32) := by rfl

theorem test_decode_ab_out : decode tc2 (.op [0x12#8]) = .ok (.abOut) := by rfl

theorem test_decode_q_acq : decode tc2 (.op [0x13#8, 0x01#8, 0x02#8]) = .ok (.qAcq .outq .arq) := by rfl

theorem test_decode_q_rel : decode tc2 (.op [0x14#8, 0x00#8, 0x01#8]) = .ok (.qRel .inq .dem) := by rfl

theorem test_decode_q_push :
    decode tc2 (.op [0x15#8, 0x02#8, 0x00#8, 0x02#8, 0xFF#8, 0xFF#8, 0x00#8, 0x00#8, 0x00#8, 0x02#8, 0x48#8,
      0x69#8])
      = .ok (.qPush (.fq ⟨2#16, 0xFFFF#16, [0x48#8, 0x69#8]⟩)) := by rfl

theorem test_decode_q_pop : decode tc2 (.op [0x16#8, 0x02#8]) = .ok (.qPop .fq) := by rfl

theorem test_decode_mod_send :
    decode tc2 (.op [0x20#8, 0x00#8, 0x02#8, 0xFF#8, 0xFF#8, 0x00#8, 0x00#8, 0x00#8, 0x02#8, 0x48#8, 0x69#8])
      = .ok (.modSend ⟨2#16, 0xFFFF#16, [0x48#8, 0x69#8]⟩) := by rfl

theorem test_decode_mod_waitq : decode tc2 (.op [0x21#8]) = .ok (.modWaitq) := by rfl

theorem test_decode_mod_emit : decode tc2 (.op [0x22#8]) = .ok (.modEmit) := by rfl

theorem test_decode_mod_drain : decode tc2 (.op [0x23#8]) = .ok (.modDrain) := by rfl

theorem test_decode_mod_bits :
    decode tc2 (.op [0x24#8, 0x00#8, 0x00#8, 0x00#8, 0x03#8, 0x01#8, 0x00#8, 0x01#8])
      = .ok (.modBits [true, false, true]) := by rfl

theorem test_decode_dem_step : decode tc2 (.op [0x30#8]) = .ok (.demStep) := by rfl

theorem test_decode_dem_search :
    decode tc2 (.op [0x31#8, 0x3F#8, 0x80#8, 0x00#8, 0x01#8])
      = .ok (.demSearch 0x3F800001#32) := by rfl

theorem test_decode_dem_corr : decode tc2 (.op [0x32#8]) = .ok (.demCorr) := by rfl

theorem test_decode_dem_slice :
    decode tc2 (.op [0x33#8, 0x3F#8, 0x80#8, 0x00#8, 0x01#8])
      = .ok (.demSlice 0x3F800001#32) := by rfl

theorem test_decode_dem_header :
    decode tc2 (.op [0x34#8, 0x3F#8, 0x80#8, 0x00#8, 0x01#8])
      = .ok (.demHeader 0x3F800001#32) := by rfl

theorem test_decode_dem_body :
    decode tc2 (.op [0x35#8, 0x3F#8, 0x80#8, 0x00#8, 0x01#8])
      = .ok (.demBody 0x3F800001#32) := by rfl

theorem test_decode_dem_crc :
    decode tc2 (.op [0x36#8, 0x3F#8, 0x80#8, 0x00#8, 0x01#8])
      = .ok (.demCrc 0x3F800001#32) := by rfl

theorem test_decode_dem_emit : decode tc2 (.op [0x37#8]) = .ok (.demEmit) := by rfl

theorem test_decode_dem_discard : decode tc2 (.op [0x38#8]) = .ok (.demDiscard) := by rfl

theorem test_decode_fc_pack :
    decode tc2 (.op [0x40#8, 0x00#8, 0x02#8, 0xFF#8, 0xFF#8, 0x00#8, 0x00#8, 0x00#8, 0x02#8, 0x48#8, 0x69#8])
      = .ok (.fcPack 2#16 0xFFFF#16 [0x48#8, 0x69#8]) := by rfl

theorem test_decode_fc_crc32 :
    decode tc2 (.op [0x41#8, 0x00#8, 0x02#8, 0xFF#8, 0xFF#8, 0x00#8, 0x00#8, 0x00#8, 0x02#8, 0x48#8, 0x69#8])
      = .ok (.fcCrc32 2#16 0xFFFF#16 [0x48#8, 0x69#8]) := by rfl

theorem test_decode_fc_encode :
    decode tc2 (.op [0x42#8, 0x00#8, 0x02#8, 0xFF#8, 0xFF#8, 0x00#8, 0x00#8, 0x00#8, 0x02#8, 0x48#8, 0x69#8])
      = .ok (.fcEncode ⟨2#16, 0xFFFF#16, [0x48#8, 0x69#8]⟩) := by rfl

theorem test_decode_fc_decode :
    decode tc2 (.op [0x43#8, 0x00#8, 0x00#8, 0x00#8, 0x02#8, 0x00#8, 0x01#8])
      = .ok (.fcDecode [false, true]) := by rfl

theorem test_decode_cs_eval : decode tc2 (.op [0x50#8]) = .ok (.csEval) := by rfl

theorem test_decode_tx_start : decode tc2 (.op [0x60#8]) = .ok (.txStart) := by rfl

theorem test_decode_tx_sent0 : decode tc2 (.op [0x61#8]) = .ok (.txSent0) := by rfl

theorem test_decode_tx_loop : decode tc2 (.op [0x62#8]) = .ok (.txLoop) := by rfl

theorem test_decode_tx_drain : decode tc2 (.op [0x63#8]) = .ok (.txDrain) := by rfl

theorem test_decode_tx_slide : decode tc2 (.op [0x64#8]) = .ok (.txSlide) := by rfl

theorem test_decode_tx_retx : decode tc2 (.op [0x65#8]) = .ok (.txRetx) := by rfl

theorem test_decode_tx_new : decode tc2 (.op [0x66#8]) = .ok (.txNew) := by rfl

theorem test_decode_tx_fin : decode tc2 (.op [0x67#8]) = .ok (.txFin) := by rfl

theorem test_decode_tx_abort : decode tc2 (.op [0x68#8]) = .ok (.txAbort) := by rfl

theorem test_decode_tx_stop : decode tc2 (.op [0x69#8]) = .ok (.txStop) := by rfl

theorem test_decode_rx_start : decode tc2 (.op [0x70#8]) = .ok (.rxStart) := by rfl

theorem test_decode_rx_pop : decode tc2 (.op [0x71#8]) = .ok (.rxPop) := by rfl

theorem test_decode_rx_sent :
    decode tc2 (.op [0x72#8, 0x00#8, 0x02#8, 0xFF#8, 0xFF#8, 0x00#8, 0x00#8, 0x00#8, 0x02#8, 0x48#8, 0x69#8])
      = .ok (.rxSent ⟨2#16, 0xFFFF#16, [0x48#8, 0x69#8]⟩) := by rfl

theorem test_decode_rx_data :
    decode tc2 (.op [0x73#8, 0x00#8, 0x02#8, 0xFF#8, 0xFF#8, 0x00#8, 0x00#8, 0x00#8, 0x02#8, 0x48#8, 0x69#8])
      = .ok (.rxData ⟨2#16, 0xFFFF#16, [0x48#8, 0x69#8]⟩) := by rfl

theorem test_decode_rx_echo :
    decode tc2 (.op [0x74#8, 0x00#8, 0x02#8, 0xFF#8, 0xFF#8, 0x00#8, 0x00#8, 0x00#8, 0x02#8, 0x48#8, 0x69#8])
      = .ok (.rxEcho ⟨2#16, 0xFFFF#16, [0x48#8, 0x69#8]⟩) := by rfl

theorem test_decode_rx_other :
    decode tc2 (.op [0x75#8, 0x00#8, 0x02#8, 0xFF#8, 0xFF#8, 0x00#8, 0x00#8, 0x00#8, 0x02#8, 0x48#8, 0x69#8])
      = .ok (.rxOther ⟨2#16, 0xFFFF#16, [0x48#8, 0x69#8]⟩) := by rfl

theorem test_decode_rx_done : decode tc2 (.op [0x76#8]) = .ok (.rxDone) := by rfl

theorem test_decode_rx_stop : decode tc2 (.op [0x77#8]) = .ok (.rxStop) := by rfl

/-- SENT(3), V12. -/
theorem test_decode_f_sent :
    decode tc2 (.wire [0x00#8, 0x02#8, 0x00#8, 0x00#8, 0x00#8, 0x03#8, 0x52#8, 0x0B#8, 0xA3#8, 0x79#8])
      = .ok (.fSent 3#16 0x520BA379#32) := by rfl

/-- ACK(-1), V12. -/
theorem test_decode_f_ack :
    decode tc2 (.wire [0x00#8, 0x00#8, 0xFF#8, 0xFF#8, 0x9F#8, 0x62#8, 0xCD#8, 0xE3#8])
      = .ok (.fAck 0xFFFF#16 0x9F62CDE3#32) := by rfl

/-- DATA(+1, 4F 4B), V12. -/
theorem test_decode_f_data :
    decode tc2 (.wire [0x00#8, 0x02#8, 0x00#8, 0x01#8, 0x4F#8, 0x4B#8, 0x5C#8, 0x2F#8, 0x53#8, 0x26#8])
      = .ok (.fData 1#16 [0x4F#8, 0x4B#8] 0x5C2F5326#32) := by rfl

/-- sequence -32768, V13 (f). -/
theorem test_decode_f_rsv :
    decode tc2 (.wire [0x00#8, 0x00#8, 0x80#8, 0x00#8, 0x1A#8, 0xC7#8, 0x47#8, 0x57#8])
      = .ok (.fRsv 0x8000#16 [] 0x1AC74757#32) := by rfl

/-- R94: sequence 0 with a length other than 2 is of the reserved kind, before the acknowledgment test. -/
theorem test_decode_f_rsv_zero :
    decode tc2 (.wire [0x00#8, 0x00#8, 0x00#8, 0x00#8, 0x01#8, 0x02#8, 0x03#8, 0x04#8])
      = .ok (.fRsv 0#16 [] 0x01020304#32) := by rfl

theorem test_decode_rejects_by_name :
    decode tc2 (.op []) = .error .emptyPacket ∧ decode tc2 (.op [0x05#8]) = .error (.unknownCode 0x05#8) ∧
    decode tc2 (.op [0x51#8]) = .error (.unknownCode 0x51#8) ∧
    decode tc2 (.op [0x80#8]) = .error (.unknownCode 0x80#8) ∧
    decode tc2 (.op [0x11#8, 0x00#8]) = .error .truncated ∧
    decode tc2 (.op [0x16#8, 0x03#8]) = .error (.badQueue 0x03#8) ∧
    decode tc2 (.op [0x13#8, 0x00#8, 0x03#8]) = .error (.badAgent 0x03#8) ∧
    decode tc2 (.op [0x24#8, 0x00#8, 0x00#8, 0x00#8, 0x01#8, 0x02#8]) = .error (.badBit 0x02#8) ∧
    decode tc2 (.wire [0x00#8, 0x01#8, 0x00#8, 0x01#8]) = .error .truncated ∧
    decode { tc2 with maxBody := 2 } (.wire [0x00#8, 0x03#8, 0x00#8, 0x01#8, 0x01#8, 0x02#8, 0x03#8, 0x00#8,
      0x00#8, 0x00#8, 0x00#8]) = .error (.overlong 3#16 1#16) ∧
    decode tc2 (.wire [0xFF#8, 0xFF#8, 0x80#8, 0x00#8]) = .error (.overlong 0xFFFF#16 0x8000#16) ∧
    decode { tc2 with maxBody := 1 } (.wire [0x00#8, 0x02#8, 0x00#8, 0x00#8]) = .error (.overlong 2#16 0#16) :=
  ⟨rfl, rfl, rfl, rfl, rfl, rfl, rfl, rfl, rfl, rfl, rfl, rfl⟩

/-- The opcode table's numbers: an operation code in 8 bits, a header word in 32 (R105). -/
theorem test_table_words :
    decodeTableWord 8 0x60 = some .txStart ∧ decodeTableWord 8 0x11 = some (.abIn 0#32) ∧
    decodeTableWord 8 0x09 = none ∧ decodeTableWord 32 0x00020000 = some (.fSent 0#16 0#32) ∧
    decodeTableWord 32 0x0000FFFE = some (.fAck 0xFFFE#16 0#32) := by decide

/-- R101: a data header longer than `MAX_BODY` is rejected, whatever follows it. -/
theorem test_overlong_header :
    (match step { State.reset with sched := [.wire [0x00#8, 0x29#8, 0x00#8, 0x01#8]] } with
      | .next t => some (t.events, t.demState, t.sched)
      | _ => none) = some ([.malformedHeader 41#16], .search, []) := by decide

/-- A table word placed for the next step is run by it (`H.RECEIVE`, 0x02). -/
theorem test_fetch_word :
    (match step (State.reset.withFetchWord 8 0x02) with
      | .next t => some (t.arqPhase, t.busy)
      | _ => none) = some (.rxPop, true) := by decide

/-! ### A small block -/

/-- `K = 2`, `P = 2`, `PRE = 1, 0`, `MAX_BODY = 2`, node B. -/
def tiny : Config where
  node := .b
  k := 2
  p := 2
  pre := [true, false]
  a1 := 0x3F800000#32
  a0 := 0#32
  w := [0x3F800000#32, 0x3F800000#32]
  syncTheta := 0#32
  maxBody := 2
  noiseTh := 0x3E800000#32
  blk := 2
  windowSize := 2
  retryMax := 3
  rto := 10
  inDepth := 4
  outDepth := 164
  fqDepth := 2

def one : Sample := 0x3F800000#32
def half : Sample := 0x3F000000#32
def quarter : Sample := 0x3E800000#32
def minusHalf : Sample := 0xBF000000#32

/-- Node B after reset, and the same block as node A. -/
def s0 : State := State.resetOf tiny
def a0 : State := State.resetOf { tiny with node := .a }

/-- A frame of each kind. -/
def ack (seq : BitVec 16) : Frame := ⟨0#16, seq, []⟩
def sent3 : Frame := ⟨2#16, 0#16, [0x00#8, 0x03#8]⟩
def dataOk : Frame := ⟨2#16, 1#16, [0x4F#8, 0x4B#8]⟩

/-- The next state, where there is one. -/
def run (i : Instr) (s : State) : Option State :=
  match exec i s with
  | .next t => some t
  | _ => none

/-- The refusal, where there is one. -/
def refusal (i : Instr) (s : State) : Option Refusal :=
  match exec i s with
  | .refused r => some r
  | _ => none

/-- The fault, where there is one. -/
def faultOf (i : Instr) (s : State) : Option Fault :=
  match exec i s with
  | .fault r => some r
  | _ => none

theorem next_of_run {i : Instr} {s t : State} (h : run i s = some t) : exec i s = .next t := by
  unfold run at h
  split at h
  · simp_all
  · cases h

theorem gates_open (c : Config) (a : Agent) (q : QueueId) : (State.resetOf c).gateOpen a q := by
  cases a <;> cases q <;> exact ⟨rfl, rfl⟩

/-! ### Sample arithmetic (R17; sums worked by hand) -/

theorem test_sample_arithmetic :
    Binary32.add one one = 0x40000000#32 ∧ Binary32.add one minusHalf = half ∧
    Binary32.add half minusHalf = 0#32 ∧ Binary32.mul half half = quarter ∧
    Binary32.abs minusHalf = half ∧ Binary32.gt one half = true ∧ Binary32.gt half half = false ∧
    Binary32.gt 0#32 0x80000000#32 = false := by decide +kernel

/-- 1 + 2^-24 is a tie and goes to the even 1.0; 1 + 3 * 2^-24 goes up. -/
theorem test_sample_rounding :
    Binary32.add one 0x33800000#32 = one ∧ Binary32.add one 0x34400000#32 = 0x3F800002#32 := by
  decide +kernel

/-! ### Host commands and timebase -/

/-- V40. -/
theorem test_h_reset :
    run .hReset { s0 with modPhase := .drain, outq := [one], lockFq := some .dem, demState := .body,
                          inOvf := true, now := 9#32, rb := [(1, [1#8])] } = some s0 := by decide +kernel

/-- V38, and both ends of the payload length. -/
theorem witness_transmit :
    (1 ≤ s0.cfg.maxBody ∧ s0.cfg.maxBody ≤ 65535) ∧
    ((run (.hTransmit [1#8]) { s0 with busy := true }) = some { s0 with busy := true }) ∧
    (s0.busy = false ∧ s0.cfg.payloadMax < 65535 ∧ s0.cfg.payloadMax = 65534 ∧ s0.gateOpen .arq .fq) ∧
    ((run (.hTransmit [0x4F#8, 0x4B#8, 0x21#8]) s0).map fun t =>
      (t.txLen, t.nTx, t.busy, t.role, t.result, t.arqPhase)) =
        some (3, 2, true, .sender, .none, .txSent0) :=
  ⟨⟨by decide, by decide⟩, by decide +kernel, ⟨rfl, by decide, by decide, gates_open _ _ _⟩,
    by decide +kernel⟩

/-- V26: `TX_LEN = 65535` with `MAX_BODY = 2` gives 32768 frames; 65534 gives 32767. -/
theorem witness_tx_start :
    ((run .txStart { s0 with txLen := 65535 }).map fun t => (t.result, t.busy, t.arqPhase)) =
      some (.rejected, false, .idle) ∧
    ((run .txStart { s0 with txLen := 65534, fq := [sent3] }).map fun t => (t.nTx, t.busy, t.fq)) =
      some (32767, true, []) := by decide +kernel

theorem witness_receive :
    (run .hReceive { s0 with busy := true, nTx := 7 } = some { s0 with busy := true, nTx := 7 }) ∧
    (s0.busy = false ∧ s0.gateOpen .arq .fq) ∧
    ((run .hReceive { s0 with fq := [sent3], lfr := 4 }).map fun t =>
      (t.busy, t.role, t.arqPhase, t.fq, t.lfr)) = some (true, .receiver, .rxPop, [], 0) ∧
    run .rxStart { s0 with fq := [sent3], lfr := 4 } = run .hReceive { s0 with fq := [sent3], lfr := 4 } :=
  ⟨by decide +kernel, ⟨rfl, gates_open _ _ _⟩, by decide +kernel, by decide +kernel⟩

theorem witness_stop_and_tick :
    ((run .hStop { s0 with busy := true }).map State.stopReq = some true) ∧
    ((run .hStop s0).map State.stopReq = some false) ∧
    ((run .tbTick { s0 with now := 0xFFFFFFFF#32 }).map State.now = some 0#32) := by decide

/-- V37: receive running with both overflow bits, not quiet; receive ended OK, quiet. -/
theorem test_h_status :
    ((run .hStatus { s0 with busy := true, role := .receiver, inOvf := true, fqOvf := true }).map State.out =
      some (.status 0x00000033#32)) ∧
    ((run .hStatus { s0 with role := .receiver, quiet := true, result := .ok }).map State.out =
      some (.status 0x00000046#32)) := by decide +kernel

/-! ### Gate, queues, audio boundary -/

/-- V5. -/
theorem witness_locks :
    s0.gateOpen .ab .inq ∧ (run (.qAcq .inq .ab) s0).map State.lockInq = some (some .ab) ∧
    (run (.qRel .inq .ab) { s0 with lockInq := some .ab }).map State.lockInq = some none ∧
    refusal (.qRel .inq .dem) { s0 with lockInq := some .ab } = some .lockNotHeld ∧
    refusal (.qAcq .outq .ab) { s0 with lockInq := some .ab } = some .lockDiscipline :=
  ⟨gates_open _ _ _, by decide, by decide, by decide, by decide⟩

/-- `s0` with the last CRC bit of `ACK(-1)` to come and `FQ` locked. -/
def lastBit : State :=
  { s0 with demState := .crc, scnt := 1, bcnt := 31, rxSeq := 0xFFFF#16, rxCrc := 0x4FB166F1#32,
            lockFq := some .arq, inq := [one] }

theorem witness_shut_gates :
    { s0 with lockInq := some .ab }.gateShut .dem .inq ∧
    (run (.qAcq .inq .dem) { s0 with lockInq := some .ab } = some { s0 with lockInq := some .ab }) ∧
    ({ s0 with lockInq := some .dem }.gateShut .ab .inq ∧ s0.cfg.num.finite one = true ∧ s0.period = none ∧
      [one, half].length = s0.cfg.blk ∧ 1 ≤ s0.cfg.blk ∧ ∀ x ∈ [one, half], s0.cfg.num.finite x = true) ∧
    ({ s0 with lockInq := some .dem, period := some ⟨[one], []⟩ }.gateShut .ab .inq) ∧
    ({ s0 with lockOutq := some .arq, period := some ⟨[], [one]⟩ }.gateShut .ab .outq ∧
      [one].length < s0.cfg.blk) ∧
    ({ s0 with lockFq := some .dem, busy := false }.gateShut .arq .fq ∧ 1 ≤ s0.cfg.maxBody ∧
      s0.cfg.maxBody ≤ 65535 ∧ [1#8].length ≤ s0.cfg.payloadMax ∧
      (s0.txLen + s0.cfg.maxBody - 1) / s0.cfg.maxBody ≤ 32767) ∧
    ({ s0 with lockFq := some .dem, arqPhase := .txDrain }.gateShut .arq .fq) ∧
    ({ s0 with lockFq := some .dem, arqPhase := .rxPop }.gateShut .arq .fq ∧ s0.stopReq = false) ∧
    ({ s0 with lockOutq := some .ab, modPhase := .drain }.gateShut .arq .outq) ∧
    ({ s0 with lockOutq := some .ab, modPhase := .emit, txf := some sent3 }.gateShut .arq .outq ∧
      Frame.ok s0.cfg sent3 = true) :=
  ⟨⟨by decide, rfl⟩, by decide +kernel,
    ⟨⟨by decide, rfl⟩, by decide, rfl, rfl, by decide, List.all_eq_true.mp (by decide)⟩, ⟨by decide, rfl⟩,
    ⟨⟨by decide, rfl⟩, by decide⟩, ⟨⟨by decide, rfl⟩, by decide, by decide, by decide, by decide⟩,
    ⟨by decide, rfl⟩, ⟨⟨by decide, rfl⟩, rfl⟩, ⟨by decide, rfl⟩, ⟨⟨by decide, rfl⟩, by decide⟩⟩

/-- A good frame that completes while another agent has `FQ`, from the samples and from the wire. -/
theorem witness_shut_fq_at_the_end_of_a_frame :
    (lastBit.gateShut .dem .fq ∧ lastBit.gateOpen .dem .inq ∧ lastBit.cfg.k ≤ lastBit.scnt + 1 ∧
      lastBit.rxBody.range 0 lastBit.rxLen.toNat = some []) ∧
    crc32 lastBit.cfg lastBit.rxLen lastBit.rxSeq [] = (lastBit.rxCrc <<< 1) |||
      (BitVec.ofBool (lastBit.cfg.num.gt (lastBit.cfg.num.add lastBit.acc one)
        lastBit.cfg.num.zero)).zeroExtend 32 ∧
    run .demStep lastBit = some lastBit ∧
    ({ s0 with lockFq := some .arq }.gateShut .dem .fq ∧
      carriesFrame (.fAck 0xFFFF#16 0x9F62CDE3#32) (ack 0xFFFF#16) 0x9F62CDE3#32 ∧
      0x9F62CDE3#32 = crc32 s0.cfg 0#16 0xFFFF#16 []) :=
  ⟨⟨⟨by decide, rfl⟩, ⟨rfl, rfl⟩, by decide, rfl⟩, by decide +kernel, by decide +kernel,
    ⟨by decide, rfl⟩, ⟨by decide, rfl, .inr (.inl ⟨rfl, rfl⟩)⟩, by decide +kernel⟩

/-- R75: `ARQ` holds the lock of `OUTQ`; its sequencer does not step, wait or hold until the release. -/
theorem witness_arq_holds_a_lock :
    (arqOperation .modWaitq = true ∧ { s0 with lockOutq := some .arq }.holdsAny .arq = true) ∧
    refusal .modWaitq { s0 with lockOutq := some .arq, modPhase := .waitq } = some .lockDiscipline ∧
    refusal .txLoop { s0 with lockOutq := some .arq, arqPhase := .txLoop } = some .lockDiscipline := by
  decide

/-- V1, V2 at both sides of a full queue. -/
theorem witness_push :
    ((run (.qPush (.inq one)) { s0 with lockInq := some .ab, inq := [half, half, half] }).map State.inq =
      some [half, half, half, one]) ∧
    ((run (.qPush (.inq one)) { s0 with lockInq := some .ab, inq := [half, half, half, half] }).map fun t =>
      (t.inq.length, t.inOvf, t.events)) = some (4, true, [.inOverflow]) ∧
    ((run (.qPush (.outq one)) { s0 with lockOutq := some .arq, outq := [half] }).map State.outq =
      some [half, one]) ∧
    (refusal (.qPush (.outq one)) { s0 with cfg := { tiny with outDepth := 1 }, lockOutq := some .arq,
                                            outq := [half] } = some .outqOverflow) ∧
    ((run (.qPush (.fq sent3)) { s0 with lockFq := some .dem, fq := [dataOk] }).map State.fq =
      some [dataOk, sent3]) ∧
    ((run (.qPush (.fq sent3)) { s0 with lockFq := some .dem, fq := [dataOk, dataOk] }).map fun t =>
      (t.fq.length, t.fqOvf)) = some (2, true) ∧
    (refusal (.qPush (.fq sent3)) { s0 with lockFq := some .arq } = some .lockNotHeld) := by decide +kernel

/-- R130: the head is answered. -/
theorem witness_pop :
    ((run (.qPop .inq) { s0 with lockInq := some .dem, inq := [half, one] }).map fun t => (t.inq, t.out)) =
      some ([one], .sample half) ∧
    ((run (.qPop .outq) { s0 with lockOutq := some .ab, outq := [half] }).map fun t => (t.outq, t.out)) =
      some ([], .sample half) ∧
    ((run (.qPop .fq) { s0 with lockFq := some .arq, fq := [ack 0xFFFF#16, sent3] }).map fun t =>
      (t.fq, t.out)) = some ([sent3], .frame (ack 0xFFFF#16)) ∧
    refusal (.qPop .inq) { s0 with lockInq := some .dem } = some .popEmpty ∧
    refusal (.qPop .outq) { s0 with lockOutq := some .ab } = some .popEmpty ∧
    refusal (.qPop .fq) { s0 with lockFq := some .arq } = some .popEmpty ∧
    refusal (.qPop .inq) { s0 with lockInq := some .ab, inq := [one] } = some .lockNotHeld := by decide +kernel

/-- V2: room, and a full queue; a NaN and an infinity. -/
theorem witness_ab_in :
    (s0.cfg.num.finite one = true ∧ s0.gateOpen .ab .inq ∧ s0.sh.length = s0.cfg.pk ∧ 1 ≤ s0.cfg.pk) ∧
    ((run (.abIn one) { s0 with inq := [half, half, half] }).map fun t => (t.inq, t.sh)) =
      some ([half, half, half, one], [0#32, 0#32, 0#32, one]) ∧
    ((run (.abIn one) { s0 with inq := [half, half, half, half] }).map fun t =>
      (t.inq.length, t.sh, t.inOvf)) = some (4, [0#32, 0#32, 0#32, one], true) ∧
    refusal (.abIn 0x7F800000#32) s0 = some .nonFiniteSample ∧
    refusal (.abIn 0xFFC00000#32) s0 = some .nonFiniteSample :=
  ⟨⟨by decide, gates_open _ _ _, by decide, by decide⟩, by decide +kernel, by decide +kernel, by decide,
    by decide⟩

/-- V3. -/
theorem witness_ab_out :
    s0.gateOpen .ab .outq ∧
    ((run .abOut { s0 with outq := [one] }).map fun t => (t.outq, t.out)) = some ([], .sample one) ∧
    ((run .abOut s0).map fun t => (t.outq, t.out)) = some ([], .sample 0#32) :=
  ⟨gates_open _ _ _, by decide, by decide⟩

/-- The state after a run of one operation, where there is one. -/
def runs (i : Instr) (n : Nat) (s : State) : Option State :=
  match repeatOp i n s with
  | .next t => some t
  | _ => none

/-- V4 with two samples a period: the queue short by one, so that one sample of each way is the edge. -/
theorem witness_ab_period :
    ([half, 0#32].length = s0.cfg.blk ∧ 1 ≤ s0.cfg.blk ∧
      (∀ x ∈ [half, 0#32], s0.cfg.num.finite x = true) ∧ s0.period = none ∧
      s0.gateOpen .ab .inq ∧ s0.gateOpen .ab .outq ∧ [one, one, one].length ≤ s0.cfg.inDepth) ∧
    ((runs (.abPeriod [half, 0#32]) 5 { s0 with inq := [one, one, one], outq := [one] }).map fun t =>
      (t.inq, t.inOvf, t.outq, t.out)) =
      some ([one, one, one, half], true, [], .samples [one, 0#32]) ∧
    ((runs (.abPeriod [half, 0#32]) 5 s0).map fun t => (t.quiet, t.sh, t.period)) =
      some (false, [0#32, 0#32, half, 0#32], none) ∧
    refusal (.abPeriod [half]) s0 = some .wrongSampleCount :=
  ⟨⟨rfl, by decide, List.all_eq_true.mp (by decide), rfl, gates_open _ _ _, gates_open _ _ _, by decide⟩,
    by decide +kernel, by decide +kernel, by decide⟩

/-- R131: the parts are separate steps; a part of each kind, the operand not looked at. -/
theorem witness_ab_period_parts :
    ((run (.abPeriod [half, 0#32]) s0).map fun t => (t.inq, t.period)) = some ([half], some ⟨[0#32], []⟩) ∧
    ((run (.abPeriod []) { s0 with period := some ⟨[0#32], []⟩ }).map fun t => (t.inq, t.period)) =
      some ([0#32], some ⟨[], []⟩) ∧
    ((run (.abPeriod []) { s0 with period := some ⟨[], [one]⟩, outq := [half] }).map fun t =>
      (t.outq, t.period)) = some ([], some ⟨[], [one, half]⟩) ∧
    ((run (.abPeriod []) { s0 with period := some ⟨[], [one, half]⟩, sh := [0#32] }).map fun t =>
      (t.period, t.out, t.quiet)) = some (none, .samples [one, half], true) := by
  refine ⟨?_, ?_, ?_, ?_⟩ <;> decide +kernel

/-- A step that completes and pops: the premise of the statements about every instruction. -/
theorem witness_any_instruction :
    exec .demStep { s0 with inq := [one] } = .next { s0 with wfill := 1, win := [(0, one)] } :=
  next_of_run (by decide +kernel)

/-! ### Modulator -/

/-- V8, the entry and the edges of its phase. -/
theorem witness_mod_send :
    (sent3.len.toNat = sent3.body.length ∧ sent3.body.length ≤ s0.cfg.maxBody ∧ s0.holdsAny .arq = false) ∧
    ((run (.modSend sent3) s0).map fun t => (t.txf, t.modPhase)) = some (some sent3, .waitq) ∧
    ((run (.modSend sent3) { s0 with modPhase := .done, caller := some .alone }).map State.modPhase =
      some .idle) ∧
    (run (.modSend sent3) { s0 with modPhase := .done } = some { s0 with modPhase := .done }) ∧
    refusal (.modSend ⟨1#16, 0#16, []⟩) s0 = some .badFrame ∧
    refusal (.modSend ⟨3#16, 0#16, [0#8, 0#8, 0#8]⟩) s0 = some .badFrame := by decide +kernel

/-- R147, R30: H.RECEIVE, then MOD.SEND alone: RX.POP waits for the send's end and leaves `FQ` as it is; TX.SENT0 does
not take the return of a send it did not call; a command does not start; a loop waits for its send. -/
theorem witness_one_send :
    (∀ p ∈ [ModPhase.waitq, .emit, .drain, .done],
      ((run .rxPop { s0 with arqPhase := .rxPop, busy := true, role := .receiver, modPhase := p,
                             caller := some .alone, fq := [sent3] }).map State.fq = some [sent3])) ∧
    ((run .txSent0 { s0 with arqPhase := .txSent0, modPhase := .done, caller := some .alone }).map fun t =>
      (t.modPhase, t.arqPhase)) = some (.done, .txSent0) ∧
    ((run .hReceive { s0 with modPhase := .waitq }).map State.busy = some false) ∧
    (([1#8] : List Byte).length ≤ s0.cfg.payloadMax ∧
      (run (.hTransmit [1#8]) { s0 with modPhase := .waitq }).map State.txLen = some 0) ∧
    ((run .txLoop { s0 with arqPhase := .txLoop, stopReq := true, modPhase := .done }).map State.arqPhase =
      some .txLoop) := by
  refine ⟨?_, ?_, ?_, ?_, ?_⟩ <;> decide +kernel

/-- V8: the gate on `QUIET`; a stop in each role. -/
theorem witness_mod_waitq :
    ((run .modWaitq { s0 with modPhase := .waitq, quiet := true }).map State.modPhase = some .emit) ∧
    ((run .modWaitq { s0 with modPhase := .waitq }).map State.modPhase = some .waitq) ∧
    ((run .modWaitq { s0 with modPhase := .waitq, busy := true, stopReq := true, txf := some sent3 }).map
      fun t => (t.modPhase, t.txfValid, t.result, t.busy)) = some (.idle, false, .stopped, false) ∧
    ((run .modWaitq { s0 with modPhase := .waitq, busy := true, role := .receiver, stopReq := true,
                              rb := [(1, [1#8])] }).map fun t => (t.modPhase, t.rb, t.result)) =
      some (.idle, [], .stopped) := by decide +kernel

/-- R145: 2 * (2 + 64 + 8 * len) samples, just fitting, and one too many. -/
theorem witness_mod_emit :
    (Frame.ok s0.cfg sent3 = true ∧ s0.gateOpen .arq .outq ∧ s0.cfg.pre.length = s0.cfg.p) ∧
    ((run .modEmit { s0 with modPhase := .emit, txf := some sent3 }).map fun t =>
      (t.outq.length, t.outq.take 6, t.modPhase, t.txf)) =
      some (164, [one, one, 0#32, 0#32, 0#32, 0#32], .drain, none) ∧
    refusal .modEmit { s0 with modPhase := .emit, txf := some sent3, outq := [one] } =
      some .outqOverflow :=
  ⟨⟨by decide, gates_open _ _ _, rfl⟩, by decide +kernel, by decide +kernel⟩

theorem witness_mod_drain :
    s0.gateOpen .arq .outq ∧
    ((run .modDrain { s0 with modPhase := .drain }).map State.modPhase = some .done) ∧
    ((run .modDrain { s0 with modPhase := .drain, outq := [one] }).map State.modPhase = some .drain) ∧
    ((run .modDrain { s0 with modPhase := .drain, outq := [one], stopReq := true, busy := true }).map
      fun t => (t.modPhase, t.outq, t.result)) = some (.idle, [one], .stopped) ∧
    ((run .modDrain { s0 with modPhase := .drain, role := .receiver, stopReq := true }).map
      fun t => (t.modPhase, t.result)) = some (.idle, .stopped) :=
  ⟨gates_open _ _ _, by decide, by decide, by decide +kernel, by decide +kernel⟩

/-- V6 with `K = 2`. -/
theorem test_mod_bits :
    (run (.modBits [true, false, true]) s0).map State.out =
      some (.samples [one, one, 0#32, 0#32, one, one]) := by decide

theorem witness_clean_symbols :
    tiny.sampleFmt = .binary32 ∧ 1 ≤ tiny.k ∧ cleanSymbols tiny ∧
    demodulate tiny (modulate tiny [true, false]) = [true, false] :=
  ⟨rfl, by decide, ⟨⟨by decide, by decide, by decide⟩, ⟨by decide, by decide, by decide⟩⟩, by decide +kernel⟩

/-! ### Demodulator -/

theorem dem_inv_s0 (l : List Sample) : DemInv { s0 with inq := l } where
  wfill := Nat.zero_le _
  empty _ := rfl
  win i := by simp [s0, State.resetOf]
  scnt := Nat.zero_lt_two
  search _ := ⟨rfl, rfl, rfl⟩
  header h := nomatch h
  body h := nomatch h
  crc h := nomatch h
  fq f h := nomatch h

/-- R155's example, and the empty queue. -/
theorem witness_dem_step :
    (1 ≤ s0.cfg.p ∧ 1 ≤ s0.cfg.k ∧ DemInv s0 ∧ s0.gateOpen .dem .inq ∧ s0.gateOpen .dem .fq) ∧
    run .demStep s0 = some s0 ∧
    DemInv { s0 with inq := [one] } ∧
    run .demStep { s0 with inq := [one] } = some { s0 with win := [(0, one)], wfill := 1 } :=
  ⟨⟨by decide, by decide, dem_inv_s0 [], gates_open _ _ _, gates_open _ _ _⟩, by decide +kernel,
    dem_inv_s0 _, by decide +kernel⟩

/-- R156: the last sample of the preamble `1 1 0 0` synchronizes; a full window slides; a partial one grows. -/
theorem witness_dem_search :
    (s0.wfill ≤ s0.cfg.pk ∧ 1 ≤ s0.cfg.pk ∧ s0.win.range 0 s0.wfill = some []) ∧
    ((run (.demSearch one) s0).map fun t => (t.win, t.wfill, t.demState)) =
      some ([(0, one)], 1, .search) ∧
    (Memory.ofList [one, one, 0#32]).range 0 3 = some [one, one, 0#32] ∧
    ((run (.demSearch 0#32) { s0 with win := Memory.ofList [one, one, 0#32], wfill := 3, hdr := 5#32 }).map
      fun t => (t.demState, t.wfill, t.hdr)) = some (.header, 0, 0#32) ∧
    ((run (.demSearch 0#32) { s0 with win := Memory.ofList [0#32, 0#32, 0#32, one], wfill := 4 }).map
      fun t => (t.demState, t.wfill, t.win)) =
      some (.search, 4, Memory.ofList [0#32, 0#32, one, 0#32]) := by decide +kernel

/-- V14 (a), (b), (c) with `K = P = 2`. -/
theorem witness_dem_corr :
    (s0.cfg.w.length = s0.cfg.k ∧ s0.cfg.pre.length = s0.cfg.p ∧
      (Memory.ofList [one, one, 0#32, 0#32]).range 0 s0.cfg.pk = some [one, one, 0#32, 0#32]) ∧
    ((run .demCorr { s0 with win := Memory.ofList [one, one, 0#32, 0#32], wfill := 4 }).map State.out =
      some (.verdict true)) ∧
    ((run .demCorr { s0 with win := Memory.ofList [0#32, one, one, 0#32], wfill := 4 }).map State.out =
      some (.verdict false)) ∧
    ((run .demCorr { s0 with win := Memory.ofList [0#32, 0#32, 0#32, 0#32], wfill := 4 }).map State.out =
      some (.verdict false)) := by decide +kernel

/-- R44: a window that is not full holds cells without a value. -/
theorem test_dem_corr_fault : faultOf .demCorr s0 = some (.noValue .win) := by decide

/-- R158's examples; neither zero is a 1. -/
theorem witness_dem_slice :
    (s0.cfg.sampleFmt = .binary32 ∧ Binary32.isNaN 0x80000000#32 = false) ∧
    (run (.demSlice 0x40800000#32) s0).map State.out = some (.bit true) ∧
    (run (.demSlice 0#32) s0).map State.out = some (.bit false) ∧
    (run (.demSlice 0x80000000#32) s0).map State.out = some (.bit false) ∧
    (run (.demSlice minusHalf) s0).map State.out = some (.bit false) := by decide +kernel

/-- V15 and R160's example: the 32nd bit of `0000 FFFF`; lengths 2 and 3 at `MAX_BODY = 2`. -/
theorem witness_dem_header :
    ((run (.demHeader half) { s0 with demState := .header }).map fun t => (t.acc, t.scnt, t.bcnt)) =
      some (half, 1, 0) ∧
    ((run (.demHeader half) { s0 with demState := .header, scnt := 1, acc := minusHalf, hdr := 1#32 }).map
      fun t => (t.acc, t.scnt, t.bcnt, t.hdr)) = some (0#32, 0, 1, 2#32) ∧
    ((run (.demHeader one) { s0 with demState := .header, scnt := 1, bcnt := 31, hdr := 0x00007FFF#32 }).map
      fun t => (t.rxLen, t.rxSeq, t.bcnt, t.demState)) = some (0#16, 0xFFFF#16, 0, .crc) ∧
    ((run (.demHeader one) { s0 with demState := .header, scnt := 1, bcnt := 31, hdr := 0x00010000#32 }).map
      fun t => (t.rxLen, t.rxSeq, t.demState)) = some (2#16, 1#16, .body) ∧
    ((run (.demHeader one) { s0 with demState := .header, scnt := 1, bcnt := 31, hdr := 0x00018000#32 }).map
      fun t => (t.rxLen, t.demState, t.events)) = some (3#16, .search, [.malformedHeader 3#16]) := by
  decide +kernel

/-- R162's example: the byte 0xA5; a first byte of two; a bit inside a byte; the last cell, and the one past it. -/
theorem witness_dem_body :
    ((run (.demBody one) { s0 with demState := .body, rxLen := 1#16 }).map fun t => (t.acc, t.scnt)) =
      some (one, 1) ∧
    ((run (.demBody one) { s0 with demState := .body, rxLen := 1#16, scnt := 1, bcnt := 7,
                                   rxCur := 0x52#8 }).map fun t => (t.rxBody, t.rxCur, t.demState, t.bcnt)) =
      some ([(0, 0xA5#8)], 0#8, .crc, 0) ∧
    ((run (.demBody one) { s0 with demState := .body, rxLen := 2#16, scnt := 1, bcnt := 7,
                                   rxCur := 0x52#8 }).map fun t => (t.rxBody, t.demState, t.bcnt)) =
      some ([(0, 0xA5#8)], .body, 8) ∧
    ((run (.demBody 0#32) { s0 with demState := .body, rxLen := 2#16, scnt := 1, bcnt := 8,
                                    rxBody := [(0, 0xA5#8)], rxCur := 1#8 }).map
      fun t => (t.rxCur, t.rxBody)) = some (2#8, [(0, 0xA5#8)]) ∧
    ((run (.demBody one) { s0 with rxLen := 2#16, scnt := 1, bcnt := 15 }).map State.rxBody =
      some [(1, 1#8)]) ∧
    faultOf (.demBody one) { s0 with rxLen := 2#16, scnt := 1, bcnt := 23 } = some (.noCell .rxBody) := by
  decide +kernel

/-- R163's example: the CRC `9F62CDE3` of `ACK(-1)`; its last bit wrong. -/
theorem witness_dem_crc :
    (s0.rxBody.range 0 s0.rxLen.toNat = some [] ∧ s0.gateOpen .dem .fq) ∧
    ((run (.demCrc one) { s0 with demState := .crc }).map fun t => (t.acc, t.scnt)) = some (one, 1) ∧
    ((run (.demCrc one) { s0 with demState := .crc, scnt := 1, bcnt := 30, rxCrc := 1#32 }).map fun t =>
      (t.rxCrc, t.bcnt)) = some (3#32, 31) ∧
    ((run (.demCrc one) { s0 with demState := .crc, scnt := 1, bcnt := 31, rxSeq := 0xFFFF#16,
                                  rxCrc := 0x4FB166F1#32 }).map fun t => (t.fq, t.demState)) =
      some ([ack 0xFFFF#16], .search) ∧
    ((run (.demCrc 0#32) { s0 with demState := .crc, scnt := 1, bcnt := 31, rxSeq := 0xFFFF#16,
                                   rxCrc := 0x4FB166F1#32 }).map fun t => (t.fq, t.demState, t.events)) =
      some ([], .search, [.crcMismatch]) :=
  ⟨⟨by decide, gates_open _ _ _⟩, by decide +kernel, by decide +kernel, by decide +kernel,
    by decide +kernel⟩

/-- R167's example, and a full queue. -/
theorem witness_dem_emit :
    (s0.rxBody.range 0 s0.rxLen.toNat = some [] ∧ s0.gateOpen .dem .fq) ∧
    ((run .demEmit { s0 with demState := .crc, rxSeq := 0xFFFF#16, fq := [sent3] }).map fun t =>
      (t.fq, t.demState)) = some ([sent3, ack 0xFFFF#16], .search) ∧
    ((run .demEmit { s0 with demState := .crc, rxSeq := 0xFFFF#16, fq := [sent3, sent3] }).map fun t =>
      (t.fq.length, t.fqOvf, t.events)) = some (2, true, [.fqOverflow]) :=
  ⟨⟨by decide, gates_open _ _ _⟩, by decide +kernel, by decide +kernel⟩

theorem test_dem_discard :
    ((run .demDiscard { s0 with demState := .body, scnt := 1, bcnt := 9, acc := one }).map fun t =>
      (t.demState, t.scnt, t.bcnt, t.acc, t.wfill)) = some (.search, 0, 0, 0#32, 0) := by decide +kernel

theorem tiny_sized (n : Node) : Config.Sized { tiny with node := n } where
  k := by simp [tiny]
  p := by simp [tiny]
  pre := rfl
  w := rfl
  maxBody := by simp [tiny]
  blk := by simp [tiny]
  window := by simp [tiny]
  rto := by simp [tiny]
  inDepth := by simp [tiny]
  outDepth := by simp [tiny]
  fqDepth := by simp [tiny]

/-- R44: no byte of a new frame's body is written yet when a frame begins, whatever the last one left. -/
theorem test_dem_emit_without_a_body :
    faultOf .demEmit (synchronize { s0 with rxLen := 1#16, rxBody := [(0, 0xA5#8)] }) =
      some (.noValue .rxBody) := by decide

/-- Both ways in: just synchronized, and a window of silence with the preamble in front. -/
theorem witness_noiseless_frame :
    (s0.cfg.sampleFmt = .binary32 ∧ Config.Sized s0.cfg) ∧ cleanSymbols s0.cfg ∧ Frame.ok s0.cfg (ack 0xFFFF#16) = true ∧
    s0.gateOpen .dem .inq ∧ s0.gateOpen .dem .fq ∧ s0.fq.length < s0.cfg.fqDepth ∧
    (∃ s : State, s.cfg = tiny ∧ s.demState = .header ∧ s.scnt = 0 ∧ s.bcnt = 0 ∧ s.acc = s.cfg.num.zero ∧
      s.inq = modulate s.cfg (frameBits tiny (ack 0xFFFF#16)) ++ [one]) ∧
    (∃ s : State, s.cfg = tiny ∧ s.demState = .search ∧ s.wfill = s.cfg.pk ∧
      s.win.range 0 s.cfg.pk = some (List.replicate s.cfg.pk s.cfg.num.zero) ∧
      s.inq = modulate s.cfg (s.cfg.pre ++ frameBits tiny (ack 0xFFFF#16)) ++ [one]) ∧
    preambleOk tiny ∧ preambleMatch tiny (modulate tiny tiny.pre) = true :=
  ⟨⟨rfl, tiny_sized .b⟩, ⟨⟨by decide, by decide, by decide⟩, ⟨by decide, by decide, by decide⟩⟩, by decide,
    gates_open _ _ _, gates_open _ _ _, by decide,
    ⟨{ s0 with demState := .header, inq := modulate tiny (frameBits tiny (ack 0xFFFF#16)) ++ [one] },
      rfl, rfl, rfl, rfl, rfl, rfl⟩,
    ⟨{ s0 with win := Memory.ofList (List.replicate 4 0#32), wfill := 4,
               inq := modulate tiny (tiny.pre ++ frameBits tiny (ack 0xFFFF#16)) ++ [one] },
      rfl, rfl, rfl, by decide, rfl⟩,
    ⟨fun _ => by decide, fun d h1 h2 => by
      have h3 : d = 1 ∨ d = 2 ∨ d = 3 := by
        have : tiny.pk = 4 := rfl
        omega
      rcases h3 with rfl | rfl | rfl <;> decide +kernel⟩,
    by decide +kernel⟩

/-! ### Frame codec -/

/-- V10 and V11: two packings, two CRCs; a body of another length. -/
theorem witness_pack_and_crc :
    ((run (.fcPack 2#16 0xFFFF#16 [0x48#8, 0x69#8]) s0).map State.out =
      some (.bytes [0x00#8, 0x02#8, 0xFF#8, 0xFF#8, 0x48#8, 0x69#8])) ∧
    ((run (.fcCrc32 0#16 0xFFFF#16 []) s0).map State.out = some (.word 0x9F62CDE3#32)) ∧
    ((run (.fcCrc32 2#16 0xFFFF#16 [0x48#8, 0x69#8]) s0).map State.out = some (.word 0xA751DC2E#32)) ∧
    refusal (.fcPack 1#16 0#16 []) s0 = some .bodyLength ∧
    refusal (.fcCrc32 1#16 0#16 []) s0 = some .bodyLength := by decide +kernel

/-- R182's check value and V11. -/
theorem test_crc_check_values :
    crcOf [0x31#8, 0x32#8, 0x33#8, 0x34#8, 0x35#8, 0x36#8, 0x37#8, 0x38#8, 0x39#8] = 0xCBF43926#32 ∧
    crcOf [] = 0#32 ∧ crcOf [0x00#8] = 0xD202EF8D#32 ∧ crcOf [0x61#8] = 0xE8B7BE43#32 ∧
    crcOf [0x00#8, 0x02#8, 0x00#8, 0x00#8, 0x7F#8, 0xFF#8] = 0x4EA77877#32 := by decide +kernel

/-- V12: `ACK(-1)`, whole; a frame whose length is wrong. -/
theorem witness_fc_encode :
    Frame.ok s0.cfg (ack 0xFFFF#16) = true ∧
    ((run (.fcEncode (ack 0xFFFF#16)) s0).map State.out =
      some (.bits ("0000000000000000111111111111111110011111011000101100110111100011".toList.map (· == '1')))) ∧
    Frame.ok s0.cfg ⟨1#16, 0#16, []⟩ = false ∧
    refusal (.fcEncode ⟨1#16, 0#16, []⟩) s0 = some .badFrame := by decide +kernel

/-- V13 (a), (c), (d), each at its shortest input. -/
theorem witness_fc_decode :
    ((run (.fcDecode (frameBits tiny (ack 0xFFFF#16))) s0).map State.out =
      some (.decoded (.frame (ack 0xFFFF#16) true 64))) ∧
    refusal (.fcDecode (List.replicate 31 false)) s0 = some .tooFewBits ∧
    ((run (.fcDecode (List.replicate 14 false ++ [true, true] ++ List.replicate 16 false)) s0).map State.out =
      some (.decoded .malformed)) ∧
    refusal (.fcDecode (List.replicate 14 false ++ [true] ++ List.replicate 64 false)) s0 =
      some .tooFewBits := by decide +kernel

/-- V13 (b): the last bit; the first bit of SEQUENCE. -/
theorem witness_single_bit_error :
    (s0.cfg.crcFn = .isoHdlc ∧ Frame.ok s0.cfg (ack 0xFFFF#16) = true ∧ 63 < 64 + 8 * (ack 0xFFFF#16).len.toNat) ∧
    ((run (.fcDecode (flipAt (frameBits tiny (ack 0xFFFF#16)) 63)) s0).map State.out =
      some (.decoded (.frame (ack 0xFFFF#16) false 64))) ∧
    ((run (.fcDecode (flipAt (frameBits tiny (ack 0xFFFF#16)) 16)) s0).map State.out =
      some (.decoded (.frame (ack 0x7FFF#16) false 64))) := by decide +kernel

/-! ### Channel sensor -/

/-- V23. -/
theorem test_cs_eval :
    ((run .csEval { s0 with sh := [0#32, minusHalf] }).map State.quiet = some false) ∧
    ((run .csEval { s0 with sh := [quarter, 0#32] }).map State.quiet = some true) ∧
    ((run .csEval { s0 with sh := [0x3E851EB8#32, 0#32] }).map State.quiet = some false) := by decide +kernel

/-! ### ARQ sender -/

/-- An unacknowledged and an acknowledged entry. -/
def fresh : SwEntry := ⟨false, 2#32, 3⟩
def done : SwEntry := ⟨true, 2#32, 3⟩

/-- R209's example, the largest count, and the second closing sentinel. -/
theorem witness_sentinels :
    (2 ≤ s0.cfg.maxBody ∧ s0.holdsAny .arq = false) ∧
    ((run .txSent0 { s0 with arqPhase := .txSent0, nTx := 3 }).map fun t => (t.txf, t.modPhase)) =
      some (some sent3, .waitq) ∧
    ((run .txSent0 { s0 with arqPhase := .txSent0, nTx := 65535 }).map State.txf =
      some (some ⟨2#16, 0#16, [0xFF#8, 0xFF#8]⟩)) ∧
    ((run .txSent0 { s0 with arqPhase := .txSent0, modPhase := .done, caller := some .txSent0 }).map fun t =>
      (t.modPhase, t.caller, t.arqPhase)) = some (.idle, none, .txLoop) ∧
    ((run .txFin { s0 with arqPhase := .txFin, nTx := 3 }).map State.txf = some (some sent3)) ∧
    ((run .txFin { s0 with arqPhase := .txFin, modPhase := .done, caller := some .txFin, busy := true }).map fun t =>
      (t.finCnt, t.busy, t.arqPhase)) = some (1, true, .txFin) ∧
    ((run .txFin { s0 with arqPhase := .txFin, modPhase := .done, caller := some .txFin, busy := true,
                           finCnt := 1 }).map fun t =>
      (t.finCnt, t.busy, t.arqPhase, t.result)) = some (2, false, .idle, .ok) := by decide +kernel

theorem witness_tx_loop :
    ((run .txLoop { s0 with arqPhase := .txLoop, stopReq := true, lar := 3, nTx := 3 }).map State.result =
      some .stopped) ∧
    ((run .txLoop { s0 with arqPhase := .txLoop, lar := 3, nTx := 3, finCnt := 2 }).map fun t =>
      (t.arqPhase, t.finCnt)) = some (.txFin, 0) ∧
    ((run .txLoop { s0 with arqPhase := .txLoop, lar := 2, nTx := 3 }).map State.arqPhase =
      some .txDrain) := by decide +kernel

/-- V27: `LAR = 1`, `LFS = 3`. -/
def draining (f : List Frame) : State :=
  { s0 with arqPhase := .txDrain, lar := 1, lfs := 3, nTx := 3, sw := [(2, fresh), (3, fresh)], fq := f }

theorem draining_gate (f : List Frame) : (draining f).gateOpen .arq .fq := ⟨rfl, rfl⟩

theorem witness_tx_drain :
    ((run .txDrain (draining [])).map State.arqPhase = some .txSlide) ∧
    ((run .txDrain (draining [ack 0xFFFE#16])).map State.sw =
      some [(2, { fresh with acked := true }), (3, fresh)]) ∧
    ((run .txDrain (draining [ack 0x0003#16])).map State.sw =
      some [(2, fresh), (3, { fresh with acked := true })]) ∧
    ((run .txDrain (draining [ack 0xFFFF#16])).map fun t => (t.sw, t.events)) =
      some ([(2, fresh), (3, fresh)], [.ackMismatch 0xFFFF#16]) ∧
    ((run .txDrain (draining [ack 0xFFFC#16])).map State.events = some [.ackMismatch 0xFFFC#16]) ∧
    ((run .txDrain (draining [ack 0x8000#16])).map fun t => (t.fq, t.sw, t.events)) =
      some ([], [(2, fresh), (3, fresh)], []) ∧
    ((run .txDrain (draining [ack 0#16])).map fun t => (t.fq, t.events)) = some ([], []) ∧
    ((run .txDrain (draining [sent3])).map fun t => (t.fq, t.events)) = some ([], []) := by decide +kernel

/-- V28: its three cases; the premises of the statement. -/
theorem witness_tx_slide :
    (Memory.wf [(2, fresh), (3, done)] ∧
      ∀ m, 1 < m → m ≤ 3 → (Memory.get [(2, fresh), (3, done)] m).isSome = true) ∧
    ((run .txSlide { s0 with arqPhase := .txSlide, lar := 1, lfs := 3, sw := [(2, fresh), (3, done)] }).map
      fun t => (t.lar, t.scan, t.sw)) = some (1, 2, [(2, fresh), (3, done)]) ∧
    ((run .txSlide { s0 with arqPhase := .txSlide, lar := 1, lfs := 3, sw := [(2, done), (3, done)] }).map
      fun t => (t.lar, t.scan, t.sw)) = some (3, 4, []) ∧
    ((run .txSlide { s0 with arqPhase := .txSlide }).map fun t => (t.lar, t.scan, t.arqPhase)) =
      some (0, 1, .txRetx) := by
  refine ⟨⟨by decide, fun m h1 h2 => ?_⟩, by decide +kernel, by decide +kernel, by decide +kernel⟩
  have h : m = 2 ∨ m = 3 := by omega
  rcases h with rfl | rfl <;> rfl

/-- V29: node A with the payload `4F 4B 21`, `RTO = 10`, at an entry of age `now - SENT_AT`. -/
def scanning (e : SwEntry) (now : BitVec 32) : State :=
  { a0 with arqPhase := .txRetx, busy := true, lar := 1, lfs := 2, nTx := 2, scan := 2, sw := [(2, e)],
            now := now, txLen := 3, txPayload := Memory.ofList [0x4F#8, 0x4B#8, 0x21#8] }

theorem witness_tx_retx :
    ((run .txRetx { scanning fresh 13#32 with scan := 3 }).map State.arqPhase = some .txNew) ∧
    ((run .txRetx (scanning fresh 12#32)).map fun t => (t.scan, t.modPhase)) = some (3, .idle) ∧
    ((run .txRetx (scanning { fresh with acked := true } 1002#32)).map State.scan = some 3) ∧
    ((run .txRetx (scanning { fresh with retries := 0 } 13#32)).map fun t => (t.result, t.events)) =
      some (.linkError, [.linkError 2]) ∧
    (dataFrame (scanning fresh 13#32) 2 = some ⟨1#16, 2#16, [0x21#8]⟩ ∧
      Frame.ok (scanning fresh 13#32).cfg ⟨1#16, 2#16, [0x21#8]⟩ = true) ∧
    ((run .txRetx (scanning fresh 13#32)).map fun t => (t.txf, t.modPhase, t.scan)) =
      some (some ⟨1#16, 2#16, [0x21#8]⟩, .waitq, 2) ∧
    ((run .txRetx (scanning { fresh with sentAt := 0xFFFFFFF8#32 } 3#32)).map State.modPhase =
      some .waitq) ∧
    ((run .txRetx { scanning fresh 20#32 with modPhase := .done, caller := some .txRetx }).map fun t =>
      (t.sw, t.scan, t.modPhase)) = some ([(2, ⟨false, 20#32, 2⟩)], 3, .idle) := by decide +kernel

/-- A resend's continuation at an entry without retries: it runs, its retries are some value of R36's range, and
everything else is as R212 says (log 21). -/
theorem test_tx_retx_without_retries :
    ((run .txRetx { scanning { fresh with retries := 0 } 13#32 with
        modPhase := .done, caller := some .txRetx }).map fun t =>
      (t.sw.map fun e => (e.1, e.2.acked, e.2.sentAt), t.scan, t.modPhase, t.frees)) =
      some ([(2, false, 13#32)], 3, .idle, 1) := by rfl

/-- V30: (`LAR`, `LFS`) = (0, 1), then (0, 2), then all frames sent; the entry at the return. -/
theorem witness_tx_new :
    (dataFrame { scanning fresh 13#32 with lar := 0, lfs := 1 } 2 = some ⟨1#16, 2#16, [0x21#8]⟩) ∧
    ((run .txNew { scanning fresh 13#32 with arqPhase := .txNew, lar := 0, lfs := 1 }).map fun t =>
      (t.lfs, t.txf, t.modPhase)) = some (2, some ⟨1#16, 2#16, [0x21#8]⟩, .waitq) ∧
    ((run .txNew { scanning fresh 13#32 with arqPhase := .txNew, lar := 0, lfs := 2, nTx := 3 }).map fun t =>
      (t.lfs, t.arqPhase)) = some (2, .txLoop) ∧
    ((run .txNew { scanning fresh 13#32 with arqPhase := .txNew, lar := 1, lfs := 2 }).map fun t =>
      (t.lfs, t.arqPhase)) = some (2, .txLoop) ∧
    ((run .txNew { scanning fresh 13#32 with arqPhase := .txNew, lar := 0, lfs := 1, modPhase := .done,
                                             caller := some .txNew, sw := [] }).map fun t => (t.sw, t.arqPhase, t.modPhase)) =
      some ([(1, ⟨false, 13#32, 3⟩)], .txLoop, .idle) := by decide +kernel

/-- V31 and V36; each held where its rule does not enable it. -/
theorem witness_abort_and_stop :
    (((scanning { fresh with retries := 0 } 13#32).holdsAny .arq = false) ∧
      (scanning { fresh with retries := 0 } 13#32).sw.get 2 = some { fresh with retries := 0 }) ∧
    ((run .txAbort { scanning { fresh with retries := 0 } 13#32 with quiet := true }).map fun t =>
      (statusWord t, t.lar, t.lfs, t.sw)) = some (0x00000084#32, 1, 2, []) ∧
    (run .txAbort (scanning fresh 13#32) = some (scanning fresh 13#32)) ∧
    (run .txAbort s0 = some s0) ∧
    ((run .txStop { scanning fresh 13#32 with arqPhase := .txLoop, quiet := true, stopReq := true }).map
      fun t => (statusWord t, t.lar, t.lfs, t.sw)) = some (0x000000C4#32, 1, 2, []) ∧
    (run .txStop { scanning fresh 13#32 with stopReq := true } =
      some { scanning fresh 13#32 with stopReq := true }) ∧
    ((run .rxStop { s0 with arqPhase := .rxPop, busy := true, role := .receiver, stopReq := true,
                            quiet := true, rb := [(1, [1#8])], countKnown := true }).map fun t =>
      (statusWord t, t.rb, t.countKnown)) = some (0x000000C6#32, [], false) ∧
    (run .rxStop { s0 with busy := true, role := .sender, modPhase := .waitq, stopReq := true } =
      some { s0 with busy := true, role := .sender, modPhase := .waitq, stopReq := true }) := by
  refine ⟨?_, ?_, ?_, ?_, ?_, ?_, ?_, ?_⟩ <;> decide +kernel

/-- V26 with `MAX_BODY = 2`: an odd payload, and the empty one. -/
theorem witness_segments :
    Config.Sized a0.cfg ∧
    (∃ s : State, s.cfg = a0.cfg ∧ s.txPayload = Memory.ofList [0x4F#8, 0x4B#8, 0x21#8] ∧ s.txLen = 3) ∧
    (3 + a0.cfg.maxBody - 1) / a0.cfg.maxBody = 2 ∧
    (∃ s : State, s.cfg = a0.cfg ∧ s.txPayload = Memory.ofList [] ∧ s.txLen = 0) ∧
    dataFrame (scanning fresh 0#32) 1 = some ⟨2#16, 1#16, [0x4F#8, 0x4B#8]⟩ ∧
    dataFrame { scanning fresh 0#32 with cfg := tiny } 2 = some ⟨1#16, 0xFFFE#16, [0x21#8]⟩ :=
  ⟨tiny_sized .a, ⟨scanning fresh 0#32, rfl, rfl, rfl⟩, by decide, ⟨a0, rfl, rfl, rfl⟩,
    by decide +kernel, by decide +kernel⟩

/-! ### ARQ receiver -/

def receiving (rb : Memory (List Byte)) (lfr : Nat) (f : List Frame) : State :=
  { s0 with arqPhase := .rxPop, busy := true, role := .receiver, rb := rb, lfr := lfr, fq := f }

theorem receiving_gate (rb : Memory (List Byte)) (lfr : Nat) (f : List Frame) :
    (receiving rb lfr f).gateOpen .arq .fq := ⟨rfl, rfl⟩

/-- V32: node B, one frame of every row of its table; a stop before a waiting frame; the empty queue. -/
theorem witness_rx_pop :
    ((run .rxPop { receiving [] 0 [sent3] with stopReq := true }).map fun t => (t.result, t.fq)) =
      some (.stopped, [sent3]) ∧
    (run .rxPop (receiving [] 0 []) = some (receiving [] 0 [])) ∧
    Frame.ok tiny sent3 = true ∧
    ((run .rxPop (receiving [] 0 [sent3])).map fun t => (t.nExp, t.countKnown, t.fq)) =
      some (3, true, []) ∧
    (run .rxPop (receiving [] 0 [⟨1#16, 0#16, [3#8]⟩]) = some (receiving [] 0 [])) ∧
    (run .rxPop (receiving [] 0 [ack 0x8000#16]) = some (receiving [] 0 [])) ∧
    ((run .rxPop (receiving [] 0 [dataOk])).map fun t => (t.rb, t.txf, t.arqPhase)) =
      some ([(1, [0x4F#8, 0x4B#8])], some (ack 0xFFFF#16), .rxAck) ∧
    (run .rxPop (receiving [] 0 [ack 1#16]) = some (receiving [] 0 [])) ∧
    (run .rxPop (receiving [] 0 [ack 0xFFFF#16]) = some (receiving [] 0 [])) ∧
    (run .rxPop (receiving [] 0 [⟨2#16, 0xFFFF#16, [0x48#8, 0x69#8]⟩]) = some (receiving [] 0 [])) := by
  decide +kernel

/-- V33: 1 of 3 missing, and complete at a different count. -/
theorem witness_rx_sent :
    ((run (.rxSent sent3) (receiving [(1, [1#8]), (3, [3#8])] 1 [])).map fun t =>
      (t.nExp, t.arqPhase)) = some (3, .rxPop) ∧
    ((run (.rxSent ⟨2#16, 0#16, [0#8, 2#8]⟩) (receiving [(1, [1#8]), (2, [2#8])] 2 [])).map fun t =>
      (t.rxPayload, t.result, t.arqPhase)) = some ([(0, 1#8), (1, 2#8)], .ok, .idle) ∧
    refusal (.rxSent dataOk) (receiving [] 0 []) = some .operandKind ∧
    run (.rxSent sent3) s0 = some s0 := by decide +kernel

/-- V34: an early frame, the missing one, a duplicate with another body; then the return of the send. -/
theorem witness_rx_data :
    (∀ m, 1 ≤ m → m ≤ (receiving [] 0 []).lfr → ((receiving [] 0 []).rb.get m).isSome = true) ∧
    ((run (.rxData ⟨1#16, 2#16, [0x21#8]⟩) (receiving [] 0 [])).map fun t => (t.rb, t.lfr, t.txf)) =
      some ([(2, [0x21#8])], 0, some (ack 0xFFFE#16)) ∧
    ((run (.rxData dataOk) (receiving [(2, [0x21#8])] 0 [])).map fun t => (t.rb, t.lfr, t.txf)) =
      some ([(1, [0x4F#8, 0x4B#8]), (2, [0x21#8])], 2, some (ack 0xFFFF#16)) ∧
    ((run (.rxData ⟨2#16, 1#16, [0x58#8, 0x58#8]⟩) (receiving [(1, [0x4F#8, 0x4B#8])] 1 [])).map
      fun t => (t.rb, t.lfr, t.txf)) = some ([(1, [0x4F#8, 0x4B#8])], 1, some (ack 0xFFFF#16)) ∧
    ((run (.rxData dataOk) { receiving [] 0 [] with arqPhase := .rxAck, modPhase := .done,
                                                    caller := some .rxData }).map fun t =>
      (t.modPhase, t.caller, t.arqPhase)) = some (.idle, none, .rxPop) ∧
    refusal (.rxData (ack 1#16)) (receiving [] 0 []) = some .operandKind := by
  refine ⟨fun m h1 h2 => ?_, ?_, ?_, ?_, ?_, ?_⟩
  rotate_left
  all_goals first | decide +kernel | skip
  have h3 : (receiving [] 0 []).lfr = 0 := rfl
  omega

theorem test_rx_echo_and_other :
    run (.rxEcho (ack 0xFFFF#16)) (receiving [] 0 []) = some (receiving [] 0 []) ∧
    run (.rxOther (ack 4#16)) (receiving [] 0 []) = some (receiving [] 0 []) := by decide +kernel

/-- A receiver that holds both frames of a transfer of two. -/
def complete : State :=
  { receiving [(1, [0x4F#8, 0x4B#8]), (2, [0x21#8])] 2 [] with nExp := 2, countKnown := true }

/-- V35; held while the count is not known or not reached. -/
theorem witness_rx_done :
    Memory.wf [(1, [0x4F#8, 0x4B#8]), (2, [0x21#8])] ∧
    ((run .rxDone complete).map fun t => (t.rxPayload, t.rxPayloadLen, t.received)) =
      some ([(0, 0x4F#8), (1, 0x4B#8), (2, 0x21#8)], 3, some [0x4F#8, 0x4B#8, 0x21#8]) ∧
    ((run .rxDone { complete with quiet := true }).map statusWord) = some 0x00000046#32 ∧
    (run .rxDone { complete with countKnown := false } = some { complete with countKnown := false }) ∧
    (run .rxDone { complete with nExp := 3 } = some { complete with nExp := 3 }) := by
  refine ⟨by simp [Memory.wf], ?_, ?_, ?_, ?_⟩ <;> decide +kernel

/-- The receiver of V34 holds exactly the frames of the sender's payload. -/
theorem witness_reassembly :
    Config.Sized a0.cfg ∧ (scanning fresh 0#32).txPayload = Memory.ofList [0x4F#8, 0x4B#8, 0x21#8] ∧
    (scanning fresh 0#32).txLen = 3 ∧ Memory.wf [(1, [0x4F#8, 0x4B#8]), (2, [0x21#8])] ∧
    ∀ m, Memory.get [(1, [0x4F#8, 0x4B#8]), (2, [0x21#8])] m =
      if 1 ≤ m ∧ m ≤ 2 then (dataFrame (scanning fresh 0#32) m).map Frame.body else none := by
  refine ⟨tiny_sized .a, rfl, rfl, by simp [Memory.wf], fun m => ?_⟩
  by_cases h1 : m = 1
  · subst h1; decide +kernel
  · by_cases h2 : m = 2
    · subst h2; decide +kernel
    · rw [if_neg (by omega)]
      simp [Memory.get, h1, h2]

/-! ### Frames from the wire -/

/-- V12's CRCs; a wrong CRC; LENGTH 3 at `MAX_BODY = 2` (V17); a full queue; a demodulator that reads. -/
theorem witness_wire_frames :
    (carriesFrame (.fData 1#16 [0x4F#8, 0x4B#8] 0#32) dataOk 0#32 ∧ s0.gateOpen .dem .fq) ∧
    (run (.fAck 0xFFFF#16 0x9F62CDE3#32) { s0 with demState := .body } =
      some { s0 with demState := .body }) ∧
    ((run (.fSent 3#16 0x520BA379#32) s0).map State.fq = some [sent3]) ∧
    ((run (.fAck 0xFFFF#16 0x9F62CDE3#32) { s0 with fq := [sent3] }).map fun t => (t.fq, t.rxSeq)) =
      some ([sent3, ack 0xFFFF#16], 0xFFFF#16) ∧
    ((run (.fData 1#16 [0x4F#8, 0x4B#8] 0x5C2F5327#32) s0).map fun t => (t.fq, t.events)) =
      some ([], [.crcMismatch]) ∧
    ((run (.fData 1#16 [0#8, 1#8, 2#8] 0#32) s0).map fun t => (t.fq, t.events)) =
      some ([], [.malformedHeader 3#16]) ∧
    ((run (.fRsv 0x8000#16 [] 0x1AC74757#32) { s0 with fq := [sent3, sent3] }).map fun t =>
      (t.fq.length, t.fqOvf)) = some (2, true) ∧
    ((run (.fRsv 0x8000#16 [] 0x1AC74757#32) s0).map State.fq = some [ack 0x8000#16]) :=
  ⟨⟨⟨by decide, rfl, .inr (.inr (.inl rfl))⟩, gates_open _ _ _⟩, by decide +kernel⟩

/-! ### Decoding, stepping, invariants -/

/-- Well-formed instructions, each operand at an end of its range. -/
theorem witness_well_formed :
    Instr.wf tiny (.fData 0xFFFF#16 [0#8] 0#32) = true ∧ Instr.wf tiny (.fAck 0x7FFF#16 0#32) = true ∧
    Instr.wf tiny (.fRsv 0#16 [] 0#32) = true ∧ Instr.wf tiny (.fRsv 0x8000#16 [1#8, 2#8] 0#32) = true ∧
    Instr.wf tiny (.abPeriod [one, half]) = true ∧ Instr.wf tiny (.hTransmit []) = true := by decide

theorem witness_step :
    decode tiny (.op [0x08#8]) = .ok .tbTick ∧
    decode tiny (.op [0x09#8]) = .error (.unknownCode 0x09#8) ∧
    (match step { s0 with sched := [.op [0x08#8]] } with
      | .next t => some (t.now, t.sched)
      | _ => none) = some (1#32, []) ∧
    (match step { s0 with sched := [.op [0x09#8]] } with
      | .refused r => some r
      | _ => none) = some (.undecodable (.unknownCode 0x09#8)) ∧
    decode tiny (.wire [0x00#8, 0x03#8, 0x00#8, 0x01#8]) = .error (.overlong 3#16 1#16) ∧
    (match step { s0 with sched := [.wire [0x00#8, 0x03#8, 0x00#8, 0x01#8]] } with
      | .next t => some (t.events, t.hdr)
      | _ => none) = some ([.malformedHeader 3#16], 0x00030001#32) ∧
    (match step { s0 with demState := .body, sched := [.wire [0x00#8, 0x03#8, 0x00#8, 0x01#8]] } with
      | .next t => some (t.events, t.hdr)
      | _ => none) = some ([], 0#32) ∧
    (match step s0 with
      | .next t => some t
      | _ => none) = some s0 := by decide +kernel

/-- Node A in `TX_NEW`, before its first data frame. -/
def aboutToSend : State :=
  { a0 with arqPhase := .txNew, busy := true, nTx := 2, txLen := 3,
            txPayload := Memory.ofList [0x4F#8, 0x4B#8, 0x21#8] }

theorem store_inv : StoreInv { aboutToSend with sched := [.op [0x08#8]] } where
  inq := by decide
  outq := by decide
  fq := by decide
  sh := by decide
  locks := ⟨.inl rfl, .inl rfl, .inl rfl⟩
  win := by simp [aboutToSend, a0, State.resetOf]
  rxBody := by simp [aboutToSend, a0, State.resetOf]
  sw := by simp [aboutToSend, a0, State.resetOf]
  rb := by simp [aboutToSend, a0, State.resetOf]
  txPayload := by decide +kernel
  rxPayload := by simp [aboutToSend, a0, State.resetOf]
  widths :=
    { wfill := (by decide), scnt := (.inl rfl), bcnt := (by decide), txLen := (by decide),
      nTx := (by decide), lar := (by decide), lfs := (by decide), scan := (by decide),
      finCnt := (by decide), retries := (fun m e h => nomatch h), lfr := (by decide),
      nExp := (by decide), keys := (fun m b h => nomatch h), rxPayloadLen := (by decide) }
  period := fun p h => nomatch h

theorem link_inv : LinkInv aboutToSend where
  store := { store_inv with widths := { store_inv.widths with }, period := store_inv.period }
  phase :=
    { busy := (by decide), tx := fun _ => rfl, rx := (fun h => nomatch h),
      quietPhases := (fun h => nomatch h), ack := (fun h => nomatch h), txf := (by decide),
      frame := (fun f h => nomatch h), caller := rfl }
  dem :=
    { wfill := (by decide), empty := (fun _ => rfl),
      win := (fun i => by simp [aboutToSend, a0, State.resetOf]), scnt := (by decide),
      search := (fun _ => ⟨rfl, rfl, rfl⟩), header := (fun h => nomatch h), body := (fun h => nomatch h),
      crc := (fun h => nomatch h), fq := (fun f h => nomatch h) }
  send :=
    { order := (by decide), window := (by decide),
      domain := (fun _ m => by simp [aboutToSend, a0, State.resetOf]; omega), idle := (fun _ => rfl),
      retries := (fun m e h => nomatch h), newest := (fun h => absurd rfl h.2),
      scan := (fun h => nomatch h), resend := (fun h => nomatch h), fin := (fun h => nomatch h),
      count := (fun _ => by decide),
      payload := (fun _ i h => by
        have h2 : i = 0 ∨ i = 1 ∨ i = 2 := by
          have : aboutToSend.txLen = 3 := rfl
          omega
        rcases h2 with rfl | rfl | rfl <;> rfl) }
  receive :=
    { keys := (fun m b h => nomatch h), lfr := (by decide), below := (fun h => nomatch h.2),
      next := (fun _ => rfl), idle := (fun _ => rfl) }

/-- The premises of the statements about agents' steps, at a step that moves `LFS`. -/
theorem witness_agent_step :
    Config.Sized aboutToSend.cfg ∧ LinkInv aboutToSend ∧ agentStep .txNew aboutToSend = true ∧
    PhaseInv aboutToSend ∧ outqDrained aboutToSend ∧
    ¬ (Instr.txNew = .modDrain ∧ aboutToSend.stopReq = true) ∧
    exec .txNew aboutToSend =
      .next { aboutToSend with lfs := 1, txf := some dataOk, modPhase := .waitq, caller := some .txNew } :=
  ⟨tiny_sized .a, link_inv, rfl, link_inv.phase, (fun _ => rfl),
    (fun h => nomatch h.1), next_of_run (by decide +kernel)⟩

/-- The premises of the statement about every step. -/
theorem witness_any_step :
    StoreInv { aboutToSend with sched := [.op [0x08#8]] } ∧
    (match step { aboutToSend with sched := [.op [0x08#8]] } with
      | .next t => some t.now
      | _ => none) = some 1#32 :=
  ⟨store_inv, by decide +kernel⟩

/-- Finite weights whose sum is no number: no configuration with them is admissible (R17, R282). -/
theorem test_infinite_weight_sum :
    tiny.num.finite 0x7F61B1E6#32 = true ∧
    tiny.num.finite (tiny.num.sum [0x7F61B1E6#32, 0x7F61B1E6#32]) = false := by decide +kernel

/-- TC0 meets every requirement of R282, its preamble those of R296. -/
theorem test_reset_configuration : Config.Admissible Config.tc0 where
  sized :=
    { k := (by decide), p := (by decide), pre := rfl, w := rfl, maxBody := (by decide), blk := (by decide),
      window := (by decide), rto := (by decide), inDepth := (by decide), outDepth := (by decide),
      fqDepth := (by decide) }
  symbols := ⟨⟨by decide, by decide, by decide⟩, ⟨by decide, by decide, by decide⟩⟩
  weights := fun x h => by
    have h2 : x = 0x3F800000#32 := List.eq_of_mem_replicate (show x ∈ List.replicate 4 0x3F800000#32 from h)
    subst h2
    exact ⟨by decide, by decide, by decide⟩
  someWeight := ⟨0x3F800000#32, by decide, ⟨by decide, by decide, by decide⟩⟩
  weightSum := by decide +kernel
  thetaBelowOnes := ⟨by decide +kernel, by decide +kernel, by decide +kernel⟩
  thetaAboveZeros := ⟨by decide +kernel, by decide +kernel, by decide +kernel⟩
  noiseNotNegative := ⟨by decide, by decide, by decide⟩
  noiseBelowOnes := ⟨by decide, by decide, by decide⟩
  preamble := ⟨fun _ => by decide, fun d h1 h2 => by
    have h3 : ∀ d < 28, 1 ≤ d → preambleMatch Config.tc0
        (List.replicate d 0#32 ++ (modulate Config.tc0 Config.tc0.pre).take (28 - d)) = false := by
      decide +kernel
    exact h3 d h2 h1⟩

end Sys2Proof.Tests
end

section
/-! Fetching, decoding and running one slot of the schedule (R15, R101, R104; logs 1, 17, 24): what the wire decoder
makes of a header that is too long, what such a header does to a demodulator, and what a step is in each case of its
slot. -/

namespace Sys2Proof

/-! ### A header above `MAX_BODY` is of no kind -/

/-- Two bytes as a 16-bit number, most significant byte first (R65). -/
theorem toNat_append_bytes (a b : Byte) : (a ++ b).toNat = 256 * a.toNat + b.toNat := by
  rw [BitVec.toNat_append, ← Nat.shiftLeft_add_eq_or_of_lt b.isLt, Nat.shiftLeft_eq, Nat.mul_comm]

theorem frameKind_eq_none_of_lt {c : Config} {len : BitVec 16} (seq : BitVec 16) (h : c.maxBody < len.toNat) :
    frameKind c len seq = none := if_pos h

/-- Of a header of no kind nothing behind its four bytes is read (R101). -/
theorem decodeWire_eq_overlong {c : Config} {l0 l1 s0 s1 : Byte} (rest : List Byte)
    (h : frameKind c (l0 ++ l1) (s0 ++ s1) = none) :
    decodeWire c (l0 :: l1 :: s0 :: s1 :: rest) = .error (.overlong (l0 ++ l1) (s0 ++ s1)) := by
  simp [decodeWire, read16, Read.andThen, h]

theorem decode_wire_eq_error {c : Config} {l : List Byte} {e : DecodeError} (h : decodeWire c l = .error e) :
    decode c (.wire l) = .error e := by
  simp [decode, h, Except.map]

end Sys2Proof

namespace Sys2Proof.Machine

variable {s : State} {p : Packet} {l : List Packet}

/-! ### Rejecting a header -/

/-- All that the rejection of a header leaves in the state (R160, R101, R165). -/
theorem rejectHeader_eq (f : Frame) (s : State) :
    rejectHeader f s =
      { s with hdr := f.len ++ f.seq, rxLen := f.len, rxSeq := f.seq, rxCur := 0#8, rxCrc := 0#32,
               demState := .search, win := [], wfill := 0, acc := s.cfg.num.zero, scnt := 0, bcnt := 0,
               rxBody := [], events := s.events ++ [.malformedHeader f.len] } := rfl

theorem execOverlong_of_search (len seq : BitVec 16) (h : s.demState = .search) :
    execOverlong len seq s = .next
      { s with hdr := len ++ seq, rxLen := len, rxSeq := seq, rxCur := 0#8, rxCrc := 0#32,
               win := [], wfill := 0, acc := s.cfg.num.zero, scnt := 0, bcnt := 0, rxBody := [],
               events := s.events ++ [.malformedHeader len] } := by
  rw [execOverlong, if_pos h, settle_ok, rejectHeader_eq, ← h]

/-- A demodulator that is reading another frame does not see the header (R298). -/
theorem execOverlong_of_ne_search (len seq : BitVec 16) (h : s.demState ≠ .search) :
    execOverlong len seq s = .next s := by
  rw [execOverlong, if_neg h, settle_hold]

/-! ### A step, by what is scheduled -/

theorem fetch_of_nil (h : s.sched = []) : fetch s = none := by
  simp [fetch, h]

theorem fetch_of_cons (h : s.sched = p :: l) : fetch s = some (p, { s with sched := l }) := by
  simp [fetch, h]

theorem step_of_nil (h : s.sched = []) : step s = .next s := by
  simp [step, fetch_of_nil h]

theorem step_of_decode_ok {i : Instr} (h : s.sched = p :: l) (hd : decode s.cfg p = .ok i) :
    step s = exec i { s with sched := l } := by
  simp [step, fetch_of_cons h, fetchDecode, hd]

theorem step_of_overlong {len seq : BitVec 16} (h : s.sched = p :: l)
    (hd : decode s.cfg p = .error (.overlong len seq)) : step s = execOverlong len seq { s with sched := l } := by
  simp [step, fetch_of_cons h, fetchDecode, hd]

theorem step_of_undecodable {e : DecodeError} (h : s.sched = p :: l) (hd : decode s.cfg p = .error e)
    (he : ∀ len seq, e ≠ .overlong len seq) : step s = .refused (.undecodable e) := by
  cases e with
  | overlong len seq => exact absurd rfl (he len seq)
  | _ => simp [step, fetch_of_cons h, fetchDecode, hd]

end Sys2Proof.Machine

open Sys2Proof Sys2Proof.Machine

/-- Settles O54, one case of the slot at a time. -/
theorem stepRunsTheDecodedInstruction : Obligations.StepRunsTheDecodedInstruction := by
  intro s
  refine ⟨fun _ _ _ => step_of_decode_ok, fun p l len seq hs hd => ⟨fun hb => ?busy, fun hf => ?searching⟩,
    fun l0 l1 s0 s1 rest hlen => ?tooLong, fun _ _ _ => step_of_undecodable, step_of_nil⟩
  case busy => exact (step_of_overlong hs hd).trans (execOverlong_of_ne_search len seq hb)
  case searching => exact (step_of_overlong hs hd).trans (execOverlong_of_search len seq hf)
  case tooLong =>
    rw [← toNat_append_bytes] at hlen
    exact decode_wire_eq_error (decodeWire_eq_overlong rest (frameKind_eq_none_of_lt _ hlen))

end

section
/-! Which fields each agent writes (R15, R42): the audio boundary, the demodulator, the sequencer with the modulator. A
step of an agent leaves a state that differs in the agent's own fields only; the sticky flags are only set, and the
event history only grows. What a statement names beside its agent's fields stands as an update of the first state. -/

namespace Sys2Proof.Machine

variable {s t u : State}

/-- `s` with the fields that the audio boundary may always write as `u` has them. -/
def State.withAudio (s u : State) : State :=
  { s with inq := u.inq, outq := u.outq, inOvf := u.inOvf, events := u.events, out := u.out }

/-- `s` with the fields of the demodulator as `u` has them. -/
def State.withDem (s u : State) : State :=
  { s with inq := u.inq, fq := u.fq, fqOvf := u.fqOvf, demState := u.demState, win := u.win, wfill := u.wfill,
           acc := u.acc, scnt := u.scnt, bcnt := u.bcnt, hdr := u.hdr, rxLen := u.rxLen, rxSeq := u.rxSeq,
           rxCur := u.rxCur, rxBody := u.rxBody, rxCrc := u.rxCrc, events := u.events, out := u.out }

/-- `s` with the registers of the sequencer and the modulator as `u` has them, but for the tables `SW` and `RB` and
the cursors `LAR`, `LFS`, `LFR`. -/
def State.withSeq (s u : State) : State :=
  { s with outq := u.outq, fq := u.fq, txf := u.txf, modPhase := u.modPhase, caller := u.caller,
           arqPhase := u.arqPhase, busy := u.busy, role := u.role, stopReq := u.stopReq, result := u.result,
           nTx := u.nTx, scan := u.scan, finCnt := u.finCnt, nExp := u.nExp, countKnown := u.countKnown,
           rxPayload := u.rxPayload, rxPayloadLen := u.rxPayloadLen, events := u.events, frees := u.frees }

/-- The sticky flags are only set and the event history only grows (R63, R250). -/
structure Grows (s t : State) : Prop where
  inOvf : s.inOvf = true → t.inOvf = true
  fqOvf : s.fqOvf = true → t.fqOvf = true
  events : s.events <+: t.events

theorem Grows.of_eq (h : (t.inOvf, t.fqOvf, t.events) = (s.inOvf, s.fqOvf, s.events)) : Grows s t := by
  simp only [Prod.mk.injEq] at h
  obtain ⟨hi, hf, he⟩ := h
  exact ⟨fun h => hi.trans h, fun h => hf.trans h, he ▸ List.prefix_rfl⟩

theorem Grows.raises {e : Event} (h : (t.inOvf, t.fqOvf, t.events) = (s.inOvf, s.fqOvf, s.events ++ [e])) :
    Grows s t := by
  simp only [Prod.mk.injEq] at h
  obtain ⟨hi, hf, he⟩ := h
  exact ⟨fun h => hi.trans h, fun h => hf.trans h, he ▸ List.prefix_append _ _⟩

theorem Grows.trans (h : Grows s t) (h' : Grows t u) : Grows s u where
  inOvf := h'.inOvf ∘ h.inOvf
  fqOvf := h'.fqOvf ∘ h.fqOvf
  events := h.events.trans h'.events

theorem grows_pushInq (x : Sample) (s : State) : Grows s (pushInq x s) := by
  rcases pushInq_cases x s with ⟨-, e⟩ | ⟨-, e⟩ <;> rw [e]
  · exact .of_eq rfl
  · exact ⟨fun _ => rfl, id, List.prefix_append _ _⟩

theorem grows_pushFq (f : Frame) (s : State) : Grows s (pushFq f s) := by
  rcases pushFq_cases f s with ⟨-, e⟩ | ⟨-, e⟩ <;> rw [e]
  · exact .of_eq rfl
  · exact ⟨id, fun _ => rfl, List.prefix_append _ _⟩

/-- From `s` to `t` only the audio boundary has written. -/
structure AudioWrites (s t : State) : Prop where
  eq : t = s.withAudio t
  grows : Grows s t

/-- From `s` to `t` only the demodulator has written. -/
structure DemWrites (s t : State) : Prop where
  eq : t = s.withDem t
  grows : Grows s t

/-- From `s` to `t` only the sequencer and the modulator have written; no frame has come to `FQ`, and no command has
begun. -/
structure SeqWrites (s t : State) : Prop where
  eq : t = s.withSeq t
  fq : t.fq <:+ s.fq
  busy : t.busy = true → s.busy = true
  events : s.events <+: t.events

theorem SeqWrites.of_eq (e : t = s.withSeq t) (h : (t.fq, t.busy, t.events) = (s.fq, s.busy, s.events)) :
    SeqWrites s t := by
  simp only [Prod.mk.injEq] at h
  obtain ⟨hf, hb, he⟩ := h
  exact ⟨e, hf ▸ List.suffix_rfl, fun h => hb.symm.trans h, he ▸ List.prefix_rfl⟩

theorem DemWrites.trans (h : DemWrites s t) (h' : DemWrites t u) : DemWrites s u where
  eq := calc
    u = t.withDem u := h'.eq
    _ = (s.withDem t).withDem u := congrArg (·.withDem u) h.eq
    _ = s.withDem u := rfl
  grows := h.grows.trans h'.grows

/-- Some plain writes of the demodulator's fields, then those of an operation. -/
theorem DemWrites.after (h : DemWrites t u) (e : t = s.withDem t)
    (g : (t.inOvf, t.fqOvf, t.events) = (s.inOvf, s.fqOvf, s.events)) : DemWrites s u :=
  DemWrites.trans ⟨e, .of_eq g⟩ h

/-! ### The audio boundary -/

/-- A push to `INQ` writes the queue, `IN_OVF` and the history (R63). -/
theorem audioWrites_pushInq (x : Sample) (s : State) : AudioWrites s (pushInq x s) := by
  refine ⟨?_, grows_pushInq x s⟩
  rcases pushInq_cases x s with ⟨-, e⟩ | ⟨-, e⟩ <;> rw [e] <;> rfl

theorem execAbIn_writes {x : Sample} (h : execAbIn x s = .next t) : AudioWrites { s with sh := t.sh } t := by
  rcases execAbIn_next h with rfl | ⟨-, -, rfl⟩
  · exact ⟨rfl, .of_eq rfl⟩
  · have w := audioWrites_pushInq x { s with sh := shiftHistory s.sh x }
    rw [show (pushInq x { s with sh := shiftHistory s.sh x }).sh = shiftHistory s.sh x from congrArg State.sh w.eq]
    exact w

theorem execAbOut_writes (h : execAbOut s = .next t) : AudioWrites s t := by
  rcases execAbOut_next h with rfl | ⟨-, rfl⟩ <;> exact ⟨rfl, .of_eq rfl⟩

theorem periodPart_writes {p : Period} (h : periodPart p s = .ok t) :
    AudioWrites { s with sh := t.sh, quiet := t.quiet, period := t.period } t := by
  rcases periodPart_eq_ok.mp h with ⟨x, xs, -, -, -, rfl⟩ | ⟨-, -, -, rfl⟩ | ⟨-, -, rfl⟩
  · obtain ⟨e, g⟩ := audioWrites_pushInq x { s with sh := shiftHistory s.sh x }
    refine ⟨?_, { g with }⟩
    rw [e]
    rfl
  · exact ⟨rfl, .of_eq rfl⟩
  · exact ⟨rfl, .of_eq rfl⟩

theorem execAbPeriod_writes {xs : List Sample} (h : execAbPeriod xs s = .next t) :
    AudioWrites { s with sh := t.sh, quiet := t.quiet, period := t.period } t := by
  rcases execAbPeriod_next h with rfl | ⟨p, -, h⟩ | ⟨-, -, -, h⟩
  · exact ⟨rfl, .of_eq rfl⟩
  · exact periodPart_writes h
  · exact periodPart_writes h

/-! ### The demodulator -/

/-- The header registers as the 32nd header bit latches them (R160). -/
def State.latched (s : State) : State :=
  { s with rxLen := s.hdr.extractLsb' 16 16, rxSeq := s.hdr.extractLsb' 0 16, bcnt := 0, rxCur := 0#8,
           rxCrc := 0#32, rxBody := [] }

/-- After the latch the length decides (R160): rejected, no body, or a body. -/
theorem latchHeader_cases (s : State) :
    (s.cfg.maxBody < s.latched.rxLen.toNat ∧
      latchHeader s = (s.latched.raise (.malformedHeader s.latched.rxLen)).toSearch) ∨
    (s.latched.rxLen.toNat ≤ s.cfg.maxBody ∧ s.latched.rxLen = 0#16 ∧
      latchHeader s = { s.latched with demState := .crc }) ∨
    (s.latched.rxLen.toNat ≤ s.cfg.maxBody ∧ s.latched.rxLen ≠ 0#16 ∧
      latchHeader s = { s.latched with demState := .body }) := by
  by_cases hm : s.cfg.maxBody < s.latched.rxLen.toNat
  · exact .inl ⟨hm, if_pos hm⟩
  · by_cases hz : s.latched.rxLen = 0#16
    · exact .inr (.inl ⟨Nat.le_of_not_lt hm, hz, (if_neg hm).trans (if_pos hz)⟩)
    · exact .inr (.inr ⟨Nat.le_of_not_lt hm, hz, (if_neg hm).trans (if_neg hz)⟩)

/-- A header bit is shifted in and counted; the 32nd latches (R160). -/
theorem headerBit_cases (b : Bool) (s : State) :
    (fitted 20 (s.bcnt + 1) = 32 ∧
      headerBit b s = latchHeader { s with hdr := shiftIn s.hdr b, bcnt := fitted 20 (s.bcnt + 1) }) ∨
    (fitted 20 (s.bcnt + 1) ≠ 32 ∧
      headerBit b s = { s with hdr := shiftIn s.hdr b, bcnt := fitted 20 (s.bcnt + 1) }) := by
  by_cases h : fitted 20 (s.bcnt + 1) = 32
  · exact .inl ⟨h, if_pos h⟩
  · exact .inr ⟨h, if_neg h⟩

/-- A CRC bit is shifted in and counted; the 32nd decides (R163). -/
theorem crcFieldBit_eq_ok {b : Bool} :
    crcFieldBit b s = .ok t ↔
      (fitted 20 (s.bcnt + 1) = 32 ∧
        checkCrc { s with rxCrc := shiftIn s.rxCrc b, bcnt := fitted 20 (s.bcnt + 1) } = .ok t) ∨
      (fitted 20 (s.bcnt + 1) ≠ 32 ∧
        t = { s with rxCrc := shiftIn s.rxCrc b, bcnt := fitted 20 (s.bcnt + 1) }) := by
  unfold crcFieldBit State.countBit
  by_cases h : fitted 20 (s.bcnt + 1) = 32 <;> simp [h, eq_comm (a := t)]

/-- A window after one more sample is compared when it is full (R156). -/
theorem demSearch_eq_ok {x : Sample} :
    demSearch x s = .ok t ↔ ∃ u, slideWindow x s = .ok u ∧
      ((u.wfill = u.cfg.pk ∧ ∃ v, correlate u = .ok v ∧ t = if v then synchronize u else u) ∨
       (u.wfill ≠ u.cfg.pk ∧ t = u)) := by
  unfold demSearch
  simp only [Act.andThen_eq_ok]
  refine exists_congr fun u => and_congr_right fun _ => ?_
  by_cases h : u.wfill = u.cfg.pk <;> simp [h, Act.andThen_eq_ok, eq_comm (a := t)]

/-! Behind the integrator an operation on a sample does nothing, or takes the bit it gives (R159). -/

theorem demHeader_cases (x : Sample) (s : State) :
    demHeader x s = (integrate x s).2 ∨ ∃ b, demHeader x s = headerBit b (integrate x s).2 := by
  unfold demHeader
  rcases integrate_cases x s with ⟨-, e⟩ | ⟨-, e⟩ <;> rw [e]
  · exact .inl rfl
  · exact .inr ⟨_, rfl⟩

theorem demBody_cases (x : Sample) (s : State) :
    demBody x s = .ok (integrate x s).2 ∨ ∃ b, demBody x s = bodyBit b (integrate x s).2 := by
  unfold demBody
  rcases integrate_cases x s with ⟨-, e⟩ | ⟨-, e⟩ <;> rw [e]
  · exact .inl rfl
  · exact .inr ⟨_, rfl⟩

theorem demCrc_cases (x : Sample) (s : State) :
    demCrc x s = .ok (integrate x s).2 ∨ ∃ b, demCrc x s = crcFieldBit b (integrate x s).2 := by
  unfold demCrc
  rcases integrate_cases x s with ⟨-, e⟩ | ⟨-, e⟩ <;> rw [e]
  · exact .inl rfl
  · exact .inr ⟨_, rfl⟩

theorem demWrites_integrate (x : Sample) (s : State) : DemWrites s (integrate x s).2 := by
  rcases integrate_cases x s with ⟨-, e⟩ | ⟨-, e⟩ <;> rw [e] <;> exact ⟨rfl, .of_eq rfl⟩

theorem demWrites_latchHeader (s : State) : DemWrites s (latchHeader s) := by
  rcases latchHeader_cases s with ⟨-, e⟩ | ⟨-, -, e⟩ | ⟨-, -, e⟩ <;> rw [e]
  · exact ⟨rfl, .raises rfl⟩
  · exact ⟨rfl, .of_eq rfl⟩
  · exact ⟨rfl, .of_eq rfl⟩

theorem demWrites_headerBit (b : Bool) (s : State) : DemWrites s (headerBit b s) := by
  rcases headerBit_cases b s with ⟨-, e⟩ | ⟨-, e⟩ <;> rw [e]
  · exact (demWrites_latchHeader _).after rfl rfl
  · exact ⟨rfl, .of_eq rfl⟩

theorem demWrites_header (x : Sample) (s : State) : DemWrites s (demHeader x s) := by
  rcases demHeader_cases x s with e | ⟨b, e⟩ <;> rw [e]
  · exact demWrites_integrate x s
  · exact (demWrites_integrate x s).trans (demWrites_headerBit b _)

theorem slideWindow_writes {x : Sample} (h : slideWindow x s = .ok t) : DemWrites s t := by
  rcases slideWindow_eq_ok.mp h with ⟨-, rfl⟩ | ⟨-, xs, -, rfl⟩ <;> exact ⟨rfl, .of_eq rfl⟩

theorem demSearch_writes {x : Sample} (h : demSearch x s = .ok t) : DemWrites s t := by
  obtain ⟨u, hu, ⟨-, v, -, rfl⟩ | ⟨-, rfl⟩⟩ := demSearch_eq_ok.mp h
  · cases v
    · exact slideWindow_writes hu
    · exact (slideWindow_writes hu).trans ⟨rfl, .of_eq rfl⟩
  · exact slideWindow_writes hu

theorem bodyBit_writes {b : Bool} (h : bodyBit b s = .ok t) : DemWrites s t := by
  obtain ⟨-, rfl⟩ := bodyBit_eq_ok.mp h
  exact ⟨rfl, .of_eq rfl⟩

theorem demBody_writes {x : Sample} (h : demBody x s = .ok t) : DemWrites s t := by
  rcases demBody_cases x s with e | ⟨b, e⟩ <;> rw [e] at h
  · obtain rfl := Except.ok.inj h
    exact demWrites_integrate x s
  · exact (demWrites_integrate x s).trans (bodyBit_writes h)

theorem demWrites_pushFq (f : Frame) (s : State) : DemWrites s (pushFq f s) := by
  refine ⟨?_, grows_pushFq f s⟩
  rcases pushFq_cases f s with ⟨-, e⟩ | ⟨-, e⟩ <;> rw [e] <;> rfl

theorem emitFrame_writes (h : emitFrame s = .ok t) : DemWrites s t := by
  obtain ⟨body, -, -, rfl⟩ := emitFrame_eq_ok.mp h
  exact (demWrites_pushFq _ s).trans ⟨rfl, .of_eq rfl⟩

theorem checkCrc_writes (h : checkCrc s = .ok t) : DemWrites s t := by
  obtain ⟨body, -, ⟨-, h⟩ | ⟨-, rfl⟩⟩ := checkCrc_eq_ok.mp h
  · exact emitFrame_writes h
  · exact ⟨rfl, .raises rfl⟩

theorem crcFieldBit_writes {b : Bool} (h : crcFieldBit b s = .ok t) : DemWrites s t := by
  rcases crcFieldBit_eq_ok.mp h with ⟨-, h⟩ | ⟨-, rfl⟩
  · exact (checkCrc_writes h).after rfl rfl
  · exact ⟨rfl, .of_eq rfl⟩

theorem demCrc_writes {x : Sample} (h : demCrc x s = .ok t) : DemWrites s t := by
  rcases demCrc_cases x s with e | ⟨b, e⟩ <;> rw [e] at h
  · obtain rfl := Except.ok.inj h
    exact demWrites_integrate x s
  · exact (demWrites_integrate x s).trans (crcFieldBit_writes h)

theorem demAct_writes {x : Sample} (h : demAct x s = .ok t) : DemWrites s t := by
  unfold demAct at h
  split at h
  · exact demSearch_writes h
  · obtain rfl := Except.ok.inj h
    exact demWrites_header x s
  · exact demBody_writes h
  · exact demCrc_writes h

theorem execDemStep_writes (h : execDemStep s = .next t) : DemWrites s t := by
  rcases execDemStep_next h with rfl | ⟨-, x, q, -, h⟩
  · exact ⟨rfl, .of_eq rfl⟩
  · exact (demAct_writes h).after rfl rfl

theorem demWrites_rejectHeader (f : Frame) (s : State) : DemWrites s (rejectHeader f s) :=
  ⟨rfl, .raises rfl⟩

theorem receiveWire_writes {f : Frame} {crc : BitVec 32} (h : receiveWire f crc s = .ok t) : DemWrites s t := by
  obtain ⟨-, -, ⟨-, rfl⟩ | ⟨-, h⟩⟩ := receiveWire_eq_ok.mp h
  · exact demWrites_rejectHeader f s
  · exact (checkCrc_writes h).after rfl rfl

/-- An operation of the demodulator that settles has written what it answers, or nothing. -/
theorem settle_demWrites {a : Act State} (ha : ∀ u, a = .ok u → DemWrites s u) (h : settle s a = .next t) :
    DemWrites s t := by
  rcases settle_eq_next.mp h with h | ⟨-, rfl⟩
  · exact ha t h
  · exact ⟨rfl, .of_eq rfl⟩

/-! ### The modulator and the stops -/

theorem seqWrites_stopSender (s : State) : SeqWrites { s with sw := [] } (stopSender s) :=
  ⟨rfl, List.suffix_rfl, nofun, List.prefix_rfl⟩

theorem seqWrites_stopReceiver (s : State) : SeqWrites { s with rb := [] } (stopReceiver s) :=
  ⟨rfl, List.suffix_rfl, nofun, List.prefix_rfl⟩

theorem stopByRole_cases (s : State) :
    (s.role = .sender ∧ stopByRole s = stopSender s) ∨ (s.role = .receiver ∧ stopByRole s = stopReceiver s) := by
  unfold stopByRole
  cases s.role <;> simp

theorem seqWrites_stopByRole (s : State) :
    SeqWrites { s with sw := (stopByRole s).sw, rb := (stopByRole s).rb } (stopByRole s) := by
  rcases stopByRole_cases s with ⟨-, e⟩ | ⟨-, e⟩ <;> rw [e]
  · exact seqWrites_stopSender s
  · exact seqWrites_stopReceiver s

theorem sendEntry_writes {c : Caller} {f : Frame} (h : sendEntry c f s = .ok t) : SeqWrites s t := by
  obtain ⟨-, -, rfl⟩ := sendEntry_eq_ok.mp h
  exact .of_eq rfl rfl

theorem execModSend_writes {f : Frame} (h : execModSend f s = .next t) : SeqWrites s t := by
  rcases execModSend_next h with rfl | ⟨-, ⟨-, h⟩ | ⟨-, -, rfl⟩⟩
  · exact .of_eq rfl rfl
  · exact sendEntry_writes h
  · exact .of_eq rfl rfl

theorem execModWaitq_writes (h : execModWaitq s = .next t) : SeqWrites { s with sw := t.sw, rb := t.rb } t := by
  rcases execModWaitq_next h with rfl | ⟨-, -, rfl⟩ | ⟨-, -, -, rfl⟩
  · exact .of_eq rfl rfl
  · exact seqWrites_stopByRole s
  · exact .of_eq rfl rfl

theorem execModEmit_writes (h : execModEmit s = .next t) : SeqWrites s t := by
  rcases execModEmit_next h with rfl | ⟨-, f, -, -, -, -, rfl⟩ <;> exact .of_eq rfl rfl

theorem execModDrain_writes (h : execModDrain s = .next t) : SeqWrites { s with sw := t.sw, rb := t.rb } t := by
  rcases execModDrain_next h with rfl | ⟨-, -, rfl⟩ | ⟨-, -, -, -, rfl⟩
  · exact .of_eq rfl rfl
  · exact seqWrites_stopByRole s
  · exact .of_eq rfl rfl

/-! ### The sender -/

/-- A command's start writes `BUSY`, which no other rule sets. -/
theorem startSender_writes (h : startSender s = .ok t) :
    SeqWrites { s with sw := t.sw, lar := t.lar, lfs := t.lfs, busy := t.busy } t := by
  obtain ⟨-, ⟨-, rfl⟩ | ⟨-, -, rfl⟩⟩ := startSender_eq_ok.mp h
  · exact .of_eq rfl rfl
  · exact ⟨rfl, List.nil_suffix, id, List.prefix_rfl⟩

theorem execHTransmit_writes {p : List Byte} (h : execHTransmit p s = .next t) :
    SeqWrites { s with txPayload := t.txPayload, txLen := t.txLen, sw := t.sw, lar := t.lar, lfs := t.lfs,
                       busy := t.busy } t := by
  rcases execHTransmit_next h with rfl | ⟨-, -, rfl⟩ | ⟨-, -, h⟩
  · exact .of_eq rfl rfl
  · exact .of_eq rfl rfl
  · obtain ⟨-, ⟨-, rfl⟩ | ⟨-, -, rfl⟩⟩ := startSender_eq_ok.mp h
    · exact .of_eq rfl rfl
    · exact ⟨rfl, List.nil_suffix, id, List.prefix_rfl⟩

theorem execTxStart_writes (h : execTxStart s = .next t) :
    SeqWrites { s with sw := t.sw, lar := t.lar, lfs := t.lfs, busy := t.busy } t := by
  rcases execTxStart_next h with rfl | ⟨-, h⟩
  · exact .of_eq rfl rfl
  · exact startSender_writes h

theorem execTxSent0_writes (h : execTxSent0 s = .next t) : SeqWrites s t := by
  rcases execTxSent0_next h with rfl | ⟨-, ⟨-, h⟩ | ⟨-, -, rfl⟩⟩
  · exact .of_eq rfl rfl
  · exact sendEntry_writes h
  · exact .of_eq rfl rfl

theorem execTxLoop_writes (h : execTxLoop s = .next t) : SeqWrites { s with sw := t.sw } t := by
  rcases execTxLoop_next h with rfl | ⟨-, -, ⟨-, rfl⟩ | ⟨-, -, rfl⟩ | ⟨-, -, rfl⟩⟩
  · exact .of_eq rfl rfl
  · exact seqWrites_stopSender s
  · exact .of_eq rfl rfl
  · exact .of_eq rfl rfl

theorem takeAck_writes {f : Frame} (h : takeAck f s = .ok t) : SeqWrites { s with sw := t.sw } t := by
  rcases takeAck_eq_ok.mp h with ⟨-, -, -, e, -, rfl⟩ | ⟨-, rfl⟩
  · exact .of_eq rfl rfl
  · cases isAck f
    · exact .of_eq rfl rfl
    · exact ⟨rfl, List.suffix_rfl, id, List.prefix_append _ _⟩

theorem execTxDrain_writes (h : execTxDrain s = .next t) : SeqWrites { s with sw := t.sw } t := by
  rcases execTxDrain_next h with rfl | ⟨-, -, -, ⟨-, rfl⟩ | ⟨f, q, hq, h⟩⟩
  · exact .of_eq rfl rfl
  · exact .of_eq rfl rfl
  · have w := takeAck_writes h
    exact ⟨w.eq, w.fq.trans (hq ▸ List.suffix_cons f q), w.busy, w.events⟩

/-- The loop of `TX.SLIDE` writes `SW` and `LAR` (R211). -/
theorem slideWhile_writes {n : Nat} (h : slideWhile n s = .ok t) : t = { s with sw := t.sw, lar := t.lar } := by
  induction n generalizing s with
  | zero =>
    obtain rfl := Except.ok.inj h
    rfl
  | succ n ih =>
    unfold slideWhile at h
    split at h
    · cases h
    · split at h
      · exact (ih h).trans rfl
      · obtain rfl := Except.ok.inj h
        rfl

theorem execTxSlide_writes (h : execTxSlide s = .next t) : SeqWrites { s with sw := t.sw, lar := t.lar } t := by
  rcases execTxSlide_next h with rfl | ⟨-, -, u, hu, rfl⟩
  · exact .of_eq rfl rfl
  · rw [slideWhile_writes hu]
    exact .of_eq rfl rfl

theorem seqWrites_abort (s : State) : SeqWrites { s with sw := [] } (abort s) :=
  ⟨rfl, List.suffix_rfl, nofun, List.prefix_append _ _⟩

theorem execTxRetx_writes (h : execTxRetx s = .next t) : SeqWrites { s with sw := t.sw } t := by
  rcases execTxRetx_next h with rfl | ⟨-, ⟨-, h⟩ | ⟨-, -, h⟩⟩
  · exact .of_eq rfl rfl
  · rcases examineEntry_eq_ok.mp h with ⟨-, rfl⟩ | ⟨-, e, -, ⟨-, -, rfl⟩ | ⟨-, -, h⟩ | ⟨-, rfl⟩⟩
    · exact .of_eq rfl rfl
    · exact seqWrites_abort s
    · obtain ⟨f, -, h⟩ := sendData_eq_ok.mp h
      obtain ⟨-, -, rfl⟩ := sendEntry_eq_ok.mp h
      exact .of_eq rfl rfl
    · exact .of_eq rfl rfl
  · obtain ⟨e, -, rfl⟩ := finishResend_eq_ok.mp h
    exact .of_eq rfl rfl

theorem execTxNew_writes (h : execTxNew s = .next t) : SeqWrites { s with sw := t.sw, lfs := t.lfs } t := by
  rcases execTxNew_next h with rfl | ⟨-, ⟨-, -, h⟩ | ⟨-, -, rfl⟩ | ⟨-, -, rfl⟩⟩
  · exact .of_eq rfl rfl
  · obtain ⟨f, -, h⟩ := sendData_eq_ok.mp h
    obtain ⟨-, -, rfl⟩ := sendEntry_eq_ok.mp h
    exact .of_eq rfl rfl
  · exact .of_eq rfl rfl
  · exact .of_eq rfl rfl

/-- The continuation of a closing sentinel counts it, and the second one ends the command (R215). -/
theorem finishFin_cases (s : State) :
    (fittedUpTo 2 (s.finCnt + 1) = 2 ∧
      finishFin s = { s with modPhase := .idle, caller := none, finCnt := 2, result := .ok, busy := false,
                             arqPhase := .idle }) ∨
    (fittedUpTo 2 (s.finCnt + 1) ≠ 2 ∧
      finishFin s = { s with modPhase := .idle, caller := none, finCnt := fittedUpTo 2 (s.finCnt + 1) }) := by
  by_cases h : fittedUpTo 2 (s.finCnt + 1) = 2
  · exact .inl ⟨h, by simp [finishFin, State.sendReturned, State.endCommand, h]⟩
  · exact .inr ⟨h, by simp [finishFin, State.sendReturned, h]⟩

theorem execTxFin_writes (h : execTxFin s = .next t) : SeqWrites s t := by
  rcases execTxFin_next h with rfl | ⟨-, ⟨-, h⟩ | ⟨-, -, rfl⟩⟩
  · exact .of_eq rfl rfl
  · exact sendEntry_writes h
  · rcases finishFin_cases s with ⟨-, e⟩ | ⟨-, e⟩ <;> rw [e]
    · exact ⟨rfl, List.suffix_rfl, nofun, List.prefix_rfl⟩
    · exact .of_eq rfl rfl

theorem execTxAbort_writes (h : execTxAbort s = .next t) : SeqWrites { s with sw := t.sw } t := by
  rcases execTxAbort_next h with rfl | ⟨-, -, -, rfl⟩
  · exact .of_eq rfl rfl
  · exact seqWrites_abort s

theorem execTxStop_writes (h : execTxStop s = .next t) : SeqWrites { s with sw := t.sw } t := by
  rcases execTxStop_next h with rfl | ⟨-, rfl⟩
  · exact .of_eq rfl rfl
  · exact seqWrites_stopSender s

/-! ### The receiver -/

theorem startReceiver_writes (h : startReceiver s = .ok t) :
    SeqWrites { s with rb := t.rb, lfr := t.lfr, busy := t.busy } t := by
  obtain ⟨-, -, rfl⟩ := startReceiver_eq_ok.mp h
  exact ⟨rfl, List.nil_suffix, id, List.prefix_rfl⟩

theorem execHReceive_writes (h : execHReceive s = .next t) :
    SeqWrites { s with rb := t.rb, lfr := t.lfr, busy := t.busy } t := by
  rcases execHReceive_next h with rfl | ⟨-, h⟩
  · exact .of_eq rfl rfl
  · exact startReceiver_writes h

theorem execRxStart_writes (h : execRxStart s = .next t) :
    SeqWrites { s with rb := t.rb, lfr := t.lfr, busy := t.busy } t := by
  rcases execRxStart_next h with rfl | ⟨-, h⟩
  · exact .of_eq rfl rfl
  · exact startReceiver_writes h

theorem takeSentinel_writes {f : Frame} (h : takeSentinel f s = .ok t) : SeqWrites { s with rb := t.rb } t := by
  obtain ⟨hi, lo, rest, -, rfl⟩ := takeSentinel_eq_ok.mp h
  split
  · exact ⟨rfl, List.suffix_rfl, nofun, List.prefix_rfl⟩
  · exact .of_eq rfl rfl

theorem takeData_writes {f : Frame} (h : takeData f s = .ok t) :
    SeqWrites { s with rb := t.rb, lfr := t.lfr } t := by
  obtain ⟨-, -, rfl⟩ := takeData_eq_ok.mp h
  exact .of_eq rfl rfl

/-- What `RX.POP` makes of a popped frame (R232): the count, a body, or nothing. -/
theorem takeFrame_cases {f : Frame} (h : takeFrame f s = .ok t) :
    (classify s.cfg f = .sent ∧ takeSentinel f s = .ok t) ∨ (classify s.cfg f = .data ∧ takeData f s = .ok t) ∨
      t = s := by
  unfold takeFrame at h
  cases hc : classify s.cfg f <;> rw [hc] at h
  · exact .inl ⟨rfl, h⟩
  · exact .inr (.inl ⟨rfl, h⟩)
  · exact .inr (.inr (Except.ok.inj h).symm)
  · exact .inr (.inr (Except.ok.inj h).symm)

theorem takeFrame_writes {f : Frame} (h : takeFrame f s = .ok t) :
    SeqWrites { s with rb := t.rb, lfr := t.lfr } t := by
  rcases takeFrame_cases h with ⟨-, h⟩ | ⟨-, h⟩ | rfl
  · obtain ⟨hi, lo, rest, -, rfl⟩ := takeSentinel_eq_ok.mp h
    split
    · exact ⟨rfl, List.suffix_rfl, nofun, List.prefix_rfl⟩
    · exact .of_eq rfl rfl
  · exact takeData_writes h
  · exact .of_eq rfl rfl

theorem execRxPop_writes (h : execRxPop s = .next t) : SeqWrites { s with rb := t.rb, lfr := t.lfr } t := by
  rcases execRxPop_next h with rfl | ⟨-, -, -, rfl⟩ | ⟨-, -, -, -, f, q, hq, h⟩
  · exact .of_eq rfl rfl
  · exact seqWrites_stopReceiver s
  · have w := takeFrame_writes h
    exact ⟨w.eq, w.fq.trans (hq ▸ List.suffix_cons f q), w.busy, w.events⟩

theorem execRxSent_writes {f : Frame} (h : execRxSent f s = .next t) : SeqWrites { s with rb := t.rb } t := by
  rcases execRxSent_next h with rfl | ⟨-, -, -, -, h⟩
  · exact .of_eq rfl rfl
  · exact takeSentinel_writes h

theorem execRxData_writes {f : Frame} (h : execRxData f s = .next t) :
    SeqWrites { s with rb := t.rb, lfr := t.lfr } t := by
  rcases execRxData_next h with rfl | ⟨-, -, -, rfl⟩ | ⟨-, -, -, h⟩
  · exact .of_eq rfl rfl
  · exact .of_eq rfl rfl
  · exact takeData_writes h

theorem execRxDone_writes (h : execRxDone s = .next t) : SeqWrites { s with rb := t.rb } t := by
  rcases execRxDone_next h with rfl | ⟨-, rfl⟩
  · exact .of_eq rfl rfl
  · exact ⟨rfl, List.suffix_rfl, nofun, List.prefix_rfl⟩

theorem execRxStop_writes (h : execRxStop s = .next t) : SeqWrites { s with rb := t.rb } t := by
  rcases execRxStop_next h with rfl | ⟨-, rfl⟩
  · exact .of_eq rfl rfl
  · exact seqWrites_stopReceiver s

end Sys2Proof.Machine
end

section
/-! Who may write what (R21, R31, R34, R36, R42, R79): for every instruction, the tracked state that it may change. -/

namespace Sys2Proof.Machine

variable {s t u : State}

/-- `s` with every field that nobody owns as `u` has it. -/
def State.withUnowned (s u : State) : State :=
  { u with cfg := s.cfg, now := s.now, sh := s.sh, quiet := s.quiet, period := s.period, txPayload := s.txPayload,
           txLen := s.txLen, sw := s.sw, lar := s.lar, lfs := s.lfs, rb := s.rb, lfr := s.lfr }

/-- The state that has owners is as it was, sticky flags and history have grown only, and no command has begun. -/
structure Kept (s t : State) : Prop where
  eq : t = s.withUnowned t
  busy : t.busy = true → s.busy = true
  grows : Grows s t

theorem Kept.of_eq (e : t = s.withUnowned t)
    (h : (t.busy, t.inOvf, t.fqOvf, t.events) = (s.busy, s.inOvf, s.fqOvf, s.events)) : Kept s t :=
  ⟨e, fun hb => (congrArg Prod.fst h).symm.trans hb, .of_eq (congrArg Prod.snd h)⟩

theorem AudioWrites.kept (w : AudioWrites s t) : Kept s t := by
  obtain ⟨e, g⟩ := w
  refine ⟨?_, (congrArg State.busy e).symm.trans, g⟩
  rw [e]
  rfl

theorem DemWrites.kept (w : DemWrites s t) : Kept s t := by
  obtain ⟨e, g⟩ := w
  refine ⟨?_, (congrArg State.busy e).symm.trans, g⟩
  rw [e]
  rfl

theorem SeqWrites.kept (w : SeqWrites s t) : Kept s t := by
  obtain ⟨e, -, hb, g⟩ := w
  refine ⟨?_, hb, (congrArg State.inOvf e).trans, (congrArg State.fqOvf e).trans, g⟩
  rw [e]
  rfl

theorem kept_setLock (q : QueueId) (l : Option Agent) (s : State) : Kept s (s.setLock q l) := by
  cases q <;> exact .of_eq rfl rfl

theorem execQAcq_kept {q : QueueId} {a : Agent} (h : execQAcq q a s = .next t) : Kept s t := by
  rcases execQAcq_next h with rfl | ⟨-, rfl⟩
  · exact .of_eq rfl rfl
  · exact kept_setLock q _ s

theorem execQRel_kept {q : QueueId} {a : Agent} (h : execQRel q a s = .next t) : Kept s t := by
  obtain ⟨-, rfl⟩ := execQRel_next h
  exact kept_setLock q none s

theorem execQPush_kept {v : QElem} (h : execQPush v s = .next t) : Kept s t := by
  obtain ⟨-, ⟨x, -, rfl⟩ | ⟨x, -, -, rfl⟩ | ⟨f, -, rfl⟩⟩ := execQPush_next h
  · exact (audioWrites_pushInq x s).kept
  · exact .of_eq rfl rfl
  · exact (demWrites_pushFq f s).kept

/-- A pop takes the head of its queue and nothing else (R130). -/
theorem popQueue_cases {q : QueueId} {v : Output} (h : popQueue q s = some (v, u)) :
    (∃ x l, q = .inq ∧ s.inq = x :: l ∧ u = { s with inq := l }) ∨
    (∃ x l, q = .outq ∧ s.outq = x :: l ∧ u = { s with outq := l }) ∨
    (∃ f l, q = .fq ∧ s.fq = f :: l ∧ u = { s with fq := l }) := by
  cases q
  case inq =>
    simp only [popQueue] at h
    split at h
    · cases h
    · exact .inl ⟨_, _, rfl, by assumption, by simp_all⟩
  case outq =>
    simp only [popQueue] at h
    split at h
    · cases h
    · exact .inr (.inl ⟨_, _, rfl, by assumption, by simp_all⟩)
  case fq =>
    simp only [popQueue] at h
    split at h
    · cases h
    · exact .inr (.inr ⟨_, _, rfl, by assumption, by simp_all⟩)

theorem execQPop_kept {q : QueueId} (h : execQPop q s = .next t) : Kept s t := by
  obtain ⟨-, v, u, hu, rfl⟩ := execQPop_next h
  rcases popQueue_cases hu with ⟨x, l, -, -, rfl⟩ | ⟨x, l, -, -, rfl⟩ | ⟨f, l, -, -, rfl⟩ <;> exact .of_eq rfl rfl

theorem execHStop_next (h : execHStop s = .next t) :
    t = s ∨ (s.busy = true ∧ t = { s with stopReq := true }) := by
  obtain rfl := Host.Outcome.next.inj h
  cases s.busy
  · exact .inl rfl
  · exact .inr ⟨rfl, rfl⟩

theorem execHStop_kept (h : execHStop s = .next t) : Kept s t := by
  rcases execHStop_next h with rfl | ⟨-, rfl⟩ <;> exact .of_eq rfl rfl

/-! ### The operations that only answer a value -/

theorem execFcPack_next {len seq : BitVec 16} {body : List Byte} (h : execFcPack len seq body s = .next t) :
    ∃ o, t = s.answer o := by
  unfold execFcPack at h
  split at h
  · exact ⟨_, (Host.Outcome.next.inj h).symm⟩
  · cases h

theorem execFcCrc32_next {len seq : BitVec 16} {body : List Byte} (h : execFcCrc32 len seq body s = .next t) :
    ∃ o, t = s.answer o := by
  unfold execFcCrc32 at h
  split at h
  · exact ⟨_, (Host.Outcome.next.inj h).symm⟩
  · cases h

theorem execFcEncode_next {f : Frame} (h : execFcEncode f s = .next t) : ∃ o, t = s.answer o := by
  unfold execFcEncode at h
  split at h
  · exact ⟨_, (Host.Outcome.next.inj h).symm⟩
  · cases h

/-- An operation that computes a value and answers it, or holds. -/
theorem settle_answer {α : Type} {a : Act α} {f : α → Output}
    (h : settle s (a.andThen fun x => .ok (s.answer (f x))) = .next t) : t = s ∨ ∃ o, t = s.answer o := by
  rcases settle_eq_next.mp h with h | ⟨-, rfl⟩
  · obtain ⟨x, -, h⟩ := Act.andThen_eq_ok.mp h
    exact .inr ⟨_, (Except.ok.inj h).symm⟩
  · exact .inl rfl

/-! ### Every instruction -/

/-- From `s` to `t` the instruction `i` has changed only what it may. -/
structure RespectsOwners (i : Instr) (s t : State) : Prop where
  cfg : t.cfg = s.cfg
  now : i ≠ .tbTick → t.now = s.now
  sh : (∀ xs, i ≠ .abPeriod xs) → (∀ x, i ≠ .abIn x) → t.sh = s.sh
  quiet : (∀ xs, i ≠ .abPeriod xs) → i ≠ .csEval → t.quiet = s.quiet
  period : (∀ xs, i ≠ .abPeriod xs) → t.period = s.period
  inOvf : s.inOvf = true → t.inOvf = true
  fqOvf : s.fqOvf = true → t.fqOvf = true
  events : s.events <+: t.events
  payload : (∀ p, i ≠ .hTransmit p) → t.txPayload = s.txPayload ∧ t.txLen = s.txLen
  sw : t.sw = s.sw ∨ (∃ p, i = .hTransmit p) ∨
    i ∈ [Instr.txStart, .txLoop, .txDrain, .txSlide, .txRetx, .txNew, .txAbort, .txStop, .modWaitq,
      .modDrain]
  lar : t.lar = s.lar ∨ (∃ p, i = .hTransmit p) ∨ i ∈ [Instr.txStart, .txSlide]
  lfs : t.lfs = s.lfs ∨ (∃ p, i = .hTransmit p) ∨ i ∈ [Instr.txStart, .txNew]
  rb : t.rb = s.rb ∨ (∃ f, i = .rxSent f ∨ i = .rxData f) ∨
    i ∈ [Instr.hReceive, .rxStart, .rxPop, .rxDone, .rxStop, .modWaitq, .modDrain]
  lfr : t.lfr = s.lfr ∨ (∃ f, i = .rxData f) ∨ i ∈ [Instr.hReceive, .rxStart, .rxPop]
  busy : t.busy = true → s.busy = true ∨ (∃ p, i = .hTransmit p) ∨
    i ∈ [Instr.hReceive, Instr.txStart, Instr.rxStart]

theorem RespectsOwners.refl (i : Instr) (s : State) : RespectsOwners i s s where
  cfg := rfl
  now _ := rfl
  sh _ _ := rfl
  quiet _ _ := rfl
  period _ := rfl
  inOvf := id
  fqOvf := id
  events := List.prefix_rfl
  payload _ := ⟨rfl, rfl⟩
  sw := .inl rfl
  lar := .inl rfl
  lfs := .inl rfl
  rb := .inl rfl
  lfr := .inl rfl
  busy := .inl

/-- What is kept after permitted changes is a permitted change. -/
theorem Kept.respects_after {i : Instr} (k : Kept u t) (r : RespectsOwners i s u) :
    RespectsOwners i s t where
  cfg := (congrArg State.cfg k.eq).trans r.cfg
  now hi := (congrArg State.now k.eq).trans (r.now hi)
  sh hp hi := (congrArg State.sh k.eq).trans (r.sh hp hi)
  quiet hp hi := (congrArg State.quiet k.eq).trans (r.quiet hp hi)
  period hp := (congrArg State.period k.eq).trans (r.period hp)
  inOvf := k.grows.inOvf ∘ r.inOvf
  fqOvf := k.grows.fqOvf ∘ r.fqOvf
  events := r.events.trans k.grows.events
  payload hi := (r.payload hi).imp (congrArg State.txPayload k.eq).trans (congrArg State.txLen k.eq).trans
  sw := r.sw.imp_left (congrArg State.sw k.eq).trans
  lar := r.lar.imp_left (congrArg State.lar k.eq).trans
  lfs := r.lfs.imp_left (congrArg State.lfs k.eq).trans
  rb := r.rb.imp_left (congrArg State.rb k.eq).trans
  lfr := r.lfr.imp_left (congrArg State.lfr k.eq).trans
  busy := r.busy ∘ k.busy

theorem Kept.respects {i : Instr} (k : Kept s t) : RespectsOwners i s t := k.respects_after (.refl i s)

theorem settle_answer_kept {α : Type} {a : Act α} {f : α → Output}
    (h : settle s (a.andThen fun x => .ok (s.answer (f x))) = .next t) : Kept s t := by
  rcases settle_answer h with rfl | ⟨o, rfl⟩ <;> exact .of_eq rfl rfl

/-- Every instruction but `H.RESET` changes only what it may. -/
theorem exec_respectsOwners {i : Instr} (hi : i ≠ .hReset) (h : exec i s = .next t) : RespectsOwners i s t := by
  cases i with
  | hReset => exact absurd rfl hi
  | hStatus | modBits | demSlice | demDiscard | rxEcho | rxOther =>
    obtain rfl := Host.Outcome.next.inj h
    exact Kept.respects (.of_eq rfl rfl)
  | tbTick =>
    obtain rfl := Host.Outcome.next.inj h
    exact { RespectsOwners.refl _ s with now := fun hn => absurd rfl hn }
  | csEval =>
    obtain rfl := Host.Outcome.next.inj h
    exact { RespectsOwners.refl _ s with quiet := fun _ hn => absurd rfl hn }
  | abPeriod xs =>
    exact (execAbPeriod_writes h).kept.respects_after
      { RespectsOwners.refl _ s with
        sh := fun hn => absurd rfl (hn xs), quiet := fun hn => absurd rfl (hn xs),
        period := fun hn => absurd rfl (hn xs) }
  | abIn x =>
    exact (execAbIn_writes h).kept.respects_after
      { RespectsOwners.refl _ s with sh := fun _ hn => absurd rfl (hn x) }
  | abOut => exact (execAbOut_writes h).kept.respects
  | qAcq => exact (execQAcq_kept h).respects
  | qRel => exact (execQRel_kept h).respects
  | qPush => exact (execQPush_kept h).respects
  | qPop => exact (execQPop_kept h).respects
  | modSend => exact (execModSend_writes h).kept.respects
  | modWaitq =>
    exact (execModWaitq_writes h).kept.respects_after
      { RespectsOwners.refl _ s with sw := by simp, rb := by simp }
  | modEmit => exact (execModEmit_writes h).kept.respects
  | modDrain =>
    exact (execModDrain_writes h).kept.respects_after
      { RespectsOwners.refl _ s with sw := by simp, rb := by simp }
  | demStep => exact (execDemStep_writes h).kept.respects
  | demSearch => exact (settle_demWrites (fun _ => demSearch_writes) h).kept.respects
  | demHeader x =>
    obtain rfl := Host.Outcome.next.inj h
    exact (demWrites_header x s).kept.respects
  | demBody => exact (settle_demWrites (fun _ => demBody_writes) h).kept.respects
  | demCrc => exact (settle_demWrites (fun _ => demCrc_writes) h).kept.respects
  | demEmit => exact (settle_demWrites (fun _ => emitFrame_writes) h).kept.respects
  | demCorr | fcDecode => exact (settle_answer_kept h).respects
  | fcPack =>
    obtain ⟨o, rfl⟩ := execFcPack_next h
    exact Kept.respects (.of_eq rfl rfl)
  | fcCrc32 =>
    obtain ⟨o, rfl⟩ := execFcCrc32_next h
    exact Kept.respects (.of_eq rfl rfl)
  | fcEncode =>
    obtain ⟨o, rfl⟩ := execFcEncode_next h
    exact Kept.respects (.of_eq rfl rfl)
  | hTransmit p =>
    exact (execHTransmit_writes h).kept.respects_after
      { RespectsOwners.refl _ s with
        payload := fun hn => absurd rfl (hn p), sw := by simp, lar := by simp, lfs := by simp, busy := by simp }
  | hReceive =>
    exact (execHReceive_writes h).kept.respects_after
      { RespectsOwners.refl _ s with rb := by simp, lfr := by simp, busy := by simp }
  | hStop => exact (execHStop_kept h).respects
  | txStart =>
    exact (execTxStart_writes h).kept.respects_after
      { RespectsOwners.refl _ s with sw := by simp, lar := by simp, lfs := by simp, busy := by simp }
  | txSent0 => exact (execTxSent0_writes h).kept.respects
  | txLoop => exact (execTxLoop_writes h).kept.respects_after { RespectsOwners.refl _ s with sw := by simp }
  | txDrain => exact (execTxDrain_writes h).kept.respects_after { RespectsOwners.refl _ s with sw := by simp }
  | txSlide =>
    exact (execTxSlide_writes h).kept.respects_after
      { RespectsOwners.refl _ s with sw := by simp, lar := by simp }
  | txRetx => exact (execTxRetx_writes h).kept.respects_after { RespectsOwners.refl _ s with sw := by simp }
  | txNew =>
    exact (execTxNew_writes h).kept.respects_after
      { RespectsOwners.refl _ s with sw := by simp, lfs := by simp }
  | txFin => exact (execTxFin_writes h).kept.respects
  | txAbort => exact (execTxAbort_writes h).kept.respects_after { RespectsOwners.refl _ s with sw := by simp }
  | txStop => exact (execTxStop_writes h).kept.respects_after { RespectsOwners.refl _ s with sw := by simp }
  | rxStart =>
    exact (execRxStart_writes h).kept.respects_after
      { RespectsOwners.refl _ s with rb := by simp, lfr := by simp, busy := by simp }
  | rxPop =>
    exact (execRxPop_writes h).kept.respects_after
      { RespectsOwners.refl _ s with rb := by simp, lfr := by simp }
  | rxSent => exact (execRxSent_writes h).kept.respects_after { RespectsOwners.refl _ s with rb := by simp }
  | rxData =>
    exact (execRxData_writes h).kept.respects_after
      { RespectsOwners.refl _ s with rb := by simp, lfr := by simp }
  | rxDone => exact (execRxDone_writes h).kept.respects_after { RespectsOwners.refl _ s with rb := by simp }
  | rxStop => exact (execRxStop_writes h).kept.respects_after { RespectsOwners.refl _ s with rb := by simp }
  | fSent | fAck | fData | fRsv =>
    exact (settle_demWrites (fun _ => receiveWire_writes) h).kept.respects

end Sys2Proof.Machine

open Sys2Proof Sys2Proof.Machine

/-- Settles O60: `exec_respectsOwners` goes through the instructions; `H.RESET` keeps the configuration. -/
theorem onlyOwnersWriteTheirState : Obligations.OnlyOwnersWriteTheirState := by
  intro i s t h
  by_cases hi : i = .hReset
  · subst hi
    obtain rfl := Host.Outcome.next.inj h
    exact ⟨rfl, fun hn => absurd rfl hn⟩
  · have r := exec_respectsOwners hi h
    exact ⟨r.cfg, fun _ => ⟨r.now, r.sh, r.quiet, r.period, r.inOvf, r.fqOvf, r.events, r.payload,
      r.sw, r.lar, r.lfs, r.rb, r.lfr, r.busy⟩⟩

end

section
/-! Reset (R45, R280, R281): the values the reset state holds. -/

namespace Sys2Proof.Machine

theorem resetValues_resetOf (c : Config) : ResetValues c (State.resetOf c) where
  cfg := rfl
  queues := ⟨rfl, rfl, rfl⟩
  locks := ⟨rfl, rfl, rfl⟩
  sensor := ⟨List.length_replicate, fun _ hx => List.eq_of_mem_replicate hx, rfl⟩
  overflow := ⟨rfl, rfl⟩
  dem := ⟨rfl, rfl, rfl, rfl, rfl⟩
  header := ⟨rfl, rfl, rfl, rfl, rfl⟩
  modulator := ⟨rfl, rfl⟩
  time := rfl
  arq := ⟨rfl, rfl, rfl, rfl, rfl⟩
  sender := ⟨rfl, rfl, rfl, rfl, rfl, rfl⟩
  receiver := ⟨rfl, rfl, rfl, rfl⟩
  lengths := ⟨rfl, rfl⟩

/-- `H.RESET` keeps of the state only what R45 does not list: the schedule, the history, the answer, the counter. -/
theorem resetValues_resetBlock (s : State) : ResetValues s.cfg (resetBlock s) :=
  { resetValues_resetOf s.cfg with }

end Sys2Proof.Machine

open Sys2Proof Sys2Proof.Machine

/-- Settles O1: every value of the list is a field of the reset state. -/
theorem resetLeavesTheResetValues : Obligations.ResetLeavesTheResetValues :=
  ⟨fun s => ⟨resetBlock s, rfl, resetValues_resetBlock s⟩, resetValues_resetOf⟩

end

section
/-! The storage invariant (R22, R24, R36, R40, R43, R75): every instruction keeps it. -/

namespace Sys2Proof.Machine

variable {s t u : State}

/-! ### The demodulator's storage -/

theorem length_le_of_cons {α : Type} {l m : List α} {x : α} {n : Nat} (h : m = x :: l) (hm : m.length ≤ n) :
    l.length ≤ n := by
  subst h
  exact (Nat.le_succ _).trans hm

/-- The clauses of the storage invariant that speak of what the demodulator writes. -/
structure DemStore (s : State) : Prop where
  inq : s.inq.length ≤ s.cfg.inDepth
  fq : s.fq.length ≤ s.cfg.fqDepth
  win : s.win.wf
  rxBody : s.rxBody.wf
  wfill : s.wfill ≤ s.cfg.pk
  scnt : s.scnt = 0 ∨ s.scnt < s.cfg.k
  bcnt : s.bcnt < 2 ^ 20

theorem StoreInv.demStore (h : StoreInv s) : DemStore s where
  inq := h.inq
  fq := h.fq
  win := h.win
  rxBody := h.rxBody
  wfill := h.widths.wfill
  scnt := h.widths.scnt
  bcnt := h.widths.bcnt

/-- Where only the demodulator has written, its own clauses are enough. -/
theorem StoreInv.of_demWrites (h : StoreInv s) (w : DemWrites s t) (d : DemStore t) : StoreInv t := by
  have e := w.eq
  rw [e] at d ⊢
  exact { h with
    inq := d.inq, fq := d.fq, win := d.win, rxBody := d.rxBody
    widths := { h.widths with wfill := d.wfill, scnt := d.scnt, bcnt := d.bcnt } }

theorem DemStore.raise (h : DemStore s) (e : Event) : DemStore (s.raise e) := { h with }

theorem DemStore.toSearch (h : DemStore s) : DemStore s.toSearch :=
  { h with win := Memory.wf_nil, rxBody := Memory.wf_nil, wfill := Nat.zero_le _, scnt := .inl rfl,
           bcnt := Nat.two_pow_pos 20 }

theorem DemStore.pushFq (h : DemStore s) (f : Frame) : DemStore (pushFq f s) := by
  rcases pushFq_cases f s with ⟨hl, e⟩ | ⟨-, e⟩ <;> rw [e]
  · exact { h with fq := List.length_append.trans_le hl }
  · exact { h with }

theorem slideWindow_demStore {x : Sample} (hs : slideWindow x s = .ok t) (h : DemStore s) : DemStore t := by
  rcases slideWindow_eq_ok.mp hs with ⟨hl, rfl⟩ | ⟨-, xs, -, rfl⟩
  · exact { h with win := Memory.wf_set _ _ h.win, wfill := hl }
  · exact { h with win := Memory.wf_ofList _ }

theorem demSearch_demStore {x : Sample} (hs : demSearch x s = .ok t) (h : DemStore s) : DemStore t := by
  obtain ⟨u, hu, ⟨-, v, -, rfl⟩ | ⟨-, rfl⟩⟩ := demSearch_eq_ok.mp hs
  · have d := slideWindow_demStore hu h
    cases v
    · exact d
    · exact { d with win := Memory.wf_nil, rxBody := Memory.wf_nil, wfill := Nat.zero_le _, scnt := .inl rfl,
                     bcnt := Nat.two_pow_pos 20 }
  · exact slideWindow_demStore hu h

theorem DemStore.integrate (h : DemStore s) (x : Sample) : DemStore (integrate x s).2 := by
  rcases integrate_cases x s with ⟨hl, e⟩ | ⟨-, e⟩ <;> rw [e]
  · exact { h with scnt := .inr hl }
  · exact { h with scnt := .inl rfl }

theorem DemStore.latchHeader (h : DemStore s) : DemStore (latchHeader s) := by
  have d : DemStore s.latched := { h with bcnt := Nat.two_pow_pos 20, rxBody := Memory.wf_nil }
  rcases latchHeader_cases s with ⟨-, e⟩ | ⟨-, -, e⟩ | ⟨-, -, e⟩ <;> rw [e]
  · exact (d.raise _).toSearch
  · exact { d with }
  · exact { d with }

theorem DemStore.headerBit (h : DemStore s) (b : Bool) : DemStore (headerBit b s) := by
  have d : DemStore { s with hdr := shiftIn s.hdr b, bcnt := fitted 20 (s.bcnt + 1) } :=
    { h with bcnt := fitted_lt 20 _ }
  rcases headerBit_cases b s with ⟨-, e⟩ | ⟨-, e⟩ <;> rw [e]
  · exact d.latchHeader
  · exact d

theorem DemStore.header (h : DemStore s) (x : Sample) : DemStore (demHeader x s) := by
  rcases demHeader_cases x s with e | ⟨b, e⟩ <;> rw [e]
  · exact h.integrate x
  · exact (h.integrate x).headerBit b

theorem bodyBit_demStore {b : Bool} (hs : bodyBit b s = .ok t) (h : DemStore s) : DemStore t := by
  obtain ⟨-, rfl⟩ := bodyBit_eq_ok.mp hs
  refine { h with rxBody := ?_, bcnt := ?_ }
  · show Memory.wf (if _ then _ else _)
    split
    · exact Memory.wf_set _ _ h.rxBody
    · exact h.rxBody
  · show (if _ then _ else _) < _
    split
    · exact Nat.two_pow_pos 20
    · exact fitted_lt 20 _

theorem demBody_demStore {x : Sample} (hs : demBody x s = .ok t) (h : DemStore s) : DemStore t := by
  rcases demBody_cases x s with e | ⟨b, e⟩ <;> rw [e] at hs
  · obtain rfl := Except.ok.inj hs
    exact h.integrate x
  · exact bodyBit_demStore hs (h.integrate x)

theorem emitFrame_demStore (hs : emitFrame s = .ok t) (h : DemStore s) : DemStore t := by
  obtain ⟨body, -, -, rfl⟩ := emitFrame_eq_ok.mp hs
  exact (h.pushFq _).toSearch

theorem checkCrc_demStore (hs : checkCrc s = .ok t) (h : DemStore s) : DemStore t := by
  obtain ⟨body, -, ⟨-, hs⟩ | ⟨-, rfl⟩⟩ := checkCrc_eq_ok.mp hs
  · exact emitFrame_demStore hs h
  · exact (h.raise _).toSearch

theorem crcFieldBit_demStore {b : Bool} (hs : crcFieldBit b s = .ok t) (h : DemStore s) : DemStore t := by
  have d : DemStore { s with rxCrc := shiftIn s.rxCrc b, bcnt := fitted 20 (s.bcnt + 1) } :=
    { h with bcnt := fitted_lt 20 _ }
  rcases crcFieldBit_eq_ok.mp hs with ⟨-, hs⟩ | ⟨-, rfl⟩
  · exact checkCrc_demStore hs d
  · exact d

theorem demCrc_demStore {x : Sample} (hs : demCrc x s = .ok t) (h : DemStore s) : DemStore t := by
  rcases demCrc_cases x s with e | ⟨b, e⟩ <;> rw [e] at hs
  · obtain rfl := Except.ok.inj hs
    exact h.integrate x
  · exact crcFieldBit_demStore hs (h.integrate x)

theorem demAct_demStore {x : Sample} (hs : demAct x s = .ok t) (h : DemStore s) : DemStore t := by
  unfold demAct at hs
  split at hs
  · exact demSearch_demStore hs h
  · obtain rfl := Except.ok.inj hs
    exact h.header x
  · exact demBody_demStore hs h
  · exact demCrc_demStore hs h

theorem execDemStep_demStore (hs : execDemStep s = .next t) (h : DemStore s) : DemStore t := by
  rcases execDemStep_next hs with rfl | ⟨-, x, q, hq, hs⟩
  · exact h
  · exact demAct_demStore hs { h with inq := length_le_of_cons hq h.inq }

theorem DemStore.rejectHeader (h : DemStore s) (f : Frame) : DemStore (rejectHeader f s) :=
  { h with win := Memory.wf_nil, rxBody := Memory.wf_nil, wfill := Nat.zero_le _, scnt := .inl rfl,
           bcnt := Nat.two_pow_pos 20 }

theorem receiveWire_demStore {f : Frame} {crc : BitVec 32} (hs : receiveWire f crc s = .ok t) (h : DemStore s) :
    DemStore t := by
  obtain ⟨-, -, ⟨-, rfl⟩ | ⟨-, hs⟩⟩ := receiveWire_eq_ok.mp hs
  · exact h.rejectHeader f
  · exact checkCrc_demStore hs { h with rxBody := Memory.wf_ofList _ }

/-- A settled operation of the demodulator keeps the storage invariant where it keeps its own clauses. -/
theorem settle_demStore {a : Act State} (hs : settle s a = .next t) (h : StoreInv s)
    (ha : ∀ u, a = .ok u → DemWrites s u ∧ (DemStore s → DemStore u)) : StoreInv t := by
  rcases settle_eq_next.mp hs with hs | ⟨-, rfl⟩
  · exact h.of_demWrites (ha t hs).1 ((ha t hs).2 h.demStore)
  · exact h

/-! ### The audio boundary -/

theorem StoreInv.pushInq (h : StoreInv s) (x : Sample) : StoreInv (pushInq x s) := by
  rcases pushInq_cases x s with ⟨hl, e⟩ | ⟨-, e⟩ <;> rw [e]
  · exact { h with inq := List.length_append.trans_le hl, widths := { h.widths with } }
  · exact { h with widths := { h.widths with } }

theorem StoreInv.audioIn (h : StoreInv s) (x : Sample) :
    StoreInv (Machine.pushInq x { s with sh := shiftHistory s.sh x }) := by
  have hl : (shiftHistory s.sh x).length = s.cfg.pk := by simp [shiftHistory, h.sh]
  exact StoreInv.pushInq (s := { s with sh := shiftHistory s.sh x })
    { h with sh := hl, widths := { h.widths with } } x

theorem execAbIn_storeInv {x : Sample} (hs : execAbIn x s = .next t) (h : StoreInv s) : StoreInv t := by
  rcases execAbIn_next hs with rfl | ⟨-, -, rfl⟩
  · exact h
  · exact h.audioIn x

theorem execAbOut_storeInv (hs : execAbOut s = .next t) (h : StoreInv s) : StoreInv t := by
  rcases execAbOut_next hs with rfl | ⟨-, rfl⟩
  · exact h
  · exact { h with outq := (List.length_tail.trans_le (Nat.sub_le _ _)).trans h.outq, widths := { h.widths with } }

/-- What the invariant asks of the place of a period in progress (R131). -/
def Period.InRange (c : Config) (p : Period) : Prop :=
  p.ins.length ≤ c.blk ∧ p.outs.length ≤ c.blk ∧ (p.ins ≠ [] → p.outs = []) ∧ ∀ x ∈ p.ins, c.num.finite x = true

theorem periodInv_of_some {p : Period} (h : s.period = some p) (hp : p.InRange s.cfg) : periodInv s := by
  intro q hq
  obtain rfl := Option.some.inj (h.symm.trans hq)
  exact hp

theorem periodInv_of_none (h : s.period = none) : periodInv s := fun _ hp => nomatch h.symm.trans hp

@[simp] theorem pushInq_cfg (x : Sample) (s : State) : (pushInq x s).cfg = s.cfg :=
  (congrArg State.cfg (audioWrites_pushInq x s).eq).trans rfl

theorem periodPart_storeInv {p : Period} (hs : periodPart p s = .ok t) (h : StoreInv s) (hp : p.InRange s.cfg) :
    StoreInv t := by
  obtain ⟨hins, houts, horder, hfin⟩ := hp
  rcases periodPart_eq_ok.mp hs with ⟨x, xs, he, -, -, rfl⟩ | ⟨he, hl, -, rfl⟩ | ⟨-, -, rfl⟩
  · have a := h.audioIn x
    rw [he] at hins hfin
    have hr : ({ p with ins := xs } : Period).InRange s.cfg :=
      ⟨(Nat.le_succ _).trans hins, houts, fun _ => horder (he ▸ List.cons_ne_nil x xs),
        fun y hy => hfin y (List.mem_cons_of_mem x hy)⟩
    exact { a with widths := { a.widths with }, period := periodInv_of_some rfl (by simpa using hr) }
  · have hr : ({ p with outs := p.outs ++ [s.outq.headD s.cfg.num.zero] } : Period).InRange s.cfg :=
      ⟨hins, List.length_append.trans_le hl, fun hn => absurd he hn, hfin⟩
    exact { h with
      outq := (List.length_tail.trans_le (Nat.sub_le _ _)).trans h.outq
      widths := { h.widths with }, period := periodInv_of_some rfl hr }
  · exact { h with widths := { h.widths with }, period := periodInv_of_none rfl }

theorem execAbPeriod_storeInv {xs : List Sample} (hs : execAbPeriod xs s = .next t) (h : StoreInv s) :
    StoreInv t := by
  rcases execAbPeriod_next hs with rfl | ⟨p, hp, hs⟩ | ⟨-, hl, hf, hs⟩
  · exact h
  · exact periodPart_storeInv hs h (h.period p hp)
  · exact periodPart_storeInv hs h
      ⟨hl.le, Nat.zero_le _, fun _ => rfl, fun x hx => List.all_eq_true.mp hf x hx⟩

/-! ### The gate -/

theorem StoreInv.acquire {a : Agent} {q : QueueId} (h : StoreInv s) (hg : s.gateOpen a q) :
    StoreInv (s.setLock q (some a)) := by
  obtain ⟨-, ha⟩ := hg
  obtain ⟨h1, h2, h3⟩ := h.locks
  simp only [State.holdsAny, Bool.or_eq_false_iff, beq_eq_false_iff_ne] at ha
  obtain ⟨⟨hi, ho⟩, hf⟩ := ha
  cases q
  · exact { h with locks := ⟨.inr ho.symm, .inr hf.symm, h3⟩, widths := { h.widths with } }
  · exact { h with locks := ⟨h1.imp_right fun _ => hi, h2, .inr hf.symm⟩, widths := { h.widths with } }
  · exact { h with locks := ⟨h1, .inr hi, .inr ho⟩, widths := { h.widths with } }

theorem StoreInv.release (h : StoreInv s) (q : QueueId) : StoreInv (s.setLock q none) := by
  obtain ⟨h1, h2, h3⟩ := h.locks
  cases q
  · exact { h with locks := ⟨.inl rfl, .inl rfl, h3⟩, widths := { h.widths with } }
  · exact { h with locks := ⟨Classical.em _, h2, .inl rfl⟩, widths := { h.widths with } }
  · exact { h with locks := ⟨h1, Classical.em _, Classical.em _⟩, widths := { h.widths with } }

theorem execQAcq_storeInv {q : QueueId} {a : Agent} (hs : execQAcq q a s = .next t) (h : StoreInv s) :
    StoreInv t := by
  rcases execQAcq_next hs with rfl | ⟨hg, rfl⟩
  · exact h
  · exact h.acquire hg

theorem execQPush_storeInv {v : QElem} (hs : execQPush v s = .next t) (h : StoreInv s) : StoreInv t := by
  obtain ⟨-, ⟨x, -, rfl⟩ | ⟨x, -, hl, rfl⟩ | ⟨f, -, rfl⟩⟩ := execQPush_next hs
  · exact h.pushInq x
  · exact { h with outq := List.length_append.trans_le hl, widths := { h.widths with } }
  · exact h.of_demWrites (demWrites_pushFq f s) (h.demStore.pushFq f)

theorem execQPop_storeInv {q : QueueId} (hs : execQPop q s = .next t) (h : StoreInv s) : StoreInv t := by
  obtain ⟨-, v, u, hu, rfl⟩ := execQPop_next hs
  rcases popQueue_cases hu with ⟨x, l, -, hq, rfl⟩ | ⟨x, l, -, hq, rfl⟩ | ⟨f, l, -, hq, rfl⟩
  · exact { h with inq := length_le_of_cons hq h.inq, widths := { h.widths with } }
  · exact { h with outq := length_le_of_cons hq h.outq, widths := { h.widths with } }
  · exact { h with fq := length_le_of_cons hq h.fq, widths := { h.widths with } }

/-! ### The modulator and the stops -/

theorem StoreInv.stopSender (h : StoreInv s) : StoreInv (stopSender s) :=
  { h with sw := Memory.wf_nil, widths := { h.widths with retries := nofun } }

theorem StoreInv.stopReceiver (h : StoreInv s) : StoreInv (stopReceiver s) :=
  { h with
    rb := Memory.wf_nil, rxPayload := Memory.wf_nil
    widths := { h.widths with keys := nofun, rxPayloadLen := Nat.two_pow_pos 32 } }

theorem StoreInv.stopByRole (h : StoreInv s) : StoreInv (stopByRole s) := by
  rcases stopByRole_cases s with ⟨-, e⟩ | ⟨-, e⟩ <;> rw [e]
  · exact h.stopSender
  · exact h.stopReceiver

theorem sendEntry_storeInv {c : Caller} {f : Frame} (hs : sendEntry c f s = .ok t) (h : StoreInv s) :
    StoreInv t := by
  obtain ⟨-, -, rfl⟩ := sendEntry_eq_ok.mp hs
  exact { h with widths := { h.widths with } }

theorem execModSend_storeInv {f : Frame} (hs : execModSend f s = .next t) (h : StoreInv s) : StoreInv t := by
  rcases execModSend_next hs with rfl | ⟨-, ⟨-, hs⟩ | ⟨-, -, rfl⟩⟩
  · exact h
  · exact sendEntry_storeInv hs h
  · exact { h with widths := { h.widths with } }

theorem execModWaitq_storeInv (hs : execModWaitq s = .next t) (h : StoreInv s) : StoreInv t := by
  rcases execModWaitq_next hs with rfl | ⟨-, -, rfl⟩ | ⟨-, -, -, rfl⟩
  · exact h
  · exact h.stopByRole
  · exact { h with widths := { h.widths with } }

theorem execModEmit_storeInv (hs : execModEmit s = .next t) (h : StoreInv s) : StoreInv t := by
  rcases execModEmit_next hs with rfl | ⟨-, f, -, -, -, hl, rfl⟩
  · exact h
  · exact { h with outq := List.length_append.trans_le hl, widths := { h.widths with } }

theorem execModDrain_storeInv (hs : execModDrain s = .next t) (h : StoreInv s) : StoreInv t := by
  rcases execModDrain_next hs with rfl | ⟨-, -, rfl⟩ | ⟨-, -, -, -, rfl⟩
  · exact h
  · exact h.stopByRole
  · exact { h with widths := { h.widths with } }

/-! ### Tables -/

theorem Memory.forall_get_set {α : Type} {P : Nat → α → Prop} {m : Memory α} {i : Nat} {v : α}
    (h : ∀ j a, m.get j = some a → P j a) (hv : P i v) : ∀ j a, (m.set i v).get j = some a → P j a := by
  intro j a hj
  rw [Memory.get_set] at hj
  by_cases hji : j = i
  · subst hji
    rw [if_pos rfl] at hj
    obtain rfl := Option.some.inj hj
    exact hv
  · exact h j a (by rwa [if_neg hji] at hj)

theorem seqMag_le (seq : BitVec 16) : seqMag seq ≤ 32768 := by
  have h1 : -32768 ≤ seq.toInt := BitVec.le_toInt seq
  have h2 : seq.toInt < 32768 := BitVec.toInt_lt
  unfold seqMag
  omega

/-- `LFR` advances over present magnitudes only, and stops at the first absent one unless the rounds run out. -/
theorem advance_spec (n : Nat) (rb : Memory (List Byte)) (l : Nat) :
    l ≤ advance n rb l ∧ (∀ m, l < m → m ≤ advance n rb l → (rb.get m).isSome = true) ∧
      (advance n rb l = l + n ∨ rb.get (advance n rb l + 1) = none) := by
  induction n generalizing l with
  | zero => exact ⟨Nat.le_refl l, fun m h1 h2 => absurd h2 (Nat.not_le.mpr h1), .inl rfl⟩
  | succ n ih =>
    unfold advance
    by_cases hp : (rb.get (l + 1)).isSome = true
    · rw [if_pos hp]
      obtain ⟨hle, hheld, hstop⟩ := ih (l + 1)
      refine ⟨by omega, fun m h1 h2 => ?_, hstop.imp_left fun h => by omega⟩
      rcases Nat.eq_or_lt_of_le (Nat.succ_le_of_lt h1) with rfl | h3
      · exact hp
      · exact hheld m h3 h2
    · rw [if_neg hp]
      exact ⟨Nat.le_refl l, fun m h1 h2 => absurd h2 (Nat.not_le.mpr h1), .inr (by simpa using hp)⟩

theorem storeBody_cases (m : Nat) (body : List Byte) (rb : Memory (List Byte)) :
    ((rb.get m).isSome = true ∧ storeBody m body rb = rb) ∨
    (rb.get m = none ∧ storeBody m body rb = rb.set m body) := by
  unfold storeBody
  by_cases h : (rb.get m).isSome = true
  · exact .inl ⟨h, if_pos h⟩
  · exact .inr ⟨by simpa using h, if_neg h⟩

theorem forall_get_storeBody {P : Nat → List Byte → Prop} {m : Nat} {body : List Byte}
    {rb : Memory (List Byte)} (h : ∀ j b, rb.get j = some b → P j b) (hm : P m body) :
    ∀ j b, (storeBody m body rb).get j = some b → P j b := by
  rcases storeBody_cases m body rb with ⟨-, e⟩ | ⟨-, e⟩ <;> rw [e]
  · exact h
  · exact Memory.forall_get_set h hm

theorem wf_storeBody {m : Nat} {body : List Byte} {rb : Memory (List Byte)} (h : rb.wf) :
    (storeBody m body rb).wf := by
  rcases storeBody_cases m body rb with ⟨-, e⟩ | ⟨-, e⟩ <;> rw [e]
  · exact h
  · exact Memory.wf_set m body h

/-! ### The sender -/

theorem startSender_storeInv (hs : startSender s = .ok t) (h : StoreInv s) : StoreInv t := by
  obtain ⟨-, ⟨-, rfl⟩ | ⟨hn, -, rfl⟩⟩ := startSender_eq_ok.mp hs
  · exact { h with widths := { h.widths with } }
  · have hn' : segments s.cfg s.txLen < 2 ^ 16 := hn.trans_lt (by rw [seqMax_eq]; decide)
    exact { h with
      fq := Nat.zero_le _, sw := Memory.wf_nil
      widths := { h.widths with
        nTx := hn', lar := Nat.two_pow_pos 16, lfs := Nat.two_pow_pos 16, scan := Nat.two_pow_pos 16,
        finCnt := Nat.zero_le 2, retries := nofun } }

theorem execHTransmit_storeInv {p : List Byte} (hs : execHTransmit p s = .next t) (h : StoreInv s) :
    StoreInv t := by
  rcases execHTransmit_next hs with rfl | ⟨-, -, rfl⟩ | ⟨-, -, hs⟩
  · exact h
  · exact { h with widths := { h.widths with } }
  · exact startSender_storeInv hs
      { h with txPayload := Memory.wf_ofList p, widths := { h.widths with txLen := fitted_lt 32 _ } }

theorem execTxStart_storeInv (hs : execTxStart s = .next t) (h : StoreInv s) : StoreInv t := by
  rcases execTxStart_next hs with rfl | ⟨-, hs⟩
  · exact h
  · exact startSender_storeInv hs h

theorem execTxSent0_storeInv (hs : execTxSent0 s = .next t) (h : StoreInv s) : StoreInv t := by
  rcases execTxSent0_next hs with rfl | ⟨-, ⟨-, hs⟩ | ⟨-, -, rfl⟩⟩
  · exact h
  · exact sendEntry_storeInv hs h
  · exact { h with widths := { h.widths with } }

theorem execTxLoop_storeInv (hs : execTxLoop s = .next t) (h : StoreInv s) : StoreInv t := by
  rcases execTxLoop_next hs with rfl | ⟨-, -, ⟨-, rfl⟩ | ⟨-, -, rfl⟩ | ⟨-, -, rfl⟩⟩
  · exact h
  · exact h.stopSender
  · exact { h with widths := { h.widths with finCnt := Nat.zero_le 2 } }
  · exact { h with widths := { h.widths with } }

theorem takeAck_storeInv {f : Frame} (hs : takeAck f s = .ok t) (h : StoreInv s) : StoreInv t := by
  rcases takeAck_eq_ok.mp hs with ⟨-, -, -, e, he, rfl⟩ | ⟨-, rfl⟩
  · have hr : e.retries ≤ s.cfg.retryMax := h.widths.retries _ e he
    exact { h with
      sw := Memory.wf_set _ _ h.sw
      widths := { h.widths with retries := Memory.forall_get_set h.widths.retries hr } }
  · cases isAck f
    · exact h
    · exact { h with widths := { h.widths with } }

theorem execTxDrain_storeInv (hs : execTxDrain s = .next t) (h : StoreInv s) : StoreInv t := by
  rcases execTxDrain_next hs with rfl | ⟨-, -, -, ⟨-, rfl⟩ | ⟨f, q, hq, hs⟩⟩
  · exact h
  · exact { h with widths := { h.widths with } }
  · exact takeAck_storeInv hs { h with fq := length_le_of_cons hq h.fq, widths := { h.widths with } }

theorem execTxSlide_storeInv (hs : execTxSlide s = .next t) (h : StoreInv s) : StoreInv t := by
  rcases execTxSlide_next hs with rfl | ⟨-, -, u, hu, rfl⟩
  · exact h
  · obtain ⟨k, sw, hk, rfl, hwf, hget, -, -⟩ := slideWhile_eq_ok h.sw hu
    have hlar : s.lar + k < 2 ^ 16 := by
      have := h.widths.lar
      have := h.widths.lfs
      omega
    have hret : ∀ m e, sw.get m = some e → e.retries ≤ s.cfg.retryMax := by
      intro m e he
      rw [hget] at he
      split at he
      · cases he
      · exact h.widths.retries m e he
    exact { h with
      sw := hwf, widths := { h.widths with lar := hlar, scan := fitted_lt 16 _, retries := hret } }

theorem sendData_storeInv {c : Caller} {m : Nat} (hs : sendData c m s = .ok t) (h : StoreInv s) : StoreInv t := by
  obtain ⟨f, -, hs⟩ := sendData_eq_ok.mp hs
  exact sendEntry_storeInv hs h

theorem StoreInv.abort (h : StoreInv s) : StoreInv (abort s) :=
  { h with sw := Memory.wf_nil, widths := { h.widths with retries := nofun } }

theorem examineEntry_storeInv (hs : examineEntry s = .ok t) (h : StoreInv s) : StoreInv t := by
  rcases examineEntry_eq_ok.mp hs with ⟨-, rfl⟩ | ⟨-, e, -, ⟨-, -, rfl⟩ | ⟨-, -, hs⟩ | ⟨-, rfl⟩⟩
  · exact { h with widths := { h.widths with } }
  · exact h.abort
  · exact sendData_storeInv hs h
  · exact { h with widths := { h.widths with scan := fitted_lt 16 _ } }

/-- A retry count within its range stays within it (R36). -/
theorem decrementRetries_le {n m : Nat} (hn : n ≤ m) (hm : m = s.cfg.retryMax) : (decrementRetries n s).1 ≤ m := by
  rcases decrementRetries_cases n s with ⟨-, e⟩ | ⟨-, r, hr, e⟩ <;> rw [e]
  · exact (Nat.sub_le n 1).trans hn
  · exact hr.trans hm.ge

theorem finishResend_storeInv (hs : finishResend s = .ok t) (h : StoreInv s) : StoreInv t := by
  obtain ⟨e, he, rfl⟩ := finishResend_eq_ok.mp hs
  have hr : (decrementRetries e.retries s).1 ≤ s.cfg.retryMax :=
    decrementRetries_le (h.widths.retries _ e he) rfl
  exact { h with
    sw := Memory.wf_set _ _ h.sw
    widths := { h.widths with
      scan := fitted_lt 16 _, retries := Memory.forall_get_set h.widths.retries hr } }

theorem execTxRetx_storeInv (hs : execTxRetx s = .next t) (h : StoreInv s) : StoreInv t := by
  rcases execTxRetx_next hs with rfl | ⟨-, ⟨-, hs⟩ | ⟨-, -, hs⟩⟩
  · exact h
  · exact examineEntry_storeInv hs h
  · exact finishResend_storeInv hs h

theorem windowOpen_iff : windowOpen s = true ↔ s.lfs - s.lar < s.cfg.windowSize ∧ s.lfs < s.nTx :=
  decide_eq_true_iff

theorem StoreInv.finishNew (h : StoreInv s) : StoreInv (finishNew s) :=
  { h with
    sw := Memory.wf_set _ _ h.sw
    widths := { h.widths with
      retries := Memory.forall_get_set h.widths.retries (Nat.le_refl s.cfg.retryMax) } }

theorem execTxNew_storeInv (hs : execTxNew s = .next t) (h : StoreInv s) : StoreInv t := by
  rcases execTxNew_next hs with rfl | ⟨-, ⟨-, hw, hs⟩ | ⟨-, -, rfl⟩ | ⟨-, -, rfl⟩⟩
  · exact h
  · have hl : s.lfs + 1 < 2 ^ 16 := (Nat.succ_le_of_lt (windowOpen_iff.mp hw).2).trans_lt h.widths.nTx
    exact sendData_storeInv hs { h with widths := { h.widths with lfs := hl } }
  · exact { h with widths := { h.widths with } }
  · exact h.finishNew

theorem execTxFin_storeInv (hs : execTxFin s = .next t) (h : StoreInv s) : StoreInv t := by
  rcases execTxFin_next hs with rfl | ⟨-, ⟨-, hs⟩ | ⟨-, -, rfl⟩⟩
  · exact h
  · exact sendEntry_storeInv hs h
  · rcases finishFin_cases s with ⟨-, e⟩ | ⟨-, e⟩ <;> rw [e]
    · exact { h with widths := { h.widths with finCnt := Nat.le_refl 2 } }
    · exact { h with widths := { h.widths with finCnt := fittedUpTo_le 2 _ } }

theorem execTxAbort_storeInv (hs : execTxAbort s = .next t) (h : StoreInv s) : StoreInv t := by
  rcases execTxAbort_next hs with rfl | ⟨-, -, -, rfl⟩
  · exact h
  · exact h.abort

theorem execTxStop_storeInv (hs : execTxStop s = .next t) (h : StoreInv s) : StoreInv t := by
  rcases execTxStop_next hs with rfl | ⟨-, rfl⟩
  · exact h
  · exact h.stopSender

/-! ### The receiver -/

theorem startReceiver_storeInv (hs : startReceiver s = .ok t) (h : StoreInv s) : StoreInv t := by
  obtain ⟨-, -, rfl⟩ := startReceiver_eq_ok.mp hs
  exact { h with
    fq := Nat.zero_le _, rb := Memory.wf_nil, rxPayload := Memory.wf_nil
    widths := { h.widths with
      lfr := Nat.two_pow_pos 16, nExp := Nat.two_pow_pos 16, keys := nofun,
      rxPayloadLen := Nat.two_pow_pos 32 } }

theorem execHReceive_storeInv (hs : execHReceive s = .next t) (h : StoreInv s) : StoreInv t := by
  rcases execHReceive_next hs with rfl | ⟨-, hs⟩
  · exact h
  · exact startReceiver_storeInv hs h

theorem execRxStart_storeInv (hs : execRxStart s = .next t) (h : StoreInv s) : StoreInv t := by
  rcases execRxStart_next hs with rfl | ⟨-, hs⟩
  · exact h
  · exact startReceiver_storeInv hs h

theorem StoreInv.assemble (h : StoreInv s) : StoreInv (assemble s) :=
  { h with
    rb := Memory.wf_nil, rxPayload := Memory.wf_ofList _
    widths := { h.widths with keys := nofun, rxPayloadLen := fitted_lt 32 _ } }

theorem takeSentinel_storeInv {f : Frame} (hs : takeSentinel f s = .ok t) (h : StoreInv s) : StoreInv t := by
  obtain ⟨hi, lo, rest, -, rfl⟩ := takeSentinel_eq_ok.mp hs
  have hn : hi.toNat * 256 + lo.toNat < 2 ^ 16 := by omega
  have hc : StoreInv { s with nExp := hi.toNat * 256 + lo.toNat, countKnown := true } :=
    { h with widths := { h.widths with nExp := hn } }
  split
  · exact hc.assemble
  · exact hc

theorem takeData_storeInv {f : Frame} (hs : takeData f s = .ok t) (h : StoreInv s) : StoreInv t := by
  obtain ⟨-, -, rfl⟩ := takeData_eq_ok.mp hs
  have hkeys : ∀ m b, (storeBody (seqMag f.seq) f.body s.rb).get m = some b → m < 2 ^ 16 :=
    forall_get_storeBody h.widths.keys ((seqMag_le f.seq).trans_lt (by decide))
  obtain ⟨hle, hheld, -⟩ :=
    advance_spec (storeBody (seqMag f.seq) f.body s.rb).length (storeBody (seqMag f.seq) f.body s.rb) s.lfr
  have hlfr : advance (storeBody (seqMag f.seq) f.body s.rb).length (storeBody (seqMag f.seq) f.body s.rb) s.lfr
      < 2 ^ 16 := by
    rcases Nat.eq_or_lt_of_le hle with e | hlt
    · exact e ▸ h.widths.lfr
    · obtain ⟨b, hb⟩ := Option.isSome_iff_exists.mp (hheld _ hlt (Nat.le_refl _))
      exact hkeys _ b hb
  exact { h with rb := wf_storeBody h.rb, widths := { h.widths with lfr := hlfr, keys := hkeys } }

theorem takeFrame_storeInv {f : Frame} (hs : takeFrame f s = .ok t) (h : StoreInv s) : StoreInv t := by
  rcases takeFrame_cases hs with ⟨-, hs⟩ | ⟨-, hs⟩ | rfl
  · exact takeSentinel_storeInv hs h
  · exact takeData_storeInv hs h
  · exact h

theorem execRxPop_storeInv (hs : execRxPop s = .next t) (h : StoreInv s) : StoreInv t := by
  rcases execRxPop_next hs with rfl | ⟨-, -, -, rfl⟩ | ⟨-, -, -, -, f, q, hq, hs⟩
  · exact h
  · exact h.stopReceiver
  · exact takeFrame_storeInv hs { h with fq := length_le_of_cons hq h.fq, widths := { h.widths with } }

theorem execRxSent_storeInv {f : Frame} (hs : execRxSent f s = .next t) (h : StoreInv s) : StoreInv t := by
  rcases execRxSent_next hs with rfl | ⟨-, -, -, -, hs⟩
  · exact h
  · exact takeSentinel_storeInv hs h

theorem execRxData_storeInv {f : Frame} (hs : execRxData f s = .next t) (h : StoreInv s) : StoreInv t := by
  rcases execRxData_next hs with rfl | ⟨-, -, -, rfl⟩ | ⟨-, -, -, hs⟩
  · exact h
  · exact { h with widths := { h.widths with } }
  · exact takeData_storeInv hs h

theorem execRxDone_storeInv (hs : execRxDone s = .next t) (h : StoreInv s) : StoreInv t := by
  rcases execRxDone_next hs with rfl | ⟨-, rfl⟩
  · exact h
  · exact h.assemble

theorem execRxStop_storeInv (hs : execRxStop s = .next t) (h : StoreInv s) : StoreInv t := by
  rcases execRxStop_next hs with rfl | ⟨-, rfl⟩
  · exact h
  · exact h.stopReceiver

/-! ### Reset, and every instruction -/

theorem storeInv_resetOf (c : Config) : StoreInv (State.resetOf c) where
  inq := Nat.zero_le _
  outq := Nat.zero_le _
  fq := Nat.zero_le _
  sh := List.length_replicate
  locks := ⟨.inl rfl, .inl rfl, .inl rfl⟩
  win := Memory.wf_nil
  rxBody := Memory.wf_nil
  sw := Memory.wf_nil
  rb := Memory.wf_nil
  txPayload := Memory.wf_nil
  rxPayload := Memory.wf_nil
  widths :=
    { wfill := Nat.zero_le _, scnt := .inl rfl, bcnt := Nat.two_pow_pos 20, txLen := Nat.two_pow_pos 32,
      nTx := Nat.two_pow_pos 16, lar := Nat.two_pow_pos 16, lfs := Nat.two_pow_pos 16, scan := Nat.two_pow_pos 16,
      finCnt := Nat.zero_le 2, retries := nofun, lfr := Nat.two_pow_pos 16, nExp := Nat.two_pow_pos 16,
      keys := nofun, rxPayloadLen := Nat.two_pow_pos 32 }
  period := periodInv_of_none rfl

theorem storeInv_resetBlock (s : State) : StoreInv (resetBlock s) :=
  have h := storeInv_resetOf s.cfg
  { h with widths := { h.widths with } }

theorem StoreInv.answer (h : StoreInv s) (o : Output) : StoreInv (s.answer o) :=
  { h with widths := { h.widths with } }

theorem settle_answer_storeInv {α : Type} {a : Act α} {f : α → Output}
    (hs : settle s (a.andThen fun x => .ok (s.answer (f x))) = .next t) (h : StoreInv s) : StoreInv t := by
  rcases settle_answer hs with rfl | ⟨o, rfl⟩
  · exact h
  · exact h.answer o

theorem receiveWire_storeInv {f : Frame} {crc : BitVec 32} (hs : settle s (receiveWire f crc s) = .next t)
    (h : StoreInv s) : StoreInv t :=
  settle_demStore hs h fun _ hu => ⟨receiveWire_writes hu, receiveWire_demStore hu⟩

theorem exec_storeInv {i : Instr} (hs : exec i s = .next t) (h : StoreInv s) : StoreInv t := by
  cases i with
  | rxEcho | rxOther => exact Host.Outcome.next.inj hs ▸ h
  | hStatus | modBits | demSlice => exact Host.Outcome.next.inj hs ▸ h.answer _
  | hReset => exact Host.Outcome.next.inj hs ▸ storeInv_resetBlock s
  | tbTick | csEval =>
    obtain rfl := Host.Outcome.next.inj hs
    exact { h with widths := { h.widths with } }
  | hTransmit => exact execHTransmit_storeInv hs h
  | hReceive => exact execHReceive_storeInv hs h
  | hStop =>
    rcases execHStop_next hs with rfl | ⟨-, rfl⟩
    · exact h
    · exact { h with widths := { h.widths with } }
  | abPeriod => exact execAbPeriod_storeInv hs h
  | abIn => exact execAbIn_storeInv hs h
  | abOut => exact execAbOut_storeInv hs h
  | qAcq => exact execQAcq_storeInv hs h
  | qRel =>
    obtain ⟨-, rfl⟩ := execQRel_next hs
    exact h.release _
  | qPush => exact execQPush_storeInv hs h
  | qPop => exact execQPop_storeInv hs h
  | modSend => exact execModSend_storeInv hs h
  | modWaitq => exact execModWaitq_storeInv hs h
  | modEmit => exact execModEmit_storeInv hs h
  | modDrain => exact execModDrain_storeInv hs h
  | demStep => exact h.of_demWrites (execDemStep_writes hs) (execDemStep_demStore hs h.demStore)
  | demSearch => exact settle_demStore hs h fun _ hu => ⟨demSearch_writes hu, demSearch_demStore hu⟩
  | demHeader x =>
    obtain rfl := Host.Outcome.next.inj hs
    exact h.of_demWrites (demWrites_header x s) (h.demStore.header x)
  | demBody => exact settle_demStore hs h fun _ hu => ⟨demBody_writes hu, demBody_demStore hu⟩
  | demCrc => exact settle_demStore hs h fun _ hu => ⟨demCrc_writes hu, demCrc_demStore hu⟩
  | demEmit => exact settle_demStore hs h fun _ hu => ⟨emitFrame_writes hu, emitFrame_demStore hu⟩
  | demDiscard =>
    obtain rfl := Host.Outcome.next.inj hs
    exact h.of_demWrites ⟨rfl, .of_eq rfl⟩ h.demStore.toSearch
  | demCorr | fcDecode => exact settle_answer_storeInv hs h
  | fcPack =>
    obtain ⟨o, rfl⟩ := execFcPack_next hs
    exact h.answer o
  | fcCrc32 =>
    obtain ⟨o, rfl⟩ := execFcCrc32_next hs
    exact h.answer o
  | fcEncode =>
    obtain ⟨o, rfl⟩ := execFcEncode_next hs
    exact h.answer o
  | txStart => exact execTxStart_storeInv hs h
  | txSent0 => exact execTxSent0_storeInv hs h
  | txLoop => exact execTxLoop_storeInv hs h
  | txDrain => exact execTxDrain_storeInv hs h
  | txSlide => exact execTxSlide_storeInv hs h
  | txRetx => exact execTxRetx_storeInv hs h
  | txNew => exact execTxNew_storeInv hs h
  | txFin => exact execTxFin_storeInv hs h
  | txAbort => exact execTxAbort_storeInv hs h
  | txStop => exact execTxStop_storeInv hs h
  | rxStart => exact execRxStart_storeInv hs h
  | rxPop => exact execRxPop_storeInv hs h
  | rxSent => exact execRxSent_storeInv hs h
  | rxData => exact execRxData_storeInv hs h
  | rxDone => exact execRxDone_storeInv hs h
  | rxStop => exact execRxStop_storeInv hs h
  | fSent | fAck | fData | fRsv => exact receiveWire_storeInv hs h

theorem execOverlong_storeInv {len seq : BitVec 16} (hs : execOverlong len seq s = .next t) (h : StoreInv s) :
    StoreInv t := by
  unfold execOverlong at hs
  split at hs
  · obtain rfl := Host.Outcome.next.inj hs
    exact h.of_demWrites (demWrites_rejectHeader _ s) (h.demStore.rejectHeader _)
  · obtain rfl := Host.Outcome.next.inj hs
    exact h

end Sys2Proof.Machine

open Sys2Proof Sys2Proof.Machine

/-- Settles O55, by what the next slot of the schedule is: nothing, an instruction, a header that is too long, or
bytes that are refused. -/
theorem everyStepKeepsTheStorageWellFormed : Obligations.EveryStepKeepsTheStorageWellFormed := by
  intro s t h hs
  cases hl : s.sched with
  | nil => exact Host.Outcome.next.inj ((step_of_nil hl).symm.trans hs) ▸ h
  | cons p l =>
    have h' : StoreInv { s with sched := l } := { h with widths := { h.widths with } }
    cases hd : decode s.cfg p with
    | ok i => exact exec_storeInv ((step_of_decode_ok hl hd).symm.trans hs) h'
    | error e =>
      by_cases he : ∃ len seq, e = .overlong len seq
      · obtain ⟨len, seq, rfl⟩ := he
        exact execOverlong_storeInv ((step_of_overlong hl hd).symm.trans hs) h'
      · have hr := step_of_undecodable hl hd fun len seq hn => he ⟨len, seq, hn⟩
        exact nomatch hr.symm.trans hs

end

section
/-! The demodulator's invariant (R22, R23, R28, R43, R44): every step of an agent keeps it, and from it no operation of
the demodulator faults. -/

namespace Sys2Proof.Machine

variable {s t u : State}

theorem frame_ok_iff {c : Config} {f : Frame} :
    Frame.ok c f = true ↔ f.len.toNat = f.body.length ∧ f.body.length ≤ c.maxBody := by
  simp [Frame.ok]

/-! ### Where another agent has written -/

theorem AudioWrites.demInv (w : AudioWrites s t) (h : DemInv s) : DemInv t := by
  rw [w.eq]
  exact { h with }

theorem SeqWrites.demInv (w : SeqWrites s t) (h : DemInv s) : DemInv t := by
  have hfq : ∀ f ∈ t.fq, Frame.ok s.cfg f = true := fun f hf => h.fq f (w.fq.subset hf)
  rw [w.eq]
  exact { h with fq := hfq }

theorem DemInv.setLock (h : DemInv s) (q : QueueId) (l : Option Agent) : DemInv (s.setLock q l) := by
  cases q <;> exact { h with }

/-! ### The demodulator's own operations -/

/-- Back to searching, nothing of the last frame matters (R165). -/
theorem demInv_toSearch (hk : 0 < s.cfg.k) (hfq : ∀ f ∈ s.fq, Frame.ok s.cfg f = true) : DemInv s.toSearch where
  wfill := Nat.zero_le _
  empty _ := rfl
  win i := by simp
  scnt := hk
  search _ := ⟨rfl, rfl, rfl⟩
  header h := nomatch h
  body h := nomatch h
  crc h := nomatch h
  fq := hfq

/-- Synchronization begins a header (R156). -/
theorem DemInv.synchronize (h : DemInv s) : DemInv (synchronize s) where
  wfill := Nat.zero_le _
  empty _ := rfl
  win i := by simp [Machine.synchronize]
  scnt := Nat.zero_lt_of_lt h.scnt
  search h := nomatch h
  header _ := Nat.zero_lt_succ 31
  body h := nomatch h
  crc h := nomatch h
  fq := h.fq

theorem slideWindow_demInv {x : Sample} (hs : slideWindow x s = .ok t) (h : DemInv s) (hpk : 0 < s.cfg.pk)
    (hd : s.demState = .search) : DemInv t := by
  rcases slideWindow_eq_ok.mp hs with ⟨hl, rfl⟩ | ⟨hl, xs, hx, rfl⟩
  · refine { h with wfill := hl, empty := fun hn => absurd hd hn, win := fun i => ?_ }
    show ((s.win.set s.wfill x).get i).isSome = true ↔ i < s.wfill + 1
    have hw := h.win i
    rw [Memory.get_set]
    by_cases hi : i = s.wfill
    · simp [hi]
    · rw [if_neg hi, hw]
      omega
  · have hfull : s.wfill = s.cfg.pk := Nat.le_antisymm h.wfill hl
    obtain ⟨hlen, -⟩ := Memory.range_eq_some.mp hx
    refine { h with win := fun i => ?_ }
    show ((Memory.ofList (xs ++ [x])).get i).isSome = true ↔ i < s.wfill
    simp
    omega

theorem demSearch_demInv {x : Sample} (hs : demSearch x s = .ok t) (h : DemInv s) (hpk : 0 < s.cfg.pk)
    (hd : s.demState = .search) : DemInv t := by
  obtain ⟨u, hu, ⟨-, v, -, rfl⟩ | ⟨-, rfl⟩⟩ := demSearch_eq_ok.mp hs
  · have d := slideWindow_demInv hu h hpk hd
    cases v
    · exact d
    · exact d.synchronize
  · exact slideWindow_demInv hu h hpk hd

/-- The integrator keeps the invariant while a frame is read. -/
theorem DemInv.integrate (h : DemInv s) (hd : s.demState ≠ .search) (x : Sample) : DemInv (integrate x s).2 := by
  rcases integrate_cases x s with ⟨hl, e⟩ | ⟨-, e⟩ <;> rw [e]
  · exact { h with scnt := hl, search := fun hn => absurd hn hd }
  · exact { h with scnt := Nat.zero_lt_of_lt h.scnt, search := fun hn => absurd hn hd }

@[simp] theorem integrate_demState (x : Sample) (s : State) : (integrate x s).2.demState = s.demState := by
  rcases integrate_cases x s with ⟨-, e⟩ | ⟨-, e⟩ <;> rw [e]

theorem fitted_succ {w n m : Nat} (hn : n < m) (hm : m < 2 ^ w) : fitted w (n + 1) = n + 1 :=
  fitted_of_lt (Nat.lt_of_le_of_lt hn hm)

/-- The latch overwrites the count, so that it does not matter what the count was (R160). -/
theorem DemInv.latchHeader (h : DemInv s) (hd : s.demState = .header) (v : BitVec 32) (n : Nat) :
    DemInv (latchHeader { s with hdr := v, bcnt := n }) := by
  have hf : s.wfill = 0 := h.empty (hd ▸ nofun)
  rcases latchHeader_cases { s with hdr := v, bcnt := n } with ⟨-, e⟩ | ⟨hl, hz, e⟩ | ⟨hl, hz, e⟩ <;> rw [e]
  · exact demInv_toSearch (Nat.zero_lt_of_lt h.scnt) h.fq
  · have hz' := congrArg BitVec.toNat hz
    exact { h with
      empty := fun _ => hf, search := nofun, header := nofun, body := nofun
      crc := fun _ => ⟨hl, Nat.zero_lt_succ 31, fun i hi => absurd (hi.trans_eq hz') (Nat.not_lt_zero i)⟩ }
  · have hz' := Nat.pos_of_ne_zero fun hn => hz (BitVec.eq_of_toNat_eq hn)
    exact { h with
      empty := fun _ => hf, search := nofun, header := nofun, crc := nofun
      body := fun _ => ⟨hl, Nat.mul_pos (Nat.zero_lt_succ 7) hz',
        fun i (hi : i < 0 / 8) => absurd hi (Nat.not_lt_zero i)⟩ }

theorem DemInv.headerBit (h : DemInv s) (hd : s.demState = .header) (b : Bool) : DemInv (headerBit b s) := by
  have hlt := h.header hd
  have hb : fitted 20 (s.bcnt + 1) = s.bcnt + 1 := fitted_succ hlt (by decide)
  rcases headerBit_cases b s with ⟨-, e⟩ | ⟨h32, e⟩ <;> rw [e]
  · exact h.latchHeader hd _ _
  · have hl : fitted 20 (s.bcnt + 1) < 32 := by omega
    exact { h with
      search := (fun hn => nomatch hd.symm.trans hn), header := fun _ => hl,
      body := (fun hn => nomatch hd.symm.trans hn), crc := (fun hn => nomatch hd.symm.trans hn) }

theorem DemInv.demHeader (h : DemInv s) (hd : s.demState = .header) (x : Sample) : DemInv (demHeader x s) := by
  have hi := h.integrate (by simp [hd]) x
  rcases demHeader_cases x s with e | ⟨b, e⟩ <;> rw [e]
  · exact hi
  · exact hi.headerBit (by simp [hd]) b

/-- The body's bytes are held up to the last full one (R162). -/
theorem bodyCells_succ {m : Memory Byte} {n : Nat} (h : ∀ i, i < n / 8 → (m.get i).isSome = true) (v : Byte) :
    ∀ i, i < (n + 1) / 8 →
      ((if (n + 1) % 8 = 0 then m.set ((n + 1) / 8 - 1) v else m).get i).isSome = true := by
  intro i hi
  by_cases h8 : (n + 1) % 8 = 0
  · rw [if_pos h8, Memory.get_set]
    split
    · rfl
    · exact h i (by omega)
  · rw [if_neg h8]
    exact h i (by omega)

/-- While a body is read, its count fits the register. -/
theorem DemInv.body_count (h : DemInv s) (hd : s.demState = .body) : fitted 20 (s.bcnt + 1) = s.bcnt + 1 := by
  obtain ⟨-, hlt, -⟩ := h.body hd
  have hr : s.rxLen.toNat < 2 ^ 16 := s.rxLen.isLt
  exact fitted_succ hlt (by omega)

theorem bodyBit_demInv {b : Bool} (hs : bodyBit b s = .ok t) (h : DemInv s) (hd : s.demState = .body) :
    DemInv t := by
  obtain ⟨-, rfl⟩ := bodyBit_eq_ok.mp hs
  rw [h.body_count hd]
  obtain ⟨hmax, hlt, hheld⟩ := h.body hd
  have hf : s.wfill = 0 := h.empty (hd ▸ nofun)
  have hcells := bodyCells_succ hheld (shiftIn s.rxCur b)
  by_cases he : s.bcnt + 1 = 8 * s.rxLen.toNat
  · simp only [if_pos he]
    exact { h with
      empty := fun _ => hf, search := nofun, header := nofun, body := nofun
      crc := fun _ => ⟨hmax, Nat.zero_lt_succ 31, fun i (hi : i < s.rxLen.toNat) => hcells i (by omega)⟩ }
  · simp only [if_neg he]
    have hlt' : s.bcnt + 1 < 8 * s.rxLen.toNat := by omega
    exact { h with
      search := (fun hn => nomatch hd.symm.trans hn), header := (fun hn => nomatch hd.symm.trans hn)
      body := fun _ => ⟨hmax, hlt', hcells⟩, crc := (fun hn => nomatch hd.symm.trans hn) }

theorem demBody_demInv {x : Sample} (hs : demBody x s = .ok t) (h : DemInv s) (hd : s.demState = .body) :
    DemInv t := by
  have hi := h.integrate (by simp [hd]) x
  rcases demBody_cases x s with e | ⟨b, e⟩ <;> rw [e] at hs
  · exact Except.ok.inj hs ▸ hi
  · exact bodyBit_demInv hs hi (by simp [hd])

/-- A frame that passes the CRC is admissible, and the demodulator searches again (R163, R165, R167). -/
theorem checkCrc_demInv (hs : checkCrc s = .ok t) (hk : 0 < s.cfg.k) (hfq : ∀ f ∈ s.fq, Frame.ok s.cfg f = true)
    (hmax : s.rxLen.toNat ≤ s.cfg.maxBody) : DemInv t := by
  obtain ⟨-, -, ⟨-, hs⟩ | ⟨-, rfl⟩⟩ := checkCrc_eq_ok.mp hs
  · obtain ⟨body, hb, -, rfl⟩ := emitFrame_eq_ok.mp hs
    obtain ⟨hlen, -⟩ := Memory.range_eq_some.mp hb
    have hok : Frame.ok s.cfg { len := s.rxLen, seq := s.rxSeq, body } = true :=
      frame_ok_iff.mpr ⟨hlen.symm, hlen.trans_le hmax⟩
    rcases pushFq_cases { len := s.rxLen, seq := s.rxSeq, body } s with ⟨-, e⟩ | ⟨-, e⟩ <;> rw [e]
    · refine demInv_toSearch hk fun f hf => ?_
      rcases List.mem_append.mp hf with hf | hf
      · exact hfq f hf
      · exact List.mem_singleton.mp hf ▸ hok
    · exact demInv_toSearch hk hfq
  · exact demInv_toSearch hk hfq

theorem crcFieldBit_demInv {b : Bool} (hs : crcFieldBit b s = .ok t) (h : DemInv s) (hd : s.demState = .crc) :
    DemInv t := by
  obtain ⟨hmax, hlt, hheld⟩ := h.crc hd
  have hb : fitted 20 (s.bcnt + 1) = s.bcnt + 1 := fitted_succ hlt (by decide)
  rcases crcFieldBit_eq_ok.mp hs with ⟨-, hs⟩ | ⟨h32, rfl⟩
  · exact checkCrc_demInv hs (Nat.zero_lt_of_lt h.scnt) h.fq hmax
  · have hl : fitted 20 (s.bcnt + 1) < 32 := by omega
    exact { h with
      search := (fun hn => nomatch hd.symm.trans hn), header := (fun hn => nomatch hd.symm.trans hn)
      body := (fun hn => nomatch hd.symm.trans hn), crc := fun _ => ⟨hmax, hl, hheld⟩ }

theorem demCrc_demInv {x : Sample} (hs : demCrc x s = .ok t) (h : DemInv s) (hd : s.demState = .crc) :
    DemInv t := by
  have hi := h.integrate (by simp [hd]) x
  rcases demCrc_cases x s with e | ⟨b, e⟩ <;> rw [e] at hs
  · exact Except.ok.inj hs ▸ hi
  · exact crcFieldBit_demInv hs hi (by simp [hd])

theorem demAct_demInv {x : Sample} (hs : demAct x s = .ok t) (h : DemInv s) (hpk : 0 < s.cfg.pk) : DemInv t := by
  unfold demAct at hs
  split at hs
  case h_1 hd => exact demSearch_demInv hs h hpk hd
  case h_2 hd => exact Except.ok.inj hs ▸ h.demHeader hd x
  case h_3 hd => exact demBody_demInv hs h hd
  case h_4 hd => exact demCrc_demInv hs h hd

theorem execDemStep_demInv (hs : execDemStep s = .next t) (h : DemInv s) (hpk : 0 < s.cfg.pk) : DemInv t := by
  rcases execDemStep_next hs with rfl | ⟨-, x, q, -, hs⟩
  · exact h
  · exact demAct_demInv hs { h with } hpk

theorem receiveWire_demInv {f : Frame} {crc : BitVec 32} (hs : settle s (receiveWire f crc s) = .next t)
    (h : DemInv s) : DemInv t := by
  have hk : 0 < s.cfg.k := Nat.zero_lt_of_lt h.scnt
  rcases wire_next hs with rfl | hs
  · exact h
  · obtain ⟨-, -, ⟨-, rfl⟩ | ⟨hmax, hs⟩⟩ := receiveWire_eq_ok.mp hs
    · exact demInv_toSearch hk h.fq
    · exact checkCrc_demInv hs hk h.fq hmax

theorem demInv_resetOf {c : Config} (hk : 0 < c.k) : DemInv (State.resetOf c) where
  wfill := Nat.zero_le _
  empty _ := rfl
  win i := by simp [State.resetOf]
  scnt := hk
  search _ := ⟨rfl, rfl, rfl⟩
  header h := nomatch h
  body h := nomatch h
  crc h := nomatch h
  fq f hf := nomatch hf

/-! ### No operation of the demodulator faults -/

theorem receivedBody_ne_fault {r : Fault} (h : ∀ i, i < s.rxLen.toNat → (s.rxBody.get i).isSome = true) :
    receivedBody s ≠ .error (.fault r) := by
  obtain ⟨l, hl⟩ := Memory.range_isSome (lo := 0) fun i hi => by simpa using h i hi
  simp [receivedBody, hl]

theorem emitFrame_ne_fault {r : Fault} (h : ∀ i, i < s.rxLen.toNat → (s.rxBody.get i).isSome = true) :
    emitFrame s ≠ .error (.fault r) := by
  intro hr
  rcases Act.andThen_eq_error.mp hr with hr | ⟨body, -, hr⟩
  · exact receivedBody_ne_fault h hr
  · nomatch (withLock_eq_fault.mp hr).2

theorem checkCrc_ne_fault {r : Fault} (h : ∀ i, i < s.rxLen.toNat → (s.rxBody.get i).isSome = true) :
    checkCrc s ≠ .error (.fault r) := by
  intro hr
  rcases Act.andThen_eq_error.mp hr with hr | ⟨body, -, hr⟩
  · exact receivedBody_ne_fault h hr
  · split at hr
    · exact emitFrame_ne_fault h hr
    · cases hr

theorem slideWindow_ne_fault {x : Sample} {r : Fault} (h : DemInv s) : slideWindow x s ≠ .error (.fault r) := by
  unfold slideWindow
  split
  · nofun
  · rename_i hl
    have hfull : s.wfill = s.cfg.pk := Nat.le_antisymm h.wfill (Nat.le_of_not_lt hl)
    obtain ⟨xs, hx⟩ := Memory.range_isSome (m := s.win) (lo := 1) (n := s.cfg.pk - 1)
      fun i hi => (h.win _).mpr (by omega)
    rw [hx]
    nofun

theorem correlate_ne_fault {r : Fault} (h : DemInv s) (hf : s.wfill = s.cfg.pk) :
    correlate s ≠ .error (.fault r) := by
  obtain ⟨xs, hx⟩ := Memory.range_isSome (m := s.win) (lo := 0) (n := s.cfg.pk)
    fun i hi => (h.win _).mpr (by omega)
  unfold correlate
  rw [if_pos hf, hx]
  nofun

theorem demSearch_ne_fault {x : Sample} {r : Fault} (h : DemInv s) (hpk : 0 < s.cfg.pk)
    (hd : s.demState = .search) : demSearch x s ≠ .error (.fault r) := by
  intro hr
  rcases Act.andThen_eq_error.mp hr with hr | ⟨u, hu, hr⟩
  · exact slideWindow_ne_fault h hr
  · split at hr
    · rename_i hf
      rcases Act.andThen_eq_error.mp hr with hr | ⟨v, -, hr⟩
      · exact correlate_ne_fault (slideWindow_demInv hu h hpk hd) hf hr
      · cases hr
    · cases hr

theorem bodyBit_ne_fault {b : Bool} {r : Fault} (h : DemInv s) (hd : s.demState = .body) :
    bodyBit b s ≠ .error (.fault r) := by
  obtain ⟨hmax, hlt, -⟩ := h.body hd
  have hb := h.body_count hd
  have hcell : fitted 20 (s.bcnt + 1) % 8 = 0 →
      8 ≤ fitted 20 (s.bcnt + 1) ∧ fitted 20 (s.bcnt + 1) ≤ 8 * s.cfg.maxBody := by
    intro h8
    omega
  rw [bodyBit_eq_ok.mpr ⟨hcell, rfl⟩]
  nofun

theorem crcFieldBit_ne_fault {b : Bool} {r : Fault} (h : DemInv s) (hd : s.demState = .crc) :
    crcFieldBit b s ≠ .error (.fault r) := by
  obtain ⟨-, -, hheld⟩ := h.crc hd
  unfold crcFieldBit
  dsimp only
  split
  · exact checkCrc_ne_fault hheld
  · nofun

theorem demAct_ne_fault {x : Sample} {r : Fault} (h : DemInv s) (hpk : 0 < s.cfg.pk) :
    demAct x s ≠ .error (.fault r) := by
  unfold demAct
  split
  case h_1 hd => exact demSearch_ne_fault h hpk hd
  case h_2 hd => nofun
  case h_3 hd =>
    have hi := h.integrate (by simp [hd]) x
    rcases demBody_cases x s with e | ⟨b, e⟩ <;> rw [e]
    · nofun
    · exact bodyBit_ne_fault hi (by simp [hd])
  case h_4 hd =>
    have hi := h.integrate (by simp [hd]) x
    rcases demCrc_cases x s with e | ⟨b, e⟩ <;> rw [e]
    · nofun
    · exact crcFieldBit_ne_fault hi (by simp [hd])

theorem execDemStep_ne_fault {r : Fault} (h : DemInv s) (hpk : 0 < s.cfg.pk) : execDemStep s ≠ .fault r := by
  intro hr
  obtain ⟨-, hr⟩ := withLock_eq_fault.mp (settle_eq_fault.mp hr)
  split at hr
  · cases hr
  · exact absurd hr (demAct_ne_fault { h with } hpk)

/-- A frame on the wire brings all the bytes of its body (log 17). -/
theorem receiveWire_ne_fault {f : Frame} {crc : BitVec 32} {r : Fault} :
    settle s (receiveWire f crc s) ≠ .fault r := by
  intro hr
  have hr := settle_eq_fault.mp hr
  unfold receiveWire at hr
  split at hr
  · split at hr
    · rename_i hl
      split at hr
      · cases hr
      · refine checkCrc_ne_fault (fun i hi => ?_) hr
        have hi' : i < f.body.length := hl ▸ hi
        simpa using hi'
    · cases hr
  · cases hr

end Sys2Proof.Machine
end

section
/-! The sequencer's invariants (R26, R29, R30, R35 to R39, R43, R147, R218): phases, sender, receiver. Every step of an
agent keeps them. -/

namespace Sys2Proof.Machine

variable {s t u : State}

/-- The link invariant without the storage and the demodulator. -/
structure SeqInv (s : State) : Prop where
  phase : PhaseInv s
  send : SendInv s
  receive : ReceiveInv s

/-! ### Where another agent has written -/

theorem AudioWrites.seqInv (w : AudioWrites s t) (h : SeqInv s) : SeqInv t := by
  obtain ⟨hp, hs, hr⟩ := h
  rw [w.eq]
  exact ⟨{ hp with }, { hs with }, { hr with }⟩

theorem DemWrites.seqInv (w : DemWrites s t) (h : SeqInv s) : SeqInv t := by
  obtain ⟨hp, hs, hr⟩ := h
  rw [w.eq]
  exact ⟨{ hp with }, { hs with }, { hr with }⟩

theorem SeqInv.setLock (h : SeqInv s) (q : QueueId) (l : Option Agent) : SeqInv (s.setLock q l) := by
  obtain ⟨hp, hs, hr⟩ := h
  cases q <;> exact ⟨{ hp with }, { hs with }, { hr with }⟩

/-! ### What the phases say -/

theorem ArqPhase.ne_idle_of_isTx {p : ArqPhase} (h : p.isTx = true) : p ≠ .idle := by
  rintro rfl
  cases h

theorem ArqPhase.ne_idle_of_isRx {p : ArqPhase} (h : p.isRx = true) : p ≠ .idle := by
  rintro rfl
  cases h

theorem PhaseInv.sending_of_isTx (h : PhaseInv s) (hp : s.arqPhase.isTx = true) : s.sending :=
  ⟨by simpa using mt h.busy.mp (ArqPhase.ne_idle_of_isTx hp), h.tx hp⟩

theorem PhaseInv.receiving_of_isRx (h : PhaseInv s) (hp : s.arqPhase.isRx = true) : s.receiving :=
  ⟨by simpa using mt h.busy.mp (ArqPhase.ne_idle_of_isRx hp), h.rx hp⟩

theorem PhaseInv.caller_of_idle (h : PhaseInv s) (hm : s.modPhase = .idle) : s.caller = none :=
  h.caller.trans (if_pos hm)

theorem PhaseInv.txf_none (h : PhaseInv s) (hw : s.modPhase ≠ .waitq) (he : s.modPhase ≠ .emit) : s.txf = none :=
  Option.not_isSome_iff_eq_none.mp fun hn => (h.txf.mp hn).elim hw he

theorem PhaseInv.txf_of_idle (h : PhaseInv s) (hm : s.modPhase = .idle) : s.txf = none :=
  h.txf_none (hm ▸ nofun) (hm ▸ nofun)

theorem PhaseInv.txf_of_done (h : PhaseInv s) (hm : s.modPhase = .done) : s.txf = none :=
  h.txf_none (hm ▸ nofun) (hm ▸ nofun)

/-- The phases agree between two sends. -/
theorem phaseInv_between_sends (hm : t.modPhase = .idle) (hc : t.caller = none) (hf : t.txf = none)
    (hb : t.busy = false ↔ t.arqPhase = .idle) (htx : t.arqPhase.isTx = true → t.role = .sender)
    (hrx : t.arqPhase.isRx = true → t.role = .receiver) (ha : t.arqPhase ≠ .rxAck) : PhaseInv t where
  busy := hb
  tx := htx
  rx := hrx
  quietPhases _ := hm
  ack h := absurd h ha
  txf := by simp [hf, hm]
  frame f h := nomatch hf.symm.trans h
  caller := by rw [hc, if_pos hm]

/-- The phases agree at the entry of a send (R141). -/
theorem phaseInv_entered {f : Frame} {c : Caller} (hm : t.modPhase = .waitq) (hf : t.txf = some f)
    (hok : Frame.ok t.cfg f = true) (hc : t.caller = some c) (hp : t.arqPhase.caller = some c)
    (hb : t.busy = true) (htx : t.arqPhase.isTx = true → t.role = .sender)
    (hrx : t.arqPhase.isRx = true → t.role = .receiver) : PhaseInv t where
  busy := by
    rw [hb]
    refine ⟨nofun, fun hi => ?_⟩
    rw [hi] at hp
    cases hp
  tx := htx
  rx := hrx
  quietPhases hq := by
    cases ha : t.arqPhase <;> rw [ha] at hp hq <;> cases hp <;> cases hq
  ack _ := hm ▸ nofun
  txf := by simp [hf, hm]
  frame g hg := Option.some.inj (hf.symm.trans hg) ▸ hok
  caller := by rw [hc, hm, hp]; rfl

/-- A send goes on: the phases agree in the modulator's next phase (R144 to R146). -/
theorem PhaseInv.goesOn (h : PhaseInv s) {m : ModPhase} {f : Option Frame} (hs : s.modPhase ≠ .idle)
    (hm : m ≠ .idle) (hf : f.isSome = true ↔ m = .waitq ∨ m = .emit) (hff : f = s.txf ∨ f = none) :
    PhaseInv { s with modPhase := m, txf := f } :=
  { h with
    quietPhases := fun hq => absurd (h.quietPhases hq) hs
    ack := fun _ => hm
    txf := hf
    frame := fun g hg => by
      rcases hff with rfl | rfl
      · exact h.frame g hg
      · cases hg
    caller := by
      show s.caller = if m = .idle then none else _
      rw [if_neg hm, h.caller, if_neg hs] }

/-! ### What the sender's invariant says -/

theorem SendInv.window_iff (h : SendInv s) (hs : s.sending) (hn : ¬ s.newInFlight) (m : Nat) :
    (s.sw.get m).isSome = true ↔ s.lar < m ∧ m ≤ s.lfs := by
  simpa [hn] using h.domain hs m

theorem not_newInFlight_of_idle (hm : s.modPhase = .idle) : ¬ s.newInFlight := fun h => h.2 hm

theorem not_newInFlight_of_phase (hp : s.arqPhase ≠ .txNew) : ¬ s.newInFlight := fun h => hp h.1

/-- Where no transmit command runs the sender's invariant is about its cursors and an empty window. -/
theorem sendInv_of_not_sending (ho : t.lar ≤ t.lfs ∧ t.lfs ≤ t.nTx ∧ t.nTx ≤ t.cfg.seqMax)
    (hw : t.lfs - t.lar ≤ t.cfg.windowSize) (hs : ¬ t.sending) (he : t.sw = [])
    (hp : t.arqPhase.isTx = false) : SendInv t where
  order := ho
  window := hw
  domain h := absurd h hs
  idle _ := he
  retries m e h := by
    rw [he] at h
    cases h
  newest h := by
    rw [h.1] at hp
    cases hp
  scan h := by
    rw [h] at hp
    cases hp
  resend h := by
    rw [h] at hp
    cases hp
  fin h := by
    rw [h] at hp
    cases hp
  count h := absurd h hs
  payload h := absurd h hs

theorem receiveInv_of_not_receiving (hl : t.lfr ≤ t.cfg.seqMax) (hs : ¬ t.receiving) (he : t.rb = []) :
    ReceiveInv t where
  keys m b h := by
    rw [he] at h
    cases h
  lfr := hl
  below h := absurd h hs
  next h := absurd h hs
  idle _ := he

theorem not_receiving_of_sender (h : s.role = .sender) : ¬ s.receiving := fun hr => nomatch h.symm.trans hr.2

theorem not_sending_of_receiver (h : s.role = .receiver) : ¬ s.sending := fun hr => nomatch h.symm.trans hr.2

theorem not_sending_of_not_busy (h : s.busy = false) : ¬ s.sending := fun hr => nomatch h.symm.trans hr.1

theorem not_receiving_of_not_busy (h : s.busy = false) : ¬ s.receiving := fun hr => nomatch h.symm.trans hr.1

/-! ### The end of a command -/

/-- After the end of a command the cursors are as they were and the tables are empty (log 23). -/
theorem SeqInv.ended (h : SeqInv s)
    (hcur : (t.cfg, t.lar, t.lfs, t.nTx, t.lfr) = (s.cfg, s.lar, s.lfs, s.nTx, s.lfr))
    (hm : t.modPhase = .idle) (hc : t.caller = none) (hf : t.txf = none) (hb : t.busy = false)
    (hp : t.arqPhase = .idle) (hsw : t.sw = []) (hrb : t.rb = []) : SeqInv t := by
  simp only [Prod.mk.injEq] at hcur
  obtain ⟨ec, elar, elfs, en, elfr⟩ := hcur
  refine ⟨?_, ?_, ?_⟩
  · exact phaseInv_between_sends hm hc hf (by simp [hb, hp]) (by simp [hp, ArqPhase.isTx])
      (by simp [hp, ArqPhase.isRx]) (hp ▸ nofun)
  · exact sendInv_of_not_sending (by rw [ec, elar, elfs, en]; exact h.send.order)
      (by rw [ec, elar, elfs]; exact h.send.window) (not_sending_of_not_busy hb) hsw (by rw [hp]; rfl)
  · exact receiveInv_of_not_receiving (by rw [ec, elfr]; exact h.receive.lfr) (not_receiving_of_not_busy hb) hrb

theorem SeqInv.rb_of_sender (h : SeqInv s) (hr : s.role = .sender) : s.rb = [] :=
  h.receive.idle (not_receiving_of_sender hr)

theorem SeqInv.sw_of_receiver (h : SeqInv s) (hr : s.role = .receiver) : s.sw = [] :=
  h.send.idle (not_sending_of_receiver hr)

theorem SeqInv.stopSender (h : SeqInv s) (hr : s.role = .sender) : SeqInv (stopSender s) :=
  h.ended rfl rfl rfl rfl rfl rfl rfl (h.rb_of_sender hr)

theorem SeqInv.stopReceiver (h : SeqInv s) (hr : s.role = .receiver) : SeqInv (stopReceiver s) :=
  h.ended rfl rfl rfl rfl rfl rfl (h.sw_of_receiver hr) rfl

theorem SeqInv.stopByRole (h : SeqInv s) : SeqInv (stopByRole s) := by
  rcases stopByRole_cases s with ⟨hr, e⟩ | ⟨hr, e⟩ <;> rw [e]
  · exact h.stopSender hr
  · exact h.stopReceiver hr

/-! ### The modulator's steps -/

theorem SendInv.goesOn (h : SendInv s) {m : ModPhase} (hs : s.modPhase ≠ .idle) (hm : m ≠ .idle) :
    SendInv { s with modPhase := m } := by
  have hn : State.newInFlight { s with modPhase := m } ↔ s.newInFlight := and_congr_right fun _ => iff_of_true hm hs
  exact { h with
    domain := fun hsend k => by rw [hn]; exact h.domain hsend k
    newest := fun hk => h.newest (hn.mp hk)
    resend := fun hp _ => h.resend hp hs }

theorem execModWaitq_seqInv (hs : execModWaitq s = .next t) (h : SeqInv s) : SeqInv t := by
  rcases execModWaitq_next hs with rfl | ⟨-, -, rfl⟩ | ⟨hm, -, -, rfl⟩
  · exact h
  · exact h.stopByRole
  · have hne : s.modPhase ≠ .idle := hm ▸ nofun
    have ht : s.txf.isSome = true := h.phase.txf.mpr (.inl hm)
    exact ⟨h.phase.goesOn hne nofun (iff_of_true ht (.inr rfl)) (.inl rfl), h.send.goesOn hne nofun,
      { h.receive with }⟩

theorem execModEmit_seqInv (hs : execModEmit s = .next t) (h : SeqInv s) : SeqInv t := by
  rcases execModEmit_next hs with rfl | ⟨hm, f, -, -, -, -, rfl⟩
  · exact h
  · have hne : s.modPhase ≠ .idle := hm ▸ nofun
    have hp : PhaseInv { s with modPhase := .drain, txf := none } :=
      h.phase.goesOn hne nofun ⟨nofun, fun hn => nomatch hn⟩ (.inr rfl)
    have hd : SendInv { s with modPhase := .drain } := h.send.goesOn hne nofun
    exact ⟨{ hp with }, { hd with }, { h.receive with }⟩

theorem execModDrain_seqInv (hs : execModDrain s = .next t) (h : SeqInv s) : SeqInv t := by
  rcases execModDrain_next hs with rfl | ⟨-, -, rfl⟩ | ⟨hm, -, -, -, rfl⟩
  · exact h
  · exact h.stopByRole
  · have hne : s.modPhase ≠ .idle := hm ▸ nofun
    have hf : s.txf = none := h.phase.txf_none (hm ▸ nofun) (hm ▸ nofun)
    exact ⟨h.phase.goesOn hne nofun (by simp [hf]) (.inl rfl), h.send.goesOn hne nofun, { h.receive with }⟩

/-! ### The start of a command -/

theorem startSender_seqInv (hs : startSender s = .ok t) (h : SeqInv s) (hb : s.busy = false)
    (hpay : ∀ i, i < s.txLen → (s.txPayload.get i).isSome = true) : SeqInv t := by
  have hrb : s.rb = [] := h.receive.idle (not_receiving_of_not_busy hb)
  obtain ⟨hm, ⟨-, rfl⟩ | ⟨hn, -, rfl⟩⟩ := startSender_eq_ok.mp hs
  · exact ⟨{ h.phase with }, { h.send with }, { h.receive with }⟩
  · refine ⟨?_, ?_, ?_⟩
    · exact phaseInv_between_sends hm (h.phase.caller_of_idle hm) (h.phase.txf_of_idle hm) ⟨nofun, nofun⟩
        (fun _ => rfl) nofun nofun
    · exact
        { order := ⟨Nat.le_refl 0, Nat.zero_le _, hn⟩
          window := Nat.zero_le _
          domain := fun _ m => by simp; omega
          idle := fun _ => rfl
          retries := nofun
          newest := fun hn => nomatch hn.1
          scan := nofun
          resend := nofun
          fin := nofun
          count := fun _ => rfl
          payload := fun _ => hpay }
    · exact receiveInv_of_not_receiving h.receive.lfr (not_receiving_of_sender rfl) hrb

/-- The longest payload has a length that `TX_LEN` holds (R10, R22). -/
theorem payloadMax_lt {c : Config} (hc : Config.Sized c) : c.payloadMax < 2 ^ 32 := by
  have hm := hc.maxBody.2
  show c.seqMax * c.maxBody < 2 ^ 32
  rw [seqMax_eq]
  omega

theorem execHTransmit_seqInv {p : List Byte} (hs : execHTransmit p s = .next t) (hc : Config.Sized s.cfg)
    (h : SeqInv s) : SeqInv t := by
  rcases execHTransmit_next hs with rfl | ⟨-, -, rfl⟩ | ⟨hb, hl, hs⟩
  · exact h
  · exact ⟨{ h.phase with }, { h.send with }, { h.receive with }⟩
  · have hlen : fitted 32 p.length = p.length := fitted_of_lt (hl.trans_lt (payloadMax_lt hc))
    have hn : ¬ s.sending := not_sending_of_not_busy hb
    have h' : SeqInv { s with txPayload := Memory.ofList p, txLen := fitted 32 p.length } :=
      ⟨{ h.phase with },
        { h.send with count := fun hs => absurd hs hn, payload := fun hs => absurd hs hn }, { h.receive with }⟩
    refine startSender_seqInv hs h' hb fun i (hi : i < fitted 32 p.length) => ?_
    rw [hlen] at hi
    simpa using hi

theorem execHReceive_seqInv (hs : execHReceive s = .next t) (h : SeqInv s) : SeqInv t := by
  rcases execHReceive_next hs with rfl | ⟨hb, hs⟩
  · exact h
  · obtain ⟨hm, -, rfl⟩ := startReceiver_eq_ok.mp hs
    have hsw : s.sw = [] := h.send.idle (not_sending_of_not_busy hb)
    refine ⟨?_, ?_, ?_⟩
    · exact phaseInv_between_sends hm (h.phase.caller_of_idle hm) (h.phase.txf_of_idle hm) ⟨nofun, nofun⟩
        nofun (fun _ => rfl) nofun
    · exact sendInv_of_not_sending h.send.order h.send.window (not_sending_of_receiver rfl) hsw rfl
    · exact
        { keys := nofun
          lfr := Nat.zero_le _
          below := fun _ m h1 (h2 : m ≤ 0) => absurd (h1.trans h2) (by decide)
          next := fun _ => rfl
          idle := fun _ => rfl }

/-! ### The sender: from phase to phase -/

/-- The entry of a send from the phase that calls it, but for `TX.NEW`, which has moved `LFS` by then. -/
theorem SeqInv.sendEntered (h : SeqInv s) {c : Caller} {f : Frame} (hs : sendEntry c f s = .ok t)
    (hc : s.arqPhase.caller = some c) (htx : s.arqPhase.isTx = true) (hnew : s.arqPhase ≠ .txNew)
    (hre : s.arqPhase = .txRetx → ∃ e, s.sw.get s.scan = some e ∧ e.acked = false ∧ 1 ≤ e.retries) : SeqInv t := by
  obtain ⟨hok, hm, rfl⟩ := sendEntry_eq_ok.mp hs
  obtain ⟨hb, hr⟩ := h.phase.sending_of_isTx htx
  have hwin := h.send.window_iff ⟨hb, hr⟩ (not_newInFlight_of_idle hm)
  refine ⟨phaseInv_entered rfl rfl hok rfl hc hb h.phase.tx h.phase.rx, ?_, { h.receive with }⟩
  exact { h.send with
    domain := fun _ m => by
      rw [hwin m]
      simp [State.newInFlight, hnew]
    newest := fun hn => absurd hn.1 hnew
    resend := fun hp _ => hre hp }

/-- A send has returned, and its rule is between sends again: `TX.NEW`, whose entry of `SW` is due, and `RX.DATA`
have more to do. -/
theorem SeqInv.sendReturned (h : SeqInv s) (hm : s.modPhase = .done) (htx : s.arqPhase.isTx = true)
    (hnew : s.arqPhase ≠ .txNew) : SeqInv s.sendReturned := by
  have hwin := h.send.window_iff (h.phase.sending_of_isTx htx) (not_newInFlight_of_phase hnew)
  refine ⟨?_, ?_, { h.receive with }⟩
  · exact phaseInv_between_sends rfl rfl (h.phase.txf_of_done hm) h.phase.busy h.phase.tx h.phase.rx fun ha => by
      rw [State.sendReturned] at ha
      rw [ha] at htx
      cases htx
  · exact { h.send with
      domain := fun _ m => by
        rw [show s.sendReturned.sw = s.sw from rfl, hwin m]
        simp [State.newInFlight]
      newest := fun hn => absurd rfl hn.2
      resend := fun _ hn => absurd rfl hn }

/-- Between sends the sender moves to another phase: the phases that ask nothing more of the cursors. -/
theorem SeqInv.moveTx (h : SeqInv s) (hm : s.modPhase = .idle) (htx : s.arqPhase.isTx = true) {p : ArqPhase}
    (hp : p ∈ [ArqPhase.txLoop, .txDrain, .txSlide, .txNew]) : SeqInv { s with arqPhase := p } := by
  obtain ⟨hb, hr⟩ := h.phase.sending_of_isTx htx
  have hwin := h.send.window_iff ⟨hb, hr⟩ (not_newInFlight_of_idle hm)
  have hpi : p ≠ .idle ∧ p ≠ .rxAck ∧ p ≠ .txRetx ∧ p ≠ .txFin ∧ p.isRx = false := by
    simp only [List.mem_cons, List.not_mem_nil, or_false] at hp
    rcases hp with rfl | rfl | rfl | rfl <;> decide
  obtain ⟨hidle, hack, hretx, hfin, hrx⟩ := hpi
  refine ⟨?_, ?_, { h.receive with }⟩
  · exact phaseInv_between_sends hm (h.phase.caller_of_idle hm) (h.phase.txf_of_idle hm)
      (iff_of_false (by simp [hb]) hidle) (fun _ => hr) (fun hn => nomatch hrx.symm.trans hn) hack
  · exact { h.send with
      domain := fun _ m => by
        rw [hwin m]
        simp [State.newInFlight, hm]
      newest := fun hn => absurd hm hn.2
      scan := fun hn => absurd hn hretx
      resend := fun hn => absurd hn hretx
      fin := fun hn => absurd hn hfin }

theorem execTxSent0_seqInv (hs : execTxSent0 s = .next t) (h : SeqInv s) : SeqInv t := by
  rcases execTxSent0_next hs with rfl | ⟨hp, ⟨-, hs⟩ | ⟨hm, -, rfl⟩⟩
  · exact h
  · exact h.sendEntered hs (by rw [hp]; rfl) (by rw [hp]; rfl) (hp ▸ nofun) (hp ▸ nofun)
  · have htx : s.arqPhase.isTx = true := by rw [hp]; rfl
    exact (h.sendReturned hm htx (hp ▸ nofun)).moveTx rfl htx (by simp)

theorem execTxLoop_seqInv (hs : execTxLoop s = .next t) (h : SeqInv s) : SeqInv t := by
  rcases execTxLoop_next hs with rfl | ⟨hp, hm, hs⟩
  · exact h
  have htx : s.arqPhase.isTx = true := by rw [hp]; rfl
  obtain ⟨hb, hr⟩ := h.phase.sending_of_isTx htx
  rcases hs with ⟨-, rfl⟩ | ⟨-, hl, rfl⟩ | ⟨-, -, rfl⟩
  · exact h.stopSender hr
  · have hwin := h.send.window_iff ⟨hb, hr⟩ (not_newInFlight_of_idle hm)
    refine ⟨?_, ?_, { h.receive with }⟩
    · exact phaseInv_between_sends hm (h.phase.caller_of_idle hm) (h.phase.txf_of_idle hm)
        (iff_of_false (by simp [hb]) nofun) (fun _ => hr) nofun nofun
    · exact { h.send with
        domain := fun _ m => by
          rw [hwin m]
          simp [State.newInFlight]
        newest := fun hn => nomatch hn.1
        scan := nofun
        resend := nofun
        fin := fun _ => ⟨hl, Nat.zero_lt_succ 1⟩ }
  · exact h.moveTx hm htx (by simp)

/-- An acknowledgment marks an entry of the window and moves no cursor (R210). -/
theorem takeAck_seqInv {f : Frame} (hs : takeAck f s = .ok t) (h : SeqInv s) (hp : s.arqPhase = .txDrain) :
    SeqInv t := by
  rcases takeAck_eq_ok.mp hs with ⟨-, hlo, hhi, e, he, rfl⟩ | ⟨-, rfl⟩
  · refine ⟨{ h.phase with }, ?_, { h.receive with }⟩
    have hwin := h.send.window_iff (h.phase.sending_of_isTx (by rw [hp]; rfl))
      (not_newInFlight_of_phase (hp ▸ nofun))
    exact { h.send with
      domain := fun _ m => by
        show ((s.sw.set _ _).get m).isSome = true ↔ _
        rw [Memory.get_set]
        split
        · rename_i hk
          subst hk
          simp [State.newInFlight, hp, hlo, hhi]
        · rw [hwin m]
          simp [State.newInFlight, hp]
      idle := fun hn => absurd (h.phase.sending_of_isTx (by rw [hp]; rfl)) hn
      retries := Memory.forall_get_set h.send.retries (h.send.retries _ e he)
      resend := fun hn => nomatch hp.symm.trans hn }
  · cases isAck f
    · exact h
    · exact ⟨{ h.phase with }, { h.send with }, { h.receive with }⟩

theorem execTxDrain_seqInv (hs : execTxDrain s = .next t) (h : SeqInv s) : SeqInv t := by
  rcases execTxDrain_next hs with rfl | ⟨hp, hm, -, ⟨-, rfl⟩ | ⟨f, q, -, hs⟩⟩
  · exact h
  · exact h.moveTx hm (by rw [hp]; rfl) (by simp)
  · exact takeAck_seqInv hs ⟨{ h.phase with }, { h.send with }, { h.receive with }⟩ hp

theorem execTxSlide_seqInv (hs : execTxSlide s = .next t) (h : SeqInv s) (hw : s.sw.wf) : SeqInv t := by
  rcases execTxSlide_next hs with rfl | ⟨hp, hm, u, hu, rfl⟩
  · exact h
  obtain ⟨hb, hr⟩ := h.phase.sending_of_isTx (by rw [hp]; rfl)
  have hwin := h.send.window_iff ⟨hb, hr⟩ (not_newInFlight_of_idle hm)
  obtain ⟨hll, hln, hn⟩ := h.send.order
  have hwindow := h.send.window
  obtain ⟨k, sw, hk, rfl, -, hget, -, -⟩ := slideWhile_eq_ok hw hu
  have hscan : fitted 16 (s.lar + k + 1) = s.lar + k + 1 := fitted_of_lt (by rw [seqMax_eq] at hn; omega)
  refine ⟨?_, ?_, { h.receive with }⟩
  · exact phaseInv_between_sends hm (h.phase.caller_of_idle hm) (h.phase.txf_of_idle hm)
      (iff_of_false (by simp [hb]) nofun) (fun _ => hr) nofun nofun
  · exact
      { order := ⟨show s.lar + k ≤ s.lfs by omega, hln, hn⟩
        window := show s.lfs - (s.lar + k) ≤ s.cfg.windowSize by omega
        domain := fun _ m => by
          simp only [State.newInFlight, hget]
          split
          · simp; omega
          · rw [hwin m]; simp; omega
        idle := fun hn => absurd ⟨hb, hr⟩ hn
        retries := fun m e he => by
          simp only [hget] at he
          split at he
          · cases he
          · exact h.send.retries m e he
        newest := fun hn => nomatch hn.1
        scan := fun _ => by
          show s.lar + k < fitted 16 (s.lar + k + 1) ∧ fitted 16 (s.lar + k + 1) ≤ s.lfs + 1
          omega
        resend := fun _ hn => absurd hm hn
        fin := nofun
        count := h.send.count
        payload := h.send.payload }

/-- The scan goes on to the next entry (R212). -/
theorem SeqInv.scanNext (h : SeqInv s) (hm : s.modPhase = .idle) (hp : s.arqPhase = .txRetx)
    (hl : s.scan ≤ s.lfs) : SeqInv (s.withScan (s.scan + 1)) := by
  obtain ⟨-, hln, hn⟩ := h.send.order
  have hscan : fitted 16 (s.scan + 1) = s.scan + 1 := fitted_of_lt (by rw [seqMax_eq] at hn; omega)
  have hlar := (h.send.scan hp).1
  refine ⟨{ h.phase with }, ?_, { h.receive with }⟩
  exact { h.send with
    scan := fun _ => by
      show s.lar < fitted 16 (s.scan + 1) ∧ fitted 16 (s.scan + 1) ≤ s.lfs + 1
      omega
    resend := fun _ hn => absurd hm hn }

theorem overdue_not_acked {e : SwEntry} (h : overdue s e = true) : e.acked = false := by
  simp only [overdue, Bool.and_eq_true, Bool.not_eq_true'] at h
  exact h.1

theorem examineEntry_seqInv (hs : examineEntry s = .ok t) (h : SeqInv s) (hm : s.modPhase = .idle)
    (hp : s.arqPhase = .txRetx) : SeqInv t := by
  have htx : s.arqPhase.isTx = true := by rw [hp]; rfl
  rcases examineEntry_eq_ok.mp hs with ⟨-, rfl⟩ | ⟨hl, e, he, ⟨-, -, rfl⟩ | ⟨ho, hr, hs⟩ | ⟨-, rfl⟩⟩
  · exact h.moveTx hm htx (by simp)
  · exact h.ended rfl hm (h.phase.caller_of_idle hm) (h.phase.txf_of_idle hm) rfl rfl rfl
      (h.rb_of_sender (h.phase.tx htx))
  · obtain ⟨f, -, hs⟩ := sendData_eq_ok.mp hs
    exact h.sendEntered hs (by rw [hp]; rfl) htx (hp ▸ nofun)
      fun _ => ⟨e, he, overdue_not_acked ho, Nat.one_le_iff_ne_zero.mpr hr⟩
  · exact h.scanNext hm hp hl

/-- A resend's continuation restarts its entry's timer, which stays in the window (R212). -/
theorem finishResend_seqInv (hs : finishResend s = .ok t) (h : SeqInv s) (hm : s.modPhase = .done)
    (hp : s.arqPhase = .txRetx) : SeqInv t := by
  obtain ⟨e, he, rfl⟩ := finishResend_eq_ok.mp hs
  have htx : s.arqPhase.isTx = true := by rw [hp]; rfl
  have hret : (decrementRetries e.retries s).1 ≤ s.cfg.retryMax :=
    decrementRetries_le (h.send.retries _ e he) rfl
  have hwin := h.send.window_iff (h.phase.sending_of_isTx htx) (not_newInFlight_of_phase (hp ▸ nofun))
  have hin : s.lar < s.scan ∧ s.scan ≤ s.lfs := (hwin _).mp (by rw [he]; rfl)
  have h' := h.sendReturned hm htx (hp ▸ nofun)
  have hset : SeqInv { s.sendReturned with
      sw := s.sw.set s.scan { e with sentAt := s.now, retries := (decrementRetries e.retries s).1 } } := by
    refine ⟨{ h'.phase with }, ?_, { h'.receive with }⟩
    exact { h'.send with
      domain := fun _ m => by
        show ((s.sw.set _ _).get m).isSome = true ↔ _
        rw [Memory.get_set]
        split
        · rename_i hk
          subst hk
          simp [State.newInFlight, hin]
        · rw [hwin m]
          simp [State.newInFlight]
      idle := fun hn => absurd (h.phase.sending_of_isTx htx) hn
      retries := Memory.forall_get_set h.send.retries hret
      resend := fun _ hn => absurd rfl hn }
  have hn := hset.scanNext rfl hp hin.2
  exact ⟨{ hn.phase with }, { hn.send with }, { hn.receive with }⟩

theorem execTxRetx_seqInv (hs : execTxRetx s = .next t) (h : SeqInv s) : SeqInv t := by
  rcases execTxRetx_next hs with rfl | ⟨hp, ⟨hm, hs⟩ | ⟨hm, -, hs⟩⟩
  · exact h
  · exact examineEntry_seqInv hs h hm hp
  · exact finishResend_seqInv hs h hm hp

/-- The entry of a new frame's send moves `LFS` before the entry of `SW` exists (R213). -/
theorem newFrame_seqInv {f : Frame} (hs : sendEntry .txNew f { s with lfs := s.lfs + 1 } = .ok t) (h : SeqInv s)
    (hp : s.arqPhase = .txNew) (hw : windowOpen s = true) : SeqInv t := by
  obtain ⟨hok, hm, rfl⟩ := sendEntry_eq_ok.mp hs
  obtain ⟨hb, hr⟩ := h.phase.sending_of_isTx (by rw [hp]; rfl)
  have hwin := h.send.window_iff ⟨hb, hr⟩ (not_newInFlight_of_idle hm)
  obtain ⟨hll, hln, hn⟩ := h.send.order
  obtain ⟨hroom, hmore⟩ := windowOpen_iff.mp hw
  refine ⟨phaseInv_entered rfl rfl hok rfl (by rw [hp]; rfl) hb h.phase.tx h.phase.rx, ?_, { h.receive with }⟩
  exact { h.send with
    order := ⟨Nat.le_succ_of_le hll, hmore, hn⟩
    window := show s.lfs + 1 - s.lar ≤ s.cfg.windowSize by omega
    domain := fun _ m => by
      rw [hwin m]
      simp [State.newInFlight, hp]
      omega
    newest := fun _ => Nat.lt_succ_of_le hll
    scan := fun hn => nomatch hp.symm.trans hn
    resend := fun hn => nomatch hp.symm.trans hn }

/-- The continuation of a new frame's send creates its entry (R213). -/
theorem finishNew_seqInv (h : SeqInv s) (hm : s.modPhase = .done) (hp : s.arqPhase = .txNew) :
    SeqInv (finishNew s) := by
  obtain ⟨hb, hr⟩ := h.phase.sending_of_isTx (by rw [hp]; rfl)
  have hfly : s.newInFlight := ⟨hp, hm ▸ nofun⟩
  have hdom := h.send.domain ⟨hb, hr⟩
  have hnewest := h.send.newest hfly
  refine ⟨?_, ?_, { h.receive with }⟩
  · exact phaseInv_between_sends rfl rfl (h.phase.txf_of_done hm) (iff_of_false (by simp [finishNew, hb]) nofun)
      (fun _ => hr) nofun nofun
  · exact { h.send with
      domain := fun _ m => by
        show ((s.sw.set _ _).get m).isSome = true ↔ s.lar < m ∧ m ≤ s.lfs ∧ _
        rw [Memory.get_set]
        by_cases hk : m = s.lfs
        · subst hk
          simp [State.newInFlight, finishNew, hnewest]
        · rw [if_neg hk, hdom m]
          simp [State.newInFlight, finishNew, hk]
      idle := fun hn => absurd ⟨hb, hr⟩ hn
      retries := Memory.forall_get_set h.send.retries (Nat.le_refl s.cfg.retryMax)
      newest := fun hn => nomatch hn.1
      scan := nofun
      resend := nofun
      fin := nofun }

theorem execTxNew_seqInv (hs : execTxNew s = .next t) (h : SeqInv s) : SeqInv t := by
  rcases execTxNew_next hs with rfl | ⟨hp, ⟨-, hw, hs⟩ | ⟨hm, -, rfl⟩ | ⟨hm, -, rfl⟩⟩
  · exact h
  · obtain ⟨f, -, hs⟩ := sendData_eq_ok.mp hs
    exact newFrame_seqInv hs h hp hw
  · exact h.moveTx hm (by rw [hp]; rfl) (by simp)
  · exact finishNew_seqInv h hm hp

/-- When the window has nothing left, `SW` is empty. -/
theorem SendInv.sw_nil (h : SendInv s) (hs : s.sending) (hn : ¬ s.newInFlight) (hl : s.lfs ≤ s.lar) :
    s.sw = [] := by
  refine Memory.eq_nil_of_get_none fun m => Option.not_isSome_iff_eq_none.mp fun hm => ?_
  have := (h.window_iff hs hn m).mp hm
  omega

theorem finishFin_seqInv (h : SeqInv s) (hm : s.modPhase = .done) (hp : s.arqPhase = .txFin) :
    SeqInv (finishFin s) := by
  have htx : s.arqPhase.isTx = true := by rw [hp]; rfl
  obtain ⟨hlar, hfin⟩ := h.send.fin hp
  rcases finishFin_cases s with ⟨-, e⟩ | ⟨h2, e⟩ <;> rw [e]
  · have hsw : s.sw = [] := h.send.sw_nil (h.phase.sending_of_isTx htx) (not_newInFlight_of_phase (hp ▸ nofun))
      (hlar ▸ h.send.order.2.1)
    exact h.ended rfl rfl rfl (h.phase.txf_of_done hm) rfl rfl hsw (h.rb_of_sender (h.phase.tx htx))
  · have h' := h.sendReturned hm htx (hp ▸ nofun)
    have hlt : fittedUpTo 2 (s.finCnt + 1) < 2 := Nat.lt_of_le_of_ne (fittedUpTo_le 2 _) h2
    exact ⟨{ h'.phase with }, { h'.send with fin := fun _ => ⟨hlar, hlt⟩ }, { h'.receive with }⟩

theorem execTxFin_seqInv (hs : execTxFin s = .next t) (h : SeqInv s) : SeqInv t := by
  rcases execTxFin_next hs with rfl | ⟨hp, ⟨-, hs⟩ | ⟨hm, -, rfl⟩⟩
  · exact h
  · exact h.sendEntered hs (by rw [hp]; rfl) (by rw [hp]; rfl) (hp ▸ nofun) (hp ▸ nofun)
  · exact finishFin_seqInv h hm hp

/-! ### The receiver -/

theorem classify_sent {c : Config} {f : Frame} (h : classify c f = .sent) : f.len.toNat = 2 := by
  unfold classify at h
  dsimp only at h
  split at h
  · split at h
    · assumption
    · cases h
  · split at h
    · cases h
    · split at h
      · cases h
      · split at h <;> cases h

/-- A data frame has a body and a magnitude in 1..`SEQ_MAX` (R94, R232). -/
theorem classify_data {c : Config} {f : Frame} (h : classify c f = .data) :
    f.len ≠ 0#16 ∧ 1 ≤ seqMag f.seq ∧ seqMag f.seq ≤ c.seqMax := by
  unfold classify at h
  dsimp only at h
  split at h
  · split at h <;> cases h
  · rename_i hz
    split at h
    · cases h
    · rename_i hres
      split at h
      · rename_i hd
        have h1 : -32768 ≤ f.seq.toInt := BitVec.le_toInt f.seq
        have h2 : f.seq.toInt < 32768 := BitVec.toInt_lt
        rw [seqMax_eq]
        unfold seqMag
        exact ⟨hd.2, by omega, by omega⟩
      · split at h <;> cases h

/-- `LFR` advances as far as the magnitudes in `RB` are present without a gap (R234). -/
theorem advance_complete {rb : Memory (List Byte)} {l : Nat}
    (h : ∀ m, 1 ≤ m → m ≤ l → (rb.get m).isSome = true) :
    (∀ m, 1 ≤ m → m ≤ advance rb.length rb l → (rb.get m).isSome = true) ∧
      rb.get (advance rb.length rb l + 1) = none := by
  obtain ⟨hle, hheld, hstop⟩ := advance_spec rb.length rb l
  have hall : ∀ m, 1 ≤ m → m ≤ advance rb.length rb l → (rb.get m).isSome = true := fun m h1 h2 =>
    (Nat.lt_or_ge l m).elim (fun h3 => hheld m h3 h2) (h m h1)
  refine ⟨hall, hstop.elim (fun he => ?_) id⟩
  by_contra hn
  have hnext : ∀ m, 1 ≤ m → m ≤ advance rb.length rb l + 1 → (rb.get m).isSome = true := fun m h1 h2 => by
    rcases Nat.lt_or_ge (advance rb.length rb l) m with h3 | h3
    · obtain rfl : m = advance rb.length rb l + 1 := Nat.le_antisymm h2 h3
      exact Option.isSome_iff_ne_none.mpr hn
    · exact hall m h1 h3
  have := Memory.le_length_of_held hnext
  omega

theorem storeBody_isSome {m k : Nat} {body : List Byte} {rb : Memory (List Byte)} (h : (rb.get k).isSome = true) :
    ((storeBody m body rb).get k).isSome = true := by
  rcases storeBody_cases m body rb with ⟨-, e⟩ | ⟨-, e⟩ <;> rw [e]
  · exact h
  · rw [Memory.get_set]
    split
    · rfl
    · exact h

theorem takeData_seqInv {f : Frame} (hs : takeData f s = .ok t) (h : SeqInv s) (hp : s.arqPhase = .rxPop)
    (hf : Frame.ok s.cfg f = true) (hc : classify s.cfg f = .data) : SeqInv t := by
  obtain ⟨hm, hok, rfl⟩ := takeData_eq_ok.mp hs
  obtain ⟨hb, hr⟩ := h.phase.receiving_of_isRx (by rw [hp]; rfl)
  obtain ⟨hlen, hmag⟩ := classify_data hc
  obtain ⟨hbody, hmax⟩ := frame_ok_iff.mp hf
  have hpos : 1 ≤ f.body.length := hbody ▸ Nat.pos_of_ne_zero fun hn => hlen (BitVec.eq_of_toNat_eq hn)
  refine ⟨phaseInv_entered rfl rfl hok rfl rfl hb nofun (fun _ => hr), ?_, ?_⟩
  · exact sendInv_of_not_sending h.send.order h.send.window (not_sending_of_receiver hr) (h.sw_of_receiver hr) rfl
  · generalize hrb : storeBody (seqMag f.seq) f.body s.rb = rb
    have hkeys : ∀ m b, rb.get m = some b → 1 ≤ m ∧ m ≤ s.cfg.seqMax ∧ 1 ≤ b.length ∧ b.length ≤ s.cfg.maxBody :=
      hrb ▸ forall_get_storeBody h.receive.keys ⟨hmag.1, hmag.2, hpos, hmax⟩
    have hbelow : ∀ m, 1 ≤ m → m ≤ s.lfr → (rb.get m).isSome = true := fun m h1 h2 =>
      hrb ▸ storeBody_isSome (h.receive.below ⟨hb, hr⟩ m h1 h2)
    obtain ⟨hall, hnext⟩ := advance_complete hbelow
    have hlfr : advance rb.length rb s.lfr ≤ s.cfg.seqMax := by
      rcases Nat.eq_zero_or_pos (advance rb.length rb s.lfr) with h0 | h0
      · exact h0 ▸ Nat.zero_le _
      · obtain ⟨b, hb'⟩ := Option.isSome_iff_exists.mp (hall _ h0 (Nat.le_refl _))
        exact (hkeys _ b hb').2.1
    exact { keys := hkeys, lfr := hlfr, below := fun _ => hall, next := fun _ => hnext,
            idle := fun hn => absurd ⟨hb, hr⟩ hn }

theorem SeqInv.assemble (h : SeqInv s) (hp : s.arqPhase = .rxPop) (hm : s.modPhase = .idle) :
    SeqInv (assemble s) :=
  h.ended rfl hm (h.phase.caller_of_idle hm) (h.phase.txf_of_idle hm) rfl rfl
    (h.sw_of_receiver (h.phase.rx (by rw [hp]; rfl))) rfl

theorem takeSentinel_seqInv {f : Frame} (hs : takeSentinel f s = .ok t) (h : SeqInv s) (hp : s.arqPhase = .rxPop)
    (hm : s.modPhase = .idle) : SeqInv t := by
  obtain ⟨hi, lo, rest, -, rfl⟩ := takeSentinel_eq_ok.mp hs
  have hc : SeqInv { s with nExp := hi.toNat * 256 + lo.toNat, countKnown := true } :=
    ⟨{ h.phase with }, { h.send with }, { h.receive with }⟩
  split
  · exact hc.assemble hp hm
  · exact hc

theorem execRxPop_seqInv (hs : execRxPop s = .next t) (h : SeqInv s)
    (hfq : ∀ f ∈ s.fq, Frame.ok s.cfg f = true) : SeqInv t := by
  rcases execRxPop_next hs with rfl | ⟨hp, -, -, rfl⟩ | ⟨hp, hm, -, -, f, q, hq, hs⟩
  · exact h
  · exact h.stopReceiver (h.phase.rx (by rw [hp]; rfl))
  · have hok : Frame.ok s.cfg f = true := hfq f (hq ▸ List.mem_cons_self)
    have h' : SeqInv { s with fq := q } := ⟨{ h.phase with }, { h.send with }, { h.receive with }⟩
    rcases takeFrame_cases hs with ⟨-, hs⟩ | ⟨hc, hs⟩ | rfl
    · exact takeSentinel_seqInv hs h' hp hm
    · exact takeData_seqInv hs h' hp hok hc
    · exact h'

/-- `RX.DATA`'s continuation: the acknowledgment has been sent (R234). -/
theorem execRxData_seqInv {f : Frame} (hs : execRxData f s = .next t) (h : SeqInv s) (hp : s.arqPhase = .rxAck) :
    SeqInv t := by
  rcases execRxData_next hs with rfl | ⟨-, hm, -, rfl⟩ | ⟨hn, -⟩
  · exact h
  · obtain ⟨hb, hr⟩ := h.phase.receiving_of_isRx (by rw [hp]; rfl)
    refine ⟨?_, ?_, { h.receive with }⟩
    · exact phaseInv_between_sends rfl rfl (h.phase.txf_of_done hm) (iff_of_false (by simp [hb]) nofun) nofun
        (fun _ => hr) nofun
    · exact sendInv_of_not_sending h.send.order h.send.window (not_sending_of_receiver hr) (h.sw_of_receiver hr) rfl
  · nomatch hp.symm.trans hn

/-! ### Reset -/

theorem seqInv_resetOf (c : Config) : SeqInv (State.resetOf c) where
  phase := phaseInv_between_sends rfl rfl rfl (iff_of_true rfl rfl) nofun nofun nofun
  send := sendInv_of_not_sending ⟨Nat.le_refl 0, Nat.le_refl 0, Nat.zero_le _⟩ (Nat.zero_le _)
    (not_sending_of_not_busy rfl) rfl rfl
  receive := receiveInv_of_not_receiving (Nat.zero_le _) (not_receiving_of_not_busy rfl) rfl

theorem SeqInv.answer (h : SeqInv s) (o : Output) : SeqInv (s.answer o) :=
  ⟨{ h.phase with }, { h.send with }, { h.receive with }⟩

end Sys2Proof.Machine
end

section
/-! The agents' steps (R15, R43, R44): each keeps the link invariant, none faults from it, and `OUTQ` is empty between
frames. -/

namespace Sys2Proof.Machine

variable {s t u : State}

theorem Config.Sized.pk_pos {c : Config} (hc : Config.Sized c) : 0 < c.pk := Nat.mul_pos hc.p hc.k

theorem receiveWire_seqInv {f : Frame} {crc : BitVec 32} (hs : settle s (receiveWire f crc s) = .next t)
    (h : SeqInv s) : SeqInv t :=
  (settle_demWrites (fun _ => receiveWire_writes) hs).seqInv h

theorem exec_demInv {i : Instr} (ha : agentStep i s = true) (hs : exec i s = .next t) (hpk : 0 < s.cfg.pk)
    (h : DemInv s) : DemInv t := by
  cases i with
  | qPush | qPop | modSend | demSearch | demCorr | demHeader | demBody | demCrc | demEmit | demDiscard | txStart
  | txAbort | txStop | rxStart | rxSent | rxDone | rxStop => cases ha
  | rxEcho | rxOther => exact Host.Outcome.next.inj hs ▸ h
  | hReset => exact Host.Outcome.next.inj hs ▸ { demInv_resetOf (Nat.zero_lt_of_lt h.scnt) with }
  | hStatus | tbTick | modBits | demSlice | csEval =>
    obtain rfl := Host.Outcome.next.inj hs
    exact { h with }
  | hTransmit => exact (execHTransmit_writes hs).demInv { h with }
  | hReceive => exact (execHReceive_writes hs).demInv { h with }
  | hStop => rcases execHStop_next hs with rfl | ⟨-, rfl⟩ <;> exact { h with }
  | abPeriod => exact (execAbPeriod_writes hs).demInv { h with }
  | abIn => exact (execAbIn_writes hs).demInv { h with }
  | abOut => exact (execAbOut_writes hs).demInv h
  | qAcq =>
    rcases execQAcq_next hs with rfl | ⟨-, rfl⟩
    · exact h
    · exact h.setLock _ _
  | qRel =>
    obtain ⟨-, rfl⟩ := execQRel_next hs
    exact h.setLock _ _
  | modWaitq => exact (execModWaitq_writes hs).demInv { h with }
  | modEmit => exact (execModEmit_writes hs).demInv h
  | modDrain => exact (execModDrain_writes hs).demInv { h with }
  | demStep => exact execDemStep_demInv hs h hpk
  | fcDecode => rcases settle_answer hs with rfl | ⟨o, rfl⟩ <;> exact { h with }
  | fcPack =>
    obtain ⟨o, rfl⟩ := execFcPack_next hs
    exact { h with }
  | fcCrc32 =>
    obtain ⟨o, rfl⟩ := execFcCrc32_next hs
    exact { h with }
  | fcEncode =>
    obtain ⟨o, rfl⟩ := execFcEncode_next hs
    exact { h with }
  | txSent0 => exact (execTxSent0_writes hs).demInv h
  | txLoop => exact (execTxLoop_writes hs).demInv { h with }
  | txDrain => exact (execTxDrain_writes hs).demInv { h with }
  | txSlide => exact (execTxSlide_writes hs).demInv { h with }
  | txRetx => exact (execTxRetx_writes hs).demInv { h with }
  | txNew => exact (execTxNew_writes hs).demInv { h with }
  | txFin => exact (execTxFin_writes hs).demInv h
  | rxPop => exact (execRxPop_writes hs).demInv { h with }
  | rxData => exact (execRxData_writes hs).demInv { h with }
  | fSent | fAck | fData | fRsv => exact receiveWire_demInv hs h

theorem exec_seqInv {i : Instr} (ha : agentStep i s = true) (hs : exec i s = .next t) (hc : Config.Sized s.cfg)
    (hw : s.sw.wf) (hfq : ∀ f ∈ s.fq, Frame.ok s.cfg f = true) (h : SeqInv s) : SeqInv t := by
  have ⟨hp, hsd, hr⟩ := h
  cases i with
  | qPush | qPop | modSend | demSearch | demCorr | demHeader | demBody | demCrc | demEmit | demDiscard | txStart
  | txAbort | txStop | rxStart | rxSent | rxDone | rxStop => cases ha
  | rxEcho | rxOther => exact Host.Outcome.next.inj hs ▸ h
  | hReset =>
    obtain rfl := Host.Outcome.next.inj hs
    obtain ⟨hp, hsd, hr⟩ := seqInv_resetOf s.cfg
    exact ⟨{ hp with }, { hsd with }, { hr with }⟩
  | hStatus | tbTick | modBits | demSlice | csEval =>
    obtain rfl := Host.Outcome.next.inj hs
    exact ⟨{ hp with }, { hsd with }, { hr with }⟩
  | hTransmit => exact execHTransmit_seqInv hs hc h
  | hReceive => exact execHReceive_seqInv hs h
  | hStop => rcases execHStop_next hs with rfl | ⟨-, rfl⟩ <;> exact ⟨{ hp with }, { hsd with }, { hr with }⟩
  | abPeriod => exact (execAbPeriod_writes hs).seqInv ⟨{ hp with }, { hsd with }, { hr with }⟩
  | abIn => exact (execAbIn_writes hs).seqInv ⟨{ hp with }, { hsd with }, { hr with }⟩
  | abOut => exact (execAbOut_writes hs).seqInv h
  | qAcq =>
    rcases execQAcq_next hs with rfl | ⟨-, rfl⟩
    · exact h
    · exact h.setLock _ _
  | qRel =>
    obtain ⟨-, rfl⟩ := execQRel_next hs
    exact h.setLock _ _
  | modWaitq => exact execModWaitq_seqInv hs h
  | modEmit => exact execModEmit_seqInv hs h
  | modDrain => exact execModDrain_seqInv hs h
  | demStep => exact (execDemStep_writes hs).seqInv h
  | fcDecode =>
    rcases settle_answer hs with rfl | ⟨o, rfl⟩
    · exact h
    · exact h.answer o
  | fcPack =>
    obtain ⟨o, rfl⟩ := execFcPack_next hs
    exact h.answer o
  | fcCrc32 =>
    obtain ⟨o, rfl⟩ := execFcCrc32_next hs
    exact h.answer o
  | fcEncode =>
    obtain ⟨o, rfl⟩ := execFcEncode_next hs
    exact h.answer o
  | txSent0 => exact execTxSent0_seqInv hs h
  | txLoop => exact execTxLoop_seqInv hs h
  | txDrain => exact execTxDrain_seqInv hs h
  | txSlide => exact execTxSlide_seqInv hs h hw
  | txRetx => exact execTxRetx_seqInv hs h
  | txNew => exact execTxNew_seqInv hs h
  | txFin => exact execTxFin_seqInv hs h
  | rxPop => exact execRxPop_seqInv hs h hfq
  | rxData => exact execRxData_seqInv hs h (of_decide_eq_true ha)
  | fSent | fAck | fData | fRsv => exact receiveWire_seqInv hs h

/-! ### No step of an agent faults -/

theorem sendData_ne_fault {c : Caller} {m : Nat} {r : Fault}
    (h : ∀ i, i < s.txLen → (s.txPayload.get i).isSome = true) : sendData c m s ≠ .error (.fault r) := by
  obtain ⟨l, hl⟩ := Memory.range_isSome (m := s.txPayload) (lo := segLo s.cfg m)
    (n := segHi s.cfg s.txLen m - segLo s.cfg m) fun i hi => h _ (by
      have : segHi s.cfg s.txLen m ≤ s.txLen := Nat.min_le_right _ _
      omega)
  have hd : ∃ f, dataFrame s m = some f := by simp [dataFrame, hl]
  obtain ⟨f, hf⟩ := hd
  unfold sendData
  rw [hf]
  exact sendEntry_ne_fault

theorem SeqInv.payload_held (h : SeqInv s) (hp : s.arqPhase.isTx = true) :
    ∀ i, i < s.txLen → (s.txPayload.get i).isSome = true :=
  h.send.payload (h.phase.sending_of_isTx hp)

theorem execModEmit_ne_fault {r : Fault} (h : SeqInv s) : execModEmit s ≠ .fault r := by
  intro hr
  obtain ⟨-, hr⟩ := arqStep_eq_fault.mp (settle_eq_fault.mp hr)
  split at hr
  · rename_i hm
    obtain ⟨f, hf⟩ := Option.isSome_iff_exists.mp (h.phase.txf.mpr (.inr hm))
    rw [hf] at hr
    dsimp only at hr
    split at hr
    · obtain ⟨-, hr⟩ := withLock_eq_fault.mp hr
      rcases Act.andThen_eq_error.mp hr with hr | ⟨u, -, hr⟩
      · unfold pushOutq at hr
        split at hr <;> cases hr
      · cases hr
    · cases hr
  · cases hr

/-- An acknowledgment within the window finds its entry (R210, R218). -/
theorem execTxDrain_ne_fault {r : Fault} (h : SeqInv s) : execTxDrain s ≠ .fault r := by
  intro hr
  obtain ⟨-, hr⟩ := arqStep_eq_fault.mp (settle_eq_fault.mp hr)
  split at hr
  · rename_i hp
    obtain ⟨hp, hm⟩ := hp
    obtain ⟨-, hr⟩ := withLock_eq_fault.mp hr
    have hwin := h.send.window_iff (h.phase.sending_of_isTx (by rw [hp]; rfl)) (not_newInFlight_of_idle hm)
    split at hr
    · cases hr
    · rename_i f q _
      unfold takeAck at hr
      split at hr
      · rename_i hk
        obtain ⟨e, he⟩ := Option.isSome_iff_exists.mp ((hwin (seqMag f.seq)).mpr hk.2)
        rw [he] at hr
        cases hr
      · split at hr <;> cases hr
  · cases hr

/-- The loop of `TX.SLIDE` reads entries of the window only (R211). -/
theorem slideWhile_ne_fault {n : Nat} {r : Fault} (hw : s.sw.wf)
    (h : ∀ m, s.lar < m → m ≤ s.lar + n → (s.sw.get m).isSome = true) : slideWhile n s ≠ .error (.fault r) := by
  induction n generalizing s with
  | zero => nofun
  | succ n ih =>
    obtain ⟨e, he⟩ := Option.isSome_iff_exists.mp (h (s.lar + 1) (by omega) (by omega))
    unfold slideWhile
    rw [he]
    dsimp only
    split
    · refine ih (Memory.wf_erase _ hw) fun m h1 h2 => ?_
      simp only at h1 h2
      rw [Memory.get_erase hw, if_neg (by omega)]
      exact h m (by omega) (by omega)
    · nofun

theorem execTxSlide_ne_fault {r : Fault} (h : SeqInv s) (hw : s.sw.wf) : execTxSlide s ≠ .fault r := by
  intro hr
  obtain ⟨-, hr⟩ := arqStep_eq_fault.mp (settle_eq_fault.mp hr)
  split at hr
  · rename_i hp
    obtain ⟨hp, hm⟩ := hp
    have hwin := h.send.window_iff (h.phase.sending_of_isTx (by rw [hp]; rfl)) (not_newInFlight_of_idle hm)
    rcases Act.andThen_eq_error.mp hr with hr | ⟨u, -, hr⟩
    · exact slideWhile_ne_fault hw (fun m h1 h2 => (hwin m).mpr ⟨h1, by omega⟩) hr
    · cases hr
  · cases hr

/-- The examined entry is in the window, and so is the one whose resend returns (R212). -/
theorem execTxRetx_ne_fault {r : Fault} (h : SeqInv s) : execTxRetx s ≠ .fault r := by
  intro hr
  obtain ⟨-, hr⟩ := arqStep_eq_fault.mp (settle_eq_fault.mp hr)
  split at hr
  · rename_i hp
    have htx : s.arqPhase.isTx = true := by rw [hp]; rfl
    rcases sending_eq_fault.mp hr with ⟨hm, hr⟩ | ⟨hm, -, hr⟩
    · unfold examineEntry at hr
      split at hr
      · cases hr
      · rename_i hl
        have hwin := h.send.window_iff (h.phase.sending_of_isTx htx) (not_newInFlight_of_idle hm)
        obtain ⟨e, he⟩ := Option.isSome_iff_exists.mp
          ((hwin s.scan).mpr ⟨(h.send.scan hp).1, Nat.le_of_not_lt hl⟩)
        rw [he] at hr
        dsimp only at hr
        split at hr
        · split at hr
          · cases hr
          · exact sendData_ne_fault (h.payload_held htx) hr
        · cases hr
    · obtain ⟨e, he, -⟩ := h.send.resend hp (hm ▸ nofun)
      unfold finishResend at hr
      rw [he] at hr
      cases hr
  · cases hr

theorem execTxNew_ne_fault {r : Fault} (h : SeqInv s) : execTxNew s ≠ .fault r := by
  intro hr
  obtain ⟨-, hr⟩ := arqStep_eq_fault.mp (settle_eq_fault.mp hr)
  split at hr
  · rename_i hp
    rcases sending_eq_fault.mp hr with ⟨-, hr⟩ | ⟨-, -, hr⟩
    · unfold sendNew at hr
      split at hr
      · exact absurd hr (sendData_ne_fault (h.payload_held (by rw [hp]; rfl)))
      · cases hr
    · cases hr
  · cases hr

/-- A sentinel that `FQ` may hold has its two bytes (R96, R233). -/
theorem takeFrame_ne_fault {f : Frame} {r : Fault} (hf : Frame.ok s.cfg f = true) :
    takeFrame f s ≠ .error (.fault r) := by
  unfold takeFrame
  split
  · rename_i hc
    obtain ⟨hlen, -⟩ := frame_ok_iff.mp hf
    rw [classify_sent hc] at hlen
    obtain ⟨hi, lo, hb⟩ := List.length_eq_two.mp hlen.symm
    rw [takeSentinel_eq_ok.mpr ⟨hi, lo, [], hb, rfl⟩]
    nofun
  · intro hr
    rcases Act.andThen_eq_error.mp hr with hr | ⟨u, -, hr⟩
    · exact sendEntry_ne_fault hr
    · cases hr
  · nofun
  · nofun

theorem execRxPop_ne_fault {r : Fault} (hfq : ∀ f ∈ s.fq, Frame.ok s.cfg f = true) : execRxPop s ≠ .fault r := by
  intro hr
  obtain ⟨-, hr⟩ := arqStep_eq_fault.mp (settle_eq_fault.mp hr)
  split at hr
  · split at hr
    · cases hr
    · obtain ⟨-, hr⟩ := withLock_eq_fault.mp hr
      split at hr
      · cases hr
      · rename_i f q hq
        have hok : Frame.ok s.cfg f = true := hfq f (hq ▸ List.mem_cons_self)
        exact absurd hr (takeFrame_ne_fault hok)
  · cases hr

/-! The other steps read nothing that could be without a value. -/

theorem startSender_ne_fault {r : Fault} : startSender s ≠ .error (.fault r) := by
  intro hr
  obtain ⟨-, hr⟩ := betweenSends_eq_fault.mp hr
  split at hr
  · cases hr
  · nomatch (withLock_eq_fault.mp hr).2

theorem execHTransmit_ne_fault {p : List Byte} {r : Fault} : execHTransmit p s ≠ .fault r := by
  intro hr
  have hr := settle_eq_fault.mp hr
  split at hr
  · cases hr
  · split at hr
    · cases hr
    · exact startSender_ne_fault hr

theorem execHReceive_ne_fault {r : Fault} : execHReceive s ≠ .fault r := by
  intro hr
  have hr := settle_eq_fault.mp hr
  split at hr
  · cases hr
  · nomatch (withLock_eq_fault.mp (betweenSends_eq_fault.mp hr).2).2

theorem audioIn_ne_fault {x : Sample} {r : Fault} : audioIn x s ≠ .error (.fault r) := by
  intro hr
  unfold audioIn at hr
  split at hr
  · nomatch (withLock_eq_fault.mp hr).2
  · cases hr

theorem audioOut_ne_fault {r : Fault} : audioOut s ≠ .error (.fault r) := by
  intro hr
  obtain ⟨-, hr⟩ := withLock_eq_fault.mp hr
  split at hr <;> cases hr

theorem execAbOut_ne_fault {r : Fault} : execAbOut s ≠ .fault r := by
  intro hr
  rcases Act.andThen_eq_error.mp (settle_eq_fault.mp hr) with hr | ⟨y, -, hr⟩
  · exact audioOut_ne_fault hr
  · cases hr

theorem periodPart_ne_fault {p : Period} {r : Fault} : periodPart p s ≠ .error (.fault r) := by
  intro hr
  unfold periodPart at hr
  split at hr
  · rcases Act.andThen_eq_error.mp hr with hr | ⟨u, -, hr⟩
    · exact audioIn_ne_fault hr
    · cases hr
  · split at hr
    · rcases Act.andThen_eq_error.mp hr with hr | ⟨y, -, hr⟩
      · exact audioOut_ne_fault hr
      · cases hr
    · cases hr

theorem execAbPeriod_ne_fault {xs : List Sample} {r : Fault} : execAbPeriod xs s ≠ .fault r := by
  intro hr
  have hr := settle_eq_fault.mp hr
  unfold audioPeriod at hr
  split at hr
  · exact periodPart_ne_fault hr
  · split at hr
    · split at hr
      · exact periodPart_ne_fault hr
      · cases hr
    · cases hr

theorem execQRel_ne_fault {q : QueueId} {a : Agent} {r : Fault} : execQRel q a s ≠ .fault r := by
  unfold execQRel
  split <;> nofun

theorem execModWaitq_ne_fault {r : Fault} : execModWaitq s ≠ .fault r := by
  intro hr
  obtain ⟨-, hr⟩ := arqStep_eq_fault.mp (settle_eq_fault.mp hr)
  split at hr
  · split at hr
    · cases hr
    · split at hr <;> cases hr
  · cases hr

theorem execModDrain_ne_fault {r : Fault} : execModDrain s ≠ .fault r := by
  intro hr
  obtain ⟨-, hr⟩ := arqStep_eq_fault.mp (settle_eq_fault.mp hr)
  split at hr
  · split at hr
    · cases hr
    · obtain ⟨-, hr⟩ := withLock_eq_fault.mp hr
      split at hr <;> cases hr
  · cases hr

/-- A rule of the sender that sends a sentinel faults in neither its entry nor its continuation. -/
theorem settle_sending_ne_fault {c : Caller} {f : Frame} {p : ArqPhase} {r : Fault} {u : State} :
    settle s (arqStep s (if s.arqPhase = p then Machine.sending c s (sendEntry c f s) (.ok u)
      else .error .hold)) ≠ .fault r := by
  intro hr
  obtain ⟨-, hr⟩ := arqStep_eq_fault.mp (settle_eq_fault.mp hr)
  split at hr
  · rcases sending_eq_fault.mp hr with ⟨-, hr⟩ | ⟨-, -, hr⟩
    · exact sendEntry_ne_fault hr
    · cases hr
  · cases hr

theorem execTxLoop_ne_fault {r : Fault} : execTxLoop s ≠ .fault r := by
  intro hr
  obtain ⟨-, hr⟩ := arqStep_eq_fault.mp (settle_eq_fault.mp hr)
  split at hr
  · split at hr
    · cases hr
    · split at hr <;> cases hr
  · cases hr

theorem execRxData_ne_fault {f : Frame} {r : Fault} (hp : s.arqPhase = .rxAck) : execRxData f s ≠ .fault r := by
  intro hr
  obtain ⟨-, hr⟩ := arqStep_eq_fault.mp (settle_eq_fault.mp hr)
  rw [hp] at hr
  rcases sending_eq_fault.mp hr with ⟨-, hr⟩ | ⟨-, -, hr⟩ <;> cases hr

theorem decodeBits_ne_fault {c : Config} {b : List Bool} {r : Fault} : decodeBits c b ≠ .error (.fault r) := by
  unfold decodeBits
  split
  · nofun
  · dsimp only
    split
    · nofun
    · split <;> nofun

theorem execFcDecode_ne_fault {b : List Bool} {r : Fault} : execFcDecode b s ≠ .fault r := by
  intro hr
  rcases Act.andThen_eq_error.mp (settle_eq_fault.mp hr) with hr | ⟨x, -, hr⟩
  · exact decodeBits_ne_fault hr
  · cases hr

theorem exec_ne_fault {i : Instr} {r : Fault} (ha : agentStep i s = true) (hpk : 0 < s.cfg.pk) (hw : s.sw.wf)
    (hd : DemInv s) (h : SeqInv s) : exec i s ≠ .fault r := by
  cases i with
  | qPush | qPop | modSend | demSearch | demCorr | demHeader | demBody | demCrc | demEmit | demDiscard | txStart
  | txAbort | txStop | rxStart | rxSent | rxDone | rxStop => cases ha
  | hReset | hStop | hStatus | tbTick | modBits | demSlice | csEval | rxEcho | rxOther => nofun
  | hTransmit => exact execHTransmit_ne_fault
  | hReceive => exact execHReceive_ne_fault
  | abPeriod => exact execAbPeriod_ne_fault
  | abIn => exact fun hr => audioIn_ne_fault (settle_eq_fault.mp hr)
  | abOut => exact execAbOut_ne_fault
  | qAcq => exact fun hr => nomatch (withLock_eq_fault.mp (settle_eq_fault.mp hr)).2
  | qRel => exact execQRel_ne_fault
  | modWaitq => exact execModWaitq_ne_fault
  | modEmit => exact execModEmit_ne_fault h
  | modDrain => exact execModDrain_ne_fault
  | demStep => exact execDemStep_ne_fault hd hpk
  | fcPack =>
    rw [exec_fcPack, execFcPack]
    split <;> nofun
  | fcCrc32 =>
    rw [exec_fcCrc32, execFcCrc32]
    split <;> nofun
  | fcEncode =>
    rw [exec_fcEncode, execFcEncode]
    split <;> nofun
  | fcDecode => exact execFcDecode_ne_fault
  | txSent0 => exact settle_sending_ne_fault
  | txLoop => exact execTxLoop_ne_fault
  | txDrain => exact execTxDrain_ne_fault h
  | txSlide => exact execTxSlide_ne_fault h hw
  | txRetx => exact execTxRetx_ne_fault h
  | txNew => exact execTxNew_ne_fault h
  | txFin => exact settle_sending_ne_fault
  | rxPop => exact execRxPop_ne_fault hd.fq
  | rxData => exact execRxData_ne_fault (of_decide_eq_true ha)
  | fSent | fAck | fData | fRsv => exact receiveWire_ne_fault

theorem LinkInv.seqInv (h : LinkInv s) : SeqInv s := ⟨h.phase, h.send, h.receive⟩

theorem linkInv_resetOf {c : Config} (hk : 0 < c.k) : LinkInv (State.resetOf c) :=
  have ⟨hp, hs, hr⟩ := seqInv_resetOf c
  ⟨storeInv_resetOf c, hp, demInv_resetOf hk, hs, hr⟩

end Sys2Proof.Machine

open Sys2Proof Sys2Proof.Machine

/-- Settles O56: the storage, the demodulator and the sequencer each keep their part. -/
theorem agentStepsKeepTheLinkInvariant : Obligations.AgentStepsKeepTheLinkInvariant := by
  intro i s t hc h ha hs
  obtain ⟨hp, hsd, hr⟩ := exec_seqInv ha hs hc h.store.sw h.dem.fq h.seqInv
  exact ⟨exec_storeInv hs h.store, hp, exec_demInv ha hs hc.pk_pos h.dem, hsd, hr⟩

/-- Settles O57. -/
theorem resetMeetsTheInvariants : Obligations.ResetMeetsTheInvariants := fun c hc =>
  ⟨storeInv_resetOf c, linkInv_resetOf hc.k, fun _ => rfl⟩

/-- Settles O58: what a step reads, the link invariant says to be held. -/
theorem agentStepsNeverFault : Obligations.AgentStepsNeverFault := fun _ _ _ hc h ha =>
  exec_ne_fault ha hc.pk_pos h.store.sw h.dem h.seqInv

end

section
/-! `OUTQ` between frames (R43, R262): only `MOD.EMIT` fills it, on the way into `DRAIN`, and but for a stop only an
empty `OUTQ` ends `DRAIN`. -/

namespace Sys2Proof.Machine

variable {s t u : State}

/-- Outside `DRAIN` a step that leaves `OUTQ` alone leaves it empty. -/
theorem outqDrained.of_not_drain (h : outqDrained s) (hm : s.modPhase ≠ .drain) (ho : t.outq = s.outq) :
    outqDrained t := fun _ => ho.trans (h hm)

theorem outqDrained.of_idle (h : outqDrained s) (hm : s.modPhase = .idle) (ho : t.outq = s.outq) :
    outqDrained t := h.of_not_drain (hm ▸ nofun) ho

theorem outqDrained.of_done (h : outqDrained s) (hm : s.modPhase = .done) (ho : t.outq = s.outq) :
    outqDrained t := h.of_not_drain (hm ▸ nofun) ho

theorem DemWrites.outqDrained (w : DemWrites s t) (h : outqDrained s) : outqDrained t := by
  rw [w.eq]
  exact h

theorem stopByRole_outq (s : State) : (stopByRole s).outq = s.outq := by
  rcases stopByRole_cases s with ⟨-, e⟩ | ⟨-, e⟩ <;> rw [e] <;> rfl

@[simp] theorem pushInq_outq (x : Sample) (s : State) : (pushInq x s).outq = s.outq := by
  rcases pushInq_cases x s with ⟨-, e⟩ | ⟨-, e⟩ <;> rw [e]

@[simp] theorem pushInq_modPhase (x : Sample) (s : State) : (pushInq x s).modPhase = s.modPhase := by
  rcases pushInq_cases x s with ⟨-, e⟩ | ⟨-, e⟩ <;> rw [e]

/-! ### The audio boundary takes samples out of `OUTQ` only -/

theorem outqDrained.of_tail (h : outqDrained s) (hm : t.modPhase = s.modPhase) (ho : t.outq = s.outq.tail) :
    outqDrained t := fun hd => by rw [ho, h (hm ▸ hd), List.tail_nil]

theorem periodPart_outqDrained {p : Period} (hs : periodPart p s = .ok t) (h : outqDrained s) : outqDrained t := by
  rcases periodPart_eq_ok.mp hs with ⟨x, xs, -, -, -, rfl⟩ | ⟨-, -, -, rfl⟩ | ⟨-, -, rfl⟩
  · intro hd
    simp only [pushInq_outq, pushInq_modPhase] at hd ⊢
    exact h hd
  · exact h.of_tail rfl rfl
  · exact h

theorem execAbPeriod_outqDrained {xs : List Sample} (hs : execAbPeriod xs s = .next t) (h : outqDrained s) :
    outqDrained t := by
  rcases execAbPeriod_next hs with rfl | ⟨p, -, hs⟩ | ⟨-, -, -, hs⟩
  · exact h
  · exact periodPart_outqDrained hs h
  · exact periodPart_outqDrained hs h

theorem execAbIn_outqDrained {x : Sample} (hs : execAbIn x s = .next t) (h : outqDrained s) : outqDrained t := by
  rcases execAbIn_next hs with rfl | ⟨-, -, rfl⟩
  · exact h
  · intro hd
    rw [pushInq_modPhase] at hd
    rw [pushInq_outq]
    exact h hd

theorem execAbOut_outqDrained (hs : execAbOut s = .next t) (h : outqDrained s) : outqDrained t := by
  rcases execAbOut_next hs with rfl | ⟨-, rfl⟩
  · exact h
  · exact h.of_tail rfl rfl

/-! ### The modulator -/

theorem execModWaitq_outqDrained (hs : execModWaitq s = .next t) (h : outqDrained s) : outqDrained t := by
  rcases execModWaitq_next hs with rfl | ⟨hm, -, rfl⟩ | ⟨hm, -, -, rfl⟩
  · exact h
  · exact h.of_not_drain (hm ▸ nofun) (stopByRole_outq s)
  · exact h.of_not_drain (hm ▸ nofun) rfl

theorem execModEmit_outqDrained (hs : execModEmit s = .next t) (h : outqDrained s) : outqDrained t := by
  rcases execModEmit_next hs with rfl | ⟨-, f, -, -, -, -, rfl⟩
  · exact h
  · exact fun hd => absurd rfl hd

theorem execModDrain_outqDrained (hs : execModDrain s = .next t) (hstop : s.stopReq ≠ true) (h : outqDrained s) :
    outqDrained t := by
  rcases execModDrain_next hs with rfl | ⟨-, hn, -⟩ | ⟨-, -, -, ho, rfl⟩
  · exact h
  · exact absurd hn hstop
  · exact fun _ => ho

/-! ### The sequencer's rules run outside `DRAIN` and leave `OUTQ` alone -/

theorem sendEntry_outqDrained {c : Caller} {f : Frame} (hs : sendEntry c f s = .ok t) (h : outqDrained s) :
    outqDrained t := by
  obtain ⟨-, hm, rfl⟩ := sendEntry_eq_ok.mp hs
  exact h.of_idle hm rfl

theorem sendData_outqDrained {c : Caller} {m : Nat} (hs : sendData c m s = .ok t) (h : outqDrained s) :
    outqDrained t := by
  obtain ⟨f, -, hs⟩ := sendData_eq_ok.mp hs
  exact sendEntry_outqDrained hs h

theorem execHTransmit_outqDrained {p : List Byte} (hs : execHTransmit p s = .next t) (h : outqDrained s) :
    outqDrained t := by
  rcases execHTransmit_next hs with rfl | ⟨-, -, rfl⟩ | ⟨-, -, hs⟩
  · exact h
  · exact h
  · obtain ⟨hm, ⟨-, rfl⟩ | ⟨-, -, rfl⟩⟩ := startSender_eq_ok.mp hs <;> exact h.of_idle hm rfl

theorem execHReceive_outqDrained (hs : execHReceive s = .next t) (h : outqDrained s) : outqDrained t := by
  rcases execHReceive_next hs with rfl | ⟨-, hs⟩
  · exact h
  · obtain ⟨hm, -, rfl⟩ := startReceiver_eq_ok.mp hs
    exact h.of_idle hm rfl

theorem execTxSent0_outqDrained (hs : execTxSent0 s = .next t) (h : outqDrained s) : outqDrained t := by
  rcases execTxSent0_next hs with rfl | ⟨-, ⟨-, hs⟩ | ⟨hm, -, rfl⟩⟩
  · exact h
  · exact sendEntry_outqDrained hs h
  · exact h.of_done hm rfl

theorem execTxLoop_outqDrained (hs : execTxLoop s = .next t) (h : outqDrained s) : outqDrained t := by
  rcases execTxLoop_next hs with rfl | ⟨-, hm, ⟨-, rfl⟩ | ⟨-, -, rfl⟩ | ⟨-, -, rfl⟩⟩
  · exact h
  · exact h.of_idle hm rfl
  · exact h
  · exact h

theorem execTxDrain_outqDrained (hs : execTxDrain s = .next t) (h : outqDrained s) : outqDrained t := by
  rcases execTxDrain_next hs with rfl | ⟨-, -, -, ⟨-, rfl⟩ | ⟨f, q, -, hs⟩⟩
  · exact h
  · exact h
  · rcases takeAck_eq_ok.mp hs with ⟨-, -, -, e, -, rfl⟩ | ⟨-, rfl⟩
    · exact h
    · cases isAck f <;> exact h

theorem execTxSlide_outqDrained (hs : execTxSlide s = .next t) (h : outqDrained s) : outqDrained t := by
  rcases execTxSlide_next hs with rfl | ⟨-, -, u, hu, rfl⟩
  · exact h
  · rw [slideWhile_writes hu]
    exact h

theorem execTxRetx_outqDrained (hs : execTxRetx s = .next t) (h : outqDrained s) : outqDrained t := by
  rcases execTxRetx_next hs with rfl | ⟨-, ⟨-, hs⟩ | ⟨hm, -, hs⟩⟩
  · exact h
  · rcases examineEntry_eq_ok.mp hs with ⟨-, rfl⟩ | ⟨-, e, -, ⟨-, -, rfl⟩ | ⟨-, -, hs⟩ | ⟨-, rfl⟩⟩
    · exact h
    · exact h
    · exact sendData_outqDrained hs h
    · exact h
  · obtain ⟨e, -, rfl⟩ := finishResend_eq_ok.mp hs
    exact h.of_done hm rfl

theorem execTxNew_outqDrained (hs : execTxNew s = .next t) (h : outqDrained s) : outqDrained t := by
  rcases execTxNew_next hs with rfl | ⟨-, ⟨-, -, hs⟩ | ⟨-, -, rfl⟩ | ⟨hm, -, rfl⟩⟩
  · exact h
  · exact sendData_outqDrained hs h
  · exact h
  · exact h.of_done hm rfl

theorem execTxFin_outqDrained (hs : execTxFin s = .next t) (h : outqDrained s) : outqDrained t := by
  rcases execTxFin_next hs with rfl | ⟨-, ⟨-, hs⟩ | ⟨hm, -, rfl⟩⟩
  · exact h
  · exact sendEntry_outqDrained hs h
  · rcases finishFin_cases s with ⟨-, e⟩ | ⟨-, e⟩ <;> rw [e] <;> exact h.of_done hm rfl

theorem takeFrame_outqDrained {f : Frame} (hs : takeFrame f s = .ok t) (h : outqDrained s) : outqDrained t := by
  rcases takeFrame_cases hs with ⟨-, hs⟩ | ⟨-, hs⟩ | rfl
  · obtain ⟨hi, lo, rest, -, rfl⟩ := takeSentinel_eq_ok.mp hs
    split <;> exact h
  · obtain ⟨hm, -, rfl⟩ := takeData_eq_ok.mp hs
    exact h.of_idle hm rfl
  · exact h

theorem execRxPop_outqDrained (hs : execRxPop s = .next t) (h : outqDrained s) : outqDrained t := by
  rcases execRxPop_next hs with rfl | ⟨-, hm, -, rfl⟩ | ⟨-, -, -, -, f, q, -, hs⟩
  · exact h
  · exact h.of_idle hm rfl
  · exact takeFrame_outqDrained hs h

theorem execRxData_outqDrained {f : Frame} (hs : execRxData f s = .next t) (h : outqDrained s) : outqDrained t := by
  rcases execRxData_next hs with rfl | ⟨-, hm, -, rfl⟩ | ⟨-, hm, -, hs⟩
  · exact h
  · exact h.of_done hm rfl
  · obtain ⟨-, -, rfl⟩ := takeData_eq_ok.mp hs
    exact h.of_idle hm rfl

theorem exec_outqDrained {i : Instr} (ha : agentStep i s = true) (hi : ¬ (i = .modDrain ∧ s.stopReq = true))
    (hs : exec i s = .next t) (h : outqDrained s) : outqDrained t := by
  cases i with
  | qPush | qPop | modSend | demSearch | demCorr | demHeader | demBody | demCrc | demEmit | demDiscard | txStart
  | txAbort | txStop | rxStart | rxSent | rxDone | rxStop => cases ha
  | hStatus | tbTick | modBits | demSlice | csEval | rxEcho | rxOther =>
    obtain rfl := Host.Outcome.next.inj hs
    exact h
  | hReset =>
    obtain rfl := Host.Outcome.next.inj hs
    exact fun _ => rfl
  | hTransmit => exact execHTransmit_outqDrained hs h
  | hReceive => exact execHReceive_outqDrained hs h
  | hStop => rcases execHStop_next hs with rfl | ⟨-, rfl⟩ <;> exact h
  | abPeriod => exact execAbPeriod_outqDrained hs h
  | abIn => exact execAbIn_outqDrained hs h
  | abOut => exact execAbOut_outqDrained hs h
  | qAcq q =>
    rcases execQAcq_next hs with rfl | ⟨-, rfl⟩
    · exact h
    · cases q <;> exact h
  | qRel q =>
    obtain ⟨-, rfl⟩ := execQRel_next hs
    cases q <;> exact h
  | modWaitq => exact execModWaitq_outqDrained hs h
  | modEmit => exact execModEmit_outqDrained hs h
  | modDrain => exact execModDrain_outqDrained hs (fun hn => hi ⟨rfl, hn⟩) h
  | demStep => exact (execDemStep_writes hs).outqDrained h
  | fcDecode => rcases settle_answer hs with rfl | ⟨o, rfl⟩ <;> exact h
  | fcPack =>
    obtain ⟨o, rfl⟩ := execFcPack_next hs
    exact h
  | fcCrc32 =>
    obtain ⟨o, rfl⟩ := execFcCrc32_next hs
    exact h
  | fcEncode =>
    obtain ⟨o, rfl⟩ := execFcEncode_next hs
    exact h
  | txSent0 => exact execTxSent0_outqDrained hs h
  | txLoop => exact execTxLoop_outqDrained hs h
  | txDrain => exact execTxDrain_outqDrained hs h
  | txSlide => exact execTxSlide_outqDrained hs h
  | txRetx => exact execTxRetx_outqDrained hs h
  | txNew => exact execTxNew_outqDrained hs h
  | txFin => exact execTxFin_outqDrained hs h
  | rxPop => exact execRxPop_outqDrained hs h
  | rxData => exact execRxData_outqDrained hs h
  | fSent | fAck | fData | fRsv => exact (settle_demWrites (fun _ => receiveWire_writes) hs).outqDrained h

end Sys2Proof.Machine

open Sys2Proof Sys2Proof.Machine

/-- Settles O59. The guards of the rules are enough: that the phases agree is not needed. -/
theorem outqIsEmptyBetweenFrames : Obligations.OutqIsEmptyBetweenFrames := fun _ _ _ _ h ha hi hs =>
  exec_outqDrained ha hi hs h

end

section
/-! The queues are first in, first out (R61): in every step each of `INQ`, `OUTQ` and `FQ` loses at its head, or gains
at its tail, or stays. By agent: the audio boundary appends to `INQ` and pops `OUTQ`; the demodulator pops `INQ` and
appends to `FQ`; the sequencer pops or flushes `FQ`, and of its rules `MOD.EMIT` alone writes `OUTQ`, at the tail
(R42, R145). -/

namespace Sys2Proof.Machine

variable {α : Type} {l m : List α} {s t u : State}

/-- The queue `m` is `l` with some of its first elements gone, or `l` with elements appended. -/
def FifoMove (l m : List α) : Prop := (∃ n, m = l.drop n) ∨ ∃ r, m = l ++ r

theorem FifoMove.of_suffix (h : m <:+ l) : FifoMove l m := .inl ⟨_, List.suffix_iff_eq_drop.mp h⟩

theorem FifoMove.of_prefix (h : l <+: m) : FifoMove l m := by
  obtain ⟨r, hr⟩ := h
  exact .inr ⟨r, hr.symm⟩

theorem FifoMove.of_eq (h : m = l) : FifoMove l m := .of_suffix (h ▸ List.suffix_rfl)

theorem FifoMove.refl (l : List α) : FifoMove l l := .of_eq rfl

theorem FifoMove.tail (l : List α) : FifoMove l l.tail := .of_suffix (List.tail_suffix l)

theorem FifoMove.of_cons {x : α} (h : l = x :: m) : FifoMove l m := .of_suffix (h ▸ List.suffix_cons x m)

theorem FifoMove.append (l r : List α) : FifoMove l (l ++ r) := .of_prefix (List.prefix_append l r)

/-- From `s` to `t` every queue has moved as R61 allows. -/
def QueuesMove (s t : State) : Prop := FifoMove s.inq t.inq ∧ FifoMove s.outq t.outq ∧ FifoMove s.fq t.fq

theorem QueuesMove.of_eq (h : (t.inq, t.outq, t.fq) = (s.inq, s.outq, s.fq)) : QueuesMove s t := by
  simp only [Prod.mk.injEq] at h
  obtain ⟨hi, ho, hf⟩ := h
  exact ⟨.of_eq hi, .of_eq ho, .of_eq hf⟩

/-! ### The audio boundary and the gate -/

/-- A push to `INQ` appends the sample or drops it, and the other queues stay (R63). -/
theorem pushInq_queuesMove (x : Sample) (s : State) : QueuesMove s (pushInq x s) := by
  rcases pushInq_cases x s with ⟨-, e⟩ | ⟨-, e⟩ <;> rw [e]
  · exact ⟨.append _ _, .refl _, .refl _⟩
  · exact .of_eq rfl

theorem execAbIn_queuesMove {x : Sample} (h : execAbIn x s = .next t) : QueuesMove s t := by
  rcases execAbIn_next h with rfl | ⟨-, -, rfl⟩
  · exact .of_eq rfl
  · exact pushInq_queuesMove x { s with sh := shiftHistory s.sh x }

theorem execAbOut_queuesMove (h : execAbOut s = .next t) : QueuesMove s t := by
  rcases execAbOut_next h with rfl | ⟨-, rfl⟩
  · exact .of_eq rfl
  · exact ⟨.refl _, .tail _, .refl _⟩

theorem periodPart_queuesMove {p : Period} (h : periodPart p s = .ok t) : QueuesMove s t := by
  rcases periodPart_eq_ok.mp h with ⟨x, xs, -, -, -, rfl⟩ | ⟨-, -, -, rfl⟩ | ⟨-, -, rfl⟩
  · exact pushInq_queuesMove x { s with sh := shiftHistory s.sh x }
  · exact ⟨.refl _, .tail _, .refl _⟩
  · exact .of_eq rfl

theorem execAbPeriod_queuesMove {xs : List Sample} (h : execAbPeriod xs s = .next t) : QueuesMove s t := by
  rcases execAbPeriod_next h with rfl | ⟨p, -, h⟩ | ⟨-, -, -, h⟩
  · exact .of_eq rfl
  · exact periodPart_queuesMove h
  · exact periodPart_queuesMove h

theorem setLock_queuesMove (q : QueueId) (a : Option Agent) (s : State) : QueuesMove s (s.setLock q a) := by
  cases q <;> exact .of_eq rfl

theorem execQAcq_queuesMove {q : QueueId} {a : Agent} (h : execQAcq q a s = .next t) : QueuesMove s t := by
  rcases execQAcq_next h with rfl | ⟨-, rfl⟩
  · exact .of_eq rfl
  · exact setLock_queuesMove q _ s

theorem execQRel_queuesMove {q : QueueId} {a : Agent} (h : execQRel q a s = .next t) : QueuesMove s t := by
  obtain ⟨-, rfl⟩ := execQRel_next h
  exact setLock_queuesMove q none s

theorem execQPop_queuesMove {q : QueueId} (h : execQPop q s = .next t) : QueuesMove s t := by
  obtain ⟨-, v, u, hu, rfl⟩ := execQPop_next h
  rcases popQueue_cases hu with ⟨x, l, -, hq, rfl⟩ | ⟨x, l, -, hq, rfl⟩ | ⟨f, l, -, hq, rfl⟩
  · exact ⟨.of_cons hq, .refl _, .refl _⟩
  · exact ⟨.refl _, .of_cons hq, .refl _⟩
  · exact ⟨.refl _, .refl _, .of_cons hq⟩

/-! ### The demodulator, once its sample is popped -/

/-- From `s` to `t` the sample queues stay, and frames are only appended to `FQ`. -/
structure FqGrows (s t : State) : Prop where
  inq : t.inq = s.inq
  outq : t.outq = s.outq
  fq : s.fq <+: t.fq

theorem FqGrows.of_eq (h : (t.inq, t.outq, t.fq) = (s.inq, s.outq, s.fq)) : FqGrows s t := by
  simp only [Prod.mk.injEq] at h
  obtain ⟨hi, ho, hf⟩ := h
  exact ⟨hi, ho, hf ▸ List.prefix_rfl⟩

theorem FqGrows.trans (h : FqGrows s t) (h' : FqGrows t u) : FqGrows s u where
  inq := h'.inq.trans h.inq
  outq := h'.outq.trans h.outq
  fq := h.fq.trans h'.fq

/-- Some writes beside the queues, then those of an operation. -/
theorem FqGrows.after (h : FqGrows t u) (e : (t.inq, t.outq, t.fq) = (s.inq, s.outq, s.fq)) : FqGrows s u :=
  FqGrows.trans (.of_eq e) h

theorem FqGrows.queuesMove (h : FqGrows s t) : QueuesMove s t := ⟨.of_eq h.inq, .of_eq h.outq, .of_prefix h.fq⟩

/-- A push to `FQ` appends the frame or drops it (R63). -/
theorem fqGrows_pushFq (f : Frame) (s : State) : FqGrows s (pushFq f s) := by
  rcases pushFq_cases f s with ⟨-, e⟩ | ⟨-, e⟩ <;> rw [e]
  · exact ⟨rfl, rfl, List.prefix_append _ _⟩
  · exact .of_eq rfl

theorem slideWindow_fqGrows {x : Sample} (h : slideWindow x s = .ok t) : FqGrows s t := by
  rcases slideWindow_eq_ok.mp h with ⟨-, rfl⟩ | ⟨-, xs, -, rfl⟩ <;> exact .of_eq rfl

theorem demSearch_fqGrows {x : Sample} (h : demSearch x s = .ok t) : FqGrows s t := by
  obtain ⟨u, hu, ⟨-, v, -, rfl⟩ | ⟨-, rfl⟩⟩ := demSearch_eq_ok.mp h
  · cases v
    · exact slideWindow_fqGrows hu
    · exact (slideWindow_fqGrows hu).trans (.of_eq rfl)
  · exact slideWindow_fqGrows hu

theorem fqGrows_integrate (x : Sample) (s : State) : FqGrows s (integrate x s).2 := by
  rcases integrate_cases x s with ⟨-, e⟩ | ⟨-, e⟩ <;> rw [e] <;> exact .of_eq rfl

theorem fqGrows_latchHeader (s : State) : FqGrows s (latchHeader s) := by
  rcases latchHeader_cases s with ⟨-, e⟩ | ⟨-, -, e⟩ | ⟨-, -, e⟩ <;> rw [e] <;> exact .of_eq rfl

theorem fqGrows_headerBit (b : Bool) (s : State) : FqGrows s (headerBit b s) := by
  rcases headerBit_cases b s with ⟨-, e⟩ | ⟨-, e⟩ <;> rw [e]
  · exact (fqGrows_latchHeader _).after rfl
  · exact .of_eq rfl

theorem fqGrows_header (x : Sample) (s : State) : FqGrows s (demHeader x s) := by
  rcases demHeader_cases x s with e | ⟨b, e⟩ <;> rw [e]
  · exact fqGrows_integrate x s
  · exact (fqGrows_integrate x s).trans (fqGrows_headerBit b _)

theorem bodyBit_fqGrows {b : Bool} (h : bodyBit b s = .ok t) : FqGrows s t := by
  obtain ⟨-, rfl⟩ := bodyBit_eq_ok.mp h
  exact .of_eq rfl

theorem demBody_fqGrows {x : Sample} (h : demBody x s = .ok t) : FqGrows s t := by
  rcases demBody_cases x s with e | ⟨b, e⟩ <;> rw [e] at h
  · obtain rfl := Except.ok.inj h
    exact fqGrows_integrate x s
  · exact (fqGrows_integrate x s).trans (bodyBit_fqGrows h)

theorem emitFrame_fqGrows (h : emitFrame s = .ok t) : FqGrows s t := by
  obtain ⟨body, -, -, rfl⟩ := emitFrame_eq_ok.mp h
  exact (fqGrows_pushFq _ s).trans (.of_eq rfl)

theorem checkCrc_fqGrows (h : checkCrc s = .ok t) : FqGrows s t := by
  obtain ⟨body, -, ⟨-, h⟩ | ⟨-, rfl⟩⟩ := checkCrc_eq_ok.mp h
  · exact emitFrame_fqGrows h
  · exact .of_eq rfl

theorem crcFieldBit_fqGrows {b : Bool} (h : crcFieldBit b s = .ok t) : FqGrows s t := by
  rcases crcFieldBit_eq_ok.mp h with ⟨-, h⟩ | ⟨-, rfl⟩
  · exact (checkCrc_fqGrows h).after rfl
  · exact .of_eq rfl

theorem demCrc_fqGrows {x : Sample} (h : demCrc x s = .ok t) : FqGrows s t := by
  rcases demCrc_cases x s with e | ⟨b, e⟩ <;> rw [e] at h
  · obtain rfl := Except.ok.inj h
    exact fqGrows_integrate x s
  · exact (fqGrows_integrate x s).trans (crcFieldBit_fqGrows h)

theorem demAct_fqGrows {x : Sample} (h : demAct x s = .ok t) : FqGrows s t := by
  unfold demAct at h
  split at h
  · exact demSearch_fqGrows h
  · obtain rfl := Except.ok.inj h
    exact fqGrows_header x s
  · exact demBody_fqGrows h
  · exact demCrc_fqGrows h

theorem receiveWire_fqGrows {f : Frame} {crc : BitVec 32} (h : receiveWire f crc s = .ok t) : FqGrows s t := by
  obtain ⟨-, -, ⟨-, rfl⟩ | ⟨-, h⟩⟩ := receiveWire_eq_ok.mp h
  · exact .of_eq rfl
  · exact (checkCrc_fqGrows h).after rfl

/-- `DEM.STEP` takes the head of `INQ`, and the queues then move as the sample's action says (R155). -/
theorem execDemStep_queuesMove (h : execDemStep s = .next t) : QueuesMove s t := by
  rcases execDemStep_next h with rfl | ⟨-, x, q, hq, h⟩
  · exact .of_eq rfl
  · have g := demAct_fqGrows h
    exact ⟨.of_cons (hq.trans (congrArg (x :: ·) g.inq.symm)), .of_eq g.outq, .of_prefix g.fq⟩

theorem settle_queuesMove {a : Act State} (ha : ∀ u, a = .ok u → FqGrows s u) (h : settle s a = .next t) :
    QueuesMove s t := by
  rcases settle_eq_next.mp h with h | ⟨-, rfl⟩
  · exact (ha t h).queuesMove
  · exact .of_eq rfl

theorem execQPush_queuesMove {v : QElem} (h : execQPush v s = .next t) : QueuesMove s t := by
  obtain ⟨-, ⟨x, -, rfl⟩ | ⟨x, -, -, rfl⟩ | ⟨f, -, rfl⟩⟩ := execQPush_next h
  · exact pushInq_queuesMove x s
  · exact ⟨.refl _, .append _ _, .refl _⟩
  · exact (fqGrows_pushFq f s).queuesMove

/-! ### The sequencer and the modulator

That they leave `INQ` alone and bring nothing to `FQ` is `SeqWrites`; what is left to say is `OUTQ`. -/

/-- The first state `s` may differ from `u` in what the sequencer writes beside its registers. -/
theorem SeqWrites.queuesMove_of (w : SeqWrites u t) (hu : (u.inq, u.fq) = (s.inq, s.fq))
    (ho : FifoMove s.outq t.outq) : QueuesMove s t := by
  obtain ⟨hi, hf⟩ := Prod.mk.inj hu
  exact ⟨.of_eq ((congrArg State.inq w.eq).trans hi), ho, .of_suffix (hf ▸ w.fq)⟩

theorem SeqWrites.queuesMove (w : SeqWrites u t) (hu : (u.inq, u.fq) = (s.inq, s.fq)) (ho : t.outq = s.outq) :
    QueuesMove s t := w.queuesMove_of hu (.of_eq ho)

/-- `MOD.EMIT` appends the frame's samples to `OUTQ` (R145). -/
theorem execModEmit_queuesMove (h : execModEmit s = .next t) : QueuesMove s t := by
  refine (execModEmit_writes h).queuesMove_of rfl ?_
  rcases execModEmit_next h with rfl | ⟨-, f, -, -, -, -, rfl⟩
  · exact .refl _
  · exact .append _ _

theorem sendEntry_outq {c : Caller} {f : Frame} (h : sendEntry c f s = .ok t) : t.outq = s.outq := by
  obtain ⟨-, -, rfl⟩ := sendEntry_eq_ok.mp h
  rfl

theorem sendData_outq {c : Caller} {n : Nat} (h : sendData c n s = .ok t) : t.outq = s.outq := by
  obtain ⟨f, -, h⟩ := sendData_eq_ok.mp h
  exact sendEntry_outq h

theorem execModSend_outq {f : Frame} (h : execModSend f s = .next t) : t.outq = s.outq := by
  rcases execModSend_next h with rfl | ⟨-, ⟨-, h⟩ | ⟨-, -, rfl⟩⟩
  · rfl
  · exact sendEntry_outq h
  · rfl

theorem execModWaitq_outq (h : execModWaitq s = .next t) : t.outq = s.outq := by
  rcases execModWaitq_next h with rfl | ⟨-, -, rfl⟩ | ⟨-, -, -, rfl⟩
  · rfl
  · exact stopByRole_outq s
  · rfl

theorem execModDrain_outq (h : execModDrain s = .next t) : t.outq = s.outq := by
  rcases execModDrain_next h with rfl | ⟨-, -, rfl⟩ | ⟨-, -, -, -, rfl⟩
  · rfl
  · exact stopByRole_outq s
  · rfl

theorem startSender_outq (h : startSender s = .ok t) : t.outq = s.outq := by
  obtain ⟨-, ⟨-, rfl⟩ | ⟨-, -, rfl⟩⟩ := startSender_eq_ok.mp h <;> rfl

theorem startReceiver_outq (h : startReceiver s = .ok t) : t.outq = s.outq := by
  obtain ⟨-, -, rfl⟩ := startReceiver_eq_ok.mp h
  rfl

theorem execHTransmit_outq {p : List Byte} (h : execHTransmit p s = .next t) : t.outq = s.outq := by
  rcases execHTransmit_next h with rfl | ⟨-, -, rfl⟩ | ⟨-, -, h⟩
  · rfl
  · rfl
  · exact (startSender_outq h).trans rfl

theorem execHReceive_outq (h : execHReceive s = .next t) : t.outq = s.outq := by
  rcases execHReceive_next h with rfl | ⟨-, h⟩
  · rfl
  · exact startReceiver_outq h

theorem execTxStart_outq (h : execTxStart s = .next t) : t.outq = s.outq := by
  rcases execTxStart_next h with rfl | ⟨-, h⟩
  · rfl
  · exact startSender_outq h

theorem execTxSent0_outq (h : execTxSent0 s = .next t) : t.outq = s.outq := by
  rcases execTxSent0_next h with rfl | ⟨-, ⟨-, h⟩ | ⟨-, -, rfl⟩⟩
  · rfl
  · exact sendEntry_outq h
  · rfl

theorem execTxLoop_outq (h : execTxLoop s = .next t) : t.outq = s.outq := by
  rcases execTxLoop_next h with rfl | ⟨-, -, ⟨-, rfl⟩ | ⟨-, -, rfl⟩ | ⟨-, -, rfl⟩⟩ <;> rfl

theorem takeAck_outq {f : Frame} (h : takeAck f s = .ok t) : t.outq = s.outq := by
  rcases takeAck_eq_ok.mp h with ⟨-, -, -, e, -, rfl⟩ | ⟨-, rfl⟩
  · rfl
  · cases isAck f <;> rfl

theorem execTxDrain_outq (h : execTxDrain s = .next t) : t.outq = s.outq := by
  rcases execTxDrain_next h with rfl | ⟨-, -, -, ⟨-, rfl⟩ | ⟨f, q, -, h⟩⟩
  · rfl
  · rfl
  · exact (takeAck_outq h).trans rfl

theorem execTxSlide_outq (h : execTxSlide s = .next t) : t.outq = s.outq := by
  rcases execTxSlide_next h with rfl | ⟨-, -, u, hu, rfl⟩
  · rfl
  · exact (congrArg State.outq (slideWhile_writes hu)).trans rfl

theorem examineEntry_outq (h : examineEntry s = .ok t) : t.outq = s.outq := by
  rcases examineEntry_eq_ok.mp h with ⟨-, rfl⟩ | ⟨-, e, -, ⟨-, -, rfl⟩ | ⟨-, -, h⟩ | ⟨-, rfl⟩⟩
  · rfl
  · rfl
  · exact sendData_outq h
  · rfl

theorem execTxRetx_outq (h : execTxRetx s = .next t) : t.outq = s.outq := by
  rcases execTxRetx_next h with rfl | ⟨-, ⟨-, h⟩ | ⟨-, -, h⟩⟩
  · rfl
  · exact examineEntry_outq h
  · obtain ⟨e, -, rfl⟩ := finishResend_eq_ok.mp h
    rfl

theorem execTxNew_outq (h : execTxNew s = .next t) : t.outq = s.outq := by
  rcases execTxNew_next h with rfl | ⟨-, ⟨-, -, h⟩ | ⟨-, -, rfl⟩ | ⟨-, -, rfl⟩⟩
  · rfl
  · exact (sendData_outq h).trans rfl
  · rfl
  · rfl

theorem execTxFin_outq (h : execTxFin s = .next t) : t.outq = s.outq := by
  rcases execTxFin_next h with rfl | ⟨-, ⟨-, h⟩ | ⟨-, -, rfl⟩⟩
  · rfl
  · exact sendEntry_outq h
  · rcases finishFin_cases s with ⟨-, e⟩ | ⟨-, e⟩ <;> rw [e]

theorem execTxAbort_outq (h : execTxAbort s = .next t) : t.outq = s.outq := by
  rcases execTxAbort_next h with rfl | ⟨-, -, -, rfl⟩ <;> rfl

theorem execTxStop_outq (h : execTxStop s = .next t) : t.outq = s.outq := by
  rcases execTxStop_next h with rfl | ⟨-, rfl⟩ <;> rfl

theorem execRxStart_outq (h : execRxStart s = .next t) : t.outq = s.outq := by
  rcases execRxStart_next h with rfl | ⟨-, h⟩
  · rfl
  · exact startReceiver_outq h

theorem takeSentinel_outq {f : Frame} (h : takeSentinel f s = .ok t) : t.outq = s.outq := by
  obtain ⟨hi, lo, rest, -, rfl⟩ := takeSentinel_eq_ok.mp h
  split <;> rfl

theorem takeData_outq {f : Frame} (h : takeData f s = .ok t) : t.outq = s.outq := by
  obtain ⟨-, -, rfl⟩ := takeData_eq_ok.mp h
  rfl

theorem takeFrame_outq {f : Frame} (h : takeFrame f s = .ok t) : t.outq = s.outq := by
  rcases takeFrame_cases h with ⟨-, h⟩ | ⟨-, h⟩ | rfl
  · exact takeSentinel_outq h
  · exact takeData_outq h
  · rfl

theorem execRxPop_outq (h : execRxPop s = .next t) : t.outq = s.outq := by
  rcases execRxPop_next h with rfl | ⟨-, -, -, rfl⟩ | ⟨-, -, -, -, f, q, -, h⟩
  · rfl
  · rfl
  · exact (takeFrame_outq h).trans rfl

theorem execRxSent_outq {f : Frame} (h : execRxSent f s = .next t) : t.outq = s.outq := by
  rcases execRxSent_next h with rfl | ⟨-, -, -, -, h⟩
  · rfl
  · exact takeSentinel_outq h

theorem execRxData_outq {f : Frame} (h : execRxData f s = .next t) : t.outq = s.outq := by
  rcases execRxData_next h with rfl | ⟨-, -, -, rfl⟩ | ⟨-, -, -, h⟩
  · rfl
  · rfl
  · exact takeData_outq h

theorem execRxDone_outq (h : execRxDone s = .next t) : t.outq = s.outq := by
  rcases execRxDone_next h with rfl | ⟨-, rfl⟩ <;> rfl

theorem execRxStop_outq (h : execRxStop s = .next t) : t.outq = s.outq := by
  rcases execRxStop_next h with rfl | ⟨-, rfl⟩ <;> rfl

/-! ### Every instruction -/

/-- R61 for every instruction: the audio boundary and the gate, the demodulator, then the sequencer's rules. -/
theorem exec_queuesMove {i : Instr} (h : exec i s = .next t) : QueuesMove s t := by
  cases i with
  | hReset =>
    obtain rfl := Host.Outcome.next.inj h
    exact ⟨.of_suffix List.nil_suffix, .of_suffix List.nil_suffix, .of_suffix List.nil_suffix⟩
  | hStatus | tbTick | modBits | demSlice | demDiscard | csEval | rxEcho | rxOther =>
    obtain rfl := Host.Outcome.next.inj h
    exact .of_eq rfl
  | hStop => rcases execHStop_next h with rfl | ⟨-, rfl⟩ <;> exact .of_eq rfl
  | fcPack =>
    obtain ⟨o, rfl⟩ := execFcPack_next h
    exact .of_eq rfl
  | fcCrc32 =>
    obtain ⟨o, rfl⟩ := execFcCrc32_next h
    exact .of_eq rfl
  | fcEncode =>
    obtain ⟨o, rfl⟩ := execFcEncode_next h
    exact .of_eq rfl
  | demCorr | fcDecode => rcases settle_answer h with rfl | ⟨o, rfl⟩ <;> exact .of_eq rfl
  | abPeriod => exact execAbPeriod_queuesMove h
  | abIn => exact execAbIn_queuesMove h
  | abOut => exact execAbOut_queuesMove h
  | qAcq => exact execQAcq_queuesMove h
  | qRel => exact execQRel_queuesMove h
  | qPush => exact execQPush_queuesMove h
  | qPop => exact execQPop_queuesMove h
  | demStep => exact execDemStep_queuesMove h
  | demSearch => exact settle_queuesMove (fun _ => demSearch_fqGrows) h
  | demHeader x =>
    obtain rfl := Host.Outcome.next.inj h
    exact (fqGrows_header x s).queuesMove
  | demBody => exact settle_queuesMove (fun _ => demBody_fqGrows) h
  | demCrc => exact settle_queuesMove (fun _ => demCrc_fqGrows) h
  | demEmit => exact settle_queuesMove (fun _ => emitFrame_fqGrows) h
  | fSent | fAck | fData | fRsv => exact settle_queuesMove (fun _ => receiveWire_fqGrows) h
  | modSend => exact (execModSend_writes h).queuesMove rfl (execModSend_outq h)
  | modWaitq => exact (execModWaitq_writes h).queuesMove rfl (execModWaitq_outq h)
  | modEmit => exact execModEmit_queuesMove h
  | modDrain => exact (execModDrain_writes h).queuesMove rfl (execModDrain_outq h)
  | hTransmit => exact (execHTransmit_writes h).queuesMove rfl (execHTransmit_outq h)
  | hReceive => exact (execHReceive_writes h).queuesMove rfl (execHReceive_outq h)
  | txStart => exact (execTxStart_writes h).queuesMove rfl (execTxStart_outq h)
  | txSent0 => exact (execTxSent0_writes h).queuesMove rfl (execTxSent0_outq h)
  | txLoop => exact (execTxLoop_writes h).queuesMove rfl (execTxLoop_outq h)
  | txDrain => exact (execTxDrain_writes h).queuesMove rfl (execTxDrain_outq h)
  | txSlide => exact (execTxSlide_writes h).queuesMove rfl (execTxSlide_outq h)
  | txRetx => exact (execTxRetx_writes h).queuesMove rfl (execTxRetx_outq h)
  | txNew => exact (execTxNew_writes h).queuesMove rfl (execTxNew_outq h)
  | txFin => exact (execTxFin_writes h).queuesMove rfl (execTxFin_outq h)
  | txAbort => exact (execTxAbort_writes h).queuesMove rfl (execTxAbort_outq h)
  | txStop => exact (execTxStop_writes h).queuesMove rfl (execTxStop_outq h)
  | rxStart => exact (execRxStart_writes h).queuesMove rfl (execRxStart_outq h)
  | rxPop => exact (execRxPop_writes h).queuesMove rfl (execRxPop_outq h)
  | rxSent => exact (execRxSent_writes h).queuesMove rfl (execRxSent_outq h)
  | rxData => exact (execRxData_writes h).queuesMove rfl (execRxData_outq h)
  | rxDone => exact (execRxDone_writes h).queuesMove rfl (execRxDone_outq h)
  | rxStop => exact (execRxStop_writes h).queuesMove rfl (execRxStop_outq h)

end Sys2Proof.Machine

open Sys2Proof Sys2Proof.Machine

/-- Settles O13, by agent: each one's part of `exec_queuesMove` names the queue whose head or tail it works at. -/
theorem queuesAreFirstInFirstOut : Obligations.QueuesAreFirstInFirstOut := fun _ _ _ h => exec_queuesMove h

end

section
/-! Decoding inverts encoding (R90, R94, R98, R105; logs 2, 17). A reader reads an encoding when it gives back the value
and leaves whatever bytes stand behind it; the readers' composition then follows the encoder's concatenation, and what
is left for each instruction is its code, or for a frame the kind of its header. -/

namespace Sys2Proof

variable {α β : Type} {c : Config}

/-- The reader `r` reads the value `a` from the bytes `enc` and leaves the bytes behind them. -/
def Reads (r : List Byte → Read α) (enc : List Byte) (a : α) : Prop := ∀ rest, r (enc ++ rest) = .ok (a, rest)

theorem Reads.eq_ok {r : List Byte → Read α} {enc : List Byte} {a : α} (h : Reads r enc a) :
    r enc = .ok (a, []) := by
  simpa using h []

theorem reads_ok (a : α) : Reads (fun l => .ok (a, l)) [] a := fun _ => rfl

theorem Reads.andThen {r : List Byte → Read α} {f : α → List Byte → Read β} {enc enc' : List Byte} {a : α}
    {b : β} (h : Reads r enc a) (h' : Reads (f a) enc' b) :
    Reads (fun l => (r l).andThen f) (enc ++ enc') b := fun rest => by
  simp only [List.append_assoc, h (enc' ++ rest)]
  exact h' rest

/-- A last step that reads nothing more. -/
theorem Reads.map {r : List Byte → Read α} {enc : List Byte} {a : α} (h : Reads r enc a) (g : α → β) :
    Reads (fun l => (r l).andThen fun a l => .ok (g a, l)) enc (g a) := by
  simpa using h.andThen (f := fun a l => .ok (g a, l)) (reads_ok (g a))

theorem Reads.operand {r : List Byte → Read α} {enc : List Byte} {a : α} (h : Reads r enc a) (f : α → Instr) :
    Reads (fun l => Sys2Proof.operand (r l) f) enc (f a) := h.map f

/-! ### Numbers, most significant byte first -/

theorem append_bytes16 (v : BitVec 16) : v.extractLsb' 8 8 ++ v.extractLsb' 0 8 = v := by
  rw [BitVec.extractLsb'_append_extractLsb'_eq_extractLsb' (by decide), BitVec.extractLsb'_eq_self]

theorem append_bytes32 (v : BitVec 32) :
    v.extractLsb' 24 8 ++ v.extractLsb' 16 8 ++ v.extractLsb' 8 8 ++ v.extractLsb' 0 8 = v := by
  rw [BitVec.extractLsb'_append_extractLsb'_eq_extractLsb' (by decide),
    BitVec.extractLsb'_append_extractLsb'_eq_extractLsb' (by decide),
    BitVec.extractLsb'_append_extractLsb'_eq_extractLsb' (by decide), BitVec.extractLsb'_eq_self]

theorem reads_bytes16 (v : BitVec 16) : Reads read16 (bytes16 v) v := fun rest => by
  simp [bytes16, read16, append_bytes16]

theorem reads_bytes32 (v : BitVec 32) : Reads read32 (bytes32 v) v := fun rest => by
  simp [bytes32, read32, append_bytes32]

/-! ### Strings behind their count -/

theorem takeN_length_append (l rest : List α) : takeN l.length (l ++ rest) = some (l, rest) := by
  induction l with
  | nil => rfl
  | cons a l ih => simp [takeN, ih]

theorem reads_readN {l : List Byte} {n : Nat} (h : l.length = n) : Reads (readN n) l l := fun rest => by
  subst h
  simp [readN, takeN_length_append]

theorem reads_encBytes {l : List Byte} (h : lengthFits l = true) : Reads readBytes (encBytes l) l :=
  (reads_bytes32 _).andThen (reads_readN (by
    rw [BitVec.toNat_ofNat, Nat.mod_eq_of_lt (of_decide_eq_true h)]))

theorem bitsOfBytes_encoded (b : List Bool) : bitsOfBytes (b.map fun bit => if bit then 1#8 else 0#8) = .ok b := by
  induction b with
  | nil => rfl
  | cons bit b ih => cases bit <;> simp [bitsOfBytes, ih, Except.map]

theorem reads_encBits {b : List Bool} (h : lengthFits b = true) : Reads readBits (encBits b) b := fun rest => by
  have hbytes := reads_encBytes (l := b.map fun bit => if bit then 1#8 else 0#8) (by simpa [lengthFits] using h) rest
  simp [readBits, encBits, hbytes, Read.andThen, bitsOfBytes_encoded, Except.map]

theorem reads_encSamples (xs : List Sample) : Reads (readSamples xs.length) (encSamples xs) xs := by
  induction xs with
  | nil => exact reads_ok []
  | cons x xs ih => exact (reads_bytes32 x).andThen (ih.map (x :: ·))

/-! ### Queues, agents, frame records -/

theorem reads_encQueue (q : QueueId) : Reads readQueue [encQueue q] q := fun rest => by
  cases q <;> rfl

theorem reads_encAgent (a : Agent) : Reads readAgent [encAgent a] a := fun rest => by
  cases a <;> rfl

theorem reads_encFrame {f : Frame} (h : f.wf = true) : Reads readFrame (encFrame f) f := by
  unfold encFrame
  rw [List.append_assoc]
  exact (reads_bytes16 f.len).andThen ((reads_bytes16 f.seq).andThen ((reads_encBytes h).map _))

theorem reads_encElem {v : QElem} (h : v.wf = true) : Reads readElem (encElem v) v := by
  cases v with
  | inq x => exact (reads_encQueue .inq).andThen ((reads_bytes32 x).map QElem.inq)
  | outq x => exact (reads_encQueue .outq).andThen ((reads_bytes32 x).map QElem.outq)
  | fq f => exact (reads_encQueue .fq).andThen ((reads_encFrame h).map QElem.fq)

theorem reads_gate (f : QueueId → Agent → Instr) (q : QueueId) (a : Agent) :
    Reads (readGate f) [encQueue q, encAgent a] (f q a) :=
  (reads_encQueue q).andThen ((reads_encAgent a).operand (f q))

theorem reads_fields (f : BitVec 16 → BitVec 16 → List Byte → Instr) (len seq : BitVec 16) {body : List Byte}
    (h : lengthFits body = true) :
    Reads (readFields f) (bytes16 len ++ bytes16 seq ++ encBytes body) (f len seq body) := by
  rw [List.append_assoc]
  exact (reads_bytes16 len).andThen ((reads_bytes16 seq).andThen ((reads_encBytes h).operand _))

/-! ### An operation: its code, then its operands -/

/-- When the table of R98 gives the code to a reader that reads the operands, the slot decodes to what is read. -/
theorem decode_op_of_reads {r : List Byte → Read Instr} {code : Byte} {enc : List Byte} {i : Instr}
    (h : Reads r enc i) (hcode : ∀ l, decodeCode c.blk code l = some (r l)) : decode c (.op (code :: enc)) = .ok i := by
  simp [decode, decodeOp, hcode, h.eq_ok, Except.map]

/-! ### A frame: the kind of its header, then its body and CRC -/

theorem toNat_ofNat_length {l : List α} (h : l.length < 2 ^ 16) : (BitVec.ofNat 16 l.length).toNat = l.length := by
  rw [BitVec.toNat_ofNat, Nat.mod_eq_of_lt h]

/-- Behind a header of the kind `k` stand LENGTH bytes of body and the CRC. -/
theorem decodeWire_of_kind {k : FrameKind} {len seq : BitVec 16} (hk : frameKind c len seq = some k) (l : List Byte) :
    decodeWire c (bytes16 len ++ (bytes16 seq ++ l)) =
      (readN len.toNat l).andThen fun body l => (read32 l).andThen fun crc l => .ok (wireInstr k seq body crc, l) := by
  simp [decodeWire, bytes16, read16, append_bytes16, Read.andThen, hk]

/-- The bytes of a frame whose header is of the kind `k` decode to the instruction of that kind. -/
theorem decode_encWire {k : FrameKind} {seq : BitVec 16} {body : List Byte} (crc : BitVec 32)
    (hbody : body.length < 2 ^ 16) (hk : frameKind c (BitVec.ofNat 16 body.length) seq = some k) :
    decode c (encWire seq body crc) = .ok (wireInstr k seq body crc) := by
  have hread : Reads (fun l => (readN (BitVec.ofNat 16 body.length).toNat l).andThen fun body l =>
      (read32 l).andThen fun crc l => .ok (wireInstr k seq body crc, l)) (body ++ bytes32 crc)
      (wireInstr k seq body crc) :=
    (reads_readN (toNat_ofNat_length hbody).symm).andThen ((reads_bytes32 crc).map _)
  simp only [encWire, decode, List.append_assoc, decodeWire_of_kind hk, hread.eq_ok]
  rfl

theorem frameKind_of_le {len : BitVec 16} (seq : BitVec 16) (h : len.toNat ≤ c.maxBody) : frameKind c len seq =
    if seq = 0#16 ∧ len.toNat = c.sentLen.val then some .sent
    else if seq = 0#16 ∨ seq = 0x8000#16 then some .rsv
    else if len = 0#16 then some .ack
    else some .data := if_neg (Nat.not_lt.mpr h)

theorem frameKind_sent (h : c.sentLen.val ≤ c.maxBody) : frameKind c 2#16 0#16 = some .sent := by
  rw [frameKind_of_le (len := 2#16) _ h]
  rfl

theorem frameKind_ack {seq : BitVec 16} (h : seqHasMagnitude seq = true) : frameKind c 0#16 seq = some .ack := by
  rw [frameKind_of_le _ (Nat.zero_le _)]
  simp_all [seqHasMagnitude]

theorem frameKind_data {len seq : BitVec 16} (hseq : seqHasMagnitude seq = true) (h0 : len ≠ 0#16)
    (h : len.toNat ≤ c.maxBody) : frameKind c len seq = some .data := by
  rw [frameKind_of_le _ h]
  simp_all [seqHasMagnitude]

theorem frameKind_rsv {len seq : BitVec 16} (h : len.toNat ≤ c.maxBody)
    (hseq : seq = 0x8000#16 ∨ (seq = 0#16 ∧ len.toNat ≠ c.sentLen.val)) : frameKind c len seq = some .rsv := by
  rw [frameKind_of_le _ h]
  obtain rfl | ⟨rfl, hne⟩ := hseq
  · simp
  · simpa using hne

theorem decode_encode_fSent (n : BitVec 16) (crc : BitVec 32) (h : c.sentLen.val ≤ c.maxBody) :
    decode c (encode (.fSent n crc)) = .ok (.fSent n crc) := by
  have hn : wireInstr .sent 0#16 (bytes16 n) crc = .fSent n crc := congrArg (Instr.fSent · crc) (append_bytes16 n)
  exact (decode_encWire crc (by simp [bytes16]) (frameKind_sent h)).trans (congrArg Except.ok hn)

theorem decode_encode_fData {seq : BitVec 16} {body : List Byte} (crc : BitVec 32) (hseq : seqHasMagnitude seq = true)
    (hpos : 1 ≤ body.length) (hmax : body.length ≤ c.maxBody) (hbody : body.length < 2 ^ 16) :
    decode c (encode (.fData seq body crc)) = .ok (.fData seq body crc) := by
  have hlen := toNat_ofNat_length hbody
  have h0 : BitVec.ofNat 16 body.length ≠ 0#16 := fun h => by
    rw [h, BitVec.toNat_zero] at hlen
    omega
  exact decode_encWire crc hbody (frameKind_data hseq h0 (hlen.trans_le hmax))

theorem decode_encode_fRsv {seq : BitVec 16} {body : List Byte} (crc : BitVec 32) (hmax : body.length ≤ c.maxBody)
    (hbody : body.length < 2 ^ 16) (hseq : seq = 0x8000#16 ∨ (seq = 0#16 ∧ body.length ≠ c.sentLen.val)) :
    decode c (encode (.fRsv seq body crc)) = .ok (.fRsv seq body crc) := by
  have hlen := toNat_ofNat_length hbody
  exact decode_encWire crc hbody (frameKind_rsv (hlen.trans_le hmax) (by rwa [hlen]))

end Sys2Proof

open Sys2Proof

/-- Settles O52: an operation's operands are read back by `decode_op_of_reads`, a frame's kind by `decode_encWire`. -/
theorem decodeInvertsEncode : Obligations.DecodeInvertsEncode := by
  intro c i h
  cases i with
  | hReset | hReceive | hStop | hStatus | tbTick | abOut | modWaitq | modEmit | modDrain | demStep | demCorr | demEmit
  | demDiscard | csEval | txStart | txSent0 | txLoop | txDrain | txSlide | txRetx | txNew | txFin | txAbort | txStop
  | rxStart | rxPop | rxDone | rxStop => rfl
  | hTransmit => exact decode_op_of_reads ((reads_encBytes h).operand _) fun _ => rfl
  | abPeriod xs =>
    have hlen : xs.length = c.blk := eq_of_beq h
    exact decode_op_of_reads ((hlen ▸ reads_encSamples xs : Reads (readSamples c.blk) _ xs).operand _) fun _ => rfl
  | abIn x | demSearch x | demSlice x | demHeader x | demBody x | demCrc x =>
    exact decode_op_of_reads ((reads_bytes32 x).operand _) fun _ => rfl
  | qAcq q a | qRel q a => exact decode_op_of_reads (reads_gate _ q a) fun _ => rfl
  | qPush => exact decode_op_of_reads ((reads_encElem h).operand _) fun _ => rfl
  | qPop q => exact decode_op_of_reads ((reads_encQueue q).operand _) fun _ => rfl
  | modBits | fcDecode => exact decode_op_of_reads ((reads_encBits h).operand _) fun _ => rfl
  | modSend | fcEncode | rxSent | rxData | rxEcho | rxOther =>
    exact decode_op_of_reads ((reads_encFrame h).operand _) fun _ => rfl
  | fcPack len seq | fcCrc32 len seq => exact decode_op_of_reads (reads_fields _ len seq h) fun _ => rfl
  | fSent n crc => exact decode_encode_fSent n crc (of_decide_eq_true h)
  | fAck seq crc => exact decode_encWire (body := []) crc (by decide) (frameKind_ack h)
  | fData seq body crc =>
    simp only [Instr.wf, Bool.and_eq_true, decide_eq_true_eq] at h
    obtain ⟨hseq, ⟨hpos, hmax⟩, hbody⟩ := h
    exact decode_encode_fData crc hseq hpos hmax hbody
  | fRsv seq body crc =>
    simp only [Instr.wf, Bool.and_eq_true, Bool.or_eq_true, decide_eq_true_eq, beq_iff_eq, bne_iff_ne] at h
    obtain ⟨⟨hmax, hbody⟩, hseq⟩ := h
    exact decode_encode_fRsv crc hmax hbody hseq

/-- Settles O53, on the fixed words: the decoder run on each. -/
theorem sampleWordsDecode : Obligations.SampleWordsDecode := by
  unfold Obligations.SampleWordsDecode
  decide

end

section
/-! A whole frame from the wire (R160 to R167, R298; log 17): each of the four rows is the reception of its frame, and
a reception has one of five outcomes, decided by the demodulator's state, the length, the CRC and the room in `FQ`. -/

namespace Sys2Proof.Machine

variable {s : State} {i : Instr} {f : Frame} {crc : BitVec 32}

/-! ### The four rows are one reception -/

theorem be16_eq_ofNat (n : BitVec 16) : be16 n = [BitVec.ofNat 8 (n.toNat / 256), BitVec.ofNat 8 n.toNat] := by
  simp [be16, BitVec.extractLsb', Nat.shiftRight_eq_div_pow]

theorem wireFrame_of_len (h : f.len = BitVec.ofNat 16 f.body.length) : wireFrame f.seq f.body = f := by
  rw [wireFrame, ← h]

theorem toNat_len_of_carriesFrame (h : carriesFrame i f crc) : f.len.toNat = f.body.length := by
  obtain ⟨hbody, hlen, -⟩ := h
  exact hlen ▸ toNat_ofNat_length hbody

theorem exec_of_carriesFrame (h : carriesFrame i f crc) (s : State) : exec i s = settle s (receiveWire f crc s) := by
  obtain ⟨-, hlen, hi⟩ := h
  rw [← wireFrame_of_len hlen]
  rcases hi with ⟨n, rfl, hseq, hbody⟩ | ⟨rfl, hbody⟩ | rfl | rfl
  · rw [hseq, hbody, ← be16_eq_ofNat]
    rfl
  · rw [hbody]
    rfl
  · rfl
  · rfl

/-! ### Before and after the verdict -/

/-- The registers with a whole frame read in, before the verdict on its CRC. -/
def State.withFrame (s : State) (f : Frame) (crc : BitVec 32) : State :=
  { withHeader f s with rxBody := Memory.ofList f.body, rxCrc := crc }

/-- The registers of a demodulator that searches again after a frame, whatever the verdict was. -/
def State.afterFrame (s : State) (f : Frame) (crc : BitVec 32) : State :=
  { s with hdr := f.len ++ f.seq, rxLen := f.len, rxSeq := f.seq, rxCur := 0#8, rxCrc := crc, win := [], wfill := 0,
           acc := s.cfg.num.zero, scnt := 0, bcnt := 0, rxBody := [] }

theorem toSearch_withFrame (h : s.demState = .search) (f : Frame) (crc : BitVec 32) :
    (s.withFrame f crc).toSearch = s.afterFrame f crc := by
  rw [State.toSearch, State.afterFrame, ← h]
  rfl

theorem rejectHeader_of_search (h : s.demState = .search) (f : Frame) :
    rejectHeader f s = (s.afterFrame f 0#32).raise (.malformedHeader f.len) := by
  rw [rejectHeader_eq, ← h]
  rfl

theorem rxBody_range_withFrame (hlen : f.len.toNat = f.body.length) :
    (s.withFrame f crc).rxBody.range 0 (s.withFrame f crc).rxLen.toNat = some f.body := by
  simp [State.withFrame, hlen, Memory.range_ofList]

/-- Room in `FQ` does not depend on the demodulator's registers. -/
theorem toSearch_pushFq (f : Frame) (s : State) : (pushFq f s).toSearch = pushFq f s.toSearch := by
  rcases pushFq_cases f s with ⟨hroom, h⟩ | ⟨hfull, h⟩
  · rw [h]
    exact (if_pos hroom).symm
  · rw [h]
    exact (if_neg (Nat.not_lt.mpr hfull)).symm

/-! ### The outcomes of a reception -/

theorem receiveWire_of_ne_search (h : s.demState ≠ .search) : receiveWire f crc s = .error .hold := if_neg h

theorem receiveWire_of_tooLong (hs : s.demState = .search) (hlen : f.len.toNat = f.body.length)
    (hmax : s.cfg.maxBody < f.len.toNat) :
    receiveWire f crc s = .ok ((s.afterFrame f 0#32).raise (.malformedHeader f.len)) :=
  receiveWire_eq_ok.mpr ⟨hs, hlen, .inl ⟨hmax, (rejectHeader_of_search hs f).symm⟩⟩

theorem receiveWire_of_crc_ne (hs : s.demState = .search) (hlen : f.len.toNat = f.body.length)
    (hmax : f.len.toNat ≤ s.cfg.maxBody) (hcrc : crc ≠ crc32 s.cfg f.len f.seq f.body) :
    receiveWire f crc s = .ok ((s.afterFrame f crc).raise .crcMismatch) := by
  refine receiveWire_eq_ok.mpr ⟨hs, hlen, .inr ⟨hmax, checkCrc_eq_ok.mpr
    ⟨f.body, rxBody_range_withFrame hlen, .inr ⟨hcrc.symm, ?_⟩⟩⟩⟩
  rw [← toSearch_withFrame hs]
  rfl

theorem receiveWire_of_crc_eq (hs : s.demState = .search) (hlen : f.len.toNat = f.body.length)
    (hmax : f.len.toNat ≤ s.cfg.maxBody) (hcrc : crc = crc32 s.cfg f.len f.seq f.body) (hg : s.gateOpen .dem .fq) :
    receiveWire f crc s = .ok (pushFq f (s.afterFrame f crc)) := by
  refine receiveWire_eq_ok.mpr ⟨hs, hlen, .inr ⟨hmax, checkCrc_eq_ok.mpr
    ⟨f.body, rxBody_range_withFrame hlen, .inl ⟨hcrc.symm, emitFrame_eq_ok.mpr
      ⟨f.body, rxBody_range_withFrame hlen, hg, ?_⟩⟩⟩⟩⟩
  rw [← toSearch_withFrame hs]
  exact (toSearch_pushFq f (s.withFrame f crc)).symm

end Sys2Proof.Machine

open Sys2Proof Sys2Proof.Machine

/-- Settles O51: the outcomes of `receiveWire`, the last one by the room in `FQ`. -/
theorem wireFramesAreValidatedAndQueued : Obligations.WireFramesAreValidatedAndQueued := by
  intro s i f crc h
  have hlen := toNat_len_of_carriesFrame h
  rw [exec_of_carriesFrame h, ← hlen]
  refine ⟨fun hb => ?reading, ?searching⟩
  case reading => rw [receiveWire_of_ne_search hb, settle_hold]
  case searching =>
    rintro hs _ rfl
    refine ⟨fun hmax => ?tooLong, fun hmax hcrc => ?badCrc, fun hmax hcrc hg =>
      ⟨fun hroom => ?room, fun hfull => ?full⟩⟩
    case tooLong =>
      rw [receiveWire_of_tooLong hs hlen hmax]
      rfl
    case badCrc =>
      rw [receiveWire_of_crc_ne hs hlen hmax hcrc]
      rfl
    case room =>
      rw [receiveWire_of_crc_eq hs hlen hmax hcrc hg, settle_ok]
      exact congrArg Host.Outcome.next (if_pos hroom)
    case full =>
      rw [receiveWire_of_crc_eq hs hlen hmax hcrc hg, settle_ok]
      exact congrArg Host.Outcome.next (if_neg (Nat.not_lt.mpr hfull))

end

section
/-! The audio boundary (R128, R129, R131; logs 14, 19): what a sample in and a sample out leave, then a period in closed
form. The invariant of a period's run: after its samples in, `State.withSamplesIn` of the state it began in; after its
samples out, that with `OUTQ` shorter by as many. -/

namespace Sys2Proof.Machine

variable {s t : State} {x : Sample} {xs outs : List Sample} {p : Period} {i : Instr} {n : Nat}

/-! ### One sample in, one sample out -/

theorem execAbIn_of_gateOpen (hx : s.cfg.num.finite x = true) (hg : s.gateOpen .ab .inq) :
    execAbIn x s = .next (pushInq x { s with sh := shiftHistory s.sh x }) :=
  settle_eq_next.mpr (.inl (audioIn_eq_ok.mpr ⟨hx, hg, rfl⟩))

theorem audioIn_of_not_finite (hx : s.cfg.num.finite x = false) : audioIn x s = .error (.refuse .nonFiniteSample) :=
  if_neg (Bool.eq_false_iff.mp hx)

theorem execAbOut_of_gateOpen (hg : s.gateOpen .ab .outq) :
    execAbOut s = .next { s with outq := s.outq.tail, out := .sample (s.outq.headD s.cfg.num.zero) } := by
  rw [execAbOut, audioOut_eq_ok.mpr ⟨hg, rfl⟩]
  rfl

theorem pushInq_of_lt (h : s.inq.length < s.cfg.inDepth) (x : Sample) :
    pushInq x s = { s with inq := s.inq ++ [x] } := if_pos h

theorem pushInq_of_le (h : s.cfg.inDepth ≤ s.inq.length) (x : Sample) :
    pushInq x s = { s with inOvf := true, events := s.events ++ [.inOverflow] } := if_neg (Nat.not_lt.mpr h)

theorem length_shiftHistory (sh : List Sample) (x : Sample) : (shiftHistory sh x).length = sh.length := by
  simp [shiftHistory]

theorem shiftHistory_getElem?_of_lt {sh : List Sample} {i : Nat} (h : i < sh.length - 1) (x : Sample) :
    (shiftHistory sh x)[i]? = sh[i + 1]? := by
  rw [shiftHistory, List.getElem?_drop, Nat.add_comm, List.getElem?_append_left (by omega)]

theorem shiftHistory_getElem?_last {sh : List Sample} (h : 1 ≤ sh.length) (x : Sample) :
    (shiftHistory sh x)[sh.length - 1]? = some x := by
  rw [shiftHistory, List.getElem?_drop, Nat.add_sub_cancel' h, List.getElem?_concat_length]

/-! ### The samples of a period coming in -/

/-- The state after the samples `xs` have come in, oldest first (R128): `INQ` takes them while it has room, each of the
others sets `IN_OVF` and is recorded, and `SH` shifts by all of them. -/
def State.withSamplesIn (s : State) (xs : List Sample) : State :=
  { s with inq := (s.inq ++ xs).take s.cfg.inDepth,
           inOvf := s.inOvf || decide (s.cfg.inDepth < s.inq.length + xs.length),
           events := s.events ++ List.replicate (s.inq.length + xs.length - s.cfg.inDepth) .inOverflow,
           sh := (s.sh ++ xs).drop xs.length }

theorem withSamplesIn_nil (h : s.inq.length ≤ s.cfg.inDepth) : s.withSamplesIn [] = s := by
  simp [State.withSamplesIn, List.take_of_length_le h, Nat.not_lt.mpr h, Nat.sub_eq_zero_of_le h]

theorem withSamplesIn_singleton (h : s.inq.length ≤ s.cfg.inDepth) (x : Sample) :
    s.withSamplesIn [x] = pushInq x { s with sh := shiftHistory s.sh x } := by
  rcases Nat.lt_or_eq_of_le h with hroom | hfull
  · rw [pushInq_of_lt (s := { s with sh := shiftHistory s.sh x }) hroom]
    simp [State.withSamplesIn, shiftHistory, List.take_of_length_le, Nat.succ_le_of_lt hroom,
      Nat.not_lt.mpr (Nat.succ_le_of_lt hroom), Nat.sub_eq_zero_of_le (Nat.succ_le_of_lt hroom)]
  · rw [pushInq_of_le (s := { s with sh := shiftHistory s.sh x }) hfull.ge]
    simp [State.withSamplesIn, shiftHistory, ← hfull]

/-- A queue cut to its capacity before more elements arrive, and cut again after them, is cut once. -/
theorem take_take_append {α : Type} (d : Nat) (l m : List α) : (l.take d ++ m).take d = (l ++ m).take d := by
  rw [List.take_append, List.take_append, List.take_take, List.length_take, Nat.min_self]
  congr 2
  omega

theorem withSamplesIn_cons (h : s.inq.length ≤ s.cfg.inDepth) (x : Sample) (xs : List Sample) :
    s.withSamplesIn (x :: xs) = (s.withSamplesIn [x]).withSamplesIn xs := by
  have hinq : (s.inq ++ x :: xs).take s.cfg.inDepth = ((s.inq ++ [x]).take s.cfg.inDepth ++ xs).take s.cfg.inDepth := by
    rw [take_take_append, List.append_assoc, List.singleton_append]
  have hlen : ((s.inq ++ [x]).take s.cfg.inDepth).length = min s.cfg.inDepth (s.inq.length + 1) := by simp
  have hsh : (s.sh ++ x :: xs).drop (xs.length + 1) = ((s.sh ++ [x]).drop 1 ++ xs).drop xs.length := by
    rw [← List.drop_append_of_le_length (by simp), List.drop_drop, List.append_assoc, List.singleton_append,
      Nat.add_comm]
  have hovf : (decide (s.cfg.inDepth < s.inq.length + (xs.length + 1))) =
      (decide (s.cfg.inDepth < s.inq.length + 1) ||
        decide (s.cfg.inDepth < min s.cfg.inDepth (s.inq.length + 1) + xs.length)) := by
    rw [← Bool.decide_or, decide_eq_decide]
    omega
  have hev : s.inq.length + (xs.length + 1) - s.cfg.inDepth =
      (s.inq.length + 1 - s.cfg.inDepth) + (min s.cfg.inDepth (s.inq.length + 1) + xs.length - s.cfg.inDepth) := by
    omega
  simp only [State.withSamplesIn, List.length_cons, List.length_nil, hinq, hlen, hsh, hovf, hev, Nat.zero_add,
    Bool.or_assoc, List.append_assoc, List.replicate_add]

/-! ### A slot of `AB.PERIOD` -/

theorem execAbPeriod_of_some (hp : s.period = some p) (xs : List Sample) :
    execAbPeriod xs s = settle s (periodPart p s) := by
  simp only [execAbPeriod, audioPeriod, hp]

theorem execAbPeriod_of_part (hp : s.period = some p) (h : periodPart p s = .ok t) (xs : List Sample) :
    execAbPeriod xs s = .next t := by
  rw [execAbPeriod_of_some hp, h, settle_ok]

theorem execAbPeriod_of_none (hp : s.period = none) (hlen : xs.length = s.cfg.blk)
    (hfin : ∀ x ∈ xs, s.cfg.num.finite x = true) : execAbPeriod xs s = settle s (periodPart ⟨xs, []⟩ s) := by
  simp only [execAbPeriod, audioPeriod, hp, if_pos hlen, if_pos (List.all_eq_true.mpr hfin)]

/-- A slot with a sample left: it comes in. -/
theorem execAbPeriod_sampleIn {rest : List Sample} (hp : s.period = some ⟨x :: rest, outs⟩)
    (hx : s.cfg.num.finite x = true) (hg : s.gateOpen .ab .inq) (xs : List Sample) :
    execAbPeriod xs s =
      .next { pushInq x { s with sh := shiftHistory s.sh x } with period := some ⟨rest, outs⟩ } :=
  execAbPeriod_of_part hp (periodPart_eq_ok.mpr (.inl ⟨x, rest, rfl, hx, hg, rfl⟩)) xs

/-- A slot with all samples in and some to put out: one goes out. -/
theorem execAbPeriod_sampleOut (hp : s.period = some ⟨[], outs⟩) (h : outs.length < s.cfg.blk)
    (hg : s.gateOpen .ab .outq) (xs : List Sample) :
    execAbPeriod xs s =
      .next { s with outq := s.outq.tail, period := some ⟨[], outs ++ [s.outq.headD s.cfg.num.zero]⟩ } :=
  execAbPeriod_of_part hp (periodPart_eq_ok.mpr (.inr (.inl ⟨rfl, h, hg, rfl⟩))) xs

/-- A slot with all samples in and put out: the sensing ends the period. -/
theorem execAbPeriod_sense (hp : s.period = some ⟨[], outs⟩) (h : s.cfg.blk ≤ outs.length) (xs : List Sample) :
    execAbPeriod xs s = .next { s with quiet := !windowBusy s, period := none, out := .samples outs } :=
  execAbPeriod_of_part hp (periodPart_eq_ok.mpr (.inr (.inr ⟨rfl, h, rfl⟩))) xs

/-- Where a period stands does not matter to a sample coming in. -/
theorem pushInq_withPeriod (x : Sample) (s : State) (p q : Option Period) :
    { pushInq x { s with period := p } with period := q } = { pushInq x s with period := q } := by
  rcases pushInq_cases x s with ⟨hroom, h⟩ | ⟨hfull, h⟩
  · rw [h, pushInq_of_lt (s := { s with period := p }) hroom]
  · rw [h, pushInq_of_le (s := { s with period := p }) hfull]

/-- The slot that begins a period performs the part that a slot of the period just begun performs. -/
theorem execAbPeriod_begin (hp : s.period = none) (hlen : xs.length = s.cfg.blk) (hblk : 1 ≤ s.cfg.blk)
    (hfin : ∀ x ∈ xs, s.cfg.num.finite x = true) (hg : s.gateOpen .ab .inq) :
    execAbPeriod xs s = execAbPeriod xs { s with period := some ⟨xs, []⟩ } := by
  obtain _ | ⟨x, rest⟩ := xs
  · exact absurd (hlen ▸ hblk) (by decide)
  · have hx := hfin x List.mem_cons_self
    rw [execAbPeriod_of_none hp hlen hfin, execAbPeriod_sampleIn (s := { s with period := _ }) rfl hx hg,
      periodPart_eq_ok.mpr (.inl ⟨x, rest, rfl, hx, hg, rfl⟩), settle_ok]
    exact congrArg Host.Outcome.next
      (pushInq_withPeriod x { s with sh := shiftHistory s.sh x } _ (some ⟨rest, []⟩)).symm

/-! ### A run of slots -/

theorem repeatOp_succ (h : exec i s = .next t) (n : Nat) : repeatOp i (n + 1) s = repeatOp i n t := by
  simp only [repeatOp, h]

theorem repeatOp_add {m : Nat} (h : repeatOp i m s = .next t) (n : Nat) : repeatOp i (m + n) s = repeatOp i n t := by
  induction m generalizing s with
  | zero =>
    obtain rfl := Host.Outcome.next.inj h
    rw [Nat.zero_add]
  | succ m ih =>
    rw [Nat.succ_add]
    simp only [repeatOp] at h ⊢
    cases he : exec i s with
    | next u =>
      simp only [he] at h ⊢
      exact ih h
    | fault r => simp [he] at h
    | refused r => simp [he] at h

theorem repeatOp_congr (h : exec i s = exec i t) (n : Nat) :
    repeatOp i (n + 1) s = repeatOp i (n + 1) t := by
  simp only [repeatOp, h]

/-- The slots of the samples in. -/
theorem repeatOp_samplesIn (xs : List Sample) {ins : List Sample} (hp : s.period = some ⟨ins, outs⟩)
    (hfin : ∀ x ∈ ins, s.cfg.num.finite x = true) (hg : s.gateOpen .ab .inq)
    (hq : s.inq.length ≤ s.cfg.inDepth) :
    repeatOp (.abPeriod xs) ins.length s = .next { s.withSamplesIn ins with period := some ⟨[], outs⟩ } := by
  induction ins generalizing s with
  | nil => rw [withSamplesIn_nil hq, ← hp]; rfl
  | cons x ins ih =>
    have hstep := execAbPeriod_sampleIn hp (hfin x List.mem_cons_self) hg xs
    rw [← withSamplesIn_singleton hq] at hstep
    have hq' : (s.withSamplesIn [x]).inq.length ≤ s.cfg.inDepth := List.length_take_le _ _
    rw [List.length_cons, repeatOp_succ (i := .abPeriod xs) hstep, withSamplesIn_cons hq x ins]
    exact ih (s := { s.withSamplesIn [x] with period := _ }) rfl (fun y hy => hfin y (List.mem_cons_of_mem x hy)) hg hq'

/-- The first `n + 1` elements of a queue padded with `z`: its head or `z`, then the same of the rest. -/
theorem take_padded_succ (l : List Sample) (n : Nat) (z : Sample) :
    (l ++ List.replicate (n + 1) z).take (n + 1) = l.headD z :: (l.tail ++ List.replicate n z).take n := by
  cases l with
  | nil => rfl
  | cons y l => simp [List.take_append, List.take_replicate]; omega

/-- The slots of the samples out. -/
theorem repeatOp_samplesOut (xs : List Sample) (hp : s.period = some ⟨[], outs⟩)
    (hn : outs.length + n = s.cfg.blk) (hg : s.gateOpen .ab .outq) :
    repeatOp (.abPeriod xs) n s = .next { s with
      outq := s.outq.drop n,
      period := some ⟨[], outs ++ (s.outq ++ List.replicate n s.cfg.num.zero).take n⟩ } := by
  induction n generalizing s outs with
  | zero => simp [repeatOp, ← hp]
  | succ n ih =>
    rw [repeatOp_succ (i := .abPeriod xs) (execAbPeriod_sampleOut hp (by omega) hg xs), take_padded_succ,
      ← List.drop_tail]
    refine (ih (s := { s with outq := s.outq.tail, period := _ }) rfl ?_ hg).trans ?_
    · simp; omega
    · simp

/-- A whole period: the samples in, the samples out, the sensing. -/
theorem repeatOp_period (hp : s.period = none) (hlen : xs.length = s.cfg.blk) (hblk : 1 ≤ s.cfg.blk)
    (hfin : ∀ x ∈ xs, s.cfg.num.finite x = true) (hin : s.gateOpen .ab .inq) (hout : s.gateOpen .ab .outq)
    (hq : s.inq.length ≤ s.cfg.inDepth) :
    repeatOp (.abPeriod xs) (2 * s.cfg.blk + 1) s = .next { s.withSamplesIn xs with
      outq := s.outq.drop s.cfg.blk, quiet := !windowBusy (s.withSamplesIn xs),
      out := .samples ((s.outq ++ List.replicate s.cfg.blk s.cfg.num.zero).take s.cfg.blk) } := by
  have hsamplesIn := repeatOp_samplesIn (s := { s with period := some ⟨xs, []⟩ }) xs rfl hfin hin hq
  have hsamplesOut := repeatOp_samplesOut (s := { s.withSamplesIn xs with period := some ⟨[], []⟩ }) xs rfl
    (Nat.zero_add s.cfg.blk) hout
  calc repeatOp (.abPeriod xs) (2 * s.cfg.blk + 1) s
    _ = repeatOp (.abPeriod xs) (2 * s.cfg.blk + 1) { s with period := some ⟨xs, []⟩ } :=
      repeatOp_congr (i := .abPeriod xs) (execAbPeriod_begin hp hlen hblk hfin hin) _
    _ = repeatOp (.abPeriod xs) (xs.length + (s.cfg.blk + 1)) { s with period := some ⟨xs, []⟩ } := by
      rw [hlen, ← Nat.add_assoc, Nat.two_mul]
    _ = repeatOp (.abPeriod xs) (s.cfg.blk + 1) { s.withSamplesIn xs with period := some ⟨[], []⟩ } :=
      repeatOp_add hsamplesIn _
    _ = repeatOp (.abPeriod xs) 1 _ := repeatOp_add hsamplesOut 1
    _ = .next _ := repeatOp_succ (i := .abPeriod xs) (execAbPeriod_sense rfl (by simp [State.withSamplesIn]) xs) 0
    _ = _ := by rw [← hp]; rfl

end Sys2Proof.Machine

open Sys2Proof Sys2Proof.Machine

/-- Settles O12: the parts slot by slot, the whole period as `repeatOp_period`. -/
theorem audioPeriodMovesABlockEachWay : Obligations.AudioPeriodMovesABlockEachWay := by
  intro s xs
  refine ⟨?begins, ?sampleIn, ?sampleOut, ?sensing, ?period⟩
  case begins => exact fun hp hlen hblk hfin hg => execAbPeriod_begin hp hlen hblk hfin hg
  case sampleIn =>
    exact fun x rest outs hp hx hg => ⟨_, execAbIn_of_gateOpen hx hg, execAbPeriod_sampleIn hp hx hg xs⟩
  case sampleOut =>
    exact fun outs hp h hg => ⟨_, _, execAbOut_of_gateOpen hg, rfl, execAbPeriod_sampleOut hp h hg xs⟩
  case sensing => exact fun outs hp h => ⟨_, rfl, execAbPeriod_sense hp h xs⟩
  case period =>
    intro hp hlen hblk hfin hin hout hq
    refine ⟨_, repeatOp_period hp hlen hblk hfin hin hout hq, rfl, rfl, rfl, rfl, rfl, rfl, ?_, rfl⟩
    simp [windowBusy, State.withSamplesIn]

/-- Settles O10: the two sides of a full `INQ`, over the history shifted by one. -/
theorem inboundSampleEntersHistoryAndQueue : Obligations.InboundSampleEntersHistoryAndQueue := by
  intro s x
  refine ⟨fun hx hg hlen hpk => ?finite, fun hx => ?notFinite⟩
  case finite =>
    have hstep := execAbIn_of_gateOpen hx hg
    rw [← hlen] at hpk ⊢
    refine ⟨shiftHistory s.sh x, length_shiftHistory s.sh x, fun i hi => shiftHistory_getElem?_of_lt hi x,
      shiftHistory_getElem?_last hpk x, fun hroom => ?_, fun hfull => ?_⟩
    · exact hstep.trans (congrArg _ (pushInq_of_lt (s := { s with sh := shiftHistory s.sh x }) hroom x))
    · exact hstep.trans (congrArg _ (pushInq_of_le (s := { s with sh := shiftHistory s.sh x }) hfull x))
  case notFinite => exact settle_eq_refused.mpr (audioIn_of_not_finite hx)

/-- Settles O11, by whether `OUTQ` has a head. -/
theorem outboundSampleIsTheHeadOrSilence : Obligations.OutboundSampleIsTheHeadOrSilence := by
  intro s hg
  have hstep := execAbOut_of_gateOpen hg
  refine ⟨fun y l hq => ?head, fun hq => ?silence⟩
  case head => rwa [hq] at hstep
  case silence => simpa [hq] using hstep

end

section
/-! The gate (R122, R123, R125, R130; logs 15, 24): taking a lock and giving it back, pushes and pops inside a
transaction, and what each is refused without its lock. -/

namespace Sys2Proof.Machine

variable {s : State} {q : QueueId} {a : Agent} {v : QElem}

/-! ### Locks -/

theorem lock_setLock_self (s : State) (q : QueueId) (l : Option Agent) : (s.setLock q l).lock q = l := by simp

theorem lock_setLock_of_ne {r : QueueId} (h : r ≠ q) (s : State) (l : Option Agent) :
    (s.setLock q l).lock r = s.lock r := by simp [h]

/-- A lock write is a write of the three lock registers. -/
theorem setLock_eq (s : State) (q : QueueId) (l : Option Agent) :
    s.setLock q l = { s with lockInq := (s.setLock q l).lockInq, lockOutq := (s.setLock q l).lockOutq,
                             lockFq := (s.setLock q l).lockFq } := by cases q <;> rfl

theorem execQAcq_of_gateOpen (h : s.gateOpen a q) : execQAcq q a s = .next (s.setLock q (some a)) := by
  rw [execQAcq, withLock_of_gateOpen h, settle_ok]

theorem execQAcq_of_holdsAny (h : s.holdsAny a = true) : execQAcq q a s = .refused .lockDiscipline := by
  rw [execQAcq, withLock_of_holdsAny h, settle_refuse]

theorem execQRel_of_lock (h : s.lock q = some a) : execQRel q a s = .next (s.setLock q none) := if_pos h

theorem execQRel_of_lock_ne (h : s.lock q ≠ some a) : execQRel q a s = .refused .lockNotHeld := if_neg h

/-! ### Pushes -/

theorem execQPush_of_lock_ne (h : s.lock (queueOf v) ≠ some (producer (queueOf v))) :
    execQPush v s = .refused .lockNotHeld := if_neg h

theorem execQPush_inq (h : s.lockInq = some .ab) (x : Sample) : execQPush (.inq x) s = .next (pushInq x s) := if_pos h

theorem execQPush_outq (h : s.lockOutq = some .arq) (x : Sample) :
    execQPush (.outq x) s = settle s (pushOutq [x] s) := if_pos h

theorem execQPush_fq (h : s.lockFq = some .dem) (f : Frame) : execQPush (.fq f) s = .next (pushFq f s) := if_pos h

theorem pushOutq_singleton_of_lt (h : s.outq.length < s.cfg.outDepth) (x : Sample) :
    pushOutq [x] s = .ok { s with outq := s.outq ++ [x] } := if_pos h

theorem pushOutq_singleton_of_le (h : s.cfg.outDepth ≤ s.outq.length) (x : Sample) :
    pushOutq [x] s = .error (.refuse .outqOverflow) := if_neg (Nat.not_le.mpr (Nat.lt_succ_of_le h))

theorem pushFq_of_lt (h : s.fq.length < s.cfg.fqDepth) (f : Frame) :
    pushFq f s = { s with fq := s.fq ++ [f] } := if_pos h

theorem pushFq_of_le (h : s.cfg.fqDepth ≤ s.fq.length) (f : Frame) :
    pushFq f s = { s with fqOvf := true, events := s.events ++ [.fqOverflow] } := if_neg (Nat.not_lt.mpr h)

/-! ### Pops -/

theorem execQPop_of_lock_ne (h : s.lock q ≠ some (consumer q)) : execQPop q s = .refused .lockNotHeld := if_neg h

theorem execQPop_of_some {t : State} {o : Output} (h : s.lock q = some (consumer q))
    (hp : popQueue q s = some (o, t)) : execQPop q s = .next (t.answer o) := by
  rw [execQPop, if_pos h, hp]

theorem execQPop_of_none (h : s.lock q = some (consumer q)) (hp : popQueue q s = none) :
    execQPop q s = .refused .popEmpty := by
  rw [execQPop, if_pos h, hp]

theorem popQueue_inq_cons {x : Sample} {l : List Sample} (h : s.inq = x :: l) :
    popQueue .inq s = some (.sample x, { s with inq := l }) := by simp only [popQueue, h]

theorem popQueue_outq_cons {x : Sample} {l : List Sample} (h : s.outq = x :: l) :
    popQueue .outq s = some (.sample x, { s with outq := l }) := by simp only [popQueue, h]

theorem popQueue_fq_cons {f : Frame} {l : List Frame} (h : s.fq = f :: l) :
    popQueue .fq s = some (.frame f, { s with fq := l }) := by simp only [popQueue, h]

theorem popQueue_inq_nil (h : s.inq = []) : popQueue .inq s = none := by simp only [popQueue, h]

theorem popQueue_outq_nil (h : s.outq = []) : popQueue .outq s = none := by simp only [popQueue, h]

theorem popQueue_fq_nil (h : s.fq = []) : popQueue .fq s = none := by simp only [popQueue, h]

end Sys2Proof.Machine

open Sys2Proof Sys2Proof.Machine

/-- Settles O6: both operations are one lock write, and each is refused where its test fails. -/
theorem locksAreTakenAndGivenBack : Obligations.LocksAreTakenAndGivenBack := by
  intro s q a
  refine ⟨fun hg => ?taken, fun hl => ?givenBack, execQRel_of_lock_ne, execQAcq_of_holdsAny⟩
  case taken =>
    exact ⟨_, execQAcq_of_gateOpen hg, lock_setLock_self s q _, fun r hr => lock_setLock_of_ne hr s _,
      setLock_eq s q _⟩
  case givenBack =>
    exact ⟨_, execQRel_of_lock hl, lock_setLock_self s q _, fun r hr => lock_setLock_of_ne hr s _,
      setLock_eq s q _⟩

/-- Settles O8, queue by queue: the room, and the overflow rule without it. -/
theorem pushAppendsAtTheTail : Obligations.PushAppendsAtTheTail := by
  intro s
  refine ⟨fun x hl => ?inq, fun x hl => ?outq, fun f hl => ?fq, fun v => execQPush_of_lock_ne⟩
  case inq =>
    rw [exec_qPush, execQPush_inq hl]
    exact ⟨fun h => congrArg _ (pushInq_of_lt h x), fun h => congrArg _ (pushInq_of_le h x)⟩
  case outq =>
    rw [exec_qPush, execQPush_outq hl]
    exact ⟨fun h => congrArg _ (pushOutq_singleton_of_lt h x), fun h => congrArg _ (pushOutq_singleton_of_le h x)⟩
  case fq =>
    rw [exec_qPush, execQPush_fq hl]
    exact ⟨fun h => congrArg _ (pushFq_of_lt h f), fun h => congrArg _ (pushFq_of_le h f)⟩

/-- Settles O9, queue by queue: a head to pop, or none. -/
theorem popRemovesTheHead : Obligations.PopRemovesTheHead := fun _ =>
  ⟨fun _ _ hl hq => execQPop_of_some (q := .inq) hl (popQueue_inq_cons hq),
    fun _ _ hl hq => execQPop_of_some (q := .outq) hl (popQueue_outq_cons hq),
    fun _ _ hl hq => execQPop_of_some (q := .fq) hl (popQueue_fq_cons hq),
    fun hl hq => execQPop_of_none hl (popQueue_inq_nil hq),
    fun hl hq => execQPop_of_none hl (popQueue_outq_nil hq),
    fun hl hq => execQPop_of_none hl (popQueue_fq_nil hq),
    fun _ => execQPop_of_lock_ne⟩

end

section
/-! At a shut gate (R122, R124, R127, R75; logs 3, 10 to 14, 16, 17): every operation with a transaction holds, by
way of the transaction it contains. While `ARQ` holds a lock its operations are refused by a test they all share. -/

namespace Sys2Proof.Machine

variable {s : State} {x : Sample} {xs ins outs : List Sample} {f : Frame} {body : List Byte}

/-! ### The gate and the audio boundary -/

theorem execQAcq_of_gateShut {q : QueueId} {a : Agent} (h : s.gateShut a q) : execQAcq q a s = .next s := by
  rw [execQAcq, withLock_of_gateShut h, settle_hold]

theorem audioIn_of_gateShut (hx : s.cfg.num.finite x = true) (h : s.gateShut .ab .inq) :
    audioIn x s = .error .hold := (if_pos hx).trans (withLock_of_gateShut h)

theorem audioOut_of_gateShut (h : s.gateShut .ab .outq) : audioOut s = .error .hold := withLock_of_gateShut h

theorem execAbOut_of_gateShut (h : s.gateShut .ab .outq) : execAbOut s = .next s := by
  rw [execAbOut, audioOut_of_gateShut h, Act.andThen_error, settle_hold]

theorem periodPart_in_of_gateShut (hx : s.cfg.num.finite x = true) (h : s.gateShut .ab .inq) :
    periodPart ⟨x :: ins, outs⟩ s = .error .hold := by
  simp only [periodPart, audioIn_of_gateShut hx h, Act.andThen_error]

theorem periodPart_out_of_gateShut (ho : outs.length < s.cfg.blk) (h : s.gateShut .ab .outq) :
    periodPart ⟨[], outs⟩ s = .error .hold := by
  simp only [periodPart, if_pos ho, audioOut_of_gateShut h, Act.andThen_error]

theorem execAbPeriod_begin_of_gateShut (hp : s.period = none) (hlen : xs.length = s.cfg.blk) (hblk : 1 ≤ s.cfg.blk)
    (hfin : ∀ x ∈ xs, s.cfg.num.finite x = true) (h : s.gateShut .ab .inq) : execAbPeriod xs s = .next s := by
  rw [execAbPeriod_of_none hp hlen hfin]
  obtain _ | ⟨x, rest⟩ := xs
  · exact absurd (hlen ▸ hblk) (by decide)
  · rw [periodPart_in_of_gateShut (hfin x List.mem_cons_self) h, settle_hold]

/-! ### The start of a command -/

theorem startReceiver_of_gateShut (hm : s.modPhase = .idle) (h : s.gateShut .arq .fq) :
    startReceiver s = .error .hold := (betweenSends_of_idle hm).trans (withLock_of_gateShut h)

theorem startSender_of_gateShut (hm : s.modPhase = .idle) (hn : segments s.cfg s.txLen ≤ s.cfg.seqMax)
    (h : s.gateShut .arq .fq) : startSender s = .error .hold :=
  (betweenSends_of_idle hm).trans ((if_neg (Nat.not_lt.mpr hn)).trans (withLock_of_gateShut h))

theorem execHReceive_of_gateShut (hb : s.busy = false) (hm : s.modPhase = .idle) (h : s.gateShut .arq .fq) :
    execHReceive s = .next s := by
  rw [execHReceive, if_neg (Bool.eq_false_iff.mp hb), startReceiver_of_gateShut hm h, settle_hold]

/-- A step of `ARQ` that holds changes nothing. -/
theorem settle_arqStep_of_hold {a : Act State} (hl : s.holdsAny .arq = false) (ha : a = .error .hold) :
    settle s (arqStep s a) = .next s := by
  rw [arqStep_of_free hl, ha, settle_hold]

theorem execRxStart_of_gateShut (hb : s.busy = false) (hm : s.modPhase = .idle) (h : s.gateShut .arq .fq) :
    execRxStart s = .next s :=
  settle_arqStep_of_hold h.2 ((if_neg (Bool.eq_false_iff.mp hb)).trans (startReceiver_of_gateShut hm h))

theorem execTxStart_of_gateShut (hb : s.busy = false) (hm : s.modPhase = .idle)
    (hn : segments s.cfg s.txLen ≤ s.cfg.seqMax) (h : s.gateShut .arq .fq) : execTxStart s = .next s :=
  settle_arqStep_of_hold h.2 ((if_neg (Bool.eq_false_iff.mp hb)).trans (startSender_of_gateShut hm hn h))

/-- A payload of at most `PAYLOAD_MAX` bytes fits `TX_LEN` and needs at most `SEQ_MAX` frames (R10, R207). -/
theorem segments_le_seqMax {c : Config} {n : Nat} (h1 : 1 ≤ c.maxBody) (h2 : c.maxBody ≤ 65535)
    (hn : n ≤ c.payloadMax) : segments c (fitted 32 n) ≤ c.seqMax := by
  rw [Config.payloadMax, seqMax_eq] at hn
  rw [fitted_of_lt (by omega), segments, seqMax_eq, ← Nat.lt_succ_iff, Nat.div_lt_iff_lt_mul h1]
  omega

theorem execHTransmit_of_gateShut {payload : List Byte} (hb : s.busy = false) (hm : s.modPhase = .idle)
    (h1 : 1 ≤ s.cfg.maxBody) (h2 : s.cfg.maxBody ≤ 65535) (hp : payload.length ≤ s.cfg.payloadMax)
    (h : s.gateShut .arq .fq) : execHTransmit payload s = .next s := by
  rw [execHTransmit, if_neg (Bool.eq_false_iff.mp hb), if_neg (Nat.not_lt.mpr hp),
    startSender_of_gateShut (s := { s with txPayload := Memory.ofList payload, txLen := fitted 32 payload.length }) hm
      (segments_le_seqMax h1 h2 hp) h, settle_hold]

/-! ### The demodulator -/

theorem execDemStep_of_gateShut (h : s.gateShut .dem .inq) : execDemStep s = .next s := by
  rw [execDemStep, withLock_of_gateShut h, settle_hold]

theorem receivedBody_of_range (hr : s.rxBody.range 0 s.rxLen.toNat = some body) : receivedBody s = .ok body := by
  rw [receivedBody, hr]

theorem emitFrame_of_gateShut (hr : s.rxBody.range 0 s.rxLen.toNat = some body) (h : s.gateShut .dem .fq) :
    emitFrame s = .error .hold := by
  rw [emitFrame, receivedBody_of_range hr, Act.andThen_ok, withLock_of_gateShut h]

theorem checkCrc_of_gateShut (hr : s.rxBody.range 0 s.rxLen.toNat = some body)
    (hc : crc32 s.cfg s.rxLen s.rxSeq body = s.rxCrc) (h : s.gateShut .dem .fq) : checkCrc s = .error .hold := by
  rw [checkCrc, receivedBody_of_range hr, Act.andThen_ok, if_pos hc, emitFrame_of_gateShut hr h]

/-- The 32nd CRC bit is followed by the verdict (R163). -/
theorem crcFieldBit_last (hb : s.bcnt + 1 = 32) (b : Bool) :
    crcFieldBit b s = checkCrc { s with rxCrc := shiftIn s.rxCrc b, bcnt := 32 } := by
  simp [crcFieldBit, State.countBit, hb, fitted_of_lt]

/-- The sample that completes the 32nd CRC bit of a good frame holds as its emission does (log 12). -/
theorem demCrc_of_gateShut (hr : s.rxBody.range 0 s.rxLen.toNat = some body) (hk : s.cfg.k ≤ s.scnt + 1)
    (hb : s.bcnt + 1 = 32)
    (hc : crc32 s.cfg s.rxLen s.rxSeq body = shiftIn s.rxCrc (slice s.cfg.num (s.cfg.num.add s.acc x)))
    (h : s.gateShut .dem .fq) : demCrc x s = .error .hold := by
  rcases integrate_cases x s with ⟨hk', -⟩ | ⟨-, hi⟩
  · exact absurd hk (Nat.not_le.mpr hk')
  · simp only [demCrc, hi]
    exact (crcFieldBit_last (s := { s with acc := s.cfg.num.zero, scnt := 0 }) hb _).trans
      (checkCrc_of_gateShut hr hc h)

theorem execDemStep_of_hold {l : List Sample} (hg : s.gateOpen .dem .inq) (hq : s.inq = x :: l)
    (h : demAct x { s with inq := l } = .error .hold) : execDemStep s = .next s := by
  simp only [execDemStep, withLock_of_gateOpen hg, hq, h, settle_hold]

theorem demAct_crc (hd : s.demState = .crc) (x : Sample) : demAct x s = demCrc x s := by
  simp only [demAct, hd]

theorem receiveWire_of_gateShut {crc : BitVec 32} (hs : s.demState = .search) (hlen : f.len.toNat = f.body.length)
    (hmax : f.len.toNat ≤ s.cfg.maxBody) (hcrc : crc = crc32 s.cfg f.len f.seq f.body) (h : s.gateShut .dem .fq) :
    receiveWire f crc s = .error .hold := by
  rw [receiveWire, if_pos hs, if_pos hlen, if_neg (Nat.not_lt.mpr hmax)]
  exact checkCrc_of_gateShut (rxBody_range_withFrame hlen) hcrc.symm h

/-! ### The sequencer and the modulator -/

theorem execTxDrain_of_gateShut (hp : s.arqPhase = .txDrain) (hm : s.modPhase = .idle) (h : s.gateShut .arq .fq) :
    execTxDrain s = .next s :=
  settle_arqStep_of_hold h.2 ((if_pos ⟨hp, hm⟩).trans (withLock_of_gateShut h))

theorem execRxPop_of_gateShut (hp : s.arqPhase = .rxPop) (hm : s.modPhase = .idle) (hs : s.stopReq = false)
    (h : s.gateShut .arq .fq) : execRxPop s = .next s :=
  settle_arqStep_of_hold h.2
    ((if_pos ⟨hp, hm⟩).trans ((if_neg (Bool.eq_false_iff.mp hs)).trans (withLock_of_gateShut h)))

theorem execModDrain_of_gateShut (hm : s.modPhase = .drain) (hs : s.stopReq = false) (h : s.gateShut .arq .outq) :
    execModDrain s = .next s :=
  settle_arqStep_of_hold h.2
    ((if_pos hm).trans ((if_neg (Bool.eq_false_iff.mp hs)).trans (withLock_of_gateShut h)))

theorem execModEmit_of_gateShut (hm : s.modPhase = .emit) (hf : s.txf = some f) (hok : Frame.ok s.cfg f = true)
    (h : s.gateShut .arq .outq) : execModEmit s = .next s := by
  refine settle_arqStep_of_hold h.2 ((if_pos hm).trans ?_)
  simp only [hf, if_pos hok, withLock_of_gateShut h]

/-- Every operation of `ARQ` outside the gate has the form `arqStep` (R127, log 11). -/
theorem exec_eq_arqStep {i : Instr} (hi : arqOperation i = true) (s : State) :
    ∃ a, exec i s = settle s (arqStep s a) := by
  cases i with
  | modSend | modWaitq | modEmit | modDrain | txStart | txSent0 | txLoop | txDrain | txSlide | txRetx | txNew | txFin
  | txAbort | txStop | rxStart | rxPop | rxSent | rxData | rxDone | rxStop => exact ⟨_, rfl⟩
  | _ => cases hi

end Sys2Proof.Machine

open Sys2Proof Sys2Proof.Machine

/-- Settles O7, operation by operation: the transaction each contains holds at the shut gate. -/
theorem transactionsWaitAtAShutGate : Obligations.TransactionsWaitAtAShutGate := by
  intro s
  refine ⟨?qAcq, ?abIn, ?abOut, ?periodBegins, ?periodIn, ?periodOut, ?receive, ?hTransmit, ?txStart, ?demStep, ?emit,
    ?wire, ?txDrain, ?rxPop, ?modDrain, ?modEmit, ?holdsALock⟩
  case qAcq => exact fun q a => execQAcq_of_gateShut
  case abIn => exact fun x h hx => congrArg (settle s) (audioIn_of_gateShut hx h)
  case abOut => exact execAbOut_of_gateShut
  case periodBegins => exact fun xs h hp hlen hblk hfin => execAbPeriod_begin_of_gateShut hp hlen hblk hfin h
  case periodIn =>
    exact fun xs x rest outs h hp hx => (execAbPeriod_of_some hp xs).trans
      (congrArg (settle s) (periodPart_in_of_gateShut hx h))
  case periodOut =>
    exact fun xs outs h hp ho => (execAbPeriod_of_some hp xs).trans
      (congrArg (settle s) (periodPart_out_of_gateShut ho h))
  case receive =>
    intro h hb hm i hi
    obtain rfl | rfl : i = .hReceive ∨ i = .rxStart := by simpa using hi
    · exact execHReceive_of_gateShut hb hm h
    · exact execRxStart_of_gateShut hb hm h
  case hTransmit => exact fun payload h hb hm h1 h2 hp => execHTransmit_of_gateShut hb hm h1 h2 hp h
  case txStart => exact fun h hb hm hn => execTxStart_of_gateShut hb hm hn h
  case demStep => exact execDemStep_of_gateShut
  case emit =>
    refine fun body h hr => ⟨congrArg (settle s) (emitFrame_of_gateShut hr h), fun x hk hb hc => ?_⟩
    refine ⟨congrArg (settle s) (demCrc_of_gateShut hr hk hb hc h), fun l hg hq hd => ?_⟩
    exact execDemStep_of_hold hg hq
      ((demAct_crc (s := { s with inq := l }) hd x).trans (demCrc_of_gateShut hr hk hb hc h))
  case wire =>
    intro i f crc h hs hf hmax hcrc
    have hlen := toNat_len_of_carriesFrame hf
    rw [exec_of_carriesFrame hf, receiveWire_of_gateShut hs hlen (hlen ▸ hmax) hcrc h, settle_hold]
  case txDrain => exact fun h hp hm => execTxDrain_of_gateShut hp hm h
  case rxPop => exact fun h hp hm hs => execRxPop_of_gateShut hp hm hs h
  case modDrain => exact fun h hm hs => execModDrain_of_gateShut hm hs h
  case modEmit => exact fun f h hm hf hok => execModEmit_of_gateShut hm hf hok h
  case holdsALock =>
    intro i hi hl
    obtain ⟨a, ha⟩ := exec_eq_arqStep hi s
    rw [ha, arqStep_of_holdsAny hl, settle_refuse]

end

section
/-! What `MOD.BITS` produces (R142, R145): a modulation as groups of `K` equal samples, and its length. -/

namespace Sys2Proof.Machine

variable {c : Config} {b : List Bool} {i j : Nat}

/-- The amplitude of a bit (R142). -/
def amplitude (c : Config) (bit : Bool) : Sample := if bit then c.a1 else c.a0

theorem modulate_cons (c : Config) (bit : Bool) (b : List Bool) :
    modulate c (bit :: b) = List.replicate c.k (amplitude c bit) ++ modulate c b := rfl

theorem length_modulate (c : Config) (b : List Bool) : (modulate c b).length = b.length * c.k := by
  induction b with
  | nil => simp [modulate]
  | cons bit b ih => rw [modulate_cons, List.length_append, List.length_replicate, ih, List.length_cons,
      Nat.succ_mul, Nat.add_comm]

/-- Leaving out whole groups leaves the modulation of the bits behind them. -/
theorem drop_modulate (c : Config) (b : List Bool) (i : Nat) :
    (modulate c b).drop (i * c.k) = modulate c (b.drop i) := by
  induction i generalizing b with
  | zero => simp
  | succ i ih =>
    cases b with
    | nil => simp [modulate]
    | cons bit b =>
      rw [modulate_cons, Nat.succ_mul, Nat.add_comm, ← List.drop_drop,
        List.drop_left' List.length_replicate, ih, List.drop_succ_cons]

/-- From group `i` on the modulation is the `K` samples of bit `i` and the rest. -/
theorem drop_modulate_of_lt (c : Config) (h : i < b.length) :
    (modulate c b).drop (i * c.k) = List.replicate c.k (amplitude c b[i]) ++ modulate c (b.drop (i + 1)) := by
  rw [drop_modulate, List.drop_eq_getElem_cons h, modulate_cons]

theorem modulate_getElem? (h : i < b.length) (hj : j < c.k) :
    (modulate c b)[i * c.k + j]? = some (amplitude c b[i]) := by
  rw [← List.getElem?_drop, drop_modulate_of_lt c h, List.getElem?_append_left (by simpa using hj),
    List.getElem?_replicate_of_lt hj]

/-- Group `i` of a modulation is bit `i`, `K` times. -/
theorem group_modulate (c : Config) (h : i < b.length) :
    ((modulate c b).drop (i * c.k)).take c.k = List.replicate c.k (amplitude c b[i]) := by
  rw [drop_modulate_of_lt c h, List.take_left' List.length_replicate]

theorem length_frameBytes (c : Config) (f : Frame) : (frameBytes c f).length = 8 + f.body.length := by
  simp only [frameBytes, packBytes, be16, be32, List.length_append, List.length_cons, List.length_nil]
  omega

theorem length_frameBits (c : Config) (f : Frame) : (frameBits c f).length = 64 + 8 * f.body.length := by
  have hbits : ∀ x : Byte, (bitsOfByte x).length = 8 := fun _ => rfl
  rw [frameBits, List.length_flatMap, funext hbits, List.map_const', List.sum_replicate, length_frameBytes,
    smul_eq_mul]
  omega

/-- A frame's samples: the preamble, 64 bits of header and CRC, and its body, `K` a bit (R145). -/
theorem length_frameSamples {f : Frame} (hpre : c.pre.length = c.p) (hok : Frame.ok c f = true) :
    (frameSamples c f).length = c.k * (c.p + 64 + 8 * f.len.toNat) := by
  rw [frameSamples, length_modulate, List.length_append, length_frameBits, hpre, (frame_ok_iff.mp hok).1,
    Nat.mul_comm, Nat.add_assoc]

end Sys2Proof.Machine

open Sys2Proof Sys2Proof.Machine

/-- Settles O18, sample by sample within its group. -/
theorem bitsBecomeEqualSamples : Obligations.BitsBecomeEqualSamples := by
  intro s b
  refine ⟨modulate s.cfg b, rfl, length_modulate s.cfg b, fun i j hi hj => ?_⟩
  rw [modulate_getElem? hi hj, List.getElem?_eq_getElem hi]
  simp [amplitude]

end

section
/-! Sums of equal samples in binary32 (R17, R148, R158): rounding never takes a sum to the other side of zero, so that
`K` samples above zero sum to one above zero, and `K` samples not above it to one not above it. -/

namespace Sys2Proof.Machine

variable {x y : Sample} {n : Nat}

/-! ### The parts of a pattern -/

theorem Binary32.toNat_ofBits {m : Nat} (hm : m ≤ Binary32.infBits) (b : Bool) :
    (Binary32.ofBits b m).toNat = m + if b then 2 ^ 31 else 0 := by
  rw [Binary32.infBits] at hm
  rw [Binary32.ofBits, BitVec.toNat_ofNat, Nat.mod_eq_of_lt]
  split <;> omega

theorem Binary32.magBits_ofBits {m : Nat} (hm : m ≤ Binary32.infBits) (b : Bool) :
    Binary32.magBits (Binary32.ofBits b m) = m := by
  rw [Binary32.magBits, Binary32.toNat_ofBits hm]
  rw [Binary32.infBits] at hm
  split <;> omega

theorem Binary32.neg_ofBits {m : Nat} (hm : m ≤ Binary32.infBits) (b : Bool) :
    Binary32.neg (Binary32.ofBits b m) = b := by
  rw [Binary32.neg, BitVec.msb_eq_decide, Binary32.toNat_ofBits hm]
  rw [Binary32.infBits] at hm
  cases b
  · exact decide_eq_false (by simp; omega)
  · exact decide_eq_true (by simp)

theorem Binary32.isNaN_ofBits {m : Nat} (hm : m ≤ Binary32.infBits) (b : Bool) :
    Binary32.isNaN (Binary32.ofBits b m) = false := by
  rw [Binary32.isNaN, Binary32.magBits_ofBits hm]
  exact decide_eq_false (Nat.not_lt.mpr hm)

theorem Binary32.key_ofBits {m : Nat} (hm : m ≤ Binary32.infBits) (b : Bool) :
    Binary32.key (Binary32.ofBits b m) = if b then -(m : Int) else m := by
  rw [Binary32.key, Binary32.neg_ofBits hm, Binary32.magBits_ofBits hm]

theorem Binary32.isNaN_of_isFinite (h : Binary32.isFinite x = true) : Binary32.isNaN x = false :=
  decide_eq_false (Nat.not_lt.mpr (Nat.le_of_lt (of_decide_eq_true h)))

theorem Binary32.isInf_of_isFinite (h : Binary32.isFinite x = true) : Binary32.isInf x = false :=
  beq_eq_false_iff_ne.mpr (Nat.ne_of_lt (of_decide_eq_true h))

theorem Binary32.key_ne_zero_of_isInf (h : Binary32.isInf x = true) : Binary32.key x ≠ 0 := by
  have hm : Binary32.magBits x = 0x7F800000 := beq_iff_eq.mp h
  rw [Binary32.key, hm]
  split <;> decide

theorem Binary32.isNaN_zero : Binary32.isNaN 0#32 = false := rfl

theorem Binary32.key_zero : Binary32.key 0#32 = 0 := rfl

/-- Only the two zeros have the value 0. -/
theorem Binary32.magnitude_eq_zero : Binary32.magnitude x = 0 ↔ Binary32.magBits x = 0 := by
  rw [Binary32.magnitude]
  split
  · omega
  · have hpos := Nat.mul_pos (show 0 < 2 ^ 23 + Binary32.magBits x % 2 ^ 23 by omega)
      (Nat.two_pow_pos (Binary32.magBits x / 2 ^ 23 - 1))
    omega

/-- A pattern's key has the sign of its value. -/
theorem Binary32.sign_key (x : Sample) : (Binary32.key x).sign = (Binary32.value x).sign := by
  have hz : ((Binary32.magBits x : Nat) : Int).sign = ((Binary32.magnitude x : Nat) : Int).sign := by
    by_cases h : Binary32.magBits x = 0
    · rw [h, Binary32.magnitude_eq_zero.mpr h]
    · have hm := mt Binary32.magnitude_eq_zero.mp h
      rw [Int.sign_eq_one_of_pos (by omega), Int.sign_eq_one_of_pos (by omega)]
  rw [Binary32.key, Binary32.value]
  split
  · rw [Int.sign_neg, Int.sign_neg, hz]
  · exact hz

theorem Binary32.value_pos_iff : 0 < Binary32.value x ↔ 0 < Binary32.key x := by
  rw [← Int.sign_eq_one_iff_pos, ← Int.sign_eq_one_iff_pos, Binary32.sign_key]

theorem Binary32.value_neg_iff : Binary32.value x < 0 ↔ Binary32.key x < 0 := by
  rw [← Int.sign_eq_neg_one_iff_neg, ← Int.sign_eq_neg_one_iff_neg, Binary32.sign_key]

/-! ### Rounding and addition -/

theorem Binary32.roundBits_le (n sc : Nat) : Binary32.roundBits n sc ≤ Binary32.infBits := Nat.min_le_right _ _

/-- The units of 2^-149 are the smallest there are: no number of them rounds to 0. -/
theorem Binary32.roundBits_pos (h : 0 < n) : 0 < Binary32.roundBits n 0 := by
  refine lt_min ?_ (by decide)
  rw [Nat.zero_max]
  by_cases hk : n.log2 - 23 = 0
  · rw [hk, Nat.pow_zero, Nat.div_one]
    split <;> omega
  · exact Nat.add_pos_left (Nat.mul_pos (Nat.pos_of_ne_zero hk) (Nat.two_pow_pos 23)) _

/-- Adding a finite sample to a number: an infinity stays, an exact 0 is a zero, and any other sum is rounded. -/
theorem Binary32.add_cases (hx : Binary32.isNaN x = false) (hy : Binary32.isFinite y = true) :
    (Binary32.isInf x = true ∧ Binary32.add x y = x) ∨
    (∃ b, Binary32.value x + Binary32.value y = 0 ∧ Binary32.add x y = Binary32.ofBits b 0) ∨
    (Binary32.value x + Binary32.value y ≠ 0 ∧ Binary32.add x y =
      Binary32.ofBits (Binary32.value x + Binary32.value y < 0)
        (Binary32.roundBits (Binary32.value x + Binary32.value y).natAbs 0)) := by
  simp only [Binary32.add, hx, Binary32.isNaN_of_isFinite hy, Binary32.isInf_of_isFinite hy, Bool.or_self,
    Bool.false_and, Bool.false_eq_true, if_false]
  by_cases hi : Binary32.isInf x = true
  · exact .inl ⟨hi, if_pos hi⟩
  · rw [if_neg hi]
    by_cases hz : Binary32.value x + Binary32.value y = 0
    · exact .inr (.inl ⟨_, hz, if_pos hz⟩)
    · exact .inr (.inr ⟨hz, if_neg hz⟩)

theorem Binary32.isNaN_add (hx : Binary32.isNaN x = false) (hy : Binary32.isFinite y = true) :
    Binary32.isNaN (Binary32.add x y) = false := by
  rcases Binary32.add_cases hx hy with ⟨-, h⟩ | ⟨b, -, h⟩ | ⟨-, h⟩ <;> rw [h]
  · exact hx
  · exact Binary32.isNaN_ofBits (Nat.zero_le _) b
  · exact Binary32.isNaN_ofBits (Binary32.roundBits_le _ _) _

theorem Binary32.key_add_pos (hx : Binary32.isNaN x = false) (hy : Binary32.isFinite y = true)
    (hx0 : 0 ≤ Binary32.key x) (hy0 : 0 < Binary32.key y) : 0 < Binary32.key (Binary32.add x y) := by
  have hvx := mt Binary32.value_neg_iff.mp (Int.not_lt.mpr hx0)
  have hvy := Binary32.value_pos_iff.mpr hy0
  rcases Binary32.add_cases hx hy with ⟨hi, h⟩ | ⟨b, hz, -⟩ | ⟨-, h⟩
  · have := Binary32.key_ne_zero_of_isInf hi
    rw [h]
    omega
  · omega
  · have := Binary32.roundBits_pos (n := (Binary32.value x + Binary32.value y).natAbs) (by omega)
    rw [h, Binary32.key_ofBits (Binary32.roundBits_le _ _), if_neg (by simp; omega)]
    omega

theorem Binary32.key_add_nonpos (hx : Binary32.isNaN x = false) (hy : Binary32.isFinite y = true)
    (hx0 : Binary32.key x ≤ 0) (hy0 : Binary32.key y ≤ 0) : Binary32.key (Binary32.add x y) ≤ 0 := by
  have hvx := mt Binary32.value_pos_iff.mp (Int.not_lt.mpr hx0)
  have hvy := mt Binary32.value_pos_iff.mp (Int.not_lt.mpr hy0)
  rcases Binary32.add_cases hx hy with ⟨-, h⟩ | ⟨b, -, h⟩ | ⟨hz, h⟩
  · rw [h]
    exact hx0
  · rw [h, Binary32.key_ofBits (Nat.zero_le _)]
    split <;> decide
  · rw [h, Binary32.key_ofBits (Binary32.roundBits_le _ _), if_pos (by simp; omega)]
    omega

theorem Binary32.gt_zero_iff : Binary32.gt x 0#32 = true ↔ Binary32.isNaN x = false ∧ 0 < Binary32.key x := by
  rw [Binary32.gt, Binary32.isNaN_zero, Binary32.key_zero]
  simp

/-! ### Sums of equal samples -/

theorem sum_replicate_succ (num : Numerics) (n : Nat) (x : Sample) :
    num.sum (List.replicate (n + 1) x) = num.add (num.sum (List.replicate n x)) x := by
  rw [Numerics.sum, List.replicate_succ', List.foldl_append]
  rfl

theorem isNaN_sum_replicate (hx : Binary32.isFinite x = true) (n : Nat) :
    Binary32.isNaN (SampleFmt.binary32.numerics.sum (List.replicate n x)) = false := by
  induction n with
  | zero => rfl
  | succ n ih =>
    rw [sum_replicate_succ]
    exact Binary32.isNaN_add ih hx

theorem key_sum_replicate_pos (hx : Binary32.isFinite x = true) (h0 : 0 < Binary32.key x) (n : Nat) :
    0 < Binary32.key (SampleFmt.binary32.numerics.sum (List.replicate (n + 1) x)) := by
  rw [sum_replicate_succ]
  refine Binary32.key_add_pos (isNaN_sum_replicate hx n) hx ?_ h0
  cases n with
  | zero => exact Binary32.key_zero.ge
  | succ n => exact Int.le_of_lt (key_sum_replicate_pos hx h0 n)

theorem key_sum_replicate_nonpos (hx : Binary32.isFinite x = true) (h0 : Binary32.key x ≤ 0) (n : Nat) :
    Binary32.key (SampleFmt.binary32.numerics.sum (List.replicate n x)) ≤ 0 := by
  induction n with
  | zero => exact Binary32.key_zero.le
  | succ n ih =>
    rw [sum_replicate_succ]
    exact Binary32.key_add_nonpos (isNaN_sum_replicate hx n) hx ih h0

/-! ### Clean symbols slice to their bits -/

/-- The slicer of a sum of equal samples is the slicer of one of them. -/
theorem slice_sum_replicate (hx : Binary32.isFinite x = true) (hn : 1 ≤ n) :
    slice SampleFmt.binary32.numerics (SampleFmt.binary32.numerics.sum (List.replicate n x)) =
      Binary32.gt x 0#32 := by
  obtain ⟨n, rfl⟩ := Nat.exists_eq_add_of_le' hn
  by_cases h0 : 0 < Binary32.key x
  · rw [Binary32.gt_zero_iff.mpr ⟨Binary32.isNaN_of_isFinite hx, h0⟩]
    exact Binary32.gt_zero_iff.mpr ⟨isNaN_sum_replicate hx _, key_sum_replicate_pos hx h0 n⟩
  · rw [Bool.eq_false_iff.mpr fun h => h0 (Binary32.gt_zero_iff.mp h).2]
    have hsum := key_sum_replicate_nonpos hx (Int.not_lt.mp h0) (n + 1)
    exact Bool.eq_false_iff.mpr fun h => Int.not_lt.mpr hsum (Binary32.gt_zero_iff.mp h).2

theorem num_of_binary32 {c : Config} (hf : c.sampleFmt = .binary32) : c.num = SampleFmt.binary32.numerics := by
  rw [Config.num, hf]

/-- `A1` and `A0` are finite and the slicer tells them apart (R282). -/
theorem cleanSymbols_amplitude {c : Config} (hf : c.sampleFmt = .binary32) (h : cleanSymbols c) (bit : Bool) :
    Binary32.isFinite (amplitude c bit) = true ∧ Binary32.gt (amplitude c bit) 0#32 = bit := by
  simp only [cleanSymbols, above, atLeast, num_of_binary32 hf] at h
  obtain ⟨⟨h1, -, hgt1⟩, -, h0, hgt0⟩ := h
  cases bit
  · exact ⟨h0, hgt0⟩
  · exact ⟨h1, hgt1⟩

theorem slice_group_modulate {c : Config} {b : List Bool} {i : Nat} (hf : c.sampleFmt = .binary32) (hk : 1 ≤ c.k)
    (h : cleanSymbols c) (hi : i < b.length) :
    slice c.num (c.num.sum (((modulate c b).drop (i * c.k)).take c.k)) = b[i] := by
  obtain ⟨hfin, hbit⟩ := cleanSymbols_amplitude hf h b[i]
  rw [group_modulate c hi, num_of_binary32 hf, slice_sum_replicate hfin hk, hbit]

end Sys2Proof.Machine

open Sys2Proof Sys2Proof.Machine

/-- Settles O19: as many groups as bits, and each group slices to its bit. -/
theorem demodulateInvertsModulate : Obligations.DemodulateInvertsModulate := by
  intro c b hf hk h
  have hgroups : (modulate c b).length / c.k = b.length := by rw [length_modulate, Nat.mul_div_cancel _ hk]
  refine List.ext_getElem (by simp [demodulate, hgroups]) fun i _ hi => ?_
  simp only [demodulate, List.getElem_map, List.getElem_range]
  exact slice_group_modulate hf hk h hi

end

section
/-! The steps of a send (R141, R144 to R147, R261, R262; logs 3, 4, 10, 24): its entry and its return, the waits with
their polling points, the emission, and the hold of every other rule of `ARQ` while a send is in progress. -/

namespace Sys2Proof.Machine

variable {s t : State} {f : Frame} {c : Caller} {a entry cont : Act State}

/-- A step of `ARQ` that is taken, with no lock held. -/
theorem settle_arqStep_of_ok (hl : s.holdsAny .arq = false) (ha : a = .ok t) : settle s (arqStep s a) = .next t := by
  rw [arqStep_of_free hl, ha, settle_ok]

theorem settle_arqStep_of_refuse {r : Refusal} (hl : s.holdsAny .arq = false) (ha : a = .error (.refuse r)) :
    settle s (arqStep s a) = .refused r := by
  rw [arqStep_of_free hl, ha, settle_refuse]

/-! ### Entry and return -/

theorem sending_of_idle (h : s.modPhase = .idle) : Machine.sending c s entry cont = entry := by
  simp only [Machine.sending, h]

theorem sending_of_done (h : s.modPhase = .done) (hc : s.caller = some c) :
    Machine.sending c s entry cont = cont := by
  simp only [Machine.sending, h, if_pos hc]

/-- During a send a sending rule holds, but for its own continuation (R147). -/
theorem sending_of_send (h : s.modPhase ≠ .idle) (hc : ¬ (s.modPhase = .done ∧ s.caller = some c)) :
    Machine.sending c s entry cont = .error .hold := by
  cases hm : s.modPhase with
  | idle => exact absurd hm h
  | done => simp only [Machine.sending, hm, if_neg fun hcall => hc ⟨hm, hcall⟩]
  | waitq | emit | drain => simp only [Machine.sending, hm]

theorem sendEntry_of_idle (h : s.modPhase = .idle) (hok : Frame.ok s.cfg f = true) :
    sendEntry c f s = .ok { s with txf := some f, modPhase := .waitq, caller := some c } :=
  sendEntry_eq_ok.mpr ⟨hok, h, rfl⟩

theorem execModSend_of_idle (hl : s.holdsAny .arq = false) (hok : Frame.ok s.cfg f = true) (h : s.modPhase = .idle) :
    execModSend f s = .next { s with txf := some f, modPhase := .waitq, caller := some .alone } :=
  settle_arqStep_of_ok hl ((if_pos hok).trans ((sending_of_idle h).trans (sendEntry_of_idle h hok)))

theorem execModSend_of_done (hl : s.holdsAny .arq = false) (hok : Frame.ok s.cfg f = true) (h : s.modPhase = .done)
    (hc : s.caller = some .alone) : execModSend f s = .next { s with modPhase := .idle, caller := none } :=
  settle_arqStep_of_ok hl ((if_pos hok).trans (sending_of_done h hc))

theorem execModSend_of_send (hl : s.holdsAny .arq = false) (hok : Frame.ok s.cfg f = true) (h : s.modPhase ≠ .idle)
    (hc : ¬ (s.modPhase = .done ∧ s.caller = some .alone)) : execModSend f s = .next s :=
  settle_arqStep_of_hold hl ((if_pos hok).trans (sending_of_send h hc))

theorem execModSend_of_not_ok (hl : s.holdsAny .arq = false) (hok : ¬ Frame.ok s.cfg f = true) :
    execModSend f s = .refused .badFrame := settle_arqStep_of_refuse hl (if_neg hok)

/-! ### The other rules of `ARQ` hold during a send -/

/-- The start of a command waits for the end of the send (log 10). -/
theorem startSender_of_send (h : s.modPhase ≠ .idle) : startSender s = .error .hold := betweenSends_of_send h

theorem startReceiver_of_send (h : s.modPhase ≠ .idle) : startReceiver s = .error .hold := betweenSends_of_send h

theorem execHReceive_of_send (h : s.modPhase ≠ .idle) : execHReceive s = .next s := by
  rw [execHReceive, startReceiver_of_send h]
  split <;> rfl

theorem execHTransmit_of_send {payload : List Byte} (h : s.modPhase ≠ .idle)
    (hp : payload.length ≤ s.cfg.payloadMax) : execHTransmit payload s = .next s := by
  rw [execHTransmit, if_neg (Nat.not_lt.mpr hp), startSender_of_send
    (s := { s with txPayload := Memory.ofList payload, txLen := fitted 32 payload.length }) h]
  split <;> rfl

theorem execTxStart_of_send (hl : s.holdsAny .arq = false) (h : s.modPhase ≠ .idle) : execTxStart s = .next s :=
  settle_arqStep_of_hold hl (by rw [startSender_of_send h, ite_self])

theorem execRxStart_of_send (hl : s.holdsAny .arq = false) (h : s.modPhase ≠ .idle) : execRxStart s = .next s :=
  settle_arqStep_of_hold hl (by rw [startReceiver_of_send h, ite_self])

theorem receiveComplete_of_send (h : s.modPhase ≠ .idle) : ¬ receiveComplete s = true := by
  simp [receiveComplete, h]

/-- Of the rules of `ARQ` that send nothing none is enabled during a send (R30, R147). -/
theorem exec_of_send (hl : s.holdsAny .arq = false) (h : s.modPhase ≠ .idle) :
    ∀ i ∈ [Instr.hReceive, .txStart, .txLoop, .txDrain, .txSlide, .txAbort, .rxStart, .rxPop, .rxDone],
      exec i s = .next s := by
  simp only [List.forall_mem_cons, List.not_mem_nil, false_imp_iff, implies_true, and_true]
  refine ⟨execHReceive_of_send h, execTxStart_of_send hl h, ?txLoop, ?txDrain, ?txSlide, ?txAbort,
    execRxStart_of_send hl h, ?rxPop, ?rxDone⟩
  case txAbort => exact settle_arqStep_of_hold hl (if_neg fun henabled => h henabled.2.1)
  case rxDone => exact settle_arqStep_of_hold hl (if_neg (receiveComplete_of_send h))
  case txLoop | txDrain | txSlide | rxPop => exact settle_arqStep_of_hold hl (if_neg fun henabled => h henabled.2)

theorem execRxSent_of_send (hl : s.holdsAny .arq = false) (h : s.modPhase ≠ .idle) (f : Frame) :
    execRxSent f s = .next s := settle_arqStep_of_hold hl (if_neg fun henabled => h henabled.2)

/-- A rule that sends in the phase `p` holds during a send, but for its own continuation (R147). -/
theorem sending_in_phase_of_send {p : ArqPhase} (hp : p.caller = some c) (h : s.modPhase ≠ .idle)
    (hc : ¬ (s.modPhase = .done ∧ s.caller = some c ∧ s.arqPhase.caller = some c)) :
    (if s.arqPhase = p then Machine.sending c s entry cont else .error .hold) = .error .hold := by
  by_cases hphase : s.arqPhase = p
  · rw [if_pos hphase]
    exact sending_of_send h fun ⟨hm, hcall⟩ => hc ⟨hm, hcall, hphase ▸ hp⟩
  · exact if_neg hphase

theorem exec_sending_of_send (hl : s.holdsAny .arq = false) (h : s.modPhase ≠ .idle) :
    ∀ p ∈ [(Instr.txSent0, Caller.txSent0), (.txRetx, .txRetx), (.txNew, .txNew), (.txFin, .txFin)],
      ¬ (s.modPhase = .done ∧ s.caller = some p.2 ∧ s.arqPhase.caller = some p.2) → exec p.1 s = .next s := by
  simp only [List.forall_mem_cons, List.not_mem_nil, false_imp_iff, implies_true, and_true]
  refine ⟨?txSent0, ?txRetx, ?txNew, ?txFin⟩ <;>
    exact fun hc => settle_arqStep_of_hold hl (sending_in_phase_of_send rfl h hc)

theorem execRxData_of_send (hl : s.holdsAny .arq = false) (h : s.modPhase ≠ .idle) (f : Frame)
    (hc : ¬ (s.modPhase = .done ∧ s.caller = some .rxData ∧ s.arqPhase = .rxAck)) : execRxData f s = .next s := by
  refine settle_arqStep_of_hold hl ?_
  cases hp : s.arqPhase with
  | rxAck => exact sending_of_send h fun ⟨hm, hcall⟩ => hc ⟨hm, hcall, hp⟩
  | rxPop => exact betweenSends_of_send h
  | _ => rfl

/-! ### The polling points -/

/-- At a polling point of its send, with a stop requested, `TX.STOP` is taken (R217, R262). -/
theorem execTxStop_of_poll (hm : s.modPhase = .waitq ∨ s.modPhase = .drain) (hs : s.stopReq = true)
    (hr : s.role = .sender) : execTxStop s = settle s (arqStep s (.ok (stopByRole s))) := by
  have henabled : senderMayStop s = true := by simp [senderMayStop, hs, hm, hr]
  rw [execTxStop, if_pos henabled, stopByRole, hr]

/-- At a polling point of its send, with a stop requested, `RX.STOP` is taken (R238, R262). -/
theorem execRxStop_of_poll (hm : s.modPhase = .waitq ∨ s.modPhase = .drain) (hs : s.stopReq = true)
    (hr : s.role = .receiver) : execRxStop s = settle s (arqStep s (.ok (stopByRole s))) := by
  have henabled : receiverMayStop s = true := by simp [receiverMayStop, hs, hm, hr]
  rw [execRxStop, if_pos henabled, stopByRole, hr]

/-! ### The wait for a quiet channel -/

theorem execModWaitq_of_stop (hm : s.modPhase = .waitq) (hs : s.stopReq = true) :
    execModWaitq s = settle s (arqStep s (.ok (stopByRole s))) := by
  rw [execModWaitq, if_pos hm, if_pos hs]

theorem execModWaitq_of_quiet (hl : s.holdsAny .arq = false) (hm : s.modPhase = .waitq) (hs : s.stopReq = false)
    (hq : s.quiet = true) : execModWaitq s = .next { s with modPhase := .emit } :=
  settle_arqStep_of_ok hl ((if_pos hm).trans ((if_neg (Bool.eq_false_iff.mp hs)).trans (if_pos hq)))

theorem execModWaitq_of_not_quiet (hl : s.holdsAny .arq = false) (hm : s.modPhase = .waitq) (hs : s.stopReq = false)
    (hq : s.quiet = false) : execModWaitq s = .next s :=
  settle_arqStep_of_hold hl
    ((if_pos hm).trans ((if_neg (Bool.eq_false_iff.mp hs)).trans (if_neg (Bool.eq_false_iff.mp hq))))

/-! ### The emission -/

theorem pushOutq_of_le {xs : List Sample} (h : s.outq.length + xs.length ≤ s.cfg.outDepth) :
    pushOutq xs s = .ok { s with outq := s.outq ++ xs } := if_pos h

theorem pushOutq_of_lt {xs : List Sample} (h : s.cfg.outDepth < s.outq.length + xs.length) :
    pushOutq xs s = .error (.refuse .outqOverflow) := if_neg (Nat.not_le.mpr h)

/-- Of an admissible frame at the open gate, the emission is the push of its samples. -/
theorem execModEmit_of_gateOpen (hm : s.modPhase = .emit) (hf : s.txf = some f) (hok : Frame.ok s.cfg f = true)
    (hg : s.gateOpen .arq .outq) : execModEmit s = settle s ((pushOutq (frameSamples s.cfg f) s).andThen fun s =>
      .ok { s with txf := none, modPhase := .drain }) := by
  simp only [execModEmit, arqStep_of_free hg.2, if_pos hm, hf, if_pos hok, withLock_of_gateOpen hg]

/-! ### The wait for an empty queue -/

theorem execModDrain_of_stop (hm : s.modPhase = .drain) (hs : s.stopReq = true) :
    execModDrain s = settle s (arqStep s (.ok (stopByRole s))) := by
  rw [execModDrain, if_pos hm, if_pos hs]

/-- At the open gate the drain looks at the queue alone. -/
theorem execModDrain_of_gateOpen (hm : s.modPhase = .drain) (hs : s.stopReq = false) (hg : s.gateOpen .arq .outq) :
    execModDrain s = settle s (if s.outq = [] then .ok { s with modPhase := .done } else .error .hold) := by
  rw [execModDrain, arqStep_of_free hg.2, if_pos hm, if_neg (Bool.eq_false_iff.mp hs), withLock_of_gateOpen hg]

end Sys2Proof.Machine

open Sys2Proof Sys2Proof.Machine

/-- Settles O14: the three cases of the entry rule, and the holds rule by rule. -/
theorem oneSendAtATime : Obligations.OneSendAtATime := by
  intro s hl
  refine ⟨fun f hlen hmax => ?admissible, fun f hbad => ?inadmissible, fun hm => ?duringASend⟩
  case admissible =>
    have hok := frame_ok_iff.mpr ⟨hlen, hmax⟩
    exact ⟨execModSend_of_idle hl hok, execModSend_of_done hl hok, execModSend_of_send hl hok⟩
  case inadmissible =>
    refine execModSend_of_not_ok hl fun hok => ?_
    obtain ⟨hlen, hmax⟩ := frame_ok_iff.mp hok
    exact hbad.elim (absurd hlen) (Nat.not_lt.mpr hmax)
  case duringASend =>
    exact ⟨exec_of_send hl hm, fun _ => execHTransmit_of_send hm, execRxSent_of_send hl hm,
      exec_sending_of_send hl hm, execRxData_of_send hl hm⟩

/-- Settles O15: the stop is that of the command's role, and `QUIET` decides the rest. -/
theorem sendWaitsForQuiet : Obligations.SendWaitsForQuiet := by
  intro s hm
  refine ⟨fun hs hr => ?sender, fun hs hr => ?receiver, fun hl => ⟨fun hs => ?completes, ?quiet, ?notQuiet⟩⟩
  case sender => exact (execModWaitq_of_stop hm hs).trans (execTxStop_of_poll (.inl hm) hs hr).symm
  case receiver => exact (execModWaitq_of_stop hm hs).trans (execRxStop_of_poll (.inl hm) hs hr).symm
  case completes => exact ⟨_, (execModWaitq_of_stop hm hs).trans (settle_arqStep_of_ok hl rfl)⟩
  case quiet => exact execModWaitq_of_quiet hl hm
  case notQuiet => exact execModWaitq_of_not_quiet hl hm

/-- Settles O16, by whether the frame's samples fit. -/
theorem emitAppendsTheWholeFrame : Obligations.EmitAppendsTheWholeFrame := by
  intro s f hm hf hok hg hpre
  have hemit := execModEmit_of_gateOpen hm hf hok hg
  refine ⟨frameSamples s.cfg f, rfl, length_frameSamples hpre hok, fun hfits => ?fits, fun hover => ?overflow⟩
  case fits => rw [exec_modEmit, hemit, pushOutq_of_le hfits, Act.andThen_ok, settle_ok]
  case overflow => rw [exec_modEmit, hemit, pushOutq_of_lt hover, Act.andThen_error, settle_refuse]

/-- Settles O17: the stop is that of the command's role, and `OUTQ` decides the rest. -/
theorem sendReturnsWhenDrained : Obligations.SendReturnsWhenDrained := by
  intro s hm
  refine ⟨fun hs hr => ?sender, fun hs hr => ?receiver, fun hs hg hq => ?empty, fun hs hg hq => ?notEmpty⟩
  case sender => exact (execModDrain_of_stop hm hs).trans (execTxStop_of_poll (.inr hm) hs hr).symm
  case receiver => exact (execModDrain_of_stop hm hs).trans (execRxStop_of_poll (.inr hm) hs hr).symm
  case empty => rw [exec_modDrain, execModDrain_of_gateOpen hm hs hg, if_pos hq, settle_ok]
  case notEmpty => rw [exec_modDrain, execModDrain_of_gateOpen hm hs hg, if_neg hq, settle_hold]

end

section
/-! Bits out of samples (R158, R159): the slicer's strict comparison, and the integrator behind which every operation on
a sample of a frame takes its bit. -/

namespace Sys2Proof.Machine

variable {s : State} {x : Sample}

/-! ### The slicer -/

/-- Above 0.0 are the patterns that are neither negative nor one of the two zeros. -/
theorem Binary32.key_pos_iff : 0 < Binary32.key x ↔ x.msb = false ∧ x ≠ 0#32 := by
  rw [Binary32.key, Binary32.neg]
  cases hn : x.msb with
  | true => simp
  | false =>
    have hlt : x.toNat < 2 ^ 31 := by simpa [BitVec.msb_eq_decide] using hn
    have hmag : Binary32.magBits x = x.toNat := Nat.mod_eq_of_lt hlt
    have hzero : x ≠ 0#32 ↔ 0 < x.toNat := by simp [← BitVec.toNat_inj, Nat.pos_iff_ne_zero]
    simp [hmag, hzero]

theorem Binary32.gt_zero_iff_of_not_isNaN (hx : Binary32.isNaN x = false) :
    Binary32.gt x 0#32 = true ↔ x.msb = false ∧ x ≠ 0#32 := by
  rw [Binary32.gt_zero_iff, Binary32.key_pos_iff, and_iff_right hx]

/-! ### The integrator -/

/-- The bit that a symbol's last sample gives (R159). -/
def State.symbolBit (s : State) (x : Sample) : Bool := slice s.cfg.num (s.cfg.num.add s.acc x)

/-- The registers after a symbol's last sample (R159). -/
def State.symbolEnd (s : State) : State := { s with acc := s.cfg.num.zero, scnt := 0 }

/-- The registers after a sample before the last of its symbol (R159). -/
def State.accumulate (s : State) (x : Sample) : State :=
  { s with acc := s.cfg.num.add s.acc x, scnt := s.scnt + 1 }

theorem integrate_of_lt (h : s.scnt + 1 < s.cfg.k) (x : Sample) : integrate x s = (none, s.accumulate x) := if_pos h

theorem integrate_of_le (h : s.cfg.k ≤ s.scnt + 1) (x : Sample) :
    integrate x s = (some (s.symbolBit x), s.symbolEnd) := if_neg (Nat.not_lt.mpr h)

theorem demHeader_of_lt (h : s.scnt + 1 < s.cfg.k) (x : Sample) : demHeader x s = s.accumulate x := by
  rw [demHeader, integrate_of_lt h]

theorem demHeader_of_le (h : s.cfg.k ≤ s.scnt + 1) (x : Sample) :
    demHeader x s = headerBit (s.symbolBit x) s.symbolEnd := by
  rw [demHeader, integrate_of_le h]

theorem demBody_of_lt (h : s.scnt + 1 < s.cfg.k) (x : Sample) : demBody x s = .ok (s.accumulate x) := by
  rw [demBody, integrate_of_lt h]

theorem demBody_of_le (h : s.cfg.k ≤ s.scnt + 1) (x : Sample) :
    demBody x s = bodyBit (s.symbolBit x) s.symbolEnd := by
  rw [demBody, integrate_of_le h]

theorem demCrc_of_lt (h : s.scnt + 1 < s.cfg.k) (x : Sample) : demCrc x s = .ok (s.accumulate x) := by
  rw [demCrc, integrate_of_lt h]

theorem demCrc_of_le (h : s.cfg.k ≤ s.scnt + 1) (x : Sample) :
    demCrc x s = crcFieldBit (s.symbolBit x) s.symbolEnd := by
  rw [demCrc, integrate_of_le h]

end Sys2Proof.Machine

open Sys2Proof Sys2Proof.Machine

/-- Settles O23: the comparison is the slicer's own; in binary32 it is a test of the pattern. -/
theorem slicerIsStrict : Obligations.SlicerIsStrict := by
  intro s x
  refine ⟨slice s.cfg.num x, rfl, rfl, fun hf hx => ?_⟩
  rw [slice, num_of_binary32 hf]
  exact Binary32.gt_zero_iff_of_not_isNaN hx

end

section
/-! The preamble comparator and its window (R156, R157; log 19): the verdict group by group, the window as the list of
its samples, and the search that synchronizes on a match. -/

namespace Sys2Proof

variable {α : Type} {m : Memory α} {l : List α} {lo n : Nat} {v : α}

/-- A cell written behind a range extends it. -/
theorem Memory.range_set_append (h : m.range 0 n = some l) : (m.set n v).range 0 (n + 1) = some (l ++ [v]) := by
  obtain ⟨hlen, hget⟩ := Memory.range_eq_some.mp h
  refine Memory.range_eq_some.mpr ⟨by simp [hlen], fun i hi => ?_⟩
  rw [Nat.zero_add, Memory.get_set]
  by_cases hn : i = n
  · simp [hn, ← hlen]
  · have hlt : i < n := by omega
    rw [if_neg hn, List.getElem?_append_left (hlen.symm ▸ hlt), ← hget i hlt, Nat.zero_add]

/-- Without its first cell a range is the tail of its list. -/
theorem Memory.range_drop_one (h : m.range lo n = some l) : m.range (lo + 1) (n - 1) = some (l.drop 1) := by
  obtain ⟨hlen, hget⟩ := Memory.range_eq_some.mp h
  refine Memory.range_eq_some.mpr ⟨by simp [hlen], fun i hi => ?_⟩
  rw [List.getElem?_drop, ← hget (1 + i) (by omega), Nat.add_assoc]

end Sys2Proof

namespace Sys2Proof.Machine

variable {s t : State} {x : Sample} {xs : List Sample} {c : Config} {n i : Nat}

/-! ### The comparator -/

/-- The bits of `n` groups, by the group's number. -/
theorem groupBits_eq_map (c : Config) (n : Nat) (xs : List Sample) :
    groupBits c n xs = (List.range n).map fun i =>
      c.num.gt (weightedSum c.num c.w ((xs.drop (i * c.k)).take c.k)) c.syncTheta := by
  induction n generalizing xs with
  | zero => rfl
  | succ n ih =>
    simp [groupBits, ih, List.range_succ_eq_map, Nat.succ_mul, Nat.add_comm]

/-- The weighted samples of group `i`, index by index. -/
theorem zipWith_group (hw : c.w.length = c.k) (hi : i * c.k + c.k ≤ xs.length) :
    List.zipWith c.num.mul c.w ((xs.drop (i * c.k)).take c.k) = (List.range c.k).map fun j =>
      c.num.mul (c.w.getD j c.num.zero) (xs.getD (i * c.k + j) c.num.zero) := by
  refine List.ext_getElem (by simp [hw]; omega) fun j hj hj' => ?_
  have hjk : j < c.k := by simpa using hj'
  simp [hw, hjk, show i * c.k + j < xs.length by omega]

theorem weightedSum_group (hw : c.w.length = c.k) (hi : i * c.k + c.k ≤ xs.length) :
    weightedSum c.num c.w ((xs.drop (i * c.k)).take c.k) = groupSum c xs i := by
  rw [weightedSum, zipWith_group hw hi, Numerics.sum, List.foldl_map, groupSum]

theorem groupBits_getElem? (hw : c.w.length = c.k) (hn : n * c.k ≤ xs.length) (hi : i < n) :
    (groupBits c n xs)[i]? = some (c.num.gt (groupSum c xs i) c.syncTheta) := by
  have hgroup : i * c.k + c.k ≤ xs.length := by
    rw [← Nat.succ_mul]
    exact (Nat.mul_le_mul_right _ hi).trans hn
  simp [groupBits_eq_map, hi, weightedSum_group hw hgroup]

theorem length_groupBits (c : Config) (n : Nat) (xs : List Sample) : (groupBits c n xs).length = n := by
  simp [groupBits_eq_map]

/-- The comparison with the preamble is one of every group (R157). -/
theorem preambleMatch_iff (hw : c.w.length = c.k) (hpre : c.pre.length = c.p) (hlen : xs.length = c.pk) :
    preambleMatch c xs = true ↔
      ∀ i, i < c.p → c.pre[i]? = some (c.num.gt (groupSum c xs i) c.syncTheta) := by
  rw [preambleMatch, beq_iff_eq]
  constructor
  · intro h i hi
    rw [← h, groupBits_getElem? hw hlen.ge hi]
  · intro h
    refine List.ext_getElem? fun i => ?_
    by_cases hi : i < c.p
    · rw [groupBits_getElem? hw hlen.ge hi, h i hi]
    · rw [List.getElem?_eq_none (by rw [length_groupBits]; omega), List.getElem?_eq_none (by omega)]

theorem correlate_of_range (hf : s.wfill = s.cfg.pk) (hr : s.win.range 0 s.cfg.pk = some xs) :
    correlate s = .ok (preambleMatch s.cfg xs) := correlate_eq_ok.mpr ⟨hf, xs, hr, rfl⟩

/-! ### The window -/

/-- The window's samples, oldest first, after one more: the oldest is dropped from a full window (R156). -/
def State.slid (s : State) (xs : List Sample) (x : Sample) : List Sample :=
  if s.wfill < s.cfg.pk then xs ++ [x] else (xs ++ [x]).drop 1

theorem length_slid_le (hl : s.wfill ≤ s.cfg.pk) (hlen : xs.length = s.wfill) (x : Sample) :
    (s.slid xs x).length ≤ s.cfg.pk := by
  rw [State.slid]
  split <;> simp [hlen] <;> omega

/-- The window slides as its list does. -/
theorem slideWindow_of_range (hl : s.wfill ≤ s.cfg.pk) (hpk : 1 ≤ s.cfg.pk) (hr : s.win.range 0 s.wfill = some xs)
    (x : Sample) : ∃ m : Memory Sample,
      slideWindow x s = .ok { s with win := m, wfill := (s.slid xs x).length } ∧
      m.range 0 (s.slid xs x).length = some (s.slid xs x) := by
  obtain ⟨hlen, -⟩ := Memory.range_eq_some.mp hr
  rw [State.slid]
  by_cases hlt : s.wfill < s.cfg.pk
  · refine ⟨s.win.set s.wfill x, ?_⟩
    rw [if_pos hlt, List.length_append, hlen]
    exact ⟨slideWindow_eq_ok.mpr (.inl ⟨hlt, rfl⟩), Memory.range_set_append hr⟩
  · have hfull : s.wfill = s.cfg.pk := Nat.le_antisymm hl (Nat.not_lt.mp hlt)
    have hdrop : (xs ++ [x]).drop 1 = xs.drop 1 ++ [x] := List.drop_append_of_le_length (by omega)
    have hlen' : (xs.drop 1 ++ [x]).length = s.wfill := by simp [hlen]; omega
    refine ⟨Memory.ofList (xs.drop 1 ++ [x]), ?_⟩
    rw [if_neg hlt, hdrop]
    refine ⟨slideWindow_eq_ok.mpr (.inr ⟨hfull.ge, xs.drop 1, ?_, by rw [hlen']⟩), Memory.range_ofList _⟩
    exact hfull ▸ Memory.range_drop_one hr

/-! ### The search -/

/-- A full window that matches synchronizes. -/
theorem demSearch_of_match (hs : slideWindow x s = .ok t) (hf : t.wfill = t.cfg.pk)
    (hr : t.win.range 0 t.cfg.pk = some xs) (hm : preambleMatch t.cfg xs = true) :
    demSearch x s = .ok (synchronize t) :=
  demSearch_eq_ok.mpr ⟨t, hs, .inl ⟨hf, true, hm ▸ correlate_of_range hf hr, rfl⟩⟩

/-- A full window that does not match only slides. -/
theorem demSearch_of_no_match (hs : slideWindow x s = .ok t) (hf : t.wfill = t.cfg.pk)
    (hr : t.win.range 0 t.cfg.pk = some xs) (hm : preambleMatch t.cfg xs = false) : demSearch x s = .ok t :=
  demSearch_eq_ok.mpr ⟨t, hs, .inl ⟨hf, false, hm ▸ correlate_of_range hf hr, rfl⟩⟩

/-- Before the window is full no comparison is made. -/
theorem demSearch_of_fill (hs : slideWindow x s = .ok t) (hf : t.wfill ≠ t.cfg.pk) : demSearch x s = .ok t :=
  demSearch_eq_ok.mpr ⟨t, hs, .inr ⟨hf, rfl⟩⟩

/-- What a sample does to a search (R156): it synchronizes, or it only slides into the window. -/
theorem demSearch_cases (hl : s.wfill ≤ s.cfg.pk) (hpk : 1 ≤ s.cfg.pk) (hr : s.win.range 0 s.wfill = some xs)
    (x : Sample) : ∃ m : Memory Sample, m.range 0 (s.slid xs x).length = some (s.slid xs x) ∧
      (((s.slid xs x).length = s.cfg.pk ∧ preambleMatch s.cfg (s.slid xs x) = true ∧
          demSearch x s = .ok (synchronize { s with win := m, wfill := (s.slid xs x).length })) ∨
        (((s.slid xs x).length < s.cfg.pk ∨ preambleMatch s.cfg (s.slid xs x) = false) ∧
          demSearch x s = .ok { s with win := m, wfill := (s.slid xs x).length })) := by
  obtain ⟨m, hs, hm⟩ := slideWindow_of_range hl hpk hr x
  obtain ⟨hlen, -⟩ := Memory.range_eq_some.mp hr
  refine ⟨m, hm, ?_⟩
  by_cases hf : (s.slid xs x).length = s.cfg.pk
  · have hm' : m.range 0 s.cfg.pk = some (s.slid xs x) := hf ▸ hm
    cases hv : preambleMatch s.cfg (s.slid xs x) with
    | true => exact .inl ⟨hf, rfl, demSearch_of_match hs hf hm' hv⟩
    | false => exact .inr ⟨.inr rfl, demSearch_of_no_match hs hf hm' hv⟩
  · exact .inr ⟨.inl (Nat.lt_of_le_of_ne (length_slid_le hl hlen x) hf), demSearch_of_fill hs hf⟩

end Sys2Proof.Machine

open Sys2Proof Sys2Proof.Machine

/-- Settles O22: the verdict on a full window is the comparison of every group. -/
theorem comparatorMatchesEveryGroup : Obligations.ComparatorMatchesEveryGroup := by
  intro s xs hf hr hw hpre
  obtain ⟨hlen, -⟩ := Memory.range_eq_some.mp hr
  refine ⟨preambleMatch s.cfg xs, ?_, preambleMatch_iff hw hpre hlen⟩
  rw [exec_demCorr, execDemCorr, correlate_of_range hf hr]
  rfl

/-- Settles O21, by the two outcomes of a search, which exclude each other. -/
theorem searchSlidesTheWindowAndSynchronizes : Obligations.SearchSlidesTheWindowAndSynchronizes := by
  intro s x xs hl hpk hr
  obtain ⟨m, hm, ⟨hf, hv, h⟩ | ⟨hn, h⟩⟩ := demSearch_cases hl hpk hr x
  · refine ⟨_, congrArg (settle s) h, fun _ _ => rfl, fun hn => ?_⟩
    rcases hn with hn | hn
    · exact absurd hf (Nat.ne_of_lt hn)
    · exact nomatch hv.symm.trans hn
  · refine ⟨_, congrArg (settle s) h, fun hf hv => ?_, fun _ => ⟨rfl, hm, rfl⟩⟩
    rcases hn with hn | hn
    · exact absurd hf (Nat.ne_of_lt hn)
    · exact nomatch hv.symm.trans hn

end

section
/-! The demodulator's bits (R160 to R167; logs 12, 20): what a header bit, a body bit and a CRC bit do, the end of a
frame, and `DEM.STEP`, which completes whenever it has a sample and its gates are open. -/

namespace Sys2Proof.Machine

variable {s t : State} {x : Sample} {b : Bool} {body : List Byte}

/-! ### Header bits -/

theorem headerBit_of_ne (hn : s.bcnt + 1 ≠ 32) (hw : s.bcnt + 1 < 2 ^ 20) :
    headerBit b s = { s with hdr := shiftIn s.hdr b, bcnt := s.bcnt + 1 } := by
  rcases headerBit_cases b s with ⟨h, -⟩ | ⟨-, e⟩
  · exact absurd ((fitted_of_lt hw).symm.trans h) hn
  · rw [e, fitted_of_lt hw]

theorem headerBit_last (hb : s.bcnt + 1 = 32) :
    headerBit b s = latchHeader { s with hdr := shiftIn s.hdr b, bcnt := 32 } := by
  have hfit : fitted 20 (s.bcnt + 1) = 32 := by rw [hb]; exact fitted_of_lt (by decide)
  rcases headerBit_cases b s with ⟨-, e⟩ | ⟨h, -⟩
  · rw [e, hfit]
  · exact absurd hfit h

/-! ### Body bits -/

/-- `RX_BODY` has no cell for a byte past `MAX_BODY` (R22, log 20). -/
theorem bodyBit_past (h8 : (s.bcnt + 1) % 8 = 0) (hpast : 8 * s.cfg.maxBody < s.bcnt + 1)
    (hw : s.bcnt + 1 < 2 ^ 20) : bodyBit b s = .error (.fault (.noCell .rxBody)) := by
  have hcell : ¬ (8 ≤ s.bcnt + 1 ∧ s.bcnt + 1 ≤ 8 * s.cfg.maxBody) := by omega
  simp only [bodyBit, storeByte, State.countBit, fitted_of_lt hw, h8, if_true, if_neg hcell, Act.andThen_error]

/-- The registers after a body bit (R162). -/
def State.withBodyBit (s : State) (b : Bool) : State :=
  { s with
    rxCur := if (s.bcnt + 1) % 8 = 0 then 0#8 else shiftIn s.rxCur b
    rxBody := if (s.bcnt + 1) % 8 = 0 then s.rxBody.set ((s.bcnt + 1) / 8 - 1) (shiftIn s.rxCur b) else s.rxBody
    demState := if s.bcnt + 1 = 8 * s.rxLen.toNat then .crc else s.demState
    bcnt := if s.bcnt + 1 = 8 * s.rxLen.toNat then 0 else s.bcnt + 1 }

theorem bodyBit_of_cell (hw : s.bcnt + 1 < 2 ^ 20) (hc : (s.bcnt + 1) % 8 = 0 → s.bcnt + 1 ≤ 8 * s.cfg.maxBody) :
    bodyBit b s = .ok (s.withBodyBit b) := by
  refine bodyBit_eq_ok.mpr ?_
  rw [fitted_of_lt hw]
  exact ⟨fun h8 => ⟨by omega, hc h8⟩, rfl⟩

/-! ### CRC bits and the end of a frame -/

theorem crcFieldBit_of_ne (hn : s.bcnt + 1 ≠ 32) (hw : s.bcnt + 1 < 2 ^ 20) :
    crcFieldBit b s = .ok { s with rxCrc := shiftIn s.rxCrc b, bcnt := s.bcnt + 1 } := by
  refine crcFieldBit_eq_ok.mpr ?_
  rw [fitted_of_lt hw]
  exact .inr ⟨hn, rfl⟩

theorem emitFrame_of_gateOpen (hr : s.rxBody.range 0 s.rxLen.toNat = some body) (hg : s.gateOpen .dem .fq) :
    emitFrame s = .ok (pushFq { len := s.rxLen, seq := s.rxSeq, body } s).toSearch :=
  emitFrame_eq_ok.mpr ⟨body, hr, hg, rfl⟩

theorem checkCrc_of_eq (hr : s.rxBody.range 0 s.rxLen.toNat = some body)
    (hc : crc32 s.cfg s.rxLen s.rxSeq body = s.rxCrc) : checkCrc s = emitFrame s := by
  rw [checkCrc, receivedBody_of_range hr, Act.andThen_ok, if_pos hc]

theorem checkCrc_of_ne (hr : s.rxBody.range 0 s.rxLen.toNat = some body)
    (hc : crc32 s.cfg s.rxLen s.rxSeq body ≠ s.rxCrc) : checkCrc s = .ok (discard (s.raise .crcMismatch)) := by
  rw [checkCrc, receivedBody_of_range hr, Act.andThen_ok, if_neg hc]

theorem checkCrc_completes (hr : s.rxBody.range 0 s.rxLen.toNat = some body) (hg : s.gateOpen .dem .fq) :
    ∃ t, checkCrc s = .ok t := by
  by_cases hc : crc32 s.cfg s.rxLen s.rxSeq body = s.rxCrc
  · exact ⟨_, (checkCrc_of_eq hr hc).trans (emitFrame_of_gateOpen hr hg)⟩
  · exact ⟨_, checkCrc_of_ne hr hc⟩

/-! ### Every action of the state machine completes -/

theorem DemInv.demSearch_completes (h : DemInv s) (hpk : 1 ≤ s.cfg.pk) (x : Sample) : ∃ t, demSearch x s = .ok t := by
  obtain ⟨xs, hr⟩ := Memory.range_isSome (m := s.win) (lo := 0) (n := s.wfill) fun i hi => (h.win _).mpr (by omega)
  obtain ⟨m, -, ⟨-, -, e⟩ | ⟨-, e⟩⟩ := demSearch_cases h.wfill hpk hr x
  · exact ⟨_, e⟩
  · exact ⟨_, e⟩

theorem DemInv.demBody_completes (h : DemInv s) (hd : s.demState = .body) (x : Sample) :
    ∃ t, demBody x s = .ok t := by
  obtain ⟨hmax, hlt, -⟩ := h.body hd
  have hr : s.rxLen.toNat < 2 ^ 16 := s.rxLen.isLt
  rcases Nat.lt_or_ge (s.scnt + 1) s.cfg.k with hk | hk
  · exact ⟨_, demBody_of_lt hk x⟩
  · refine ⟨_, (demBody_of_le hk x).trans (bodyBit_of_cell ?_ fun _ => ?_)⟩
    · show s.bcnt + 1 < 2 ^ 20
      omega
    · show s.bcnt + 1 ≤ 8 * s.cfg.maxBody
      omega

theorem DemInv.demCrc_completes (h : DemInv s) (hd : s.demState = .crc) (hg : s.gateOpen .dem .fq) (x : Sample) :
    ∃ t, demCrc x s = .ok t := by
  obtain ⟨-, hlt, hheld⟩ := h.crc hd
  obtain ⟨body, hr⟩ := Memory.range_isSome (lo := 0) fun i hi => by simpa using hheld i hi
  rcases Nat.lt_or_ge (s.scnt + 1) s.cfg.k with hk | hk
  · exact ⟨_, demCrc_of_lt hk x⟩
  · rw [demCrc_of_le hk x]
    by_cases hb : s.bcnt + 1 = 32
    · rw [crcFieldBit_last (s := s.symbolEnd) hb]
      exact checkCrc_completes hr hg
    · exact ⟨_, crcFieldBit_of_ne (s := s.symbolEnd) hb (by show s.bcnt + 1 < 2 ^ 20; omega)⟩

theorem DemInv.demAct_completes (h : DemInv s) (hpk : 1 ≤ s.cfg.pk) (hg : s.gateOpen .dem .fq) (x : Sample) :
    ∃ t, demAct x s = .ok t := by
  unfold demAct
  split
  case h_1 => exact h.demSearch_completes hpk x
  case h_2 => exact ⟨_, rfl⟩
  case h_3 hd => exact h.demBody_completes hd x
  case h_4 hd => exact h.demCrc_completes hd hg x

/-! ### `DEM.STEP` -/

/-- The sub-operation that a state of the demodulator takes on a sample (R28, R155). -/
def DemState.subOperation (d : DemState) (x : Sample) : Instr :=
  match d with
  | .search => .demSearch x
  | .header => .demHeader x
  | .body => .demBody x
  | .crc => .demCrc x

theorem exec_subOperation (x : Sample) (s : State) :
    exec (s.demState.subOperation x) s = settle s (demAct x s) := by
  unfold demAct
  cases s.demState <;> rfl

theorem execDemStep_of_nil (hg : s.gateOpen .dem .inq) (hq : s.inq = []) : execDemStep s = .next s := by
  rw [execDemStep, withLock_of_gateOpen hg, hq, settle_hold]

theorem execDemStep_of_ok {l : List Sample} (hg : s.gateOpen .dem .inq) (hq : s.inq = x :: l)
    (h : demAct x { s with inq := l } = .ok t) : execDemStep s = .next t := by
  simp only [execDemStep, withLock_of_gateOpen hg, hq, h, settle_ok]

end Sys2Proof.Machine

open Sys2Proof Sys2Proof.Machine

/-- Settles O20: the action of the state completes, and the step is that action on the popped sample. -/
theorem demStepPopsAndActs : Obligations.DemStepPopsAndActs := by
  intro s hp hk h hgi hgf
  refine ⟨execDemStep_of_nil hgi, fun x l hq => ?_⟩
  have h' : DemInv { s with inq := l } := { h with }
  obtain ⟨t, ht⟩ := h'.demAct_completes (Nat.mul_pos hp hk) hgf x
  refine ⟨t, execDemStep_of_ok hgi hq ht, (demAct_fqGrows ht).inq, ?_⟩
  exact (exec_subOperation x { s with inq := l }).trans (congrArg (settle _) ht)

/-- Settles O24: the integrator, then the bit, and at the last bit the three outcomes of the latch. -/
theorem headerBitsAreReadAndTested : Obligations.HeaderBitsAreReadAndTested := by
  intro s x b h len seq
  refine ⟨fun hk => ?early, fun hk hn hw => ?bit, fun hk hb => ?last⟩
  case early => exact congrArg Host.Outcome.next (demHeader_of_lt hk x)
  case bit =>
    exact congrArg Host.Outcome.next ((demHeader_of_le hk x).trans (headerBit_of_ne (s := s.symbolEnd) hn hw))
  case last =>
    have hlatch := (demHeader_of_le hk x).trans (headerBit_last (s := s.symbolEnd) hb)
    rcases latchHeader_cases { s.symbolEnd with hdr := h, bcnt := 32 } with
      ⟨hlong, e⟩ | ⟨hfits, hzero, e⟩ | ⟨hfits, hpos, e⟩
    · exact ⟨_, congrArg Host.Outcome.next (hlatch.trans e), rfl, rfl, rfl, rfl, rfl, rfl, rfl, rfl,
        fun _ => ⟨rfl, rfl, rfl⟩, fun hm => absurd hlong (Nat.not_lt.mpr hm), rfl⟩
    · exact ⟨_, congrArg Host.Outcome.next (hlatch.trans e), rfl, rfl, rfl, rfl, rfl, rfl, rfl, rfl,
        fun hm => absurd hm (Nat.not_lt.mpr hfits), fun _ => ⟨rfl, rfl, rfl, (if_pos hzero).symm⟩, rfl⟩
    · exact ⟨_, congrArg Host.Outcome.next (hlatch.trans e), rfl, rfl, rfl, rfl, rfl, rfl, rfl, rfl,
        fun hm => absurd hm (Nat.not_lt.mpr hfits), fun _ => ⟨rfl, rfl, rfl, (if_neg hpos).symm⟩, rfl⟩

/-- Settles O25: the integrator, then the bit, whose byte has a cell or has none. -/
theorem bodyBitsFillBytesInOrder : Obligations.BodyBitsFillBytesInOrder := by
  intro s x b cur
  refine ⟨fun hk => ?early, fun hk h8 hpast hw => ?past, fun hk hw hc => ?bit⟩
  case early => exact congrArg (settle s) (demBody_of_lt hk x)
  case past =>
    exact congrArg (settle s) ((demBody_of_le hk x).trans (bodyBit_past (s := s.symbolEnd) h8 hpast hw))
  case bit =>
    have hbit := (demBody_of_le hk x).trans (bodyBit_of_cell (s := s.symbolEnd) hw hc)
    refine ⟨_, congrArg (settle s) hbit, rfl, rfl, fun h8 => ⟨if_pos h8, fun i => ?stored⟩,
      fun h8 => ⟨if_neg h8, if_neg h8⟩, fun he => ⟨if_pos he, if_pos he⟩, fun he => ⟨if_neg he, if_neg he⟩, rfl⟩
    case stored => exact (congrArg (Memory.get · i) (if_pos h8)).trans (Memory.get_set _ _ _ _)

/-- Settles O26: the integrator, then the bit, and at the last bit the comparison of all 32. -/
theorem crcFieldDecidesTheFrame : Obligations.CrcFieldDecidesTheFrame := by
  intro s x body hr hg b rc u
  have hlast (hk : s.cfg.k ≤ s.scnt + 1) (hb : s.bcnt + 1 = 32) : demCrc x s = checkCrc u := by
    simp only [u, hb]
    exact (demCrc_of_le hk x).trans (crcFieldBit_last (s := s.symbolEnd) hb _)
  refine ⟨fun hk => ?early, fun hk hn hw => ?bit, fun hk hb hc => ?emit, fun hk hb hc => ?discard⟩
  case early => exact congrArg (settle s) (demCrc_of_lt hk x)
  case bit =>
    exact congrArg (settle s) ((demCrc_of_le hk x).trans (crcFieldBit_of_ne (s := s.symbolEnd) hn hw))
  case emit =>
    have hemit := emitFrame_of_gateOpen (s := u) hr hg
    have hstep := congrArg (settle s) (((hlast hk hb).trans (checkCrc_of_eq hr hc)).trans hemit)
    exact ⟨hstep.trans (congrArg (settle u) hemit).symm, _, hstep⟩
  case discard =>
    have hstep := congrArg (settle s) ((hlast hk hb).trans (checkCrc_of_ne hr hc))
    exact ⟨hstep, _, hstep⟩

/-- Settles O27: the push has room or it has none, and both operations return by the same way. -/
theorem emitAndDiscardReturnToSearching : Obligations.EmitAndDiscardReturnToSearching := by
  intro s
  refine ⟨fun body hr hg => ?emit, [], [], rfl⟩
  have hemit := emitFrame_of_gateOpen hr hg
  refine ⟨[], [], fun hroom => ?room, fun hfull => ?full⟩
  case room =>
    rw [exec_demEmit, execDemEmit, hemit, pushFq_of_lt hroom]
    rfl
  case full =>
    rw [exec_demEmit, execDemEmit, hemit, pushFq_of_le hfull]
    rfl

end

section
/-! Fields as numbers (R64, R65, R99): the value of a bit sequence most significant bit first, which `shiftIn` computes,
and the bits of bytes, which give the bytes back. -/

namespace Sys2Proof.Machine

variable {w n i k : Nat} {v : BitVec w} {b b' : List Bool} {L : List Byte}

/-! ### The value of a bit sequence -/

/-- The number that a bit sequence writes, first bit most significant (R99). -/
def bitsValue : List Bool → Nat
  | [] => 0
  | bit :: b => bit.toNat * 2 ^ b.length + bitsValue b

theorem bitsValue_lt (b : List Bool) : bitsValue b < 2 ^ b.length := by
  induction b with
  | nil => exact Nat.one_pos
  | cons bit b ih =>
    rw [bitsValue, List.length_cons, Nat.pow_succ]
    cases bit <;> simp <;> omega

theorem bitsValue_append (b b' : List Bool) :
    bitsValue (b ++ b') = bitsValue b * 2 ^ b'.length + bitsValue b' := by
  induction b with
  | nil => simp [bitsValue]
  | cons bit b ih => simp only [List.cons_append, bitsValue, ih, List.length_append, Nat.pow_add]; ring

/-- The value as R99's sum over the positions. -/
theorem bitsValue_eq_sum (b : List Bool) :
    bitsValue b =
      ((List.range b.length).map fun i => if b[i]? = some true then 2 ^ (b.length - 1 - i) else 0).sum := by
  induction b with
  | nil => rfl
  | cons bit b ih =>
    have hhead : bit.toNat * 2 ^ b.length = if bit = true then 2 ^ b.length else 0 := by cases bit <;> simp
    simp only [bitsValue, ih, hhead, List.length_cons, List.range_succ_eq_map, List.map_cons, List.map_map,
      List.sum_cons, Function.comp_def, List.getElem?_cons_zero, List.getElem?_cons_succ, Option.some.injEq,
      Nat.add_sub_cancel, Nat.sub_zero, Nat.succ_eq_add_one, Nat.sub_sub,
      Nat.add_comm 1]

/-! ### Shifting bits in -/

theorem toNat_shiftIn (v : BitVec w) (bit : Bool) : (shiftIn v bit).toNat = (2 * v.toNat + bit.toNat) % 2 ^ w := by
  have hconcat : shiftIn v bit = v.shiftConcat bit := by
    ext i hi
    cases i with
    | zero => simp [shiftIn, BitVec.shiftConcat]
    | succ i => simp [shiftIn, BitVec.shiftConcat, BitVec.getLsbD_eq_getElem (show i < w by omega)]
  rw [hconcat, BitVec.toNat_shiftConcat, Nat.shiftLeft_eq, Nat.pow_one, Nat.mul_comm]

theorem toNat_foldl_shiftIn (v : BitVec w) (b : List Bool) :
    (b.foldl shiftIn v).toNat = (v.toNat * 2 ^ b.length + bitsValue b) % 2 ^ w := by
  induction b generalizing v with
  | nil => simp [bitsValue, Nat.mod_eq_of_lt v.isLt]
  | cons bit b ih =>
    rw [List.foldl_cons, ih, toNat_shiftIn, bitsValue, List.length_cons, Nat.pow_succ, Nat.add_mod,
      Nat.mod_mul_mod, ← Nat.add_mod]
    congr 1
    ring

/-- `w` bits shifted into a register of width `w` leave nothing of what it held. -/
theorem foldl_shiftIn_of_length (h : b.length = w) (v : BitVec w) : b.foldl shiftIn v = fieldOf w b := by
  refine BitVec.eq_of_toNat_eq ?_
  rw [fieldOf, toNat_foldl_shiftIn, toNat_foldl_shiftIn, h, Nat.add_mod, Nat.mul_mod_left]
  simp

theorem toNat_fieldOf (h : b.length = w) : (fieldOf w b).toNat = bitsValue b := by
  rw [fieldOf, toNat_foldl_shiftIn, BitVec.toNat_zero, Nat.zero_mul, Nat.zero_add,
    Nat.mod_eq_of_lt (h ▸ bitsValue_lt b)]

/-! ### The bits of bytes -/

@[simp] theorem length_bitsOfByte (x : Byte) : (bitsOfByte x).length = 8 := rfl

theorem length_flatMap_bitsOfByte (L : List Byte) : (L.flatMap bitsOfByte).length = 8 * L.length := by
  simp [List.length_flatMap, Nat.mul_comm]

theorem bitsOfByte_getElem? (x : Byte) (hk : k < 8) : (bitsOfByte x)[k]? = some (x.getLsbD (7 - k)) := by
  interval_cases k <;> rfl

theorem bitsValue_bitsOfByte (x : Byte) : bitsValue (bitsOfByte x) = x.toNat := by
  revert x
  decide

theorem drop_flatMap_bitsOfByte (L : List Byte) (n : Nat) :
    (L.flatMap bitsOfByte).drop (8 * n) = (L.drop n).flatMap bitsOfByte := by
  induction n generalizing L with
  | zero => rfl
  | succ n ih =>
    cases L with
    | nil => simp
    | cons x L =>
      rw [List.flatMap_cons, Nat.mul_succ, Nat.add_comm, ← List.drop_drop, List.drop_left' (length_bitsOfByte x), ih,
        List.drop_succ_cons]

/-- Byte `n` of a byte string stands at its eight places (R64). -/
theorem flatMap_bitsOfByte_getElem? (h : L[n]? = some x) (hk : k < 8) :
    (L.flatMap bitsOfByte)[8 * n + k]? = some (x.getLsbD (7 - k)) := by
  obtain ⟨hn, rfl⟩ := List.getElem?_eq_some_iff.mp h
  rw [← List.getElem?_drop, drop_flatMap_bitsOfByte, List.drop_eq_getElem_cons hn, List.flatMap_cons,
    List.getElem?_append_left (by simpa using hk), bitsOfByte_getElem? _ hk]

theorem fieldOf_bitsOfByte (x : Byte) : fieldOf 8 (bitsOfByte x) = x :=
  BitVec.eq_of_toNat_eq ((toNat_fieldOf rfl).trans (bitsValue_bitsOfByte x))

/-- A 16-bit field's two bytes (R65). -/
theorem bitsValue_be16 (v : BitVec 16) : bitsValue ((be16 v).flatMap bitsOfByte) = v.toNat := by
  simp only [be16, List.flatMap_cons, List.flatMap_nil, List.append_nil, bitsValue_append, bitsValue_bitsOfByte,
    length_bitsOfByte, BitVec.extractLsb'_toNat]
  omega

theorem bitsValue_be32 (v : BitVec 32) : bitsValue ((be32 v).flatMap bitsOfByte) = v.toNat := by
  simp only [be32, List.flatMap_cons, List.flatMap_nil, List.append_nil, bitsValue_append, bitsValue_bitsOfByte,
    length_bitsOfByte, List.length_append, BitVec.extractLsb'_toNat]
  omega

theorem fieldOf_be16 (v : BitVec 16) : fieldOf 16 ((be16 v).flatMap bitsOfByte) = v :=
  BitVec.eq_of_toNat_eq ((toNat_fieldOf rfl).trans (bitsValue_be16 v))

theorem fieldOf_be32 (v : BitVec 32) : fieldOf 32 ((be32 v).flatMap bitsOfByte) = v :=
  BitVec.eq_of_toNat_eq ((toNat_fieldOf rfl).trans (bitsValue_be32 v))

theorem length_headerBits (len seq : BitVec 16) : ((be16 len ++ be16 seq).flatMap bitsOfByte).length = 32 := rfl

theorem length_be32Bits (x : BitVec 32) : ((be32 x).flatMap bitsOfByte).length = 32 := rfl

/-- The bits of a header, `LENGTH` before `SEQUENCE` (R90). -/
theorem fieldOf_header (len seq : BitVec 16) :
    fieldOf 32 ((be16 len ++ be16 seq).flatMap bitsOfByte) = len ++ seq := by
  have hseq : ((be16 seq).flatMap bitsOfByte).length = 16 := rfl
  refine BitVec.eq_of_toNat_eq ?_
  rw [toNat_fieldOf (length_headerBits len seq), List.flatMap_append, bitsValue_append, bitsValue_be16,
    bitsValue_be16, hseq, BitVec.toNat_append, ← Nat.shiftLeft_add_eq_or_of_lt seq.isLt, Nat.shiftLeft_eq]

/-! A register that a whole field is shifted into holds the field. -/

theorem foldl_bitsOfByte (v x : Byte) : (bitsOfByte x).foldl shiftIn v = x :=
  (foldl_shiftIn_of_length (length_bitsOfByte x) v).trans (fieldOf_bitsOfByte x)

theorem foldl_header (v : BitVec 32) (len seq : BitVec 16) :
    ((be16 len ++ be16 seq).flatMap bitsOfByte).foldl shiftIn v = len ++ seq :=
  (foldl_shiftIn_of_length (length_headerBits len seq) v).trans (fieldOf_header len seq)

theorem foldl_be32 (v x : BitVec 32) : ((be32 x).flatMap bitsOfByte).foldl shiftIn v = x :=
  (foldl_shiftIn_of_length (length_be32Bits x) v).trans (fieldOf_be32 x)

end Sys2Proof.Machine
end

section
/-! A frame received from its noiseless samples (R155 to R167, R186 b): `K` samples of a symbol are one bit, the bits
of a frame fill the registers and push it, and a preamble behind silence synchronizes at its last sample. -/

namespace Sys2Proof.Machine

variable {s t : State} {x : Sample} {bit : Bool} {b : List Bool} {xs ys l : List Sample} {f : Frame}

theorem modulate_append (c : Config) (b b' : List Bool) :
    modulate c (b ++ b') = modulate c b ++ modulate c b' := List.flatMap_append

/-! ### A symbol is a bit -/

/-- What the state machine does with the bit of a symbol (R28); a search takes none. -/
def takeBit (bit : Bool) (s : State) : Act State :=
  match s.demState with
  | .search => .error .hold
  | .header => .ok (headerBit bit s)
  | .body => bodyBit bit s
  | .crc => crcFieldBit bit s

theorem takeBit_header (hd : s.demState = .header) (bit : Bool) : takeBit bit s = .ok (headerBit bit s) := by
  simp only [takeBit, hd]

theorem takeBit_body (hd : s.demState = .body) (bit : Bool) : takeBit bit s = bodyBit bit s := by
  simp only [takeBit, hd]

theorem takeBit_crc (hd : s.demState = .crc) (bit : Bool) : takeBit bit s = crcFieldBit bit s := by
  simp only [takeBit, hd]

theorem demAct_of_lt (hd : s.demState ≠ .search) (h : s.scnt + 1 < s.cfg.k) (x : Sample) :
    demAct x s = .ok (s.accumulate x) := by
  unfold demAct
  cases hs : s.demState with
  | search => exact absurd hs hd
  | header => exact congrArg Except.ok (demHeader_of_lt h x)
  | body => exact demBody_of_lt h x
  | crc => exact demCrc_of_lt h x

theorem demAct_of_le (hd : s.demState ≠ .search) (h : s.cfg.k ≤ s.scnt + 1) (x : Sample) :
    demAct x s = takeBit (s.symbolBit x) s.symbolEnd := by
  have hsame : s.symbolEnd.demState = s.demState := rfl
  unfold demAct takeBit
  rw [hsame]
  cases hs : s.demState with
  | search => exact absurd hs hd
  | header => exact congrArg Except.ok (demHeader_of_le h x)
  | body => exact demBody_of_le h x
  | crc => exact demCrc_of_le h x

/-- Samples before the last of a symbol are summed. -/
theorem repeatOp_accumulate (hg : s.gateOpen .dem .inq) (hd : s.demState ≠ .search) {n : Nat}
    (hk : s.scnt + n < s.cfg.k) (hq : s.inq = List.replicate n x ++ l) :
    repeatOp .demStep n s = .next { s with
      inq := l, acc := (List.replicate n x).foldl s.cfg.num.add s.acc, scnt := s.scnt + n } := by
  induction n generalizing s with
  | zero =>
    obtain rfl : s.inq = l := hq
    rfl
  | succ n ih =>
    let u : State := { s with inq := List.replicate n x ++ l }
    have hstep : exec .demStep s = .next (u.accumulate x) :=
      execDemStep_of_ok hg hq (demAct_of_lt (s := u) hd (show s.scnt + 1 < s.cfg.k by omega) x)
    have hrest := ih (s := u.accumulate x) hg hd (show s.scnt + 1 + n < s.cfg.k by omega) rfl
    rw [show s.scnt + (n + 1) = s.scnt + 1 + n by omega]
    exact (repeatOp_succ hstep n).trans hrest

/-- At the start of a symbol, in binary32 with clean symbols, and free to take samples. -/
structure AtSymbol (s : State) : Prop where
  fmt : s.cfg.sampleFmt = .binary32
  k : 1 ≤ s.cfg.k
  symbols : cleanSymbols s.cfg
  gate : s.gateOpen .dem .inq
  scnt : s.scnt = 0
  acc : s.acc = s.cfg.num.zero

/-- `K` samples of a bit's amplitude are that bit (R148, R159). -/
theorem repeatOp_symbol (h : AtSymbol s) (hd : s.demState ≠ .search)
    (hq : s.inq = List.replicate s.cfg.k (amplitude s.cfg bit) ++ l)
    (hbit : takeBit bit { s with inq := l } = .ok t) : repeatOp .demStep s.cfg.k s = .next t := by
  obtain ⟨n, hn⟩ := Nat.exists_eq_add_of_le' h.k
  let u : State := { s with
    inq := amplitude s.cfg bit :: l
    acc := s.cfg.num.sum (List.replicate n (amplitude s.cfg bit)), scnt := n }
  have hsum : repeatOp .demStep n s = .next u := by
    rw [repeatOp_accumulate (x := amplitude s.cfg bit) (l := amplitude s.cfg bit :: l) h.gate hd
      (by rw [h.scnt]; omega) (by rw [hq, hn, List.replicate_succ', List.append_assoc]; rfl), h.acc, h.scnt,
      Nat.zero_add]
    rfl
  have hslice : { u with inq := l }.symbolBit (amplitude s.cfg bit) = bit := by
    obtain ⟨hfin, hgt⟩ := cleanSymbols_amplitude h.fmt h.symbols bit
    show slice s.cfg.num (s.cfg.num.add (s.cfg.num.sum _) _) = bit
    rw [← sum_replicate_succ, num_of_binary32 h.fmt, slice_sum_replicate hfin (Nat.succ_pos n), hgt]
  have hend : { u with inq := l }.symbolEnd = { s with inq := l } := by
    show { s with inq := l, acc := s.cfg.num.zero, scnt := 0 } = { s with inq := l }
    rw [← h.acc, ← h.scnt]
  have hlast : exec .demStep u = .next t := by
    refine execDemStep_of_ok h.gate rfl ?_
    rw [demAct_of_le (s := { u with inq := l }) hd (show s.cfg.k ≤ n + 1 by omega), hslice, hend, hbit]
  rw [hn, repeatOp_add hsum, repeatOp_succ hlast]
  rfl

/-- The first bit of a modulation, and the rest of the run. -/
theorem repeatOp_modulate_cons (h : AtSymbol s) (hd : s.demState ≠ .search)
    (hq : s.inq = modulate s.cfg (bit :: b) ++ l)
    (hbit : takeBit bit { s with inq := modulate s.cfg b ++ l } = .ok t) :
    repeatOp .demStep ((bit :: b).length * s.cfg.k) s = repeatOp .demStep (b.length * s.cfg.k) t := by
  rw [List.length_cons, Nat.succ_mul, Nat.add_comm]
  refine repeatOp_add (repeatOp_symbol h hd ?_ hbit) _
  rw [hq, modulate_cons, List.append_assoc]

/-! ### A field is its bits shifted in -/

/-- The bits `b` shifted into the register of the field that is being read, and counted (R99, R160, R162, R163). -/
def State.shifted (s : State) (b : List Bool) : State :=
  { s with
    hdr := if s.demState = .header then b.foldl shiftIn s.hdr else s.hdr
    rxCur := if s.demState = .body then b.foldl shiftIn s.rxCur else s.rxCur
    rxCrc := if s.demState = .crc then b.foldl shiftIn s.rxCrc else s.rxCrc
    bcnt := s.bcnt + b.length }

/-- The count of bits that ends the field: a byte of the body, or the 32 bits of the header or of the CRC. -/
def State.fieldEnd (s : State) : Nat := if s.demState = .body then 8 * (s.bcnt / 8 + 1) else 32

theorem shifted_nil (s : State) : s.shifted [] = s := by
  simp [State.shifted]

theorem shifted_cons (s : State) (bit : Bool) (b : List Bool) : (s.shifted [bit]).shifted b = s.shifted (bit :: b) := by
  cases hd : s.demState <;> simp [State.shifted, hd, Nat.add_assoc, Nat.add_comm 1]

theorem fieldEnd_shifted (h : s.bcnt + 1 < s.fieldEnd) (bit : Bool) : (s.shifted [bit]).fieldEnd = s.fieldEnd := by
  simp only [State.fieldEnd, State.shifted, List.length_singleton] at h ⊢
  split at h <;> simp only [*, if_true, if_false]
  omega

/-- A bit before the last of its field is shifted in, and nothing else. -/
theorem takeBit_of_lt (hd : s.demState ≠ .search) (hn : s.bcnt + 1 < s.fieldEnd) (hw : s.fieldEnd < 2 ^ 20)
    (bit : Bool) : takeBit bit s = .ok (s.shifted [bit]) := by
  cases hs : s.demState with
  | search => exact absurd hs hd
  | header =>
    simp only [State.fieldEnd, hs, reduceCtorEq, if_false] at hn
    rw [takeBit_header hs, headerBit_of_ne (by omega) (by omega)]
    simp [State.shifted, hs]
  | body =>
    simp only [State.fieldEnd, hs, if_true] at hn hw
    have hmid : (s.bcnt + 1) % 8 ≠ 0 := by omega
    have hnot : s.bcnt + 1 ≠ 8 * s.rxLen.toNat := by omega
    rw [takeBit_body hs, bodyBit_of_cell (by omega) fun h8 => absurd h8 hmid]
    simp [State.shifted, State.withBodyBit, hs, hmid, hnot]
  | crc =>
    simp only [State.fieldEnd, hs, reduceCtorEq, if_false] at hn
    rw [takeBit_crc hs, crcFieldBit_of_ne (by omega) (by omega)]
    simp [State.shifted, hs]

/-- The samples of bits before the last of a field. -/
theorem repeatOp_shifted (h : AtSymbol s) (hd : s.demState ≠ .search) (hn : s.bcnt + b.length < s.fieldEnd)
    (hw : s.fieldEnd < 2 ^ 20) (hq : s.inq = modulate s.cfg b ++ l) :
    repeatOp .demStep (b.length * s.cfg.k) s = .next ({ s with inq := l }.shifted b) := by
  induction b generalizing s with
  | nil =>
    obtain rfl : s.inq = l := hq
    rw [shifted_nil, List.length_nil, Nat.zero_mul]
    rfl
  | cons bit b ih =>
    rw [List.length_cons] at hn
    let v : State := { s with inq := modulate s.cfg b ++ l }
    have hbit : v.bcnt + 1 < v.fieldEnd := Nat.lt_of_le_of_lt (by simp only [v]; omega) hn
    have hend : (v.shifted [bit]).fieldEnd = s.fieldEnd := fieldEnd_shifted hbit bit
    have hrest := ih (s := v.shifted [bit]) { h with } hd
      (by rw [hend]; simp only [State.shifted, v, List.length_singleton]; omega) (hend ▸ hw) rfl
    exact (repeatOp_modulate_cons h hd hq (takeBit_of_lt (s := v) hd hbit hw bit)).trans
      (hrest.trans (congrArg Host.Outcome.next (shifted_cons { s with inq := l } bit b)))

/-- The samples of a whole field: its last bit finds all others shifted in. -/
theorem repeatOp_field (h : AtSymbol s) (hd : s.demState ≠ .search)
    (hn : s.bcnt + (b ++ [bit]).length = s.fieldEnd) (hw : s.fieldEnd < 2 ^ 20)
    (hq : s.inq = modulate s.cfg (b ++ [bit]) ++ l) (hlast : takeBit bit ({ s with inq := l }.shifted b) = .ok t) :
    repeatOp .demStep ((b ++ [bit]).length * s.cfg.k) s = .next t := by
  rw [List.length_append, List.length_singleton] at hn ⊢
  let u : State := { s with inq := modulate s.cfg [bit] ++ l }.shifted b
  have hfirst : repeatOp .demStep (b.length * s.cfg.k) s = .next u :=
    repeatOp_shifted h hd (by omega) hw (by rw [hq, modulate_append, List.append_assoc])
  have hbit : repeatOp .demStep ([bit].length * s.cfg.k) u = .next t :=
    (repeatOp_modulate_cons (s := u) (b := []) (l := l) { h with } hd rfl hlast).trans (by simp [repeatOp])
  rw [Nat.succ_mul, repeatOp_add hfirst]
  simpa using hbit

/-! ### The header, a byte, the CRC field -/

/-- The bits of a header are shifted in, and the header is latched (R160). -/
theorem repeatOp_header (h : AtSymbol s) (hd : s.demState = .header) (hb : b ≠ []) (hn : s.bcnt + b.length = 32)
    (hq : s.inq = modulate s.cfg b ++ l) :
    repeatOp .demStep (b.length * s.cfg.k) s =
      .next (latchHeader { s with inq := l, hdr := b.foldl shiftIn s.hdr, bcnt := 32 }) := by
  obtain ⟨r, bit, rfl⟩ := (List.eq_nil_or_concat' b).resolve_left hb
  have hend : s.fieldEnd = 32 := if_neg (by simp [hd])
  refine repeatOp_field h (by simp [hd]) (hn.trans hend.symm) (by omega) hq ?_
  let u : State := { s with inq := l }.shifted r
  have hu : u = { s with inq := l, hdr := r.foldl shiftIn s.hdr, bcnt := s.bcnt + r.length } := by
    simp [u, State.shifted, hd]
  rw [List.length_append] at hn
  rw [takeBit_header (s := u) hd, headerBit_last (s := u) hn, hu, List.foldl_append]
  rfl

/-- The bits of a CRC field are shifted in, and the CRC is checked (R163). -/
theorem repeatOp_crcField (h : AtSymbol s) (hd : s.demState = .crc) (hb : b ≠ []) (hn : s.bcnt + b.length = 32)
    (hq : s.inq = modulate s.cfg b ++ l)
    (hc : checkCrc { s with inq := l, rxCrc := b.foldl shiftIn s.rxCrc, bcnt := 32 } = .ok t) :
    repeatOp .demStep (b.length * s.cfg.k) s = .next t := by
  obtain ⟨r, bit, rfl⟩ := (List.eq_nil_or_concat' b).resolve_left hb
  have hend : s.fieldEnd = 32 := if_neg (by simp [hd])
  refine repeatOp_field h (by simp [hd]) (hn.trans hend.symm) (by omega) hq ?_
  let u : State := { s with inq := l }.shifted r
  have hu : u = { s with inq := l, rxCrc := r.foldl shiftIn s.rxCrc, bcnt := s.bcnt + r.length } := by
    simp [u, State.shifted, hd]
  rw [List.length_append] at hn
  rw [takeBit_crc (s := u) hd, crcFieldBit_last (s := u) hn, hu, ← hc, List.foldl_append]
  rfl

/-- The registers with `n` bytes of the body received, in the cells of `m`: the last one ends the body (R160, R162). -/
def State.withBody (s : State) (m : Memory Byte) (n : Nat) : State :=
  { s with
    rxCur := 0#8
    rxBody := m
    demState := if n = s.rxLen.toNat then .crc else .body
    bcnt := if n = s.rxLen.toNat then 0 else 8 * n }

theorem AtSymbol.withBody (h : AtSymbol s) (m : Memory Byte) (n : Nat) : AtSymbol (s.withBody m n) := { h with }

/-- The eighth bit of byte `j`. -/
theorem bodyBit_last {j : Nat} (hd : s.demState = .body) (hn : s.bcnt + 1 = 8 * (j + 1)) (hj : j < s.rxLen.toNat)
    (hmax : s.rxLen.toNat ≤ s.cfg.maxBody) (bit : Bool) :
    bodyBit bit s = .ok (s.withBody (s.rxBody.set j (shiftIn s.rxCur bit)) (j + 1)) := by
  have hlen := s.rxLen.isLt
  have hend : 8 * (j + 1) = 8 * s.rxLen.toNat ↔ j + 1 = s.rxLen.toNat := by omega
  rw [bodyBit_of_cell (by omega) fun _ => by omega]
  simp [State.withBodyBit, State.withBody, hn, hd, hend]

/-- The bits of body byte `j` are shifted in, and the byte is stored (R162). -/
theorem repeatOp_byte {j : Nat} (h : AtSymbol s) (hd : s.demState = .body) (hn : s.bcnt = 8 * j)
    (hj : j < s.rxLen.toNat) (hmax : s.rxLen.toNat ≤ s.cfg.maxBody) (x : Byte)
    (hq : s.inq = modulate s.cfg (bitsOfByte x) ++ l) :
    repeatOp .demStep (8 * s.cfg.k) s = .next ({ s with inq := l }.withBody (s.rxBody.set j x) (j + 1)) := by
  have hlen := s.rxLen.isLt
  have hend : s.fieldEnd = 8 * (j + 1) := by rw [State.fieldEnd, if_pos hd, hn, Nat.mul_div_cancel_left j (by decide)]
  obtain ⟨r, bit, hr⟩ := (List.eq_nil_or_concat' (bitsOfByte x)).resolve_left (List.cons_ne_nil _ _)
  have h8 : r.length + 1 = 8 := by rw [← length_bitsOfByte x, hr, List.length_append, List.length_singleton]
  let u : State := { s with inq := l }.shifted r
  have hu : u = { s with inq := l, rxCur := r.foldl shiftIn s.rxCur, bcnt := s.bcnt + r.length } := by
    simp [u, State.shifted, hd]
  have hcur : shiftIn (r.foldl shiftIn s.rxCur) bit = x := by
    rw [← foldl_bitsOfByte s.rxCur x, hr, List.foldl_append]
    rfl
  have hlast : takeBit bit u = .ok ({ s with inq := l }.withBody (s.rxBody.set j x) (j + 1)) := by
    rw [takeBit_body (s := u) hd, bodyBit_last (s := u) (j := j) hd (by simp only [hu]; omega) hj hmax, hu, hcur]
    rfl
  have hfield := repeatOp_field h (by simp [hd]) (b := r) (bit := bit) (by
    rw [hend, hn, List.length_append, List.length_singleton]
    omega) (by omega) (hr ▸ hq) hlast
  rwa [← hr, length_bitsOfByte] at hfield

/-! ### A frame -/

/-- The body's bytes are stored one behind the other (R162). -/
theorem repeatOp_body {done L : List Byte} {m : Memory Byte} (h : AtSymbol s)
    (hr : m.range 0 done.length = some done) (hlen : done.length + L.length = s.rxLen.toNat)
    (hmax : s.rxLen.toNat ≤ s.cfg.maxBody) (hq : s.inq = modulate s.cfg (L.flatMap bitsOfByte) ++ l) :
    ∃ m', repeatOp .demStep (8 * L.length * s.cfg.k) (s.withBody m done.length) =
        .next ({ s with inq := l }.withBody m' s.rxLen.toNat) ∧
      m'.range 0 s.rxLen.toNat = some (done ++ L) := by
  induction L generalizing s m done with
  | nil =>
    obtain rfl : s.inq = l := hq
    refine ⟨m, ?_, ?_⟩
    · rw [← hlen]
      simp [repeatOp]
    · rw [← hlen, List.append_nil]
      exact hr
  | cons v L ih =>
    rw [List.length_cons] at hlen
    let u : State := { s with inq := modulate s.cfg (L.flatMap bitsOfByte) ++ l }
    have hlt : done.length < s.rxLen.toNat := by omega
    have hq' : s.inq = modulate s.cfg (bitsOfByte v) ++ u.inq := by
      rw [hq, List.flatMap_cons, modulate_append, List.append_assoc]
    have hbyte : repeatOp .demStep (8 * s.cfg.k) (s.withBody m done.length) =
        .next (u.withBody (m.set done.length v) (done ++ [v]).length) := by
      rw [List.length_append]
      exact repeatOp_byte (s := s.withBody m done.length) (h.withBody m _) (if_neg hlt.ne) (if_neg hlt.ne) hlt hmax
        v hq'
    obtain ⟨m', hrest, hm'⟩ := ih (s := u) (done := done ++ [v]) (m := m.set done.length v) { h with }
      (by rw [List.length_append]; exact Memory.range_set_append hr)
      (by simp only [List.length_append, List.length_singleton, u]; omega) hmax rfl
    refine ⟨m', ?_, by simpa using hm'⟩
    rw [List.length_cons, show 8 * (L.length + 1) * s.cfg.k = 8 * s.cfg.k + 8 * L.length * s.cfg.k by ring,
      repeatOp_add hbyte]
    exact hrest

/-- The header of an admissible frame is latched as its `LENGTH` and `SEQUENCE`, and its body begins (R160). -/
theorem latchHeader_of_le (hl : s.hdr = f.len ++ f.seq) (hmax : f.len.toNat ≤ s.cfg.maxBody) :
    latchHeader s = { s with rxLen := f.len, rxSeq := f.seq, rxCrc := 0#32 }.withBody [] 0 := by
  have hlen : s.hdr.extractLsb' 16 16 = f.len := by rw [hl]; exact BitVec.extractLsb'_append_eq_left
  have hseq : s.hdr.extractLsb' 0 16 = f.seq := by rw [hl]; exact BitVec.extractLsb'_append_eq_right
  have hlatched : s.latched = { s with
      rxLen := f.len, rxSeq := f.seq, bcnt := 0, rxCur := 0#8, rxCrc := 0#32, rxBody := [] } := by
    rw [State.latched, hlen, hseq]
  have hzero : f.len = 0#16 ↔ 0 = f.len.toNat := by rw [← BitVec.toNat_inj, BitVec.toNat_zero, eq_comm]
  rcases latchHeader_cases s with ⟨hlong, -⟩ | ⟨-, hz, e⟩ | ⟨-, hz, e⟩ <;> rw [hlatched] at *
  · exact absurd hlong (Nat.not_lt.mpr hmax)
  · rw [e]
    simp [State.withBody, show f.len = 0#16 from hz]
  · rw [e]
    simp [State.withBody, ← hzero, show f.len ≠ 0#16 from hz]

/-- The last bit of a frame pushes it, when the CRC is good and `FQ` has room (R163, R167). -/
theorem checkCrc_emits {body : List Byte} (hr : s.rxBody.range 0 s.rxLen.toNat = some body)
    (hc : crc32 s.cfg s.rxLen s.rxSeq body = s.rxCrc) (hg : s.gateOpen .dem .fq)
    (hroom : s.fq.length < s.cfg.fqDepth) :
    checkCrc s =
      .ok (State.toSearch { s with fq := s.fq ++ [({ len := s.rxLen, seq := s.rxSeq, body } : Frame)] }) := by
  rw [checkCrc_of_eq hr hc, emitFrame_of_gateOpen hr hg, pushFq_of_lt hroom]

/-- The bits of a frame: header, body, CRC (R183). -/
theorem frameBits_eq (c : Config) (f : Frame) :
    frameBits c f = (be16 f.len ++ be16 f.seq).flatMap bitsOfByte ++ (f.body.flatMap bitsOfByte ++
      (be32 (crc32 c f.len f.seq f.body)).flatMap bitsOfByte) := by
  simp only [frameBits, frameBytes, packBytes, List.flatMap_append, List.append_assoc]

/-- All the samples of an admissible frame, from the synchronization: it is pushed, and the search begins anew. -/
theorem repeatOp_frame (h : AtSymbol s) (hd : s.demState = .header) (hb : s.bcnt = 0)
    (hok : Frame.ok s.cfg f = true) (hg : s.gateOpen .dem .fq) (hroom : s.fq.length < s.cfg.fqDepth)
    (hq : s.inq = modulate s.cfg (frameBits s.cfg f) ++ l) :
    repeatOp .demStep (s.cfg.k * (64 + 8 * f.len.toNat)) s = .next (State.toSearch { s with
      inq := l, fq := s.fq ++ [f], hdr := f.len ++ f.seq, rxLen := f.len, rxSeq := f.seq, rxCur := 0#8,
      rxCrc := crc32 s.cfg f.len f.seq f.body }) := by
  obtain ⟨hlen, hbody⟩ := frame_ok_iff.mp hok
  have hmax : f.len.toNat ≤ s.cfg.maxBody := hlen ▸ hbody
  let crcBits := (be32 (crc32 s.cfg f.len f.seq f.body)).flatMap bitsOfByte
  let w : State := { s with
    inq := modulate s.cfg (f.body.flatMap bitsOfByte) ++ (modulate s.cfg crcBits ++ l)
    hdr := f.len ++ f.seq, bcnt := 32 }
  let u : State := { w with rxLen := f.len, rxSeq := f.seq, rxCrc := 0#32 }
  have hheader : repeatOp .demStep (32 * s.cfg.k) s = .next (u.withBody [] 0) := by
    have hlatch := repeatOp_header (b := (be16 f.len ++ be16 f.seq).flatMap bitsOfByte) (l := w.inq) h hd
      (List.cons_ne_nil _ _) (by rw [hb, length_headerBits])
      (by rw [hq, frameBits_eq, modulate_append, modulate_append, List.append_assoc, List.append_assoc])
    rw [foldl_header, length_headerBits] at hlatch
    exact hlatch.trans (congrArg Host.Outcome.next (latchHeader_of_le (s := w) rfl hmax))
  obtain ⟨m, hbytes, hm⟩ := repeatOp_body (s := u) (done := []) (m := []) { h with } rfl
    (by simpa using hlen.symm) hmax rfl
  let v : State := { u with inq := modulate s.cfg crcBits ++ l }.withBody m f.len.toNat
  have hgood : crc32 v.cfg v.rxLen v.rxSeq f.body = crcBits.foldl shiftIn v.rxCrc := (foldl_be32 _ _).symm
  have hcrc := repeatOp_crcField (s := v) (l := l) (b := crcBits) { h with } (if_pos rfl) (List.cons_ne_nil _ _)
    (by rw [show v.bcnt = 0 from if_pos rfl]; rfl) rfl (checkCrc_emits (body := f.body) hm hgood hg hroom)
  rw [foldl_be32, length_be32Bits] at hcrc
  rw [show s.cfg.k * (64 + 8 * f.len.toNat) = 32 * s.cfg.k + (8 * f.body.length * s.cfg.k + 32 * s.cfg.k) by
    rw [hlen]; ring, repeatOp_add hheader]
  exact (repeatOp_add hbytes _).trans hcrc

/-! ### The preamble -/

theorem demAct_search (hd : s.demState = .search) (x : Sample) : demAct x s = demSearch x s := by
  simp only [demAct, hd]

/-- A sample into a full window: a window that matches synchronizes, any other has only slid (R156). -/
theorem execDemStep_of_full (hg : s.gateOpen .dem .inq) (hd : s.demState = .search) (hpk : 1 ≤ s.cfg.pk)
    (hf : s.wfill = s.cfg.pk) (hr : s.win.range 0 s.cfg.pk = some xs) (hq : s.inq = x :: l) :
    (preambleMatch s.cfg ((xs ++ [x]).drop 1) = true → execDemStep s = .next (synchronize { s with inq := l })) ∧
    (preambleMatch s.cfg ((xs ++ [x]).drop 1) = false → ∃ m, m.range 0 s.cfg.pk = some ((xs ++ [x]).drop 1) ∧
      execDemStep s = .next { s with inq := l, win := m }) := by
  obtain ⟨hlen, -⟩ := Memory.range_eq_some.mp hr
  let u : State := { s with inq := l }
  have hslid : u.slid xs x = (xs ++ [x]).drop 1 := if_neg (Nat.not_lt.mpr hf.ge)
  have hfull : (u.slid xs x).length = s.wfill := by rw [hslid]; simp [hlen, hf]
  obtain ⟨m, hm, h⟩ := demSearch_cases (s := u) hf.le hpk (hf ▸ hr) x
  rw [hfull, hslid] at h hm
  have hact := demAct_search (s := u) hd x
  rcases h with ⟨-, hyes, e⟩ | ⟨hno, e⟩
  · exact ⟨fun _ => execDemStep_of_ok hg hq (hact.trans e), fun hno => nomatch hyes.symm.trans hno⟩
  · refine ⟨fun hyes => ?_, fun _ => ⟨m, hf ▸ hm, execDemStep_of_ok hg hq (hact.trans e)⟩⟩
    rcases hno with hlt | hno
    · exact absurd hf hlt.ne
    · exact nomatch hyes.symm.trans hno

/-- While no window matches, samples only slide through a full one (R156). -/
theorem repeatOp_slide (hg : s.gateOpen .dem .inq) (hd : s.demState = .search) (hpk : 1 ≤ s.cfg.pk)
    (hf : s.wfill = s.cfg.pk) (hr : s.win.range 0 s.cfg.pk = some xs) (hq : s.inq = ys ++ l)
    (hno : ∀ j, 1 ≤ j → j ≤ ys.length → preambleMatch s.cfg ((xs ++ ys.take j).drop j) = false) :
    ∃ m, repeatOp .demStep ys.length s = .next { s with win := m, inq := l } ∧
      m.range 0 s.cfg.pk = some ((xs ++ ys).drop ys.length) := by
  induction ys generalizing s xs with
  | nil =>
    obtain rfl : s.inq = l := hq
    exact ⟨s.win, rfl, by simpa using hr⟩
  | cons y ys ih =>
    have happend (zs : List Sample) : (xs ++ [y]).drop 1 ++ zs = (xs ++ y :: zs).drop 1 := by
      rw [← List.drop_append_of_le_length (by simp), List.append_assoc, List.singleton_append]
    obtain ⟨m, hm, hstep⟩ := (execDemStep_of_full hg hd hpk hf hr hq).2 (hno 1 le_rfl (by simp))
    have hnext (j : Nat) (hj : 1 ≤ j) (hjl : j ≤ ys.length) :
        preambleMatch s.cfg (((xs ++ [y]).drop 1 ++ ys.take j).drop j) = false := by
      rw [happend, List.drop_drop, Nat.add_comm]
      exact hno (j + 1) (Nat.le_add_left 1 j) (Nat.succ_le_succ hjl)
    obtain ⟨m', hrest, hm'⟩ := ih (s := { s with inq := ys ++ l, win := m }) hg hd hpk hf hm rfl hnext
    refine ⟨m', (repeatOp_succ (i := .demStep) hstep _).trans hrest, hm'.trans ?_⟩
    rw [happend, List.drop_drop, Nat.add_comm, List.length_cons]

/-- The preamble behind a window of silence synchronizes at its last sample, and not before (R156, R296). -/
theorem repeatOp_preamble (hg : s.gateOpen .dem .inq) (hd : s.demState = .search) (hpk : 1 ≤ s.cfg.pk)
    (hlen : (modulate s.cfg s.cfg.pre).length = s.cfg.pk) (hf : s.wfill = s.cfg.pk)
    (hr : s.win.range 0 s.cfg.pk = some (List.replicate s.cfg.pk s.cfg.num.zero)) (hpre : preambleOk s.cfg)
    (hm : preambleMatch s.cfg (modulate s.cfg s.cfg.pre) = true) (hq : s.inq = modulate s.cfg s.cfg.pre ++ l) :
    repeatOp .demStep s.cfg.pk s = .next (synchronize { s with inq := l }) := by
  obtain ⟨ys, y, hys⟩ := (List.eq_nil_or_concat' (modulate s.cfg s.cfg.pre)).resolve_left
    (List.ne_nil_of_length_pos (by omega))
  have hn : s.cfg.pk = ys.length + 1 := by rw [← hlen, hys, List.length_append, List.length_singleton]
  have hno (j : Nat) (hj : 1 ≤ j) (hjl : j ≤ ys.length) :
      preambleMatch s.cfg ((List.replicate s.cfg.pk s.cfg.num.zero ++ ys.take j).drop j) = false := by
    have hearly := hpre.2 (s.cfg.pk - j) (by omega) (by omega)
    rw [show s.cfg.pk - (s.cfg.pk - j) = j by omega, hys, List.take_append_of_le_length hjl] at hearly
    rwa [List.drop_append_of_le_length (by simp; omega), List.drop_replicate]
  obtain ⟨m, hslide, hwin⟩ := repeatOp_slide (ys := ys) (l := y :: l) hg hd hpk hf hr
    (by rw [hq, hys, List.append_assoc, List.singleton_append]) hno
  have hlastZero : (List.replicate s.cfg.pk s.cfg.num.zero ++ ys).drop ys.length = s.cfg.num.zero :: ys := by
    rw [hn, List.drop_append_of_le_length (by simp), List.drop_replicate, Nat.add_sub_cancel_left]
    rfl
  rw [hlastZero] at hwin
  rw [hys] at hm
  have hsync := (execDemStep_of_full (s := { s with win := m, inq := y :: l }) hg hd hpk hf hwin rfl).1 hm
  rw [hn, repeatOp_add hslide, repeatOp_succ (i := .demStep) hsync]
  rfl

end Sys2Proof.Machine

open Sys2Proof Sys2Proof.Machine

/-- Settles O28: the frame from its synchronization is `repeatOp_frame`, and the preamble before it synchronizes. -/
theorem noiselessFrameIsReceived : Obligations.NoiselessFrameIsReceived := by
  intro s f rest hfmt hsized hclean hok hgi hgf hroom
  refine ⟨fun hd hscnt hbcnt hacc hq => ?header, fun hd hf hr hpre hm hq => ?search⟩
  case header =>
    exact ⟨_, repeatOp_frame ⟨hfmt, hsized.k, hclean, hgi, hscnt, hacc⟩ hd hbcnt hok hgf hroom hq,
      rfl, rfl, rfl, rfl, rfl⟩
  case search =>
    let u : State := { s with inq := modulate s.cfg (frameBits s.cfg f) ++ rest }
    have hlen : (modulate s.cfg s.cfg.pre).length = s.cfg.pk := by rw [length_modulate, hsized.pre, Config.pk]
    have hsync : repeatOp .demStep s.cfg.pk s = .next (synchronize u) :=
      repeatOp_preamble hgi hd (Nat.mul_pos hsized.p hsized.k) hlen hf hr hpre hm
        (by rw [hq, modulate_append, List.append_assoc])
    have hframe := repeatOp_frame (s := synchronize u) ⟨hfmt, hsized.k, hclean, hgi, rfl, rfl⟩ rfl rfl hok hgf hroom rfl
    have hcount : s.cfg.k * (s.cfg.p + 64 + 8 * f.len.toNat) = s.cfg.pk + s.cfg.k * (64 + 8 * f.len.toNat) := by
      rw [Config.pk]
      ring
    rw [hcount]
    exact ⟨_, (repeatOp_add hsync _).trans hframe, rfl, rfl, rfl, rfl, rfl⟩

end

section
/-! The CRC (R182, R185): its inner loop is linear and one to one, so that a table of 256 entries computes it and a byte
changed in place changes it. -/

namespace Sys2Proof.Machine

variable {x : BitVec 32} {n : Nat}

/-! ### The inner loop is linear -/

theorem crcBit_xor (x y : BitVec 32) : crcBit (x ^^^ y) = crcBit x ^^^ crcBit y := by
  have hcancel (a b p : BitVec 32) : a ^^^ b = (a ^^^ p) ^^^ (b ^^^ p) := by
    rw [BitVec.xor_comm b, BitVec.xor_assoc, ← BitVec.xor_assoc p, BitVec.xor_self, BitVec.zero_xor]
  simp only [crcBit, BitVec.getLsbD_xor, BitVec.ushiftRight_xor_distrib]
  cases x.getLsbD 0 <;> cases y.getLsbD 0
  case false.false => rfl
  case true.true => exact hcancel _ _ _
  case false.true => exact BitVec.xor_assoc _ _ _
  case true.false =>
    exact ((BitVec.xor_assoc _ _ _).trans (congrArg _ (BitVec.xor_comm _ _))).trans (BitVec.xor_assoc _ _ _).symm

theorem crcBits_xor (n : Nat) (x y : BitVec 32) : crcBits n (x ^^^ y) = crcBits n x ^^^ crcBits n y := by
  induction n generalizing x y with
  | zero => rfl
  | succ n ih => rw [crcBits, crcBit_xor, ih, crcBits, crcBits]

/-- While the low bit is 0 the inner loop only shifts. -/
theorem crcBits_eq_ushiftRight (h : ∀ i, i < n → x.getLsbD i = false) : crcBits n x = x >>> n := by
  induction n generalizing x with
  | zero => simp [crcBits]
  | succ n ih =>
    have hbit : crcBit x = x >>> 1 := if_neg (Bool.eq_false_iff.mp (h 0 (Nat.succ_pos n)))
    rw [crcBits, hbit, ih fun i hi => by simpa using h (1 + i) (by omega), ← BitVec.shiftRight_add, Nat.add_comm]

/-! ### The table -/

/-- The low byte of the register decides the byte's 8 bits; the others are only shifted (R185). -/
theorem crcByte_eq_table (c : BitVec 32) (b : Byte) :
    crcByte c b = crcTable (c.extractLsb' 0 8 ^^^ b) ^^^ (c >>> 8) := by
  have hsplit : c ^^^ b.zeroExtend 32 = (c.extractLsb' 0 8 ^^^ b).zeroExtend 32 ^^^ (c >>> 8 <<< 8) := by
    ext i hi
    by_cases h8 : i < 8
    · simp [h8, BitVec.getLsbD_eq_getElem hi]
    · have hi' : 8 + (i - 8) = i := by omega
      simp [h8, hi', BitVec.getLsbD_eq_getElem hi, BitVec.getLsbD_of_ge b i (Nat.le_of_not_lt h8)]
  have hhigh : crcBits 8 (c >>> 8 <<< 8) = c >>> 8 := by
    rw [crcBits_eq_ushiftRight fun i hi => by simp [hi]]
    ext i hi
    have htop : 24 ≤ i → c.getLsbD (8 + i) = false := fun h => BitVec.getLsbD_of_ge c _ (by omega)
    by_cases h24 : i < 24
    · simp [show 8 + i < 32 by omega]
    · simp [htop (Nat.le_of_not_lt h24)]
  rw [crcByte, hsplit, crcBits_xor, hhigh, crcTable]

/-! ### The inner loop is one to one -/

/-- The top bit after a step is the bit that was shifted out, since the polynomial's top bit is 1. -/
theorem msb_crcBit (x : BitVec 32) : (crcBit x).msb = x.getLsbD 0 := by
  rw [crcBit]
  cases x.getLsbD 0
  · simp
  · exact (BitVec.msb_xor).trans (by simp; decide)

theorem crcBit_injective : Function.Injective crcBit := by
  intro x y h
  have hlow : x.getLsbD 0 = y.getLsbD 0 := by rw [← msb_crcBit, ← msb_crcBit, h]
  have hhigh : x >>> 1 = y >>> 1 := by
    rw [crcBit, crcBit, hlow] at h
    split at h
    · exact (BitVec.xor_left_inj _).mp h
    · exact h
  refine BitVec.eq_of_getLsbD_eq fun i _ => ?_
  cases i with
  | zero => exact hlow
  | succ i => simpa [Nat.add_comm] using congrArg (BitVec.getLsbD · i) hhigh

theorem crcBits_injective (n : Nat) : Function.Injective (crcBits n) := by
  induction n with
  | zero => exact Function.injective_id
  | succ n ih => exact ih.comp crcBit_injective

theorem crcByte_injective (b : Byte) : Function.Injective (crcByte · b) :=
  fun _ _ h => (BitVec.xor_left_inj _).mp (crcBits_injective 8 h)

theorem foldl_crcByte_injective (L : List Byte) : Function.Injective (L.foldl crcByte) := by
  induction L with
  | nil => exact Function.injective_id
  | cons b L ih => exact ih.comp (crcByte_injective b)

/-- Two byte strings that differ in one byte have different CRCs. -/
theorem crcOf_inj_byte {L L' : List Byte} {b b' : Byte} (h : crcOf (L ++ b :: L') = crcOf (L ++ b' :: L')) :
    b = b' := by
  have hfold := (BitVec.xor_left_inj _).mp h
  rw [List.foldl_append, List.foldl_append] at hfold
  have hbyte := crcBits_injective 8 (foldl_crcByte_injective L' hfold)
  have hwide : b.zeroExtend 32 = b'.zeroExtend 32 := (BitVec.xor_right_inj _).mp hbyte
  refine BitVec.eq_of_getLsbD_eq fun i hi => ?_
  simpa [hi, show i < 32 by omega] using congrArg (BitVec.getLsbD · i) hwide

end Sys2Proof.Machine

open Sys2Proof Sys2Proof.Machine

/-- Settles O30: byte by byte, the table's entry is the inner loop on the low byte. -/
theorem crcAgreesWithItsTableDrivenForm : Obligations.CrcAgreesWithItsTableDrivenForm := by
  have hstep : crcByte = fun (c : BitVec 32) (b : Byte) => crcTable (c.extractLsb' 0 8 ^^^ b) ^^^ (c >>> 8) :=
    funext fun c => funext (crcByte_eq_table c)
  refine ⟨fun bytes => ?_, by decide, by decide, by decide⟩
  rw [crcOf, crcByTable, hstep]

end

section
/-! The frame codec (R181 to R186; logs 8, 19, 24): the bytes and bits of a frame, and decoding bit by bit and byte by
byte, with or without an error in the bits. -/

namespace Sys2Proof.Machine

variable {s : State} {c : Config} {f : Frame} {b : List Bool} {L body : List Byte} {len seq : BitVec 16} {n i j k : Nat}

/-! ### Packing and encoding -/

theorem execFcPack_of_len (h : len.toNat = body.length) (seq : BitVec 16) :
    execFcPack len seq body s = .next (s.answer (.bytes (packBytes len seq body))) := if_pos h

theorem execFcPack_of_len_ne (h : len.toNat ≠ body.length) (seq : BitVec 16) :
    execFcPack len seq body s = .refused .bodyLength := if_neg h

theorem execFcCrc32_of_len (h : len.toNat = body.length) (seq : BitVec 16) :
    execFcCrc32 len seq body s = .next (s.answer (.word (crc32 s.cfg len seq body))) := if_pos h

theorem execFcCrc32_of_len_ne (h : len.toNat ≠ body.length) (seq : BitVec 16) :
    execFcCrc32 len seq body s = .refused .bodyLength := if_neg h

theorem execFcEncode_of_ok (h : Frame.ok s.cfg f = true) :
    execFcEncode f s = .next (s.answer (.bits (frameBits s.cfg f))) := if_pos h

theorem execFcEncode_of_not_ok (h : Frame.ok s.cfg f = false) : execFcEncode f s = .refused .badFrame :=
  if_neg (Bool.eq_false_iff.mp h)

theorem crc_of_isoHdlc (h : c.crcFn = .isoHdlc) (L : List Byte) : c.crc L = crcOf L := by
  rw [Config.crc, h]

/-! ### Decoding, by the number of bits -/

theorem length_bytesOfBits (n : Nat) (b : List Bool) : (bytesOfBits n b).length = n := by
  induction n generalizing b with
  | zero => rfl
  | succ n ih => rw [bytesOfBits, List.length_cons, ih]

theorem bytesOfBits_getElem? (b : List Bool) (hj : j < n) :
    (bytesOfBits n b)[j]? = some (fieldOf 8 ((b.drop (8 * j)).take 8)) := by
  induction n generalizing b j with
  | zero => exact absurd hj (Nat.not_lt_zero j)
  | succ n ih =>
    cases j with
    | zero => rfl
    | succ j =>
      rw [bytesOfBits, List.getElem?_cons_succ, ih _ (Nat.lt_of_succ_lt_succ hj), List.drop_drop, Nat.mul_succ,
        Nat.add_comm]

theorem execFcDecode_of_ok {r : DecodeResult} (h : decodeBits s.cfg b = .ok r) :
    execFcDecode b s = .next (s.answer (.decoded r)) := by
  rw [execFcDecode, h, Act.andThen_ok, settle_ok]

theorem execFcDecode_of_tooFew (h : decodeBits s.cfg b = .error (.refuse .tooFewBits)) :
    execFcDecode b s = .refused .tooFewBits := by
  rw [execFcDecode, h, Act.andThen_error, settle_refuse]

theorem decodeBits_of_lt (h : b.length < 32) : decodeBits c b = .error (.refuse .tooFewBits) := if_pos h

theorem decodeBits_of_long (h : 32 ≤ b.length) (hl : c.maxBody < (fieldOf 16 (b.take 16)).toNat) :
    decodeBits c b = .ok .malformed := (if_neg (Nat.not_lt.mpr h)).trans (if_pos hl)

theorem decodeBits_of_cut (h : 32 ≤ b.length) (hl : (fieldOf 16 (b.take 16)).toNat ≤ c.maxBody)
    (hb : b.length < 64 + 8 * (fieldOf 16 (b.take 16)).toNat) :
    decodeBits c b = .error (.refuse .tooFewBits) :=
  (if_neg (Nat.not_lt.mpr h)).trans ((if_neg (Nat.not_lt.mpr hl)).trans (if_pos hb))

/-- The frame that enough bits decode to, and the verdict on its CRC field (R184). -/
theorem decodeBits_of_le (hlen : fieldOf 16 (b.take 16) = len) (hl : len.toNat ≤ c.maxBody)
    (hb : 64 + 8 * len.toNat ≤ b.length) :
    decodeBits c b = .ok (.frame
      { len, seq := fieldOf 16 ((b.drop 16).take 16), body := bytesOfBits len.toNat (b.drop 32) }
      (fieldOf 32 ((b.drop (32 + 8 * len.toNat)).take 32) ==
        crc32 c len (fieldOf 16 ((b.drop 16).take 16)) (bytesOfBits len.toNat (b.drop 32)))
      (64 + 8 * len.toNat)) := by
  subst hlen
  exact (if_neg (by omega)).trans ((if_neg (Nat.not_lt.mpr hl)).trans (if_neg (Nat.not_lt.mpr hb)))

/-! ### Decoding bytes -/

theorem bytesOfBits_flatMap (L : List Byte) (b : List Bool) : bytesOfBits L.length (L.flatMap bitsOfByte ++ b) = L := by
  induction L with
  | nil => rfl
  | cons x L ih =>
    rw [List.length_cons, bytesOfBits, List.flatMap_cons, List.append_assoc, List.take_left' (length_bitsOfByte x),
      List.drop_left' (length_bitsOfByte x), fieldOf_bitsOfByte, ih]

/-- The bits of `LENGTH`, `SEQUENCE`, `BODY` and any CRC field decode to those four (R184). -/
theorem decodeBits_of_bytes (hlen : len.toNat = body.length) (hmax : body.length ≤ c.maxBody) (seq : BitVec 16)
    (crc : BitVec 32) (rest : List Bool) :
    decodeBits c ((packBytes len seq body ++ be32 crc).flatMap bitsOfByte ++ rest) =
      .ok (.frame { len, seq, body } (crc == crc32 c len seq body) (64 + 8 * len.toNat)) := by
  have hR := length_be32Bits crc
  have hB := length_flatMap_bitsOfByte body
  have hS : ((be16 seq).flatMap bitsOfByte).length = 16 := rfl
  have hL : ((be16 len).flatMap bitsOfByte).length = 16 := rfl
  have hsplit : (packBytes len seq body ++ be32 crc).flatMap bitsOfByte ++ rest =
      (be16 len).flatMap bitsOfByte ++ ((be16 seq).flatMap bitsOfByte ++
        (body.flatMap bitsOfByte ++ ((be32 crc).flatMap bitsOfByte ++ rest))) := by
    simp only [packBytes, List.flatMap_append, List.append_assoc]
  rw [hsplit, decodeBits_of_le ((congrArg _ (List.take_left' hL)).trans (fieldOf_be16 len)) (hlen ▸ hmax)
    (by simp only [List.length_append, hL, hS, hB, hR]; omega)]
  have h16 := List.drop_left' (l₂ := (be16 seq).flatMap bitsOfByte ++
    (body.flatMap bitsOfByte ++ ((be32 crc).flatMap bitsOfByte ++ rest))) hL
  have h32 : List.drop 32 _ = _ := (List.drop_drop (i := 16) (j := 16)).symm.trans
    ((congrArg (List.drop 16) h16).trans (List.drop_left' hS))
  rw [← List.drop_drop (i := 8 * len.toNat) (j := 32), h16, h32, hlen, List.take_left' hS, fieldOf_be16,
    bytesOfBits_flatMap, List.drop_left' hB, List.take_left' hR, fieldOf_be32]

/-! ### One bit in error -/

/-- A byte with the bit inverted that is transmitted at place `k` (R64). -/
def flipBit (k : Nat) (x : Byte) : Byte := x ^^^ BitVec.twoPow 8 (7 - k)

theorem flipBit_ne_self (k : Nat) (x : Byte) : flipBit k x ≠ x := by
  intro h
  have hbit := congrArg (BitVec.getLsbD · (7 - k)) h
  simp [flipBit, show 7 - k < 8 by omega] at hbit

theorem modify_bitsOfByte (hk : k < 8) (x : Byte) (b : List Bool) :
    (bitsOfByte x ++ b).modify k (!·) = bitsOfByte (flipBit k x) ++ b := by
  interval_cases k <;> simp [bitsOfByte, flipBit, List.modify_succ_cons]

/-- A bit in error is one byte in error. -/
theorem flipAt_flatMap (L : List Byte) (i : Nat) :
    flipAt (L.flatMap bitsOfByte) i = (L.modify (i / 8) (flipBit (i % 8))).flatMap bitsOfByte := by
  induction L generalizing i with
  | nil => simp [flipAt]
  | cons x L ih =>
    by_cases hi : i < 8
    · rw [Nat.div_eq_of_lt hi, Nat.mod_eq_of_lt hi]
      exact modify_bitsOfByte hi x _
    · obtain ⟨i, rfl⟩ := Nat.exists_eq_add_of_le' (Nat.le_of_not_lt hi)
      rw [Nat.add_div_right i (by decide), Nat.add_mod_right, List.modify_succ_cons, List.flatMap_cons,
        List.flatMap_cons, ← ih]
      rfl

theorem be32_injective : Function.Injective be32 := fun x y h => by
  rw [← fieldOf_be32 x, h, fieldOf_be32]

/-- A byte string with its CRC behind it is not another such with one byte changed. -/
theorem codeword_ne_modify {φ : Byte → Byte} (hφ : ∀ x, φ x ≠ x) {P P' : List Byte} (hlen : P'.length = P.length)
    (hj : j < (P ++ be32 (crcOf P)).length) :
    (P ++ be32 (crcOf P)).modify j φ ≠ P' ++ be32 (crcOf P') := by
  intro h
  have htake := congrArg (List.take P.length) h
  have hdrop := congrArg (List.drop P.length) h
  rw [List.take_modify, List.take_left' rfl, List.take_left' hlen] at htake
  rw [List.drop_left' hlen] at hdrop
  by_cases hP : j < P.length
  · rw [List.drop_modify_of_lt φ j P.length _ hP, List.drop_left' rfl] at hdrop
    obtain ⟨M, x, M', hM, -, hmod⟩ := List.exists_of_modify φ hP
    have hcrc := be32_injective hdrop
    rw [← htake, hmod, hM] at hcrc
    exact hφ x (crcOf_inj_byte hcrc).symm
  · rw [List.modify_eq_self (Nat.le_of_not_lt hP)] at htake
    rw [List.drop_modify_of_ge φ j P.length _ (Nat.le_of_not_lt hP), List.drop_left' rfl, ← htake] at hdrop
    have hR : j - P.length < (be32 (crcOf P)).length := by rw [List.length_append] at hj; omega
    obtain ⟨M, x, M', hM, -, hmod⟩ := List.exists_of_modify φ hR
    have hsame : M ++ φ x :: M' = M ++ x :: M' := hmod.symm.trans (hdrop.trans hM)
    exact hφ x (List.cons.inj (List.append_cancel_left hsame)).1

theorem be16_append (a b : Byte) : be16 (a ++ b) = [a, b] := by
  rw [be16, BitVec.extractLsb'_append_eq_left, BitVec.extractLsb'_append_eq_right]

theorem be32_append (p q r t : Byte) : be32 (p ++ q ++ r ++ t) = [p, q, r, t] := by
  have hp : (p ++ q ++ r ++ t).extractLsb' 24 8 = p := by
    rw [BitVec.extractLsb'_append_eq_of_le (by decide), BitVec.extractLsb'_append_eq_of_le (by decide)]
    exact BitVec.extractLsb'_append_eq_left
  have hq : (p ++ q ++ r ++ t).extractLsb' 16 8 = q := by
    rw [BitVec.extractLsb'_append_eq_of_le (by decide), BitVec.extractLsb'_append_eq_of_le (by decide)]
    exact BitVec.extractLsb'_append_eq_right
  have hr : (p ++ q ++ r ++ t).extractLsb' 8 8 = r := by
    rw [BitVec.extractLsb'_append_eq_of_le (by decide)]
    exact BitVec.extractLsb'_append_eq_right
  have ht : (p ++ q ++ r ++ t).extractLsb' 0 8 = t := BitVec.extractLsb'_append_eq_right
  exact congr (congrArg _ hp) (congr (congrArg _ hq) (congr (congrArg _ hr) (congrArg ([·]) ht)))

/-- Any bytes of the right number are the `SEQUENCE`, the `BODY` and the CRC field of a frame (R90). -/
theorem exists_fields (hL : L.length = 6 + n) :
    ∃ (seq : BitVec 16) (body : List Byte) (crc : BitVec 32), body.length = n ∧ L = be16 seq ++ (body ++ be32 crc) := by
  have hseq : (L.take 2).length = 2 := by rw [List.length_take]; omega
  have hcrc : ((L.drop 2).drop n).length = 4 := by rw [List.length_drop, List.length_drop]; omega
  obtain ⟨a, b, hab⟩ := List.length_eq_two.mp hseq
  obtain ⟨p, q, r, t, hpqrt⟩ := List.length_eq_four.mp hcrc
  refine ⟨a ++ b, (L.drop 2).take n, p ++ q ++ r ++ t, by rw [List.length_take, List.length_drop]; omega, ?_⟩
  rw [be16_append, be32_append, ← hpqrt, List.take_append_drop, ← hab, List.take_append_drop]

/-- With a byte in error behind `LENGTH`, a frame's bytes are those of another frame of that length, whose CRC is not
the CRC field received (R186 c). -/
theorem frameBytes_modify {φ : Byte → Byte} (hφ : ∀ x, φ x ≠ x) (hc : c.crcFn = .isoHdlc)
    (hj : j + 2 < (frameBytes c f).length) :
    ∃ (seq : BitVec 16) (body : List Byte) (crc : BitVec 32), body.length = f.body.length ∧
      crc ≠ crc32 c f.len seq body ∧ (frameBytes c f).modify (j + 2) φ = packBytes f.len seq body ++ be32 crc := by
  let crc := crc32 c f.len f.seq f.body
  have hsplit : frameBytes c f = be16 f.len ++ (be16 f.seq ++ (f.body ++ be32 crc)) := by
    simp only [frameBytes, packBytes, List.append_assoc, crc]
  obtain ⟨seq, body, crc', hbody, hL⟩ :=
    exists_fields (L := (be16 f.seq ++ (f.body ++ be32 crc)).modify j φ) (n := f.body.length) (by
      rw [List.length_modify]
      simp only [be16, be32, List.length_append, List.length_cons, List.length_nil]
      omega)
  have hmod : (frameBytes c f).modify (j + 2) φ = packBytes f.len seq body ++ be32 crc' := by
    rw [hsplit, packBytes, List.append_assoc, List.append_assoc, ← hL]
    exact (List.modify_succ_cons ..).trans (congrArg _ (List.modify_succ_cons ..))
  refine ⟨seq, body, crc', hbody, fun hgood => ?_, hmod⟩
  have hcrc (seq : BitVec 16) (body : List Byte) : crc32 c f.len seq body = crcOf (packBytes f.len seq body) :=
    crc_of_isoHdlc hc _
  have hlen : (packBytes f.len seq body).length = (packBytes f.len f.seq f.body).length := by
    simp [packBytes, be16, hbody]
  rw [hgood, hcrc] at hmod
  rw [frameBytes, hcrc] at hmod hj
  exact codeword_ne_modify hφ hlen hj hmod

end Sys2Proof.Machine

open Sys2Proof Sys2Proof.Machine

/-- Settles O29: both operations test the length, and the CRC function is the configuration's. -/
theorem packAndCrcAnswerTheirValues : Obligations.PackAndCrcAnswerTheirValues := by
  intro s len seq body
  refine ⟨fun h => ⟨?pack, _, execFcCrc32_of_len h seq, rfl, fun hc => crc_of_isoHdlc hc _⟩,
    fun h => ⟨execFcPack_of_len_ne h seq, execFcCrc32_of_len_ne h seq⟩⟩
  case pack => rw [exec_fcPack, execFcPack_of_len h, packBytes, be16_eq_ofNat, be16_eq_ofNat]; rfl

/-- Settles O31: byte `n` of the encoding stands at its eight places. -/
theorem encodeLaysBitsOutInOrder : Obligations.EncodeLaysBitsOutInOrder := by
  intro s f
  refine ⟨fun hok => ⟨_, execFcEncode_of_ok hok, ?_, fun n k v hk hv => flatMap_bitsOfByte_getElem? hv hk⟩,
    execFcEncode_of_not_ok⟩
  rw [length_frameBits, (frame_ok_iff.mp hok).1]

/-- Settles O32: the value of a field as a sum, then the cases of the bits' number. -/
theorem decodeReadsPositionalFields : Obligations.DecodeReadsPositionalFields := by
  refine ⟨fun w b hb => ?value, fun s b => ⟨fun h => ?tooFew, fun h hl => ?malformed, fun h hl hb => ?cut,
    fun hl hb => ?frame⟩⟩
  case value =>
    rw [toNat_fieldOf hb, bitsValue_eq_sum, hb]
  case tooFew => exact execFcDecode_of_tooFew (decodeBits_of_lt h)
  case malformed => exact execFcDecode_of_ok (decodeBits_of_long h hl)
  case cut => exact execFcDecode_of_tooFew (decodeBits_of_cut h hl hb)
  case frame =>
    refine ⟨_, length_bytesOfBits _ (b.drop 32), fun j hj => ?_, execFcDecode_of_ok (decodeBits_of_le rfl hl hb)⟩
    rw [bytesOfBits_getElem? _ hj, List.drop_drop]

/-- Settles O33: the encoding's bytes decode to their fields, and the CRC field is the computed one. -/
theorem decodeInvertsEncodeOfFrames : Obligations.DecodeInvertsEncodeOfFrames := by
  intro s f rest hok
  obtain ⟨hlen, hmax⟩ := frame_ok_iff.mp hok
  refine execFcDecode_of_ok ((decodeBits_of_bytes hlen hmax f.seq _ rest).trans ?_)
  rw [beq_self_eq_true]

/-- Settles O34: a bit in error is one byte in error, which changes either the packed bytes' CRC or the CRC field. -/
theorem singleBitErrorIsDetected : Obligations.SingleBitErrorIsDetected := by
  intro s f i hc hok h16 hi
  obtain ⟨hlen, hmax⟩ := frame_ok_iff.mp hok
  obtain ⟨j, hj⟩ := Nat.exists_eq_add_of_le' (show 2 ≤ i / 8 by omega)
  obtain ⟨seq, body, crc, hbody, hbad, hbytes⟩ := frameBytes_modify (f := f) (flipBit_ne_self (i % 8)) hc
    (j := j) (by rw [length_frameBytes]; omega)
  have hflip : flipAt (frameBits s.cfg f) i = (packBytes f.len seq body ++ be32 crc).flatMap bitsOfByte ++ [] := by
    rw [frameBits, flipAt_flatMap, hj, hbytes, List.append_nil]
  have hdec := decodeBits_of_bytes (c := s.cfg) (hlen.trans hbody.symm) (hbody ▸ hmax) seq crc []
  rw [beq_eq_false_iff_ne.mpr hbad, ← hflip] at hdec
  exact ⟨_, execFcDecode_of_ok hdec⟩

end

section
/-! The channel sensor (R196): when the window is not busy, and `CS.EVAL` as one register write. -/

namespace Sys2Proof.Machine

/-- The window is not busy when every sample, on its own, fails the strict comparison (R196). -/
theorem windowBusy_eq_false_iff {s : State} :
    windowBusy s = false ↔ ∀ x ∈ s.sh, s.cfg.num.gt (s.cfg.num.abs x) s.cfg.noiseTh = false := by
  simp only [windowBusy, List.any_eq_false, Bool.not_eq_true]

theorem execCsEval_eq_next (s : State) : execCsEval s = .next { s with quiet := !windowBusy s } := rfl

end Sys2Proof.Machine

open Sys2Proof Sys2Proof.Machine

/-- Settles O35: the value written is the negation of `windowBusy`, whatever `QUIET` was before. -/
theorem quietIsAThresholdOnEverySample : Obligations.QuietIsAThresholdOnEverySample := by
  intro s
  refine ⟨!windowBusy s, ?writesQuietAlone, ?threshold⟩
  case writesQuietAlone => rw [exec_csEval, execCsEval_eq_next]
  case threshold => rw [Bool.not_eq_true', windowBusy_eq_false_iff]

end

section
/-! Segmentation and reassembly (R207, R233, R237): a stored payload cut into data frames of `MAX_BODY` bytes, and a
receiver that has the bodies under the magnitudes 1, 2, ... and gets the sentinel. -/

namespace Sys2Proof

variable {α : Type} {l : List α} {m : Memory α}

/-- Consecutive groups of `k` elements, in order, are the beginning of the list. -/
theorem flatten_groups (l : List α) (k n : Nat) :
    ((List.range n).map fun i => (l.drop (i * k)).take k).flatten = l.take (n * k) := by
  induction n with
  | zero => simp
  | succ n ih =>
    rw [List.range_succ, List.map_append, List.flatten_append, ih, Nat.succ_mul, List.take_add]
    simp

/-- A stretch of a stored list is read back. -/
theorem Memory.range_ofList_of_le {lo n : Nat} (h : lo + n ≤ l.length) :
    (Memory.ofList l).range lo n = some ((l.drop lo).take n) := by
  refine Memory.range_eq_some.mpr ⟨?_, fun i hi => ?_⟩
  · rw [List.length_take, List.length_drop]
    omega
  · rw [Memory.get_ofList, List.getElem?_take_of_lt hi, List.getElem?_drop]

theorem Memory.get_ofListFrom_of_lt (l : List α) {n i : Nat} (h : i < n) : (Memory.ofListFrom n l).get i = none :=
  Memory.get_eq_none_of_lt _ _ fun _ hp => h.trans_le (Memory.le_of_mem_ofListFrom hp)

theorem Memory.elems_ofListFrom (n : Nat) (l : List α) : (Memory.ofListFrom n l).elems = l := by
  induction l generalizing n with
  | nil => rfl
  | cons a l ih => exact congrArg (a :: ·) (ih (n + 1))

/-- A space of the one form that holds a list's elements at 1, 2, ... and nothing else is that list from 1 on. -/
theorem Memory.eq_ofListFrom_one (hm : m.wf) (h0 : m.get 0 = none) (h : ∀ i, m.get (i + 1) = l[i]?) :
    m = Memory.ofListFrom 1 l := by
  refine Memory.ext_get hm (Memory.wf_ofListFrom 1 l) fun i => ?_
  cases i with
  | zero => rw [h0, Memory.get_ofListFrom_of_lt l Nat.zero_lt_one]
  | succ i => rw [h i, Nat.add_comm i 1, Memory.get_ofListFrom]

end Sys2Proof

namespace Sys2Proof.Machine

variable {s : State} {c : Config} {payload : List Byte} {i n : Nat}

/-! ### The data frames of a payload -/

/-- The `i`-th group of `MAX_BODY` bytes of a payload, from 0: the body of data frame `i + 1` (R207). -/
def segmentBody (c : Config) (payload : List Byte) (i : Nat) : List Byte :=
  (payload.drop (i * c.maxBody)).take c.maxBody

/-- Data frame `i + 1` of a payload (R207). -/
def segment (c : Config) (payload : List Byte) (i : Nat) : Frame where
  len := BitVec.ofNat 16 (segmentBody c payload i).length
  seq := seqOf c.node (i + 1)
  body := segmentBody c payload i

theorem length_segmentBody (c : Config) (payload : List Byte) (i : Nat) :
    (segmentBody c payload i).length = min c.maxBody (payload.length - i * c.maxBody) := by
  rw [segmentBody, List.length_take, List.length_drop]

/-- A group begins before the end of the payload exactly when it is one of its `N` (R207). -/
theorem lt_segments_iff (h : 0 < c.maxBody) : i < segments c n ↔ i * c.maxBody < n := by
  rw [segments, ← Nat.succ_le_iff, Nat.le_div_iff_mul_le h, Nat.succ_mul]
  omega

/-- The groups reach the end of the payload. -/
theorem le_segments_mul (h : 0 < c.maxBody) (n : Nat) : n ≤ segments c n * c.maxBody :=
  Nat.not_lt.mp fun hn => Nat.lt_irrefl _ ((lt_segments_iff h).mpr hn)

/-- A group ends within the payload when another group follows it. -/
theorem segmentBody_full (h : 0 < c.maxBody) (hi : i + 1 < segments c payload.length) :
    (segmentBody c payload i).length = c.maxBody := by
  have hend := (lt_segments_iff h).mp hi
  rw [Nat.succ_mul] at hend
  rw [length_segmentBody]
  omega

theorem segmentBody_nonempty (h : 0 < c.maxBody) (hi : i < segments c payload.length) :
    1 ≤ (segmentBody c payload i).length := by
  have hbegin := (lt_segments_iff h).mp hi
  rw [length_segmentBody]
  omega

/-- The groups in order are the payload. -/
theorem flatten_segmentBody (h : 0 < c.maxBody) (payload : List Byte) :
    ((List.range (segments c payload.length)).map (segmentBody c payload)).flatten = payload :=
  (flatten_groups payload c.maxBody _).trans (List.take_of_length_le (le_segments_mul h payload.length))

/-- What the sender rebuilds from the stored payload (R207). -/
theorem dataFrame_eq_segment (hp : s.txPayload = Memory.ofList payload) (hl : s.txLen = payload.length)
    (hi : i * s.cfg.maxBody ≤ payload.length) : dataFrame s (i + 1) = some (segment s.cfg payload i) := by
  have hbytes : segHi s.cfg s.txLen (i + 1) - segLo s.cfg (i + 1) = (segmentBody s.cfg payload i).length := by
    rw [length_segmentBody, segHi, segLo, hl, Nat.succ_mul, Nat.add_sub_cancel]
    omega
  have hbody : s.txPayload.range (segLo s.cfg (i + 1)) (segmentBody s.cfg payload i).length =
      some (segmentBody s.cfg payload i) := by
    have hlen := length_segmentBody s.cfg payload i
    rw [hp, segLo, Nat.add_sub_cancel, Memory.range_ofList_of_le (by omega), hlen, ← List.length_drop,
      ← List.take_eq_take_min, segmentBody]
  simp only [dataFrame, hbytes, hbody, Option.map_some, segment]

theorem segment_ok (h : c.maxBody ≤ 65535) (payload : List Byte) (i : Nat) :
    Frame.ok c (segment c payload i) = true := by
  have hle : (segmentBody c payload i).length ≤ c.maxBody := length_segmentBody c payload i ▸ Nat.min_le_left _ _
  exact frame_ok_iff.mpr ⟨toNat_ofNat_length (hle.trans_lt (Nat.lt_succ_of_le h)), hle⟩

/-- The sign of a sequence number is the node's (R92), in the range in which its magnitude is its own. -/
theorem toInt_seqOf {m : Nat} (node : Node) (h : m ≤ 32767) :
    (seqOf node m).toInt = if node = .a then (m : Int) else -(m : Int) := by
  cases node <;> simp only [seqOf, sgnNode, BitVec.toInt_ofInt, reduceCtorEq, if_true, if_false] <;>
    rw [Int.bmod_eq_of_le] <;> omega

/-! ### The end of a receive -/

/-- The two bytes of a count below 2^16 (R96, R233). -/
theorem count_of_bytes (h : n < 65536) : (BitVec.ofNat 8 (n / 256)).toNat * 256 + (BitVec.ofNat 8 n).toNat = n := by
  simp only [BitVec.toNat_ofNat]
  omega

/-- A sentinel whose count `RB` has reached ends the receive in the step that records it (R233, R237). -/
theorem execRxSent_of_complete {hi lo : Byte} (hl : s.holdsAny .arq = false) (hp : s.arqPhase = .rxPop)
    (hm : s.modPhase = .idle) (hn : hi.toNat * 256 + lo.toNat = n) (hrb : s.rb.length = n) :
    execRxSent { len := 2#16, seq := 0#16, body := [hi, lo] } s =
      .next (assemble { s with nExp := n, countKnown := true }) := by
  subst hn
  refine settle_arqStep_of_ok hl ((if_pos ⟨hp, hm⟩).trans ((if_pos ⟨rfl, rfl⟩).trans ?_))
  exact takeSentinel_eq_ok.mpr ⟨hi, lo, [], rfl, (if_pos hrb).symm⟩

end Sys2Proof.Machine

open Sys2Proof Sys2Proof.Machine

/-- Settles O43: the frames are the groups of `MAX_BODY` bytes, one after the other. -/
theorem segmentsPartitionThePayload : Obligations.SegmentsPartitionThePayload := by
  intro s payload hc hp hl n hn
  have hpos : 0 < s.cfg.maxBody := Nat.zero_lt_of_lt hc.maxBody.1
  refine ⟨(List.range n).map (segment s.cfg payload), by simp, ?bodies, ?frames⟩
  case bodies => exact (congrArg List.flatten (List.map_map ..)).trans (flatten_segmentBody hpos payload)
  case frames =>
    intro m f hm hf
    obtain ⟨i, rfl⟩ := Nat.exists_eq_add_of_le' hm
    rw [Nat.add_sub_cancel, List.getElem?_map] at hf
    obtain ⟨j, hj, rfl⟩ := Option.map_eq_some_iff.mp hf
    obtain ⟨hi, rfl⟩ := List.getElem?_eq_some_iff.mp hj
    rw [List.length_range] at hi
    rw [List.getElem_range]
    exact ⟨dataFrame_eq_segment hp hl ((lt_segments_iff hpos).mp hi).le, segment_ok hc.maxBody.2 payload i,
      segmentBody_nonempty hpos hi, segmentBody_full hpos, toInt_seqOf s.cfg.node (hi.trans_le hn)⟩

/-- Settles O50: `RB` is the list of the frames' bodies from 1 on, and `RX.DONE` puts them together again. -/
theorem reassemblyDeliversThePayload : Obligations.ReassemblyDeliversThePayload := by
  intro r s payload hc hp hl n hn hphase hm hlock hwf hrb
  obtain ⟨frames, hlen, hflat, hframes⟩ := segmentsPartitionThePayload s payload hc hp hl hn
  replace hlen : frames.length = n := hlen
  have hheld : r.rb = Memory.ofListFrom 1 (frames.map Frame.body) := by
    refine Memory.eq_ofListFrom_one hwf ((hrb 0).trans (if_neg nofun)) fun i => ?_
    rw [hrb, List.getElem?_map]
    rcases Nat.lt_or_ge i frames.length with hi | hi
    · have hi' := List.getElem?_eq_getElem hi
      rw [if_pos ⟨Nat.succ_pos i, hlen ▸ hi⟩, (hframes (i + 1) _ (Nat.succ_pos i) hi').1, hi']
    · rw [if_neg fun hn => Nat.not_lt.mpr hi (hlen ▸ hn.2), List.getElem?_eq_none hi, Option.map_none]
  have helems : r.rb.elems = frames.map Frame.body := by rw [hheld, Memory.elems_ofListFrom]
  have hcount : r.rb.length = n := by
    rw [← hlen, ← List.length_map (f := Frame.body), ← helems, Memory.elems, List.length_map]
  have hbytes : r.rb.elems.flatten = payload := helems ▸ hflat
  have hfits : payload.length < 2 ^ 32 := calc
    payload.length ≤ n * s.cfg.maxBody := le_segments_mul (Nat.zero_lt_of_lt hc.maxBody.1) _
    _ ≤ 32767 * 65535 := Nat.mul_le_mul hn hc.maxBody.2
    _ < 2 ^ 32 := by decide
  refine ⟨_, execRxSent_of_complete hlock hphase hm (count_of_bytes (by omega)) hcount, ?_, ?_, rfl, rfl, rfl⟩
  · exact congrArg Memory.ofList hbytes
  · exact (congrArg (fun l => fitted 32 (List.length l)) hbytes).trans (fitted_of_lt hfits)

end

section
/-! The rules of the sender (R209 to R217, R265; logs 3, 21, 29, 30): for each, what it leaves where it is enabled, and
the ways a command is broken off, the receiver's stop among them (R238). -/

namespace Sys2Proof.Machine

variable {s t u : State} {f : Frame} {e : SwEntry} {c : Config} {l : List Frame} {n : Nat}

/-! ### The sentinels -/

theorem sentinel_eq (c : Config) (h : n < 65536) :
    sentinel c n = { len := 2#16, seq := 0#16, body := [BitVec.ofNat 8 (n / 256), BitVec.ofNat 8 n] } := by
  have hn : (BitVec.ofNat 16 n).toNat = n := Nat.mod_eq_of_lt h
  rw [sentinel, be16_eq_ofNat, hn]
  rfl

theorem sentinel_ok (h : 2 ≤ c.maxBody) (n : Nat) : Frame.ok c (sentinel c n) = true := frame_ok_iff.mpr ⟨rfl, h⟩

theorem execTxSent0_of_idle (hl : s.holdsAny .arq = false) (hp : s.arqPhase = .txSent0) (hm : s.modPhase = .idle)
    (h2 : 2 ≤ s.cfg.maxBody) :
    execTxSent0 s =
      .next { s with txf := some (sentinel s.cfg s.nTx), modPhase := .waitq, caller := some .txSent0 } :=
  settle_arqStep_of_ok hl
    ((if_pos hp).trans ((sending_of_idle hm).trans (sendEntry_of_idle hm (sentinel_ok h2 s.nTx))))

theorem execTxSent0_of_done (hl : s.holdsAny .arq = false) (hp : s.arqPhase = .txSent0) (hm : s.modPhase = .done)
    (hc : s.caller = some .txSent0) :
    execTxSent0 s = .next { s with modPhase := .idle, caller := none, arqPhase := .txLoop } :=
  settle_arqStep_of_ok hl ((if_pos hp).trans (sending_of_done hm hc))

theorem execTxFin_of_idle (hl : s.holdsAny .arq = false) (hp : s.arqPhase = .txFin) (hm : s.modPhase = .idle)
    (h2 : 2 ≤ s.cfg.maxBody) :
    execTxFin s =
      .next { s with txf := some (sentinel s.cfg s.nTx), modPhase := .waitq, caller := some .txFin } :=
  settle_arqStep_of_ok hl
    ((if_pos hp).trans ((sending_of_idle hm).trans (sendEntry_of_idle hm (sentinel_ok h2 s.nTx))))

theorem execTxFin_of_done (hl : s.holdsAny .arq = false) (hp : s.arqPhase = .txFin) (hm : s.modPhase = .done)
    (hc : s.caller = some .txFin) : execTxFin s = .next (finishFin s) :=
  settle_arqStep_of_ok hl ((if_pos hp).trans (sending_of_done hm hc))

theorem finishFin_of_lt (h : s.finCnt + 1 < 2) :
    finishFin s = { s with modPhase := .idle, caller := none, finCnt := s.finCnt + 1 } := by
  have hfit : fittedUpTo 2 (s.finCnt + 1) = s.finCnt + 1 := fittedUpTo_of_le h.le
  rcases finishFin_cases s with ⟨h2, -⟩ | ⟨-, e⟩
  · exact absurd (hfit.symm.trans h2) h.ne
  · rw [e, hfit]

theorem finishFin_of_eq (h : s.finCnt + 1 = 2) :
    finishFin s = { s with modPhase := .idle, caller := none, finCnt := 2, result := .ok, busy := false,
                           arqPhase := .idle } := by
  rcases finishFin_cases s with ⟨-, e⟩ | ⟨h2, -⟩
  · exact e
  · exact absurd ((fittedUpTo_of_le h.le).trans h) h2

/-! ### The loop and the stops -/

theorem senderMayStop_iff :
    senderMayStop s = true ↔ s.stopReq = true ∧ ((s.arqPhase = .txLoop ∧ s.modPhase = .idle) ∨
      ((s.modPhase = .waitq ∨ s.modPhase = .drain) ∧ s.role = .sender)) := by
  rw [senderMayStop, Bool.and_eq_true, decide_eq_true_iff]

theorem receiverMayStop_iff :
    receiverMayStop s = true ↔ s.stopReq = true ∧ ((s.arqPhase = .rxPop ∧ s.modPhase = .idle) ∨
      ((s.modPhase = .waitq ∨ s.modPhase = .drain) ∧ s.role = .receiver)) := by
  rw [receiverMayStop, Bool.and_eq_true, decide_eq_true_iff]

theorem execTxStop_of_enabled (hl : s.holdsAny .arq = false) (h : senderMayStop s = true) :
    execTxStop s = .next (stopSender s) := settle_arqStep_of_ok hl (if_pos h)

theorem execTxStop_of_not_enabled (hl : s.holdsAny .arq = false) (h : ¬ senderMayStop s = true) :
    execTxStop s = .next s := settle_arqStep_of_hold hl (if_neg h)

theorem execRxStop_of_enabled (hl : s.holdsAny .arq = false) (h : receiverMayStop s = true) :
    execRxStop s = .next (stopReceiver s) := settle_arqStep_of_ok hl (if_pos h)

theorem execRxStop_of_not_enabled (hl : s.holdsAny .arq = false) (h : ¬ receiverMayStop s = true) :
    execRxStop s = .next s := settle_arqStep_of_hold hl (if_neg h)

theorem execTxLoop_of_stop (hl : s.holdsAny .arq = false) (hp : s.arqPhase = .txLoop) (hm : s.modPhase = .idle)
    (hs : s.stopReq = true) : execTxLoop s = .next (stopSender s) :=
  settle_arqStep_of_ok hl ((if_pos ⟨hp, hm⟩).trans (if_pos hs))

theorem execTxLoop_of_complete (hl : s.holdsAny .arq = false) (hp : s.arqPhase = .txLoop) (hm : s.modPhase = .idle)
    (hs : s.stopReq = false) (hn : s.lar = s.nTx) :
    execTxLoop s = .next { s with finCnt := 0, arqPhase := .txFin } :=
  settle_arqStep_of_ok hl ((if_pos ⟨hp, hm⟩).trans ((if_neg (Bool.eq_false_iff.mp hs)).trans (if_pos hn)))

theorem execTxLoop_of_incomplete (hl : s.holdsAny .arq = false) (hp : s.arqPhase = .txLoop)
    (hm : s.modPhase = .idle) (hs : s.stopReq = false) (hn : s.lar ≠ s.nTx) :
    execTxLoop s = .next { s with arqPhase := .txDrain } :=
  settle_arqStep_of_ok hl ((if_pos ⟨hp, hm⟩).trans ((if_neg (Bool.eq_false_iff.mp hs)).trans (if_neg hn)))

/-! ### The drain -/

theorem execTxDrain_of_nil (hp : s.arqPhase = .txDrain) (hm : s.modPhase = .idle) (hg : s.gateOpen .arq .fq)
    (hq : s.fq = []) : execTxDrain s = .next { s with arqPhase := .txSlide } := by
  rw [execTxDrain, if_pos ⟨hp, hm⟩, withLock_of_gateOpen hg, hq]
  exact settle_arqStep_of_ok hg.2 rfl

/-- At the open gate the drain is what the popped frame says. -/
theorem execTxDrain_of_ok (hp : s.arqPhase = .txDrain) (hm : s.modPhase = .idle) (hg : s.gateOpen .arq .fq)
    (hq : s.fq = f :: l) (ht : takeAck f { s with fq := l } = .ok t) : execTxDrain s = .next t := by
  rw [execTxDrain, if_pos ⟨hp, hm⟩, withLock_of_gateOpen hg, hq]
  exact settle_arqStep_of_ok hg.2 ht

theorem isAck_iff : isAck f = true ↔ f.len = 0#16 ∧ f.seq ≠ 0#16 ∧ f.seq ≠ 0x8000#16 := decide_eq_true_iff

/-- Outside the window an acknowledgment raises its event (R210, R254). -/
theorem takeAck_of_mismatch (hout : ¬ (f.len = 0#16 ∧ s.lar < seqMag f.seq ∧ seqMag f.seq ≤ s.lfs))
    (ha : isAck f = true) : takeAck f s = .ok { s with events := s.events ++ [.ackMismatch f.seq] } :=
  takeAck_eq_ok.mpr (.inr ⟨hout, (if_pos ha).symm⟩)

/-- A frame that is no acknowledgment and marks no entry is dropped (R210). -/
theorem takeAck_of_other (hout : ¬ (f.len = 0#16 ∧ s.lar < seqMag f.seq ∧ seqMag f.seq ≤ s.lfs))
    (ha : ¬ isAck f = true) : takeAck f s = .ok s :=
  takeAck_eq_ok.mpr (.inr ⟨hout, (if_neg ha).symm⟩)

/-! ### The slide -/

/-- The loop of `TX.SLIDE` runs to its end where the entries it can reach are held (R211). -/
theorem slideWhile_completes (hw : s.sw.wf) (h : ∀ m, s.lar < m → m ≤ s.lar + n → (s.sw.get m).isSome = true) :
    ∃ t, slideWhile n s = .ok t := by
  induction n generalizing s with
  | zero => exact ⟨s, rfl⟩
  | succ n ih =>
    obtain ⟨e, he⟩ := Option.isSome_iff_exists.mp (h (s.lar + 1) (by omega) (by omega))
    rw [slideWhile, he]
    dsimp only
    split
    · refine ih (Memory.wf_erase _ hw) fun m h1 h2 => ?_
      simp only at h1 h2
      rw [Memory.get_erase hw, if_neg (by omega)]
      exact h m (by omega) (by omega)
    · exact ⟨s, rfl⟩

theorem execTxSlide_of_ok (hl : s.holdsAny .arq = false) (hp : s.arqPhase = .txSlide) (hm : s.modPhase = .idle)
    (hu : slideWhile (s.lfs - s.lar) s = .ok u) :
    execTxSlide s = .next { u with scan := fitted 16 (u.lar + 1), arqPhase := .txRetx } :=
  settle_arqStep_of_ok hl ((if_pos ⟨hp, hm⟩).trans (Act.andThen_eq_ok.mpr ⟨u, hu, rfl⟩))

/-! ### The scan and the abort -/

theorem elapsed_eq (s : State) (e : SwEntry) :
    elapsed s e = (s.now.toNat + 2 ^ 32 - e.sentAt.toNat) % 2 ^ 32 := by
  have hsent := e.sentAt.isLt
  rw [elapsed, BitVec.toNat_sub]
  congr 1
  omega

theorem overdue_iff :
    overdue s e = true ↔ e.acked = false ∧ s.cfg.rto < (s.now.toNat + 2 ^ 32 - e.sentAt.toNat) % 2 ^ 32 := by
  rw [overdue, Bool.and_eq_true, Bool.not_eq_true', decide_eq_true_iff, elapsed_eq]

theorem not_overdue (h : e.acked = true ∨ (s.now.toNat + 2 ^ 32 - e.sentAt.toNat) % 2 ^ 32 ≤ s.cfg.rto) :
    overdue s e = false := by
  refine Bool.eq_false_iff.mpr fun ho => ?_
  obtain ⟨hack, htime⟩ := overdue_iff.mp ho
  exact h.elim (Bool.eq_false_iff.mp hack) (Nat.not_le.mpr htime)

theorem exhausted_iff :
    exhausted s = true ↔
      s.scan ≤ s.lfs ∧ ∃ e, s.sw.get s.scan = some e ∧ overdue s e = true ∧ e.retries = 0 := by
  simp only [exhausted, Bool.and_eq_true, decide_eq_true_iff, Option.any_eq_true]

theorem execTxAbort_of_exhausted (hl : s.holdsAny .arq = false) (hp : s.arqPhase = .txRetx)
    (hm : s.modPhase = .idle) (h : exhausted s = true) : execTxAbort s = .next (abort s) :=
  settle_arqStep_of_ok hl (if_pos ⟨hp, hm, h⟩)

theorem execTxAbort_of_not_enabled (hl : s.holdsAny .arq = false)
    (h : ¬ (s.arqPhase = .txRetx ∧ s.modPhase = .idle ∧ exhausted s = true)) : execTxAbort s = .next s :=
  settle_arqStep_of_hold hl (if_neg h)

theorem execTxRetx_of_examined (hl : s.holdsAny .arq = false) (hp : s.arqPhase = .txRetx) (hm : s.modPhase = .idle)
    (h : examineEntry s = .ok t) : execTxRetx s = .next t :=
  settle_arqStep_of_ok hl ((if_pos hp).trans ((sending_of_idle hm).trans h))

theorem execTxRetx_of_resent (hl : s.holdsAny .arq = false) (hp : s.arqPhase = .txRetx) (hm : s.modPhase = .done)
    (hc : s.caller = some .txRetx) (h : finishResend s = .ok t) : execTxRetx s = .next t :=
  settle_arqStep_of_ok hl ((if_pos hp).trans ((sending_of_done hm hc).trans h))

/-- A data frame that can be rebuilt is handed to the modulator (R207, R141). -/
theorem sendData_of_idle {who : Caller} {m : Nat} (hd : dataFrame s m = some f) (hok : Frame.ok s.cfg f = true)
    (hm : s.modPhase = .idle) :
    sendData who m s = .ok { s with txf := some f, modPhase := .waitq, caller := some who } :=
  sendData_eq_ok.mpr ⟨f, hd, sendEntry_of_idle hm hok⟩

/-- What is left of an entry's retries: one less, or some number of R36's range (log 21). -/
theorem decrementRetries_fst (e : SwEntry) (s : State) :
    (1 ≤ e.retries → (decrementRetries e.retries s).1 = e.retries - 1) ∧
      (e.retries = 0 → (decrementRetries e.retries s).1 ≤ s.cfg.retryMax) := by
  rcases decrementRetries_cases e.retries s with ⟨h, hd⟩ | ⟨h, r, hr, hd⟩ <;> rw [hd]
  · exact ⟨fun _ => rfl, fun h0 => absurd h0 (Nat.one_le_iff_ne_zero.mp h)⟩
  · exact ⟨fun h1 => absurd h (Nat.one_le_iff_ne_zero.mp h1), fun _ => hr⟩

/-! ### New frames -/

theorem execTxNew_of_open (hl : s.holdsAny .arq = false) (hp : s.arqPhase = .txNew) (hm : s.modPhase = .idle)
    (hw : windowOpen s = true) (hd : dataFrame s (s.lfs + 1) = some f) (hok : Frame.ok s.cfg f = true) :
    execTxNew s =
      .next { s with lfs := s.lfs + 1, txf := some f, modPhase := .waitq, caller := some .txNew } :=
  settle_arqStep_of_ok hl ((if_pos hp).trans ((sending_of_idle hm).trans ((if_pos hw).trans
    (sendData_of_idle (s := { s with lfs := s.lfs + 1 }) hd hok hm))))

theorem execTxNew_of_closed (hl : s.holdsAny .arq = false) (hp : s.arqPhase = .txNew) (hm : s.modPhase = .idle)
    (hw : ¬ windowOpen s = true) : execTxNew s = .next { s with arqPhase := .txLoop } :=
  settle_arqStep_of_ok hl ((if_pos hp).trans ((sending_of_idle hm).trans (if_neg hw)))

theorem execTxNew_of_done (hl : s.holdsAny .arq = false) (hp : s.arqPhase = .txNew) (hm : s.modPhase = .done)
    (hc : s.caller = some .txNew) : execTxNew s = .next (finishNew s) :=
  settle_arqStep_of_ok hl ((if_pos hp).trans (sending_of_done hm hc))

end Sys2Proof.Machine

open Sys2Proof Sys2Proof.Machine

/-- Settles O39: the loop's own account of where it stopped, with the scan placed behind it. -/
theorem slideStopsAtTheFirstUnacknowledged : Obligations.SlideStopsAtTheFirstUnacknowledged := by
  intro s hp hm hl hlfs hll hw hheld
  obtain ⟨u, hu⟩ := slideWhile_completes (n := s.lfs - s.lar) hw fun m h1 h2 => hheld m h1 (by omega)
  have hslide := execTxSlide_of_ok hl hp hm hu
  obtain ⟨k, sw, hk, rfl, -, hget, hacked, hstop⟩ := slideWhile_eq_ok hw hu
  have hend : s.lar + k ≤ s.lfs := Nat.add_le_of_le_sub' hll hk
  refine ⟨_, hslide, Nat.le_add_right _ _, hend, fitted_of_lt ?width, ?passed, ?stopped, hget, rfl⟩
  case width => show s.lar + k + 1 < 2 ^ 16; omega
  case passed =>
    intro m e h1 h2 he
    obtain ⟨e', he', ha⟩ := hacked m h1 h2
    exact Option.some.inj (he'.symm.trans he) ▸ ha
  case stopped =>
    intro e (hlt : s.lar + k < s.lfs) he
    obtain ⟨e', he', ha⟩ := hstop (Nat.lt_sub_iff_add_lt'.mpr hlt)
    exact Option.some.inj (he'.symm.trans he) ▸ ha

/-- Settles O36: entry and continuation of each, the second closing sentinel told by `FIN_CNT`. -/
theorem sentinelsOpenAndCloseTheTransfer : Obligations.SentinelsOpenAndCloseTheTransfer := by
  intro s h2 hl f
  refine ⟨fun hp hn => ⟨fun hm => ?open0, execTxSent0_of_done hl hp⟩,
    fun hp hn => ⟨fun hm => ?close, fun hm hc hlt => ?counted, fun hm hc heq => ?ended⟩⟩
  case open0 => rw [exec_txSent0, execTxSent0_of_idle hl hp hm h2, sentinel_eq _ hn]
  case close => rw [exec_txFin, execTxFin_of_idle hl hp hm h2, sentinel_eq _ hn]
  case counted => rw [exec_txFin, execTxFin_of_done hl hp hm hc, finishFin_of_lt hlt]
  case ended => rw [exec_txFin, execTxFin_of_done hl hp hm hc, finishFin_of_eq heq]

/-- Settles O37, one test after the other. -/
theorem loopTestsStopThenCompletion : Obligations.LoopTestsStopThenCompletion := by
  intro s hp hm hl
  refine ⟨fun hs => ?stop, execTxLoop_of_complete hl hp hm, execTxLoop_of_incomplete hl hp hm⟩
  have hloop := execTxLoop_of_stop hl hp hm hs
  exact ⟨hloop.trans (execTxStop_of_enabled hl (senderMayStop_iff.mpr ⟨hs, .inl ⟨hp, hm⟩⟩)).symm, _, hloop⟩

/-- Settles O38: the popped frame marks an entry, raises the event, or is dropped. -/
theorem drainTakesOneFrame : Obligations.DrainTakesOneFrame := by
  intro s hp hm hg
  refine ⟨execTxDrain_of_nil hp hm hg, fun f l hq => ⟨?marks, ?mismatch, ?reserved, ?other⟩⟩
  case marks =>
    intro e hlen hlo hhi he
    exact ⟨_, execTxDrain_of_ok hp hm hg hq (takeAck_eq_ok.mpr (.inl ⟨hlen, hlo, hhi, e, he, rfl⟩)),
      fun m => Memory.get_set .., rfl⟩
  case mismatch =>
    intro hlen h0 hres hout
    exact execTxDrain_of_ok hp hm hg hq
      (takeAck_of_mismatch (fun hin => hout hin.2) (isAck_iff.mpr ⟨hlen, h0, hres⟩))
  case reserved =>
    intro _ hres hout
    exact execTxDrain_of_ok hp hm hg hq
      (takeAck_of_other (fun hin => hout hin.2) fun ha => (isAck_iff.mp ha).2.2 hres)
  case other =>
    intro h
    refine execTxDrain_of_ok hp hm hg hq (takeAck_of_other (fun ⟨hlen, hlo, _⟩ => ?_) fun ha => ?_)
    · rcases h with hne | h0
      · exact hne hlen
      · rw [h0] at hlo
        exact Nat.not_lt_zero _ hlo
    · obtain ⟨hlen, h0, -⟩ := isAck_iff.mp ha
      exact h.elim (absurd hlen) h0

/-- Settles O40: the cases of the examination, then the continuation of a resend. -/
theorem scanResendsOrAborts : Obligations.ScanResendsOrAborts := by
  intro s hp hl hscan
  have hfit : fitted 16 (s.scan + 1) = s.scan + 1 := fitted_of_lt (by omega)
  refine ⟨fun hm hpast => ?past, fun hm hin e he => ⟨fun hnot => ?passed, fun hack htime => ?overdue⟩,
    fun hm hc e he => ?resent⟩
  case past => exact execTxRetx_of_examined hl hp hm (examineEntry_eq_ok.mpr (.inl ⟨hpast, rfl⟩))
  case passed =>
    rw [exec_txRetx, execTxRetx_of_examined hl hp hm
      (examineEntry_eq_ok.mpr (.inr ⟨hin, e, he, .inr (.inr ⟨not_overdue hnot, rfl⟩)⟩)), State.withScan, hfit]
  case overdue =>
    have ho : overdue s e = true := overdue_iff.mpr ⟨hack, htime⟩
    refine ⟨fun hr => ?_, fun f hr hd hok => ?_⟩
    · have habort := execTxRetx_of_examined hl hp hm
        (examineEntry_eq_ok.mpr (.inr ⟨hin, e, he, .inl ⟨ho, hr, rfl⟩⟩))
      exact ⟨habort.trans
        (execTxAbort_of_exhausted hl hp hm (exhausted_iff.mpr ⟨hin, e, he, ho, hr⟩)).symm, _, habort⟩
    · exact execTxRetx_of_examined hl hp hm
        (examineEntry_eq_ok.mpr (.inr ⟨hin, e, he, .inr (.inl ⟨ho, hr, sendData_of_idle hd hok hm⟩)⟩))
  case resent =>
    obtain ⟨hless, hfree⟩ := decrementRetries_fst e s
    refine ⟨_, _, execTxRetx_of_resent hl hp hm hc (finishResend_eq_ok.mpr ⟨e, he, rfl⟩),
      fun hr => ⟨hless hr, if_neg (Nat.one_le_iff_ne_zero.mp hr)⟩, hfree, fun m => Memory.get_set .., ?_⟩
    rw [hfit]

/-- Settles O41, by whether the window allows a frame; then the continuation. -/
theorem oneNewFrameAPass : Obligations.OneNewFrameAPass := by
  intro s hp hl _
  refine ⟨fun f hm hroom hmore => execTxNew_of_open hl hp hm (windowOpen_iff.mpr ⟨hroom, hmore⟩),
    fun hm hshut => execTxNew_of_closed hl hp hm (mt windowOpen_iff.mp hshut), fun hm hc => ?returned⟩
  exact ⟨_, execTxNew_of_done hl hp hm hc, fun m => Memory.get_set .., rfl⟩

/-- Settles O42: for the abort and each stop, what it leaves where it is enabled, and the hold elsewhere. -/
theorem abortAndStopEndTheCommand : Obligations.AbortAndStopEndTheCommand := by
  intro s hl
  refine ⟨?abort, ?noAbort,
    fun hs hpoll => execTxStop_of_enabled hl (senderMayStop_iff.mpr ⟨hs, hpoll⟩), ?noTxStop,
    fun hs hpoll => ⟨[], execRxStop_of_enabled hl (receiverMayStop_iff.mpr ⟨hs, hpoll⟩)⟩, ?noRxStop⟩
  case abort =>
    rintro hp hm hin ⟨e, he, hack, hr, htime⟩
    exact execTxAbort_of_exhausted hl hp hm
      (exhausted_iff.mpr ⟨hin, e, he, overdue_iff.mpr ⟨hack, htime⟩, hr⟩)
  case noAbort =>
    refine fun hnot => execTxAbort_of_not_enabled hl fun ⟨hp, hm, hex⟩ => ?_
    obtain ⟨hin, e, he, ho, hr⟩ := exhausted_iff.mp hex
    obtain ⟨hack, htime⟩ := overdue_iff.mp ho
    rcases hnot with hp' | hm' | hpast | hentry
    · exact hp' hp
    · exact hm' hm
    · exact Nat.not_lt.mpr hin hpast
    · rcases hentry e he with ha | hr' | hle
      · exact Bool.eq_false_iff.mp hack ha
      · exact hr' hr
      · exact Nat.not_lt.mpr hle htime
  case noTxStop =>
    refine fun hnot => execTxStop_of_not_enabled hl fun h => ?_
    obtain ⟨hs, hpoll⟩ := senderMayStop_iff.mp h
    exact hnot.elim (fun hs' => Bool.eq_false_iff.mp hs' hs) (absurd hpoll)
  case noRxStop =>
    refine fun hnot => execRxStop_of_not_enabled hl fun h => ?_
    obtain ⟨hs, hpoll⟩ := receiverMayStop_iff.mp h
    exact hnot.elim (fun hs' => Bool.eq_false_iff.mp hs' hs) (absurd hpoll)

end

section
/-! The sender's cursors (R208, R211, R213, R218): which step moves `LAR` or `LFS`, and how far. -/

namespace Sys2Proof.Machine

variable {s t : State}

/-- `H.TRANSMIT` starts the sender with both cursors at 0, or leaves them (R208, R256). -/
theorem execHTransmit_cursors {p : List Byte} (h : execHTransmit p s = .next t) :
    (t.lar = 0 ∧ t.lfs = 0) ∨ (t.lar = s.lar ∧ t.lfs = s.lfs) := by
  rcases execHTransmit_next h with rfl | ⟨-, -, rfl⟩ | ⟨-, -, h⟩
  · exact .inr ⟨rfl, rfl⟩
  · exact .inr ⟨rfl, rfl⟩
  · obtain ⟨-, ⟨-, rfl⟩ | ⟨-, -, rfl⟩⟩ := startSender_eq_ok.mp h
    · exact .inr ⟨rfl, rfl⟩
    · exact .inl ⟨rfl, rfl⟩

/-- `TX.SLIDE` moves `LAR` within the window and leaves `LFS` (R211). -/
theorem execTxSlide_cursors (h : execTxSlide s = .next t) (hw : s.sw.wf) (ho : s.lar ≤ s.lfs) :
    s.lar ≤ t.lar ∧ t.lar ≤ s.lfs ∧ t.lfs = s.lfs := by
  rcases execTxSlide_next h with rfl | ⟨-, -, u, hu, rfl⟩
  · exact ⟨Nat.le_refl _, ho, rfl⟩
  · obtain ⟨k, sw, hk, rfl, -⟩ := slideWhile_eq_ok hw hu
    exact ⟨Nat.le_add_right _ _, Nat.add_le_of_le_sub' ho hk, rfl⟩

/-- `TX.NEW` moves `LFS` by one under its guard, or leaves it (R213). -/
theorem execTxNew_lfs (h : execTxNew s = .next t) :
    t.lfs = s.lfs ∨ (t.lfs = s.lfs + 1 ∧ s.lfs - s.lar < s.cfg.windowSize ∧ s.lfs < s.nTx) := by
  rcases execTxNew_next h with rfl | ⟨-, ⟨-, hw, h⟩ | ⟨-, -, rfl⟩ | ⟨-, -, rfl⟩⟩
  · exact .inl rfl
  · obtain ⟨f, -, h⟩ := sendData_eq_ok.mp h
    obtain ⟨-, -, rfl⟩ := sendEntry_eq_ok.mp h
    exact .inr ⟨rfl, windowOpen_iff.mp hw⟩
  · exact .inl rfl
  · exact .inl rfl

end Sys2Proof.Machine

open Sys2Proof Sys2Proof.Machine

/-- Settles O44: of the agents' steps `H.TRANSMIT`, `TX.SLIDE`, `TX.NEW` and reset alone write a cursor. -/
theorem cursorsMoveOnlyAsTheWindowAllows : Obligations.CursorsMoveOnlyAsTheWindowAllows := by
  intro i s t h ha hs
  by_cases hreset : i = .hReset
  · subst hreset
    obtain rfl := Host.Outcome.next.inj hs
    exact .inl ⟨.inl rfl, rfl, rfl⟩
  have r := exec_respectsOwners hreset hs
  obtain ⟨hll, -, -⟩ := h.send.order
  have hwindow := h.send.window
  rw [r.cfg]
  cases i with
  | hReset => exact absurd rfl hreset
  | txStart => cases ha
  | hTransmit p =>
    rcases execHTransmit_cursors hs with h0 | ⟨hlar, hlfs⟩
    · exact .inl ⟨.inr ⟨p, rfl⟩, h0⟩
    · rw [hlar, hlfs]
      exact .inr ⟨Nat.le_refl _, hll, hwindow, .inl rfl⟩
  | txSlide =>
    obtain ⟨hlo, hhi, hlfs⟩ := execTxSlide_cursors hs h.store.sw hll
    rw [hlfs]
    exact .inr ⟨hlo, hhi, by omega, .inl rfl⟩
  | txNew =>
    have hlar : t.lar = s.lar := by simpa using r.lar
    rcases execTxNew_lfs hs with hlfs | ⟨hlfs, hroom, hmore⟩
    · rw [hlar, hlfs]
      exact .inr ⟨Nat.le_refl _, hll, hwindow, .inl rfl⟩
    · rw [hlar, hlfs]
      exact .inr ⟨Nat.le_refl _, Nat.le_succ_of_le hll, by omega, .inr ⟨rfl, rfl, hroom, hmore⟩⟩
  | _ =>
    have hlar : t.lar = s.lar := by simpa using r.lar
    have hlfs : t.lfs = s.lfs := by simpa using r.lfs
    rw [hlar, hlfs]
    exact .inr ⟨Nat.le_refl _, hll, hwindow, .inl rfl⟩

end

section
/-! The rules of the receiver (R232 to R238; logs 3, 4, 28, 30): what a popped frame is, and for each kind what its
sub-operation leaves, alone and in the step of `RX.POP`. -/

namespace Sys2Proof

variable {α : Type} {m : Memory α}

/-- In the one form a space reads what it lists. -/
theorem Memory.get_of_mem (hm : m.wf) {p : Nat × α} (h : p ∈ m) : m.get p.1 = some p.2 := by
  induction m with
  | nil => simp at h
  | cons q m ih =>
    obtain ⟨hq, hm⟩ := Memory.wf_cons.mp hm
    rcases List.mem_cons.mp h with rfl | h
    · exact if_pos rfl
    · exact (if_neg (hq p h).ne').trans (ih hm h)

theorem Memory.mem_keys_iff {k : Nat} : k ∈ m.map Prod.fst ↔ (m.get k).isSome = true := by
  constructor
  · intro h
    obtain ⟨p, hp, rfl⟩ := List.mem_map.mp h
    exact Memory.get_isSome_of_mem hp
  · intro h
    obtain ⟨v, hv⟩ := Option.isSome_iff_exists.mp h
    exact List.mem_map.mpr ⟨(k, v), Memory.mem_of_get hv, rfl⟩

/-- The elements in index order are what the indices read as. -/
theorem Memory.elems_eq_map_get (hm : m.wf) (d : α) :
    m.elems = (m.map Prod.fst).map fun k => (m.get k).getD d := by
  rw [Memory.elems, List.map_map]
  refine List.map_congr_left fun p hp => ?_
  rw [Function.comp_apply, Memory.get_of_mem hm hp, Option.getD_some]

end Sys2Proof

namespace Sys2Proof.Machine

variable {s t : State} {f : Frame} {c : Config} {l : List Frame}

/-! ### The kind of a frame -/

theorem sgnNode_eq (n : Node) : sgnNode n = if n = .a then 1 else -1 := by
  cases n <;> rfl

theorem sgnNode_ne_neg (n : Node) : -sgnNode n ≠ sgnNode n := by
  cases n <;> decide

theorem classify_of_zero (h : f.seq = 0#16) : classify c f = if f.len = 2#16 then .sent else .other := by
  have hlen : f.len.toNat = 2 ↔ f.len = 2#16 := by rw [← BitVec.toNat_inj, BitVec.toNat_ofNat]
  simp only [classify, h, BitVec.toInt_zero, if_true, sentLen_eq, hlen]

theorem classify_of_reserved (h : f.seq = 0x8000#16) : classify c f = .other := by
  have hseq : f.seq.toInt = -32768 := by rw [h]; decide
  simp only [classify, hseq, if_true, if_neg (show ¬ (-32768 : Int) = 0 by decide)]

/-- A sequence number other than 0 and the reserved one is told by its sign: peer data before echo (R232). -/
theorem classify_of_signed (h0 : f.seq ≠ 0#16) (hres : f.seq ≠ 0x8000#16) :
    classify c f = if f.seq.toInt.sign = -sgnNode c.node ∧ f.len ≠ 0#16 then .data
      else if f.seq.toInt.sign = sgnNode c.node then .echo else .other := by
  have hz : ¬ f.seq.toInt = 0 := fun h => h0 (BitVec.eq_of_toInt_eq (h.trans BitVec.toInt_zero.symm))
  have hr : ¬ f.seq.toInt = -32768 := fun h => hres (BitVec.eq_of_toInt_eq (h.trans (by decide)))
  simp only [classify, if_neg hz, if_neg hr]

theorem classify_of_peer (h0 : f.seq ≠ 0#16) (hres : f.seq ≠ 0x8000#16)
    (hsign : f.seq.toInt.sign = -sgnNode c.node) (hlen : f.len ≠ 0#16) : classify c f = .data := by
  rw [classify_of_signed h0 hres, if_pos ⟨hsign, hlen⟩]

/-- A frame of the peer without a body is an acknowledgment, which the receiver drops (R232). -/
theorem classify_of_peer_ack (h0 : f.seq ≠ 0#16) (hres : f.seq ≠ 0x8000#16)
    (hsign : f.seq.toInt.sign = -sgnNode c.node) (hlen : f.len = 0#16) : classify c f = .other := by
  rw [classify_of_signed h0 hres, if_neg fun h => h.2 hlen, hsign, if_neg (sgnNode_ne_neg c.node)]

theorem classify_of_own (h0 : f.seq ≠ 0#16) (hres : f.seq ≠ 0x8000#16)
    (hsign : f.seq.toInt.sign = sgnNode c.node) : classify c f = .echo := by
  rw [classify_of_signed h0 hres, hsign, if_neg fun h => sgnNode_ne_neg c.node h.1.symm, if_pos rfl]

/-! ### Completion -/

theorem receiveComplete_iff :
    receiveComplete s = true ↔
      s.arqPhase = .rxPop ∧ s.modPhase = .idle ∧ s.countKnown = true ∧ s.rb.length = s.nExp := by
  cases hc : s.countKnown <;> simp [receiveComplete, State.expected, hc, and_assoc, eq_comm (a := s.rb.length)]

theorem execRxDone_of_complete (hl : s.holdsAny .arq = false) (h : receiveComplete s = true) :
    execRxDone s = .next (assemble s) := settle_arqStep_of_ok hl (if_pos h)

theorem execRxDone_of_not_complete (hl : s.holdsAny .arq = false) (h : ¬ receiveComplete s = true) :
    execRxDone s = .next s := settle_arqStep_of_hold hl (if_neg h)

/-! ### The sentinel -/

theorem execRxSent_of_ok (hl : s.holdsAny .arq = false) (hp : s.arqPhase = .rxPop) (hm : s.modPhase = .idle)
    (hseq : f.seq = 0#16) (hlen : f.len = 2#16) (h : takeSentinel f s = .ok t) : execRxSent f s = .next t :=
  settle_arqStep_of_ok hl ((if_pos ⟨hp, hm⟩).trans ((if_pos ⟨hseq, congrArg BitVec.toNat hlen⟩).trans h))

/-- A sentinel's body holds its count, so that recording it completes (R233). -/
theorem takeSentinel_completes (hok : Frame.ok c f = true) (hlen : f.len.toNat = 2) (s : State) :
    ∃ t, takeSentinel f s = .ok t := by
  obtain ⟨hbody, -⟩ := frame_ok_iff.mp hok
  obtain ⟨hi, lo, h⟩ := List.length_eq_two.mp (hbody.symm.trans hlen)
  exact ⟨_, takeSentinel_eq_ok.mpr ⟨hi, lo, [], h, rfl⟩⟩

/-! ### Data of the peer -/

theorem storeBody_get (k : Nat) (body : List Byte) (rb : Memory (List Byte)) (m : Nat) :
    (storeBody k body rb).get m = if m = k ∧ rb.get m = none then some body else rb.get m := by
  rcases storeBody_cases k body rb with ⟨hk, e⟩ | ⟨hk, e⟩ <;> rw [e]
  · refine (if_neg ?_).symm
    rintro ⟨rfl, hn⟩
    exact Option.isSome_iff_ne_none.mp hk hn
  · rw [Memory.get_set]
    exact if_congr (iff_self_and.mpr fun hm => hm ▸ hk) rfl rfl

/-- The acknowledgment of a peer's frame carries its sequence number with the other sign (R92, R95). -/
theorem ackFrame_of_peer {n : Node} {seq : BitVec 16} (h : seq.toInt.sign = -sgnNode n) :
    ackFrame n (seqMag seq) = { len := 0#16, seq := -seq, body := [] } := by
  have hneg : sgnNode n * (seqMag seq : Int) = -seq.toInt := by
    rw [← Int.sign_mul_natAbs seq.toInt, h, Int.neg_mul, Int.neg_neg, seqMag]
  rw [ackFrame, seqOf, hneg, BitVec.ofInt_neg, BitVec.ofInt_toInt]

theorem takeData_of_idle (hm : s.modPhase = .idle) (f : Frame) :
    takeData f s = .ok { s with
      rb := storeBody (seqMag f.seq) f.body s.rb
      lfr := advance (storeBody (seqMag f.seq) f.body s.rb).length (storeBody (seqMag f.seq) f.body s.rb) s.lfr
      txf := some (ackFrame s.cfg.node (seqMag f.seq)), modPhase := .waitq, caller := some .rxData
      arqPhase := .rxAck } :=
  takeData_eq_ok.mpr ⟨hm, frame_ok_iff.mpr ⟨rfl, Nat.zero_le _⟩, rfl⟩

theorem execRxData_of_ok (hl : s.holdsAny .arq = false) (hp : s.arqPhase = .rxPop) (hm : s.modPhase = .idle)
    (hc : classify s.cfg f = .data) (h : takeData f s = .ok t) : execRxData f s = .next t := by
  refine settle_arqStep_of_ok hl ?_
  rw [hp]
  exact (betweenSends_of_idle hm).trans ((if_pos hc).trans h)

theorem execRxData_of_done (hl : s.holdsAny .arq = false) (hp : s.arqPhase = .rxAck) (hm : s.modPhase = .done)
    (hc : s.caller = some .rxData) (f : Frame) :
    execRxData f s = .next { s with modPhase := .idle, caller := none, arqPhase := .rxPop } := by
  refine settle_arqStep_of_ok hl ?_
  rw [hp]
  exact sending_of_done hm hc

/-! ### The pop -/

theorem takeFrame_of_sent (hc : classify s.cfg f = .sent) : takeFrame f s = takeSentinel f s := by
  simp only [takeFrame, hc]

theorem takeFrame_of_data (hc : classify s.cfg f = .data) : takeFrame f s = takeData f s := by
  simp only [takeFrame, hc]

/-- An echo, and a frame that fits no case, is dropped (R235, R236). -/
theorem takeFrame_of_dropped (hc : classify s.cfg f = .echo ∨ classify s.cfg f = .other) : takeFrame f s = .ok s := by
  rcases hc with hc | hc <;> simp only [takeFrame, hc]

/-- Between sends every admissible frame can be taken (R232). -/
theorem takeFrame_completes (hm : s.modPhase = .idle) (hok : Frame.ok s.cfg f = true) : ∃ t, takeFrame f s = .ok t := by
  cases hc : classify s.cfg f with
  | sent => rw [takeFrame_of_sent hc]; exact takeSentinel_completes hok (classify_sent hc) s
  | data => exact ⟨_, (takeFrame_of_data hc).trans (takeData_of_idle hm f)⟩
  | echo => exact ⟨s, takeFrame_of_dropped (.inl hc)⟩
  | other => exact ⟨s, takeFrame_of_dropped (.inr hc)⟩

theorem execRxPop_of_stop (hl : s.holdsAny .arq = false) (hp : s.arqPhase = .rxPop) (hm : s.modPhase = .idle)
    (hs : s.stopReq = true) : execRxPop s = .next (stopReceiver s) :=
  settle_arqStep_of_ok hl ((if_pos ⟨hp, hm⟩).trans (if_pos hs))

theorem execRxPop_of_nil (hp : s.arqPhase = .rxPop) (hm : s.modPhase = .idle) (hs : s.stopReq = false)
    (hg : s.gateOpen .arq .fq) (hq : s.fq = []) : execRxPop s = .next s := by
  refine settle_arqStep_of_ok hg.2 ((if_pos ⟨hp, hm⟩).trans
    ((if_neg (Bool.eq_false_iff.mp hs)).trans ((withLock_of_gateOpen hg).trans ?_)))
  simp only [hq]

theorem execRxPop_of_ok (hp : s.arqPhase = .rxPop) (hm : s.modPhase = .idle) (hs : s.stopReq = false)
    (hg : s.gateOpen .arq .fq) (hq : s.fq = f :: l) (h : takeFrame f { s with fq := l } = .ok t) :
    execRxPop s = .next t := by
  refine settle_arqStep_of_ok hg.2 ((if_pos ⟨hp, hm⟩).trans
    ((if_neg (Bool.eq_false_iff.mp hs)).trans ((withLock_of_gateOpen hg).trans ?_)))
  simp only [hq, h]

end Sys2Proof.Machine

open Sys2Proof Sys2Proof.Machine

/-- Settles O45: the stop, the empty queue, and the frame by its kind; a drop leaves the popped queue alone. -/
theorem popClassifiesTheFrame : Obligations.PopClassifiesTheFrame := by
  intro s hp hm hl
  refine ⟨fun hs => ?stop, fun hs hg => ⟨execRxPop_of_nil hp hm hs hg, fun f l hq hok => ?frame⟩⟩
  case stop =>
    have hpop := execRxPop_of_stop hl hp hm hs
    exact ⟨hpop.trans (execRxStop_of_enabled hl (receiverMayStop_iff.mpr ⟨hs, .inl ⟨hp, hm⟩⟩)).symm, _, hpop⟩
  case frame =>
    intro u own
    have hown : own = sgnNode s.cfg.node := (sgnNode_eq _).symm
    have hpop {t : State} (h : takeFrame f u = .ok t) : execRxPop s = .next t := execRxPop_of_ok hp hm hs hg hq h
    have hdrop (hc : classify s.cfg f = .echo ∨ classify s.cfg f = .other) : execRxPop s = .next u :=
      hpop (takeFrame_of_dropped (s := u) hc)
    rw [hown]
    refine ⟨?completes, fun hseq hlen => ?sent, fun hseq hlen => ?zero, fun hres => ?reserved,
      fun h0 hres hsign hlen => ?data, fun h0 hres hsign hlen => ?ack, fun h0 hres hsign => ?echo⟩
    case completes =>
      obtain ⟨t, ht⟩ := takeFrame_completes (s := u) hm hok
      exact ⟨t, hpop ht⟩
    case sent =>
      have hc : classify s.cfg f = .sent := (classify_of_zero hseq).trans (if_pos hlen)
      obtain ⟨t, ht⟩ := takeSentinel_completes hok (classify_sent hc) u
      exact (hpop ((takeFrame_of_sent (s := u) hc).trans ht)).trans
        (execRxSent_of_ok (s := u) hl hp hm hseq hlen ht).symm
    case data =>
      have hc := classify_of_peer h0 hres hsign hlen
      have ht := takeData_of_idle (s := u) hm f
      exact (hpop ((takeFrame_of_data (s := u) hc).trans ht)).trans (execRxData_of_ok (s := u) hl hp hm hc ht).symm
    case zero => exact hdrop (.inr ((classify_of_zero hseq).trans (if_neg hlen)))
    case reserved => exact hdrop (.inr (classify_of_reserved hres))
    case ack => exact hdrop (.inr (classify_of_peer_ack h0 hres hsign hlen))
    case echo => exact hdrop (.inl (classify_of_own h0 hres hsign))

/-- Settles O46, by whether `RB` has reached the recorded count. -/
theorem sentinelRecordsTheCountAndTests : Obligations.SentinelRecordsTheCountAndTests := by
  intro s f hi lo hp hm hl hseq hlen hbody n u
  have htake := takeSentinel_eq_ok (s := s).mpr ⟨hi, lo, [], hbody, rfl⟩
  have hsent := execRxSent_of_ok hl hp hm hseq hlen htake
  refine ⟨fun hne => ?short, fun heq => ?complete⟩
  case short => exact hsent.trans (congrArg Host.Outcome.next (if_neg hne))
  case complete =>
    have hdone : execRxDone u = .next (assemble u) :=
      execRxDone_of_complete hl (receiveComplete_iff.mpr ⟨hp, hm, rfl, heq⟩)
    exact ⟨(hsent.trans (congrArg Host.Outcome.next (if_pos heq))).trans hdone.symm, _, hsent⟩

/-- Settles O47: the keys in the order of the space, which is ascending, and the hold elsewhere. -/
theorem doneAssemblesThePayload : Obligations.DoneAssemblesThePayload := by
  intro s hl
  refine ⟨fun hwf hp hm hk hn => ?enabled, fun hnot => ?held⟩
  case enabled =>
    exact ⟨s.rb.elems.flatten, s.rb.map Prod.fst, Memory.ofList s.rb.elems.flatten, assemble s,
      List.pairwise_map.mpr hwf, fun _ => Memory.mem_keys_iff,
      congrArg List.flatten (Memory.elems_eq_map_get hwf []), Memory.get_ofList _,
      execRxDone_of_complete hl (receiveComplete_iff.mpr ⟨hp, hm, hk, hn⟩), fitted_of_lt, rfl⟩
  case held =>
    refine execRxDone_of_not_complete hl fun h => ?_
    obtain ⟨hp, hm, hk, hn⟩ := receiveComplete_iff.mp h
    rcases hnot with hp' | hm' | hk' | hn'
    · exact hp' hp
    · exact hm' hm
    · exact Bool.eq_false_iff.mp hk' hk
    · exact hn' hn

/-- Settles O48: the stored copy, the run of magnitudes `LFR` ends, the acknowledgment; then the continuation. -/
theorem dataIsStoredAndAcknowledged : Obligations.DataIsStoredAndAcknowledged := by
  intro s f hl
  refine ⟨fun hp hm hbelow hlen h0 hres hsign => ?entry, fun hp hm hc => execRxData_of_done hl hp hm hc f⟩
  have hpeer : f.seq.toInt.sign = -sgnNode s.cfg.node := by
    rw [hsign]
    cases s.cfg.node <;> rfl
  obtain ⟨hall, hnext⟩ := advance_complete (rb := storeBody (seqMag f.seq) f.body s.rb) fun m h1 h2 =>
    storeBody_isSome (hbelow m h1 h2)
  have hdata := execRxData_of_ok hl hp hm (classify_of_peer h0 hres hpeer hlen) (takeData_of_idle hm f)
  rw [ackFrame_of_peer hpeer] at hdata
  exact ⟨_, hdata, storeBody_get _ _ _, (advance_spec _ _ _).1, hall, hnext, rfl⟩

/-- Settles O49: both are the drop of the frame. -/
theorem echoAndOtherFramesAreDropped : Obligations.EchoAndOtherFramesAreDropped :=
  fun s f => ⟨exec_rxEcho s f, exec_rxOther s f⟩

end

section
/-! The host's commands and the timebase (R32, R33, R208, R231, R256 to R259, R269): what the start of a command leaves
when it is taken, when a command is ignored or rejected, and the status word field by field. -/

namespace Sys2Proof.Machine

variable {s t : State} {payload : List Byte}

/-! ### The start of a command, taken -/

theorem startSender_of_gateOpen (hm : s.modPhase = .idle) (hn : segments s.cfg s.txLen ≤ s.cfg.seqMax)
    (hg : s.gateOpen .arq .fq) : startSender s = .ok
      { s with busy := true, role := .sender, stopReq := false, result := .none, fq := [],
               nTx := segments s.cfg s.txLen, lar := 0, lfs := 0, scan := 0, finCnt := 0, sw := [],
               arqPhase := .txSent0 } :=
  startSender_eq_ok.mpr ⟨hm, .inr ⟨hn, hg, rfl⟩⟩

theorem startSender_of_seqMax_lt (hm : s.modPhase = .idle) (hn : s.cfg.seqMax < segments s.cfg s.txLen) :
    startSender s = .ok { s with result := .rejected } := startSender_eq_ok.mpr ⟨hm, .inl ⟨hn, rfl⟩⟩

theorem startReceiver_of_gateOpen (hm : s.modPhase = .idle) (hg : s.gateOpen .arq .fq) : startReceiver s = .ok
    { s with busy := true, role := .receiver, stopReq := false, result := .none, fq := [], rb := [], lfr := 0,
             nExp := 0, countKnown := false, rxPayload := [], rxPayloadLen := 0, arqPhase := .rxPop } :=
  startReceiver_eq_ok.mpr ⟨hm, hg, rfl⟩

/-! ### `H.TRANSMIT` and `TX.START` -/

theorem execHTransmit_of_busy (hb : s.busy = true) (payload : List Byte) : execHTransmit payload s = .next s := by
  rw [execHTransmit, if_pos hb, settle_ok]

theorem execHTransmit_of_payloadMax_lt (hb : s.busy = false) (hp : s.cfg.payloadMax < payload.length) :
    execHTransmit payload s = .next { s with result := .rejected } := by
  rw [execHTransmit, if_neg (Bool.eq_false_iff.mp hb), if_pos hp, settle_ok]

/-- A payload of at most `PAYLOAD_MAX` bytes fits the 32 bits of `TX_LEN` (R9, R10, R22). -/
theorem fitted_of_le_payloadMax {c : Config} {n : Nat} (hmax : c.maxBody ≤ 65535) (hn : n ≤ c.payloadMax) :
    fitted 32 n = n := by
  rw [Config.payloadMax, seqMax_eq] at hn
  exact fitted_of_lt (by omega)

/-- Within `PAYLOAD_MAX` the payload is stored, and the start is that of the sender on it. -/
theorem execHTransmit_of_startSender (hb : s.busy = false) (hmax : s.cfg.maxBody ≤ 65535)
    (hp : payload.length ≤ s.cfg.payloadMax)
    (hs : startSender { s with txPayload := Memory.ofList payload, txLen := payload.length } = .ok t) :
    execHTransmit payload s = .next t := by
  rw [execHTransmit, if_neg (Bool.eq_false_iff.mp hb), if_neg (Nat.not_lt.mpr hp), fitted_of_le_payloadMax hmax hp, hs,
    settle_ok]

theorem execTxStart_of_startSender (hb : s.busy = false) (hl : s.holdsAny .arq = false) (hs : startSender s = .ok t) :
    execTxStart s = .next t := settle_arqStep_of_ok hl ((if_neg (Bool.eq_false_iff.mp hb)).trans hs)

/-! ### `H.RECEIVE` and `RX.START` -/

theorem execHReceive_of_busy (hb : s.busy = true) : execHReceive s = .next s := by
  rw [execHReceive, if_pos hb, settle_ok]

theorem execHReceive_of_startReceiver (hb : s.busy = false) (hs : startReceiver s = .ok t) :
    execHReceive s = .next t := by
  rw [execHReceive, if_neg (Bool.eq_false_iff.mp hb), hs, settle_ok]

theorem execRxStart_of_startReceiver (hb : s.busy = false) (hl : s.holdsAny .arq = false)
    (hs : startReceiver s = .ok t) : execRxStart s = .next t :=
  settle_arqStep_of_ok hl ((if_neg (Bool.eq_false_iff.mp hb)).trans hs)

/-! ### `H.STOP` -/

theorem execHStop_of_busy (hb : s.busy = true) : execHStop s = .next { s with stopReq := true } :=
  congrArg Host.Outcome.next (if_pos hb)

theorem execHStop_of_not_busy (hb : s.busy = false) : execHStop s = .next s :=
  congrArg Host.Outcome.next (if_neg (Bool.eq_false_iff.mp hb))

/-! ### The status word -/

/-- `STATUS` as its flags put behind `RESULT` one after the other, `BUSY` last, that is lowest (R32). -/
theorem statusWord_eq_concat (s : State) : statusWord s =
    ((((((s.result.code.concat s.fqOvf).concat s.inOvf).concat s.stopReq).concat s.quiet).concat s.role.bit).concat
      s.busy).setWidth 32 := rfl

/-- Below bit 6 stand the flags (R32). -/
theorem statusWord_getLsbD_flag (s : State) (i : Fin 6) : (statusWord s).getLsbD i =
    [s.busy, s.role.bit, s.quiet, s.stopReq, s.inOvf, s.fqOvf][i] := by
  rw [statusWord_eq_concat, BitVec.getLsbD_setWidth]
  fin_cases i <;> simp

/-- The status word as a number: its flags with their weights, and `RESULT` above them. -/
theorem toNat_statusWord (s : State) : (statusWord s).toNat =
    64 * s.result.code.toNat + (32 * s.fqOvf.toNat + 16 * s.inOvf.toNat + 8 * s.stopReq.toNat + 4 * s.quiet.toNat +
      2 * s.role.bit.toNat + s.busy.toNat) := by
  rw [statusWord_eq_concat, BitVec.toNat_setWidth_of_le (by decide)]
  simp only [BitVec.toNat_concat]
  omega

/-- From bit 6 on stands the code of `RESULT` (R33), and nothing above it. -/
theorem toNat_statusWord_ushiftRight (s : State) : (statusWord s >>> 6).toNat = s.result.code.toNat := by
  have hfq := Bool.toNat_le s.fqOvf
  have hin := Bool.toNat_le s.inOvf
  have hstop := Bool.toNat_le s.stopReq
  have hquiet := Bool.toNat_le s.quiet
  have hrole := Bool.toNat_le s.role.bit
  have hbusy := Bool.toNat_le s.busy
  rw [BitVec.toNat_ushiftRight, toNat_statusWord, Nat.shiftRight_eq_div_pow]
  omega

/-- `ROLE`'s bit says that the role is the receiver's (R31). -/
theorem Role.bit_eq_beq (r : Role) : r.bit = (r == .receiver) := by cases r <;> rfl

end Sys2Proof.Machine

open Sys2Proof Sys2Proof.Machine

/-- Settles O2, by `BUSY` and the length tests; within `PAYLOAD_MAX` the sender's own length test passes. -/
theorem transmitStoresThePayloadAndStartsTheSender : Obligations.TransmitStoresThePayloadAndStartsTheSender := by
  intro s hmin hmax
  refine ⟨fun payload => ⟨fun hb => ?ignored, fun hb hp => ?tooLong, fun hb hp hm hg => ?started⟩,
    fun hb hm hl hn => ?tooManyFrames, fun hb hm hg hn => ?startedAlone⟩
  case ignored => exact execHTransmit_of_busy hb payload
  case tooLong => exact execHTransmit_of_payloadMax_lt hb hp
  case started =>
    have hn : segments s.cfg payload.length ≤ s.cfg.seqMax :=
      fitted_of_le_payloadMax hmax hp ▸ segments_le_seqMax hmin hmax hp
    exact ⟨Memory.ofList payload, Memory.get_ofList payload, execHTransmit_of_startSender hb hmax hp
      (startSender_of_gateOpen (s := { s with txPayload := Memory.ofList payload, txLen := payload.length }) hm hn hg)⟩
  case tooManyFrames => exact execTxStart_of_startSender hb hl (startSender_of_seqMax_lt hm hn)
  case startedAlone => exact execTxStart_of_startSender hb hg.2 (startSender_of_gateOpen hm hn hg)

/-- Settles O3: both commands take the one start of the receiver, and its `RX_PAYLOAD` is the witness. -/
theorem receiveStartsTheReceiver : Obligations.ReceiveStartsTheReceiver := by
  intro s
  refine ⟨execHReceive_of_busy, fun hb hm hg i hi => ⟨[], ?_⟩⟩
  have hstart := startReceiver_of_gateOpen hm hg
  obtain rfl | rfl : i = .hReceive ∨ i = .rxStart := by simpa using hi
  · exact execHReceive_of_startReceiver hb hstart
  · exact execRxStart_of_startReceiver hb hg.2 hstart

/-- Settles O4: the flags by position, and `RESULT` by its code. -/
theorem statusWordHoldsTheFlags : Obligations.StatusWordHoldsTheFlags := by
  intro s
  have hflag := statusWord_getLsbD_flag s
  refine ⟨statusWord s, rfl, hflag 0, (hflag 1).trans (Role.bit_eq_beq s.role), hflag 2, hflag 3, hflag 4, hflag 5, ?_⟩
  rw [toNat_statusWord_ushiftRight]
  cases s.result <;> rfl

/-- Settles O5, by `BUSY`; the tick is addition in 32 bits. -/
theorem stopRequestsAndTicks : Obligations.StopRequestsAndTicks := fun s =>
  ⟨execHStop_of_busy, execHStop_of_not_busy, s.now + 1#32, rfl, BitVec.toNat_add s.now 1#32⟩

end
